-- ==== Sys2Proof/Word.lean ====
section
/-! DEFINITION. Word.lean: the word types of the Q480 model (bytes, 16-bit values, grey levels). -/

namespace Sys2Proof

/-- One byte of a transaction, of pattern memory or of the waveform RAM. -/
abbrev Byte := BitVec 8

/-- A 16-bit value: a parameter, a coordinate as sent, a journal detail (R38, R153). -/
abbrev Word := BitVec 16

/-- A grey level, 0 (darkest) to 3 (lightest); also the width of a drive code (R42, R81). -/
abbrev Level := BitVec 2

end Sys2Proof
end

