-- ==== Sys2Proof/Syntax.lean ====
section
/-! DEFINITION. Syntax.lean: the commands of the Q480, one constructor per row of spec/opcode_table.json, and the types
of their operands. -/

namespace Sys2Proof

/-- The two inputs of a temperature sample, as they stand at the moment of the sample (R136).
A reading is in thousandths of a degree Celsius (DESIGN CHOICE, log entry 6). -/
structure SensorInput where
  /-- the internal sensor's reading -/
  internal : Int
  /-- the thermistor's reading on TSENSE; none when TSENSE shows an open or shorted thermistor -/
  external : Option Int
  deriving DecidableEq, Repr, Inhabited

/-- Why an ACTIVE job is aborted (R110). -/
inductive AbortCause where
  | host
  | fault
  | reset
  deriving DecidableEq, Repr

/-- The step that a PIN reset cuts short, for the steps that leave something behind (R29, R61, R74, R84, R133).
`done` counts the single writes the step had made, in the order its owning rule gives. -/
inductive CutStep where
  /-- no step in progress, or one that leaves nothing (R176) -/
  | nothing
  | writePixels (data : List Byte) (done : Nat)
  | fillWindow (level : Byte) (done : Nat)
  | placeTile (slot : Byte) (x y : Word) (op key : Byte) (done : Nat)
  | loadTileData (slot : Byte) (offset : Word) (data : List Byte) (done : Nat)
  | loadWaveformData (offset : Word) (data : List Byte) (done : Nat)
  | frameBoundary (done : Nat)
  deriving DecidableEq, Repr

/-- What reaches the port while a step is in progress (R15): a transaction whose CS# rises (R2), or the header of a Fetch,
whose CS# rises in the step too after so many read-out bytes, or, with none, only after the step (R17, R18). -/
inductive Arrival where
  | transaction (bytes : List Byte) (stray : Bool)
  | fetch (addr len check : Byte) (readout : Option Nat)
  deriving DecidableEq, Repr

/-- What besides its complete bytes is known of a transaction at its rising edge of CS#: whether bits of a further byte
came, and whether CS# had fallen before the most recent reset completed (R2). -/
structure CsEdge where
  stray : Bool
  overReset : Bool
  deriving DecidableEq, Repr

/-- An operand of a command, with what reaches the port while the command's step runs (R15). -/
structure Amid (α : Type) where
  operand : α
  arrived : List Arrival
  deriving DecidableEq, Repr

/-- What happens at the link while an Enter Hibernate step runs: what reaches the port (R15, R167), and how many complete
read-out bytes a Fetch in flight has clocked when the step ends (R22, R25). -/
structure Meanwhile where
  arrived : List Arrival
  clocked : Nat
  deriving DecidableEq, Repr

/-- An accepted transaction as the intake stores it: its opcode and payload (R12; the length L is the payload's). -/
structure Entry where
  opcode : Byte
  payload : List Byte
  deriving DecidableEq, Repr

/-- The commands: one constructor per row of spec/opcode_table.json, in the table's order. -/
inductive Instr where
  /-- TRANSACTION: the complete bytes received between the edges of CS#, and what its rising edge shows (R2) -/
  | transaction (bytes : List Byte) (edge : CsEdge)
  /-- FETCH: address byte, length byte, check byte (used when CHK = 1), and the number of complete read-out bytes the
  host clocks before it raises CS#; none when CS# stays low and a later TRANSACTION ends the Fetch (R17, R21) -/
  | fetch (addr len check : Byte) (readout : Option Nat)
  | nop
  | guard (key : Byte)
  | softReset
  | setParameter (number : Byte) (value : Word)
  | getParameter (number : Amid Byte)
  | acknowledgeEvents (mask : Amid Word)
  | readJournal (count : Byte)
  | clearJournal
  | setGeometry (width height : Word)
  | setWindow (xs ys xe ye : Word)
  | setCursor (x y : Word)
  | setScan (code : Byte)
  | setPixelOp (op key : Byte)
  | writePixels (data : List Byte)
  | readPixels (plane count : Byte)
  | fillWindow (level : Byte)
  | readUncertainMap
  | markUncertain (xs ys xe ye : Word)
  | defineTile (slot width height : Byte) (base : Word)
  | loadTileData (slot : Byte) (offset : Word) (data : List Byte)
  | placeTile (slot : Byte) (x y : Word) (op key : Byte)
  | releaseTile (slot : Byte)
  | loadWaveformData (offset : Word) (data : List Byte)
  | sealWaveform
  | unsealWaveform
  | submitJob (xs ys xe ye : Word) (mode options : Byte)
  | cancelJob (ticket : Byte)
  | abortJob (ticket : Byte)
  | flushQueue
  | startScheduler
  | haltScheduler
  | clearHold
  | queryJob (ticket : Byte)
  | railsOn
  | railsOff
  | sampleTemperature (sensed : SensorInput)
  | armWatchdog (period : Word) (action : Byte)
  | feedWatchdog
  | disarmWatchdog
  | enterHibernate (meanwhile : Meanwhile)
  | railGood
  | railLost
  | overcurrent
  | drainDone
  | tick (sensed : SensorInput)
  | powerRequestRamp
  | rampTimeout
  | railHoldExpiry
  | drainSlow
  | periodicSample (sensed : SensorInput)
  | wakeTimerExpiry
  | watchdogExpiry
  | wakeEdge
  | oscillatorStable
  | woke
  | frameBoundary
  | phaseAdvance (lane : Fin 4)
  | completed (lane : Fin 4)
  | aborted (lane : Fin 4) (cause : AbortCause)
  | quiesceToHalted
  | parkingToHolding
  | activated
  | por
  /-- PIN_RESET, with the step it cuts short -/
  | pinReset (cut : CutStep)
  /-- RESET_DONE, with the level of RESET# (true: high) and the value on ADDR2..ADDR0 -/
  | resetDone (resetHigh : Bool) (straps : BitVec 3)
  deriving DecidableEq, Repr

end Sys2Proof
end

