-- ==== Sys2Proof/WellFormed.lean ====
section
/-! DEFINITION. WellFormed.lean: which commands the part can meet. The link guarantees a payload length the opcode allows
(R8, R30); every other operand is limited by its type. -/

namespace Sys2Proof

/-- A payload's data bytes are between `lo` and `hi` (Table 2-4). -/
def dataLengthOk (lo hi : Nat) (data : List Byte) : Bool :=
  decide (lo ≤ data.length) && decide (data.length ≤ hi)

/-- The step a PIN reset cuts is one the executor can meet. -/
def CutStep.wf : CutStep → Bool
  | .writePixels data _ => dataLengthOk 1 250 data
  | .loadTileData _ _ data _ => dataLengthOk 1 247 data
  | .loadWaveformData _ data _ => dataLengthOk 1 247 data
  | .nothing => true
  | .fillWindow _ _ => true
  | .placeTile _ _ _ _ _ _ => true
  | .frameBoundary _ => true

/-- The command is one the part can meet: Write Pixels carries 1..250 bytes (R56), Load Tile Data 1..247 data bytes
(R68), Load Waveform Data 1..247 data bytes (R83); a transaction that names a Fetch by its second byte, and every other
byte sequence, is judged by the port itself (R6). -/
def Instr.wf : Instr → Bool
  | .writePixels data => dataLengthOk 1 250 data
  | .loadTileData _ _ data => dataLengthOk 1 247 data
  | .loadWaveformData _ data => dataLengthOk 1 247 data
  | .pinReset cut => cut.wf
  | .transaction _ _ | .fetch _ _ _ _ | .nop | .guard _ | .softReset | .setParameter _ _ | .getParameter _
  | .acknowledgeEvents _ | .readJournal _ | .clearJournal | .setGeometry _ _ | .setWindow _ _ _ _ | .setCursor _ _
  | .setScan _ | .setPixelOp _ _ | .readPixels _ _ | .fillWindow _ | .readUncertainMap | .markUncertain _ _ _ _
  | .defineTile _ _ _ _ | .placeTile _ _ _ _ _ | .releaseTile _ | .sealWaveform | .unsealWaveform
  | .submitJob _ _ _ _ _ _ | .cancelJob _ | .abortJob _ | .flushQueue | .startScheduler | .haltScheduler | .clearHold
  | .queryJob _ | .railsOn | .railsOff | .sampleTemperature _ | .armWatchdog _ _ | .feedWatchdog | .disarmWatchdog
  | .enterHibernate _ | .railGood | .railLost | .overcurrent | .drainDone | .tick _ | .powerRequestRamp | .rampTimeout
  | .railHoldExpiry | .drainSlow | .periodicSample _ | .wakeTimerExpiry | .watchdogExpiry | .wakeEdge
  | .oscillatorStable | .woke | .frameBoundary | .phaseAdvance _ | .completed _ | .aborted _ _ | .quiesceToHalted
  | .parkingToHolding | .activated | .por | .resetDone _ _ => true

end Sys2Proof
end

