-- ==== Sys2Proof/Decode.lean ====
section
/-! DEFINITION. Decode.lean: the byte order of a payload, Table 2-4 (opcodes, allowed lengths, queries), the decoding of an
intake entry into its command (R30), the entry of a command, and `decodeTableWord`. -/

namespace Sys2Proof

/-- The high byte of a 16-bit field, sent first (R1). -/
def hiByte (w : Word) : Byte := w.extractLsb' 8 8

/-- The low byte of a 16-bit field, sent second (R1). -/
def loByte (w : Word) : Byte := w.extractLsb' 0 8

/-- The 16-bit field whose high byte is sent first (R1). -/
def joinBytes (hi lo : Byte) : Word := hi ++ lo

/-- A 16-bit field as it stands in a payload (R1). -/
def wordBytes (w : Word) : List Byte := [hiByte w, loByte w]

/-- The payload lengths Table 2-4 allows an opcode, smallest and largest; none for an unknown opcode (R8, R10). -/
def payloadLengths (opcode : Byte) : Option (Nat × Nat) :=
  match opcode.toNat with
  | 0x00 => some (0, 0)
  | 0x01 => some (0, 0)
  | 0x02 => some (1, 1)
  | 0x03 => some (0, 0)
  | 0x04 => some (3, 3)
  | 0x05 => some (1, 1)
  | 0x06 => some (2, 2)
  | 0x07 => some (1, 1)
  | 0x08 => some (0, 0)
  | 0x10 => some (4, 4)
  | 0x11 => some (8, 8)
  | 0x12 => some (4, 4)
  | 0x13 => some (1, 1)
  | 0x14 => some (2, 2)
  | 0x15 => some (1, 250)
  | 0x16 => some (2, 2)
  | 0x17 => some (1, 1)
  | 0x18 => some (0, 0)
  | 0x19 => some (8, 8)
  | 0x20 => some (5, 5)
  | 0x21 => some (4, 250)
  | 0x22 => some (7, 7)
  | 0x23 => some (1, 1)
  | 0x28 => some (3, 249)
  | 0x29 => some (0, 0)
  | 0x2A => some (0, 0)
  | 0x30 => some (10, 10)
  | 0x31 => some (1, 1)
  | 0x32 => some (1, 1)
  | 0x33 => some (0, 0)
  | 0x34 => some (0, 0)
  | 0x35 => some (0, 0)
  | 0x36 => some (0, 0)
  | 0x37 => some (1, 1)
  | 0x3A => some (0, 0)
  | 0x3B => some (0, 0)
  | 0x3C => some (0, 0)
  | 0x40 => some (3, 3)
  | 0x41 => some (0, 0)
  | 0x42 => some (0, 0)
  | 0x43 => some (0, 0)
  | _ => none

/-- The opcode is one of Table 2-4 (R10). -/
def knownOpcode (opcode : Byte) : Bool := (payloadLengths opcode).isSome

/-- The length L is one the opcode allows (R8). -/
def allowedLength (opcode : Byte) (len : Nat) : Bool :=
  match payloadLengths opcode with
  | some (lo, hi) => decide (lo ≤ len) && decide (len ≤ hi)
  | none => false

/-- The opcode of Fetch (R17). -/
def fetchOpcode : Byte := 0x00#8

/-- The seven queries: Get Parameter, Read Journal, Read Pixels, Read Uncertain Map, Seal Waveform, Submit Job and
Query Job (R34). -/
def isQuery (opcode : Byte) : Bool :=
  [0x05#8, 0x07#8, 0x16#8, 0x18#8, 0x29#8, 0x30#8, 0x37#8].contains opcode

/-- The command an intake entry spells (R30); none for an opcode or a payload length the link never lets through.
`sensed` is what the sensors read if the command is Sample Temperature. -/
def decodeEntry (sensed : SensorInput) (e : Entry) : Option Instr :=
  match e.opcode.toNat, e.payload with
  | 0x01, [] => some .nop
  | 0x02, [k] => some (.guard k)
  | 0x03, [] => some .softReset
  | 0x04, [n, vh, vl] => some (.setParameter n (joinBytes vh vl))
  | 0x05, [n] => some (.getParameter ⟨n, []⟩)
  | 0x06, [mh, ml] => some (.acknowledgeEvents ⟨joinBytes mh ml, []⟩)
  | 0x07, [n] => some (.readJournal n)
  | 0x08, [] => some .clearJournal
  | 0x10, [wh, wl, hh, hl] => some (.setGeometry (joinBytes wh wl) (joinBytes hh hl))
  | 0x11, [a, b, c, d, e, f, g, h] =>
    some (.setWindow (joinBytes a b) (joinBytes c d) (joinBytes e f) (joinBytes g h))
  | 0x12, [a, b, c, d] => some (.setCursor (joinBytes a b) (joinBytes c d))
  | 0x13, [c] => some (.setScan c)
  | 0x14, [o, k] => some (.setPixelOp o k)
  | 0x15, data => some (.writePixels data)
  | 0x16, [p, n] => some (.readPixels p n)
  | 0x17, [l] => some (.fillWindow l)
  | 0x18, [] => some .readUncertainMap
  | 0x19, [a, b, c, d, e, f, g, h] =>
    some (.markUncertain (joinBytes a b) (joinBytes c d) (joinBytes e f) (joinBytes g h))
  | 0x20, [s, w, h, bh, bl] => some (.defineTile s w h (joinBytes bh bl))
  | 0x21, s :: oh :: ol :: data => some (.loadTileData s (joinBytes oh ol) data)
  | 0x22, [s, xh, xl, yh, yl, o, k] => some (.placeTile s (joinBytes xh xl) (joinBytes yh yl) o k)
  | 0x23, [s] => some (.releaseTile s)
  | 0x28, oh :: ol :: data => some (.loadWaveformData (joinBytes oh ol) data)
  | 0x29, [] => some .sealWaveform
  | 0x2A, [] => some .unsealWaveform
  | 0x30, [a, b, c, d, e, f, g, h, m, o] =>
    some (.submitJob (joinBytes a b) (joinBytes c d) (joinBytes e f) (joinBytes g h) m o)
  | 0x31, [t] => some (.cancelJob t)
  | 0x32, [t] => some (.abortJob t)
  | 0x33, [] => some .flushQueue
  | 0x34, [] => some .startScheduler
  | 0x35, [] => some .haltScheduler
  | 0x36, [] => some .clearHold
  | 0x37, [t] => some (.queryJob t)
  | 0x3A, [] => some .railsOn
  | 0x3B, [] => some .railsOff
  | 0x3C, [] => some (.sampleTemperature sensed)
  | 0x40, [ph, pl, a] => some (.armWatchdog (joinBytes ph pl) a)
  | 0x41, [] => some .feedWatchdog
  | 0x42, [] => some .disarmWatchdog
  | 0x43, [] => some (.enterHibernate ⟨[], 0⟩)
  | _, _ => none

/-- The intake entry of a host command (Table 2-4 and the payload layouts of the owning chapters); none for the rows that
are not commands of the intake. -/
def encodeEntry : Instr → Option Entry
  | .nop => some ⟨0x01#8, []⟩
  | .guard k => some ⟨0x02#8, [k]⟩
  | .softReset => some ⟨0x03#8, []⟩
  | .setParameter n v => some ⟨0x04#8, n :: wordBytes v⟩
  | .getParameter n => some ⟨0x05#8, [n.operand]⟩
  | .acknowledgeEvents m => some ⟨0x06#8, wordBytes m.operand⟩
  | .readJournal n => some ⟨0x07#8, [n]⟩
  | .clearJournal => some ⟨0x08#8, []⟩
  | .setGeometry w h => some ⟨0x10#8, wordBytes w ++ wordBytes h⟩
  | .setWindow xs ys xe ye => some ⟨0x11#8, wordBytes xs ++ wordBytes ys ++ wordBytes xe ++ wordBytes ye⟩
  | .setCursor x y => some ⟨0x12#8, wordBytes x ++ wordBytes y⟩
  | .setScan c => some ⟨0x13#8, [c]⟩
  | .setPixelOp o k => some ⟨0x14#8, [o, k]⟩
  | .writePixels data => some ⟨0x15#8, data⟩
  | .readPixels p n => some ⟨0x16#8, [p, n]⟩
  | .fillWindow l => some ⟨0x17#8, [l]⟩
  | .readUncertainMap => some ⟨0x18#8, []⟩
  | .markUncertain xs ys xe ye => some ⟨0x19#8, wordBytes xs ++ wordBytes ys ++ wordBytes xe ++ wordBytes ye⟩
  | .defineTile s w h b => some ⟨0x20#8, s :: w :: h :: wordBytes b⟩
  | .loadTileData s o data => some ⟨0x21#8, s :: (wordBytes o ++ data)⟩
  | .placeTile s x y o k => some ⟨0x22#8, s :: (wordBytes x ++ wordBytes y ++ [o, k])⟩
  | .releaseTile s => some ⟨0x23#8, [s]⟩
  | .loadWaveformData o data => some ⟨0x28#8, wordBytes o ++ data⟩
  | .sealWaveform => some ⟨0x29#8, []⟩
  | .unsealWaveform => some ⟨0x2A#8, []⟩
  | .submitJob xs ys xe ye m o =>
    some ⟨0x30#8, wordBytes xs ++ wordBytes ys ++ wordBytes xe ++ wordBytes ye ++ [m, o]⟩
  | .cancelJob t => some ⟨0x31#8, [t]⟩
  | .abortJob t => some ⟨0x32#8, [t]⟩
  | .flushQueue => some ⟨0x33#8, []⟩
  | .startScheduler => some ⟨0x34#8, []⟩
  | .haltScheduler => some ⟨0x35#8, []⟩
  | .clearHold => some ⟨0x36#8, []⟩
  | .queryJob t => some ⟨0x37#8, [t]⟩
  | .railsOn => some ⟨0x3A#8, []⟩
  | .railsOff => some ⟨0x3B#8, []⟩
  | .sampleTemperature _ => some ⟨0x3C#8, []⟩
  | .armWatchdog p a => some ⟨0x40#8, wordBytes p ++ [a]⟩
  | .feedWatchdog => some ⟨0x41#8, []⟩
  | .disarmWatchdog => some ⟨0x42#8, []⟩
  | .enterHibernate _ => some ⟨0x43#8, []⟩
  | .transaction _ _ | .fetch _ _ _ _ | .railGood | .railLost | .overcurrent | .drainDone | .tick _
  | .powerRequestRamp | .rampTimeout | .railHoldExpiry | .drainSlow | .periodicSample _ | .wakeTimerExpiry
  | .watchdogExpiry | .wakeEdge | .oscillatorStable | .woke | .frameBoundary | .phaseAdvance _ | .completed _
  | .aborted _ _ | .quiesceToHalted | .parkingToHolding | .activated | .por | .pinReset _ | .resetDone _ _ => none

/-- The opcode of a host command; 00H for the rows that are not commands of the intake. -/
def opcodeOf (c : Instr) : Byte :=
  match encodeEntry c with
  | some e => e.opcode
  | none => fetchOpcode

/-- The command that a word spells by the bits of spec/opcode_table.json: that table gives no row any bits, so no word
spells a command. -/
def decodeTableWord (_nbits _w : Nat) : Option Instr := none

end Sys2Proof
end

