-- ==== Sys2Proof/Config.lean ====
section
/-! DEFINITION. Config.lean: what the part fixes once (sizes, the defaults of Table 2-3, the device number) and the free
value the spec leaves open. -/

namespace Sys2Proof.Config

/-- Columns of each plane (R42). -/
def planeWidth : Nat := 480

/-- Rows of each plane (R42). -/
def planeHeight : Nat := 320

/-- The level every pixel of every plane takes at a POR (R42). -/
def porLevel : Level := 3#2

/-- The value every byte of pattern memory and of the waveform RAM takes at a POR (R63, R75). -/
def porByte : Byte := 0#8

/-- Bytes of pattern memory (R63). -/
def patternSize : Nat := 4096

/-- Bytes of the waveform RAM (R75). -/
def ramSize : Nat := 8192

/-- Entries the intake holds (R13). -/
def intakeSize : Nat := 4

/-- Jobs the queue holds (R96). -/
def queueSize : Nat := 8

/-- Records the journal holds (R153). -/
def journalSize : Nat := 16

/-- DEVICE_ID (R41). -/
def deviceId : Word := 0x3A48#16

/-- The unit address at `State.reset`: the spec leaves it to the straps (R3). DESIGN CHOICE, log entry 8: 2, the address
the spec's worked sequences are strapped to. -/
def resetStraps : BitVec 3 := 2#3

/-- FREE VALUE (R136): the sensor inputs that the n-th step started by the arbiter finds, a tick step or a Sample
Temperature, where no command operand gives them (log entry 7). -/
opaque freeReading : Nat → SensorInput

end Sys2Proof.Config
end

