-- ==== Sys2Proof/Machine/State.lean ====
section
/-! DEFINITION. Machine/State.lean: every piece of state the spec gives the Q480, grouped by the blocks of Table 0-1, the
reasons a step can stop, and the state after reset. -/

namespace Sys2Proof.Machine

/-! ### Codes -/

/-- Link results (Table 1-3). -/
inductive LinkResult where
  | ok | framing | truncated | length | check | policy | overrun | opcode | woke
  deriving DecidableEq, Repr

/-- Command outcomes (Table 2-2). -/
inductive OutcomeCode where
  | ok | badValue | badRect | badCursor | noParam | readOnly | guard | geometryBusy | tileRange | tileInvalid
  | tableSealed | tableBusy | noTable | badMode | queueFull | noSuchJob | jobActive | badState | railsBusy | hibBusy
  | tableInvalid
  deriving DecidableEq, Repr

/-- Event flags, in the order of their bits (Table 9-1). -/
inductive EventFlag where
  | resetDone | jobDone | jobFail | schedIdle | railsReady | railsOff | railFault | tempRange | sensorFault | linkErr
  | windowWrap | tileEvict | journalLost | watchdog | wakeTimer | woke
  deriving DecidableEq, Repr

/-- Journal record codes, in the order of their numbers (Table 9-4). -/
inductive RecordCode where
  | reset | activated | completed | cancelled | aborted | superseded | rejected | railFault | watchdog | woke | tempOut
  | drainSlow
  deriving DecidableEq, Repr

/-- Pixel operations (Table 3-3). -/
inductive PixelOp where
  | replace | keySkip | matchOnly | invert
  deriving DecidableEq, Repr

/-- Scheduler states (Table 6-3). -/
inductive SchedState where
  | halted | running | quiescing | parking | holding
  deriving DecidableEq, Repr

/-- Rail states (R139). -/
inductive RailState where
  | off | ramping | ready | draining | fault
  deriving DecidableEq, Repr

/-- Kinds of rail fault (R139). -/
inductive FaultKind where
  | none | rampTimeout | undervolt | overcurrent
  deriving DecidableEq, Repr

/-- Watchdog actions (R163). -/
inductive WatchdogAction where
  | notify | park | reset
  deriving DecidableEq, Repr

/-- Power states (R159). -/
inductive PowerState where
  | run | hibernate
  deriving DecidableEq, Repr

/-- Kinds of reset (Table 11-1). -/
inductive ResetKind where
  | por | pin | watchdog | soft
  deriving DecidableEq, Repr

/-- Kinds of frame (Table 7-1). -/
inductive FrameKind where
  | driving | idle
  deriving DecidableEq, Repr

/-- Causes of a wake (R169). -/
inductive WakeCause where
  | pin | timer | link
  deriving DecidableEq, Repr

/-! ### Plain data of the blocks -/

/-- A rectangle, both ends included (R1). -/
structure Rect where
  xs : Nat
  ys : Nat
  xe : Nat
  ye : Nat
  deriving DecidableEq, Repr

/-- An addressed memory of `w`-bit cells: (address, value) pairs in one canonical form, addresses strictly rising and no
pair equal to what an unlisted address reads as. `Memory 8` is a list of `Host.Cell`. -/
abbrev Memory (w : Nat) := List (Nat × BitVec w)

/-- One image plane: pixel (x, y) stands at address y·480 + x and an unlisted pixel reads level 3 (R42). -/
abbrev Plane := Memory 2

/-- The response buffer (R20). -/
structure Response where
  seq : Byte
  opcode : Byte
  outcome : Byte
  payload : List Byte
  deriving DecidableEq, Repr

/-- A Fetch whose header has ended and whose CS# is still low (R17, R18, R21, R25). -/
structure OpenFetch where
  /-- 3 bytes, or 4 with a check byte -/
  headerLen : Nat
  /-- the result decided at the end of the header; none when the header ended in Hibernate or in a wake (R25) -/
  decision : Option LinkResult
  /-- the bytes of the snapshot, with the check byte of a checked Fetch (R18) -/
  snapshot : List Byte
  /-- how many complete read-out bytes deliver the response: 5 + n (R21) -/
  wholeLen : Nat
  /-- no query step has ended since the snapshot (R21) -/
  current : Bool
  /-- present once the part has entered Hibernate since the header ended: the bytes that SDO had driven until then (R22,
  R25) -/
  cut : Option (List Byte)
  deriving DecidableEq, Repr

/-- Host Link Port (chapter 1). -/
structure Link where
  unitAddr : BitVec 3
  intake : List Entry
  resp : Response
  respNew : Bool
  lastResult : LinkResult
  linkErrors : Nat
  openFetch : Option OpenFetch
  /-- CS# is low in a transaction whose bytes a reset has made the port forget (R2) -/
  forgotten : Bool
  /-- MODEL: the bytes SDO drove in the last transaction that received a link result (log entry 16) -/
  fetchOut : List Byte
  deriving DecidableEq, Repr

/-- Command Executor (chapter 2). -/
structure Executor where
  guardLatch : Bool
  refused : Bool
  lastOutcome : Word
  deriving DecidableEq, Repr

/-- The stored values of the read/write parameters (Table 2-3). -/
structure Params where
  frameRate : Word
  rampLimit : Word
  drainLimit : Word
  railHold : Word
  sensorSelect : Word
  samplePeriod : Word
  eventEnable : Word
  linkPolicy : Word
  tempOverride : Word
  wakeInterval : Word
  wakeMode : Word
  deriving DecidableEq, Repr

/-- Image Memory (R42, R44). -/
structure Image where
  target : Plane
  latch : Plane
  shown : Plane
  width : Nat
  height : Nat
  deriving DecidableEq, Repr

/-- Window Writer (R47). -/
structure Writer where
  window : Rect
  cx : Nat
  cy : Nat
  scan : BitVec 3
  op : PixelOp
  key : Level
  deriving DecidableEq, Repr

/-- A valid record of the tile directory (Table 4-1). -/
structure Tile where
  width : Nat
  height : Nat
  base : Nat
  deriving DecidableEq, Repr

/-- Tile Store (R63, R64); slot k is the k-th element of `slots`, none when invalid. -/
structure TileStore where
  pattern : List Host.Cell
  slots : List (Option Tile)
  deriving DecidableEq, Repr

/-- The sealed snapshot (R77). -/
structure Snapshot where
  modes : Nat
  bands : Nat
  recovery : Nat
  attrs : List Byte
  bounds : List Int
  deriving DecidableEq, Repr

/-- Waveform Table (R75, R76): SEALED exactly while `table` is present. -/
structure Wave where
  ram : List Host.Cell
  table : Option Snapshot
  deriving DecidableEq, Repr

/-- A job as Submit Job makes it (Table 6-1). -/
structure Job where
  ticket : Byte
  region : Rect
  mode : Nat
  notify : Bool
  coalesce : Bool
  deriving DecidableEq, Repr

/-- A job in a lane: the fields Table 6-1 marks "From activation". -/
structure ActiveJob where
  job : Job
  effMode : Nat
  band : Nat
  upgraded : Bool
  phase : Nat
  remaining : Nat
  total : Nat
  abortPending : Bool
  deriving DecidableEq, Repr

/-- The four lanes (R96). -/
structure Lanes where
  l0 : Option ActiveJob
  l1 : Option ActiveJob
  l2 : Option ActiveJob
  l3 : Option ActiveJob
  deriving DecidableEq, Repr

/-- Scheduler (section 6.1); `marks` holds cell (cx, cy) at index cy·(W/16) + cx, true when uncertain. -/
structure Sched where
  queue : List Job
  lanes : Lanes
  nextTicket : Byte
  state : SchedState
  powerRequest : Bool
  workMark : Bool
  marks : List Bool
  deriving DecidableEq, Repr

/-- Drive Sequencer and panel port (chapter 7). -/
structure Sequencer where
  frameCount : Word
  frame : FrameKind
  /-- the rate the frame in progress runs at (R122) -/
  rateInForce : Word
  /-- the codes the driver ICs apply in this frame, in raster order; empty when no drive is applied (R125, R126) -/
  driveCodes : List Level
  /-- MODEL: how many end-of-drive indications the port has sent (log entry 16) -/
  endOfDrives : Nat
  deriving DecidableEq, Repr

/-- Temperature Monitor (R134); BAND FFH is `none`. -/
structure TempMonitor where
  temperature : Option Int
  band : Option Nat
  sensorFault : Bool
  sampleCount : Nat
  deriving DecidableEq, Repr

/-- Panel Supply (R139); a count that is not running is 0. -/
structure Supply where
  rail : RailState
  rampCount : Nat
  drainCount : Nat
  holdCount : Nat
  faultKind : FaultKind
  faultCount : Nat
  deriving DecidableEq, Repr

/-- A journal record (Table 9-3). -/
structure JournalRecord where
  seq : Byte
  code : RecordCode
  ticket : Byte
  detail : Word
  deriving DecidableEq, Repr

/-- Event Unit and Journal (chapter 9). -/
structure Events where
  flags : Word
  journal : List JournalRecord
  nextSeq : Byte
  lost : Nat
  deriving DecidableEq, Repr

/-- The wake cause set (R169). -/
structure WakeCauses where
  pin : Bool
  timer : Bool
  link : Bool
  deriving DecidableEq, Repr

/-- Timebase, Watchdog and Power Control (chapter 10); a stopped wake count is `none`. -/
structure Timebase where
  wakeCount : Option Nat
  armed : Bool
  period : Nat
  action : WatchdogAction
  count : Nat
  power : PowerState
  oscRunning : Bool
  oscStable : Bool
  wakeEdge : Bool
  causes : WakeCauses
  deriving DecidableEq, Repr

/-- A reset in progress: its kind and how many jobs it discarded (R173, R174). -/
structure Resetting where
  kind : ResetKind
  discarded : Nat
  deriving DecidableEq, Repr

/-- The reset mechanism (chapter 11). -/
structure ResetUnit where
  cause : ResetKind
  inProgress : Option Resetting
  /-- RESET# is high -/
  resetPin : Bool
  deriving DecidableEq, Repr

/-- Reports of the rail monitor (section 8.3), in the order of those presented at one instant (R27). -/
inductive RailReport where
  | overcurrent | railLost | drainDone | railGood
  deriving DecidableEq, Repr

/-- What calls for a step at one instant (R27): the reports the rail monitor presents, a tick, the end of a frame. -/
inductive StepCall where
  | reports (overcurrent railLost drainDone railGood : Bool)
  | tick
  | boundary
  deriving DecidableEq, Repr

/-- The step arbiter (R27, R28): the steps that are pending. A command step is pending while the intake holds an entry. -/
structure Arbiter where
  /-- pending supply steps, in order of arrival -/
  reports : List RailReport
  /-- how many tick steps are pending -/
  ticks : Nat
  /-- a frame boundary step is pending -/
  boundary : Bool
  /-- MODEL: what will call for a step while the next steps run, one list for each step that runs to its end (log
  entry 4) -/
  coming : List (List StepCall)
  deriving DecidableEq, Repr

/-- The whole machine. -/
structure State where
  link : Link
  executor : Executor
  params : Params
  image : Image
  writer : Writer
  tiles : TileStore
  wave : Wave
  sched : Sched
  seq : Sequencer
  temp : TempMonitor
  supply : Supply
  events : Events
  time : Timebase
  resetUnit : ResetUnit
  arbiter : Arbiter
  /-- MODEL: how many free sensor readings have been taken (log entry 7) -/
  freeTaken : Nat
  /-- MODEL: the commands that wait, first in, first out -/
  pending : List Instr
  deriving DecidableEq, Repr

/-! ### Stops -/

/-- Reasons the machine stops with a fault. -/
inductive Fault where
  /-- Raised by FRAME_BOUNDARY, PHASE_ADVANCE and COMPLETED when a lane holds a job while the table is UNSEALED. R76 says
  this never holds at the end of a step, so no run from reset meets it. Safe: the machine stops where the spec gives no
  behaviour (log entry 18). -/
  | activeWithoutTable
  deriving DecidableEq, Repr

/-- Reasons a command has no meaning. -/
inductive Refusal where
  /-- Raised by exec for a command not modelled yet. Safe. -/
  | notModelled (mnemonic : String)
  /-- Raised by WRITE_PIXELS, LOAD_TILE_DATA and LOAD_WAVEFORM_DATA with a payload length that the link never lets
  through (R8): "the executor never meets … a wrong length" (R30). Safe (log entry 19). -/
  | payloadLength
  deriving DecidableEq, Repr

/-! ### Reset values -/

namespace State

/-- Table 2-3's defaults. -/
def resetParams : Params where
  frameRate := 50#16
  rampLimit := 16#16
  drainLimit := 32#16
  railHold := 64#16
  sensorSelect := 0#16
  samplePeriod := 32#16
  eventEnable := 0x0001#16
  linkPolicy := 0x0000#16
  tempOverride := 0x0000#16
  wakeInterval := 32#16
  wakeMode := 0x0000#16

/-- The machine right after a POR has completed (Table 11-2, R173): power applied, RESET_DONE posted, no command sent.
The unit address and the settings of a disarmed watchdog are the model's choice (log entries 8 and 9). -/
def reset : State where
  link :=
    { unitAddr := Config.resetStraps
      intake := []
      resp := ⟨0#8, 0#8, 0#8, []⟩
      respNew := false
      lastResult := .ok
      linkErrors := 0
      openFetch := none
      forgotten := false
      fetchOut := [] }
  executor := { guardLatch := false, refused := false, lastOutcome := 0#16 }
  params := resetParams
  image := { target := [], latch := [], shown := [], width := 480, height := 320 }
  writer := { window := ⟨0, 0, 479, 319⟩, cx := 0, cy := 0, scan := 0#3, op := .replace, key := 0#2 }
  tiles := { pattern := [], slots := List.replicate 16 none }
  wave := { ram := [], table := none }
  sched :=
    { queue := []
      lanes := ⟨none, none, none, none⟩
      nextTicket := 1#8
      state := .halted
      powerRequest := false
      workMark := false
      marks := List.replicate 600 true }
  seq := { frameCount := 0#16, frame := .idle, rateInForce := 50#16, driveCodes := [], endOfDrives := 0 }
  temp := { temperature := none, band := none, sensorFault := false, sampleCount := 0 }
  supply := { rail := .off, rampCount := 0, drainCount := 0, holdCount := 0, faultKind := .none, faultCount := 0 }
  events := { flags := 0x0001#16, journal := [⟨0#8, .reset, 0#8, 0x0100#16⟩], nextSeq := 1#8, lost := 0 }
  time :=
    { wakeCount := none
      armed := false
      period := 0
      action := .notify
      count := 0
      power := .run
      oscRunning := true
      oscStable := true
      wakeEdge := false
      causes := ⟨false, false, false⟩ }
  resetUnit := { cause := .por, inProgress := none, resetPin := true }
  arbiter := { reports := [], ticks := 0, boundary := false, coming := [] }
  freeTaken := 0
  pending := []

end State

end Sys2Proof.Machine
end

