-- ==== Sys2Proof/Machine/Ops.lean ====
section
/-! DEFINITION. Machine/Ops.lean: the operations over memories and bits that every block shares: addressed memories in their
canonical form, pixel packing, the two CRCs, saturating counts, lists indexed from 0. -/

namespace Sys2Proof.Machine

/-! ### Addressed memories -/

/-- What address `a` holds; `d` is what an unlisted address reads as. -/
def Memory.read {w : Nat} (d : BitVec w) : Memory w → Nat → BitVec w
  | [], _ => d
  | (b, v) :: m, a => if a = b then v else Memory.read d m a

/-- The memory with `v` at address `a`. Writing what an unlisted address reads as removes the pair, so that equal
memories are equal lists. -/
def Memory.write {w : Nat} (d : BitVec w) : Memory w → Nat → BitVec w → Memory w
  | [], a, v => if v = d then [] else [(a, v)]
  | (b, u) :: m, a, v =>
    if a < b then (if v = d then (b, u) :: m else (a, v) :: (b, u) :: m)
    else if a = b then (if v = d then m else (a, v) :: m)
    else (b, u) :: Memory.write d m a v

/-- The canonical form: addresses strictly rising, no pair equal to what an unlisted address reads as. -/
def Memory.wf {w : Nat} (d : BitVec w) : Memory w → Bool
  | [] => true
  | (a, v) :: m => decide (v ≠ d) && m.all (fun p => decide (a < p.1)) && Memory.wf d m

/-- The memory after writing `data`, in order, from address `a` on (R69, R84). -/
def Memory.writeRun {w : Nat} (d : BitVec w) (m : Memory w) (a : Nat) : List (BitVec w) → Memory w
  | [] => m
  | v :: vs => Memory.writeRun d (Memory.write d m a v) (a + 1) vs

/-- Byte `a` of pattern memory or of the waveform RAM; an unlisted byte is 00H (R63, R75). -/
def byteAt (m : List Host.Cell) (a : Nat) : Byte := Memory.read Config.porByte m a

/-- The address of pixel (x, y) in a plane (R42). -/
def pixelAddr (x y : Nat) : Nat := y * Config.planeWidth + x

/-- The level of pixel (x, y); an unlisted pixel is at level 3 (R42). -/
def Plane.get (p : Plane) (x y : Nat) : Level := Memory.read Config.porLevel p (pixelAddr x y)

/-- The plane with level `v` at pixel (x, y). -/
def Plane.set (p : Plane) (x y : Nat) (v : Level) : Plane := Memory.write Config.porLevel p (pixelAddr x y) v

/-- The plane after each listed pixel, in order, takes the level `f` gives it. -/
def Plane.paint (f : Nat → Nat → Level) (p : Plane) : List (Nat × Nat) → Plane
  | [] => p
  | (x, y) :: rest => Plane.paint f (Plane.set p x y (f x y)) rest

/-! ### Pixel packing -/

/-- The 2-bit field of a byte for position `k` in stream order: 0 is bits 7:6, 3 is bits 1:0 (R56, R65, R81). -/
def fieldOf (b : Byte) (k : Nat) : Level := b.extractLsb' (6 - 2 * k) 2

/-- The four levels of a byte in stream order (R56). -/
def unpackByte (b : Byte) : List Level := [fieldOf b 0, fieldOf b 1, fieldOf b 2, fieldOf b 3]

/-- The levels of a payload in stream order (R56). -/
def unpack : List Byte → List Level
  | [] => []
  | b :: bs => unpackByte b ++ unpack bs

/-- The byte that carries four levels, the first in bits 7:6 (R58). -/
def packByte (a b c d : Level) : Byte := a ++ b ++ c ++ d

/-- Levels packed four to a byte (R58); a count that is no multiple of four drops the rest. -/
def pack : List Level → List Byte
  | a :: b :: c :: d :: rest => packByte a b c d :: pack rest
  | _ => []

/-! ### CRC -/

/-- One shift of a CRC register: left once, exclusive-ORed with the polynomial when a 1 is shifted out (R5, R82). -/
def crcShift {w : Nat} (poly r : BitVec w) : BitVec w := if r.msb then (r <<< 1) ^^^ poly else r <<< 1

/-- The eight shifts of one byte (R5, R82). -/
def crcShift8 {w : Nat} (poly r : BitVec w) : BitVec w :=
  crcShift poly (crcShift poly (crcShift poly (crcShift poly
    (crcShift poly (crcShift poly (crcShift poly (crcShift poly r)))))))

/-- The CRC-8 register after the bytes, polynomial 07H (R5). -/
def crc8From (r : Byte) : List Byte → Byte
  | [] => r
  | b :: bs => crc8From (crcShift8 0x07#8 (r ^^^ b)) bs

/-- The CRC-8 of the link: the register starts at 00H (R5). -/
def crc8 (bytes : List Byte) : Byte := crc8From 0x00#8 bytes

/-- The CRC-16 register after the bytes, polynomial 1021H, each byte entering the upper eight bits (R82). -/
def crc16From (r : Word) : List Byte → Word
  | [] => r
  | b :: bs => crc16From (crcShift8 0x1021#16 (r ^^^ (b ++ 0x00#8))) bs

/-- The CRC-16 of the table image: the register starts at FFFFH (R82). -/
def crc16 (bytes : List Byte) : Word := crc16From 0xFFFF#16 bytes

/-! ### Counts, bytes, lists -/

/-- One more, unless it already stands at 255 (R23, R144, R155). -/
def satInc (n : Nat) : Nat := if n < 255 then n + 1 else n

/-- A byte that carries a small number. -/
def byteOf (n : Nat) : Byte := BitVec.ofNat 8 n

/-- A 16-bit value that carries a number. -/
def wordOf (n : Nat) : Word := BitVec.ofNat 16 n

/-- A signed value as a byte in two's complement (R1). -/
def signedByte (t : Int) : Byte := BitVec.ofInt 8 t

/-- The list with `f k x` for each element x at index `k`, the first at index `k`. -/
def mapFrom {α β : Type} (f : Nat → α → β) (k : Nat) : List α → List β
  | [] => []
  | x :: xs => f k x :: mapFrom f (k + 1) xs

/-- How many elements are true. -/
def countTrue : List Bool → Nat
  | [] => 0
  | b :: bs => (if b then 1 else 0) + countTrue bs

/-- Eight marks in a byte, the first in the most significant bit, missing ones 0 (R118). -/
def markByte (bs : List Bool) : Byte :=
  byteOf ((if bs.getD 0 false then 128 else 0) + (if bs.getD 1 false then 64 else 0)
    + (if bs.getD 2 false then 32 else 0) + (if bs.getD 3 false then 16 else 0)
    + (if bs.getD 4 false then 8 else 0) + (if bs.getD 5 false then 4 else 0)
    + (if bs.getD 6 false then 2 else 0) + (if bs.getD 7 false then 1 else 0))

/-- `n` bytes of marks, taken eight at a time (R118). -/
def markBytes : Nat → List Bool → List Byte
  | 0, _ => []
  | n + 1, bs => markByte (bs.take 8) :: markBytes n (bs.drop 8)

end Sys2Proof.Machine
end

