-- ==== Sys2Proof/Machine/Operands.lean ====
section
/-! DEFINITION. Machine/Operands.lean: what the payload fields of a command mean: rectangles, cells and windows (R1, R44,
R48), pixel operations (R51), option bits (R97), and the values Table 2-3 allows a parameter (R39). -/

namespace Sys2Proof.Machine

/-! ### Rectangles and cells -/

/-- The rectangle of four 16-bit coordinates. -/
def rectOf (xs ys xe ye : Word) : Rect := ⟨xs.toNat, ys.toNat, xe.toNat, ye.toNat⟩

/-- Valid for an active area of `w` columns and `h` rows: xs ≤ xe < W and ys ≤ ye < H (R52, R97). -/
abbrev Rect.Valid (r : Rect) (w h : Nat) : Prop := r.xs ≤ r.xe ∧ r.xe < w ∧ r.ys ≤ r.ye ∧ r.ye < h

/-- The rectangle holds pixel (x, y) (R1). -/
abbrev Rect.Holds (r : Rect) (x y : Nat) : Prop := r.xs ≤ x ∧ x ≤ r.xe ∧ r.ys ≤ y ∧ y ≤ r.ye

/-- Two rectangles share at least one pixel (R1): the columns and the rows they have in common are not empty. -/
def Rect.overlaps (a b : Rect) : Bool :=
  decide (max a.xs b.xs ≤ min a.xe b.xe) && decide (max a.ys b.ys ≤ min a.ye b.ye)

/-- Cell (cx, cy): 16 × 16 pixels (R1). -/
def cellRect (cx cy : Nat) : Rect := ⟨16 * cx, 16 * cy, 16 * cx + 15, 16 * cy + 15⟩

/-- The rectangle holds at least one pixel of the cell (R1). -/
def Rect.touches (r : Rect) (cx cy : Nat) : Bool := r.overlaps (cellRect cx cy)

/-- The rectangle holds all 256 pixels of the cell (R1). -/
def Rect.covers (r : Rect) (cx cy : Nat) : Bool :=
  decide (r.xs ≤ 16 * cx) && decide (16 * cx + 15 ≤ r.xe) && decide (r.ys ≤ 16 * cy) && decide (16 * cy + 15 ≤ r.ye)

/-- The numbers from `lo` to `hi`, both included, rising. -/
def upTo (lo hi : Nat) : List Nat := List.range' lo (hi + 1 - lo)

/-- The pixels of a rectangle in raster order: rows in turn, each from its first column (R125, R133). -/
def Rect.raster (r : Rect) : List (Nat × Nat) := (upTo r.ys r.ye).flatMap fun y => (upTo r.xs r.xe).map fun x => (x, y)

/-- Number of cells in a row of cells (R1, R116). -/
def cellColumns (im : Image) : Nat := im.width / 16

/-- Number of cells of the active area (R116). -/
def cellCount (im : Image) : Nat := (im.width / 16) * (im.height / 16)

/-- The map with every cell the rectangle touches marked uncertain (R110, R117). -/
def markTouched (cols : Nat) (r : Rect) (marks : List Bool) : List Bool :=
  mapFrom (fun k m => m || r.touches (k % cols) (k / cols)) 0 marks

/-- The map with every cell the rectangle covers cleared (R109). -/
def clearCovered (cols : Nat) (r : Rect) (marks : List Bool) : List Bool :=
  mapFrom (fun k m => m && !r.covers (k % cols) (k / cols)) 0 marks

/-- The rectangle touches some cell that is marked (R107). -/
def touchesMarked (cols : Nat) (r : Rect) (marks : List Bool) : Bool :=
  (mapFrom (fun k m => m && r.touches (k % cols) (k / cols)) 0 marks).any id

/-! ### Scan orders -/

/-- The primary axis is Y: bit 2 of the scan code (R48). -/
def scanPrimaryY (code : BitVec 3) : Bool := code.getLsbD 2

/-- The x direction is −: bit 1 of the scan code (R48). -/
def scanXDown (code : BitVec 3) : Bool := code.getLsbD 1

/-- The y direction is −: bit 0 of the scan code (R48). -/
def scanYDown (code : BitVec 3) : Bool := code.getLsbD 0

/-- The start edge of an axis from `lo` to `hi`: the low edge when its direction is +, the high edge when it is − (R48). -/
def startEdge (down : Bool) (lo hi : Nat) : Nat := if down then hi else lo

/-- The origin of the window under a scan code (R48, Table 3-2). -/
def origin (win : Rect) (code : BitVec 3) : Nat × Nat :=
  (startEdge (scanXDown code) win.xs win.xe, startEdge (scanYDown code) win.ys win.ye)

/-- One move along an axis; none when it goes beyond the far edge (R49). -/
def moveAlong (down : Bool) (lo hi p : Nat) : Option Nat :=
  if down then (if p ≤ lo then none else some (p - 1)) else (if hi ≤ p then none else some (p + 1))

/-- The cursor's advance by one position, and whether it is a wrap (R49). -/
def advanceCursor (win : Rect) (code : BitVec 3) (x y : Nat) : (Nat × Nat) × Bool :=
  let x0 := startEdge (scanXDown code) win.xs win.xe
  let y0 := startEdge (scanYDown code) win.ys win.ye
  let mx := moveAlong (scanXDown code) win.xs win.xe x
  let my := moveAlong (scanYDown code) win.ys win.ye y
  if scanPrimaryY code then
    match my, mx with
    | some y', _ => ((x, y'), false)
    | none, some x' => ((x', y0), false)
    | none, none => ((x0, y0), true)
  else
    match mx, my with
    | some x', _ => ((x', y), false)
    | none, some y' => ((x0, y'), false)
    | none, none => ((x0, y0), true)

/-- The positions of an axis in the order a scan takes them (R48). -/
def axisOrder (down : Bool) (lo hi : Nat) : List Nat := if down then (upTo lo hi).reverse else upTo lo hi

/-- The pixels of the window in scan order from the origin, one pass (R49, R60). -/
def scanOrder (win : Rect) (code : BitVec 3) : List (Nat × Nat) :=
  let cols := axisOrder (scanXDown code) win.xs win.xe
  let rows := axisOrder (scanYDown code) win.ys win.ye
  if scanPrimaryY code then cols.flatMap fun x => rows.map fun y => (x, y)
  else rows.flatMap fun y => cols.map fun x => (x, y)

/-! ### Pixel operations -/

/-- The pixel operation a payload byte names, 0..3 (Table 3-3). -/
def pixelOpOf (b : Byte) : Option PixelOp :=
  match b.toNat with
  | 0 => some .replace
  | 1 => some .keySkip
  | 2 => some .matchOnly
  | 3 => some .invert
  | _ => none

/-- The level a payload byte names, 0..3 (R55, R60, R71). -/
def levelOf (b : Byte) : Option Level := if b.toNat ≤ 3 then some (b.extractLsb' 0 2) else none

/-- What T holds after the operation: `p` the incoming level, `t` the level in T, `k` the key (R51, Table 3-3). -/
def applyOp (op : PixelOp) (p t k : Level) : Level :=
  match op with
  | .replace => p
  | .keySkip => if p = k then t else p
  | .matchOnly => if t = k then p else t
  | .invert => 3#2 - p

/-! ### Codes of payload fields -/

/-- The watchdog action a payload byte names (R163). -/
def watchdogActionOf (b : Byte) : Option WatchdogAction :=
  match b.toNat with
  | 0 => some .notify
  | 1 => some .park
  | 2 => some .reset
  | _ => none

/-- The signed byte in bits 7:0 of a parameter (Table 2-3). -/
def lowSigned (v : Word) : Int := (loByte v).toInt

/-- A temperature the part can hold (R134). -/
abbrev TempRange (t : Int) : Prop := -40 ≤ t ∧ t ≤ 100

/-! ### Parameters -/

/-- Parameter numbers Set Parameter can write: the RW rows of Table 2-3. -/
def isWritable (n : Byte) : Bool :=
  [0x03#8, 0x04#8, 0x05#8, 0x06#8, 0x07#8, 0x08#8, 0x10#8, 0x11#8, 0x12#8, 0x13#8, 0x14#8].contains n

/-- Parameter numbers of the RO rows of Table 2-3. -/
def isReadOnly (n : Byte) : Bool :=
  n == 0x01#8 || n == 0x02#8 || (decide (0x20 ≤ n.toNat) && decide (n.toNat ≤ 0x34))

/-- The numbers Table 2-3 defines (R38). -/
def isParam (n : Byte) : Bool := isWritable n || isReadOnly n

/-- The values Table 2-3 allows a writable parameter (R39 check 3). -/
def paramValueOk (n : Byte) (v : Word) : Bool :=
  match n.toNat with
  | 0x03 => decide (20 ≤ v.toNat) && decide (v.toNat ≤ 85)
  | 0x04 => decide (1 ≤ v.toNat) && decide (v.toNat ≤ 255)
  | 0x05 => decide (1 ≤ v.toNat) && decide (v.toNat ≤ 255)
  | 0x06 => true
  | 0x07 => decide (v.toNat ≤ 1)
  | 0x08 => decide (1 ≤ v.toNat) && decide (v.toNat ≤ 255)
  | 0x10 => true
  | 0x11 => decide (v.toNat ≤ 1)
  | 0x12 => decide (v &&& 0x7F00#16 = 0#16) && decide (TempRange (lowSigned v))
  | 0x13 => decide (1 ≤ v.toNat)
  | 0x14 => decide (v.toNat ≤ 7) && decide (v &&& 3#16 ≠ 3#16)
  | _ => false

/-- The stored values with parameter `n` at `v` (R38, R39). -/
def Params.write (p : Params) (n : Byte) (v : Word) : Params :=
  match n.toNat with
  | 0x03 => { p with frameRate := v }
  | 0x04 => { p with rampLimit := v }
  | 0x05 => { p with drainLimit := v }
  | 0x06 => { p with railHold := v }
  | 0x07 => { p with sensorSelect := v }
  | 0x08 => { p with samplePeriod := v }
  | 0x10 => { p with eventEnable := v }
  | 0x11 => { p with linkPolicy := v }
  | 0x12 => { p with tempOverride := v }
  | 0x13 => { p with wakeInterval := v }
  | 0x14 => { p with wakeMode := v }
  | _ => p

/-- REQUIRE_CHECK: LINK_POLICY bit 0 (R9). -/
def Params.requireCheck (p : Params) : Bool := p.linkPolicy.getLsbD 0

/-- WAKE_MODE bits 1:0 (R161). -/
def Params.wakeModeBits (p : Params) : BitVec 2 := p.wakeMode.extractLsb' 0 2

/-- WAKE_MODE bit 2, wake from Hibernate (R161). -/
def Params.wakeFromHibernate (p : Params) : Bool := p.wakeMode.getLsbD 2

end Sys2Proof.Machine
end

