-- ==== Sys2Proof/Machine/Flags.lean ====
section
/-! DEFINITION. Machine/Flags.lean: every code and flag computation: the event flags (R148), the ATTN condition (R150), the
journal (R153 to R155), outcome and link result codes (Tables 1-3 and 2-2), the state codes the parameters read (R41). -/

namespace Sys2Proof.Machine

/-! ### Event flags -/

/-- The bit of a flag in EVENT_FLAGS and EVENT_ENABLE (Table 9-1). -/
def EventFlag.bit : EventFlag → Nat
  | .resetDone => 0
  | .jobDone => 1
  | .jobFail => 2
  | .schedIdle => 3
  | .railsReady => 4
  | .railsOff => 5
  | .railFault => 6
  | .tempRange => 7
  | .sensorFault => 8
  | .linkErr => 9
  | .windowWrap => 10
  | .tileEvict => 11
  | .journalLost => 12
  | .watchdog => 13
  | .wakeTimer => 14
  | .woke => 15

/-- The mask with that flag's bit alone. -/
def EventFlag.mask (f : EventFlag) : Word := 1#16 <<< f.bit

/-- The flag is set (R148). -/
def Events.has (e : Events) (f : EventFlag) : Bool := e.flags.getLsbD f.bit

/-- The flag becomes set; every other flag keeps its value (R148). -/
def Events.raise (e : Events) (f : EventFlag) : Events := { e with flags := e.flags ||| f.mask }

/-- The flag becomes set when the condition holds. -/
def Events.raiseIf (e : Events) (c : Bool) (f : EventFlag) : Events := if c then e.raise f else e

/-- Every flag whose bit is 1 in the mask becomes clear, the others keep their value (R152). -/
def Events.acknowledge (e : Events) (mask : Word) : Events := { e with flags := e.flags &&& ~~~mask }

/-- The ATTN condition: some flag is set whose enable is set (R150). -/
def State.attn (s : State) : Bool := decide (s.events.flags &&& s.params.eventEnable ≠ 0#16)

/-! ### Journal -/

/-- The code byte of a record (Table 9-4). -/
def RecordCode.code : RecordCode → Byte
  | .reset => 0x01#8
  | .activated => 0x02#8
  | .completed => 0x03#8
  | .cancelled => 0x04#8
  | .aborted => 0x05#8
  | .superseded => 0x06#8
  | .rejected => 0x07#8
  | .railFault => 0x08#8
  | .watchdog => 0x09#8
  | .woke => 0x0A#8
  | .tempOut => 0x0B#8
  | .drainSlow => 0x0C#8

/-- A record is written at the tail with the counter's value as its seq (R153); when the journal already holds 16 records
it is discarded, counted and flagged, and the counter does not advance (R155). -/
def Events.record (e : Events) (code : RecordCode) (ticket : Byte) (detail : Word) : Events :=
  if e.journal.length < Config.journalSize then
    { e with journal := e.journal ++ [⟨e.nextSeq, code, ticket, detail⟩], nextSeq := e.nextSeq + 1#8 }
  else { e with lost := satInc e.lost, flags := e.flags ||| EventFlag.journalLost.mask }

/-- The five bytes of a record (Table 9-3). -/
def JournalRecord.bytes (r : JournalRecord) : List Byte := [r.seq, r.code.code, r.ticket] ++ wordBytes r.detail

/-! ### Codes -/

/-- The outcome's 8-bit code (Table 2-2). -/
def OutcomeCode.code : OutcomeCode → Byte
  | .ok => 0x00#8
  | .badValue => 0x01#8
  | .badRect => 0x02#8
  | .badCursor => 0x03#8
  | .noParam => 0x04#8
  | .readOnly => 0x05#8
  | .guard => 0x06#8
  | .geometryBusy => 0x07#8
  | .tileRange => 0x08#8
  | .tileInvalid => 0x09#8
  | .tableSealed => 0x0A#8
  | .tableBusy => 0x0B#8
  | .noTable => 0x0C#8
  | .badMode => 0x0D#8
  | .queueFull => 0x0E#8
  | .noSuchJob => 0x0F#8
  | .jobActive => 0x10#8
  | .badState => 0x11#8
  | .railsBusy => 0x12#8
  | .hibBusy => 0x13#8
  | .tableInvalid => 0x14#8

/-- The link result's 4-bit code (Table 1-3). -/
def LinkResult.code : LinkResult → Nat
  | .ok => 0
  | .framing => 1
  | .truncated => 2
  | .length => 3
  | .check => 4
  | .policy => 5
  | .overrun => 6
  | .opcode => 7
  | .woke => 8

/-- SCHED_STATE (Table 6-3). -/
def SchedState.code : SchedState → Nat
  | .halted => 0
  | .running => 1
  | .quiescing => 2
  | .parking => 3
  | .holding => 4

/-- RAIL_STATE (Table 2-3). -/
def RailState.code : RailState → Nat
  | .off => 0
  | .ramping => 1
  | .ready => 2
  | .draining => 3
  | .fault => 4

/-- FAULT_KIND (Table 2-3). -/
def FaultKind.code : FaultKind → Nat
  | .none => 0
  | .rampTimeout => 1
  | .undervolt => 2
  | .overcurrent => 3

/-- RESET_CAUSE (Table 11-1). -/
def ResetKind.code : ResetKind → Nat
  | .por => 1
  | .pin => 2
  | .watchdog => 3
  | .soft => 4

/-- The watchdog action's number (R163). -/
def WatchdogAction.code : WatchdogAction → Nat
  | .notify => 0
  | .park => 1
  | .reset => 2

/-- A wake cause's number in the WOKE record (Table 9-4). -/
def WakeCause.code : WakeCause → Nat
  | .pin => 1
  | .timer => 2
  | .link => 3

end Sys2Proof.Machine
end

