-- ==== Sys2Proof/Machine/Steps.lean ====
section
/-! DEFINITION. Machine/Steps.lean: what all steps share: when a step can occur (R29, R171), the lanes and the examination of
the queue (R96, R105), the power request (R106), the arbiter's pending steps and its choice (R27, R28), the end of a step
(R106, R142), the frame of a command step (R30 to R36). -/

namespace Sys2Proof.Machine

/-! ### When steps occur -/

/-- No reset is in progress: steps can run (R29, R171). -/
def State.stepsRun (s : State) : Bool := s.resetUnit.inProgress.isNone

/-- Command steps and frame boundary steps can run: Run power state, no reset in progress (R29). -/
def State.inRun (s : State) : Bool := s.stepsRun && decide (s.time.power = .run)

/-! ### Lanes and jobs -/

/-- What a lane holds. -/
def Lanes.get (l : Lanes) (k : Fin 4) : Option ActiveJob :=
  match k with
  | 0 => l.l0
  | 1 => l.l1
  | 2 => l.l2
  | 3 => l.l3

/-- The lanes with lane `k` holding `v`. -/
def Lanes.set (l : Lanes) (k : Fin 4) (v : Option ActiveJob) : Lanes :=
  match k with
  | 0 => { l with l0 := v }
  | 1 => { l with l1 := v }
  | 2 => { l with l2 := v }
  | 3 => { l with l3 := v }

/-- The lanes in lane order. -/
def laneOrder : List (Fin 4) := [0, 1, 2, 3]

/-- The ACTIVE jobs in lane order. -/
def Lanes.active (l : Lanes) : List ActiveJob := laneOrder.filterMap l.get

/-- At least one lane holds a job. -/
def Lanes.anyActive (l : Lanes) : Bool := l.l0.isSome || l.l1.isSome || l.l2.isSome || l.l3.isSome

/-- The free lanes, lowest number first. -/
def Lanes.free (l : Lanes) : List (Fin 4) := laneOrder.filter fun k => (l.get k).isNone

/-- The lane that holds the job with the ticket. -/
def Lanes.find (l : Lanes) (t : Byte) : Option (Fin 4) :=
  laneOrder.find? fun k => (l.get k).any fun a => a.job.ticket == t

/-- The queued job with the ticket. -/
def findQueued (q : List Job) (t : Byte) : Option Job := q.find? fun j => j.ticket == t

/-- Some job, queued or active, holds the ticket (R95, R112). -/
def Sched.held (c : Sched) (t : Byte) : Bool :=
  c.queue.any (fun j => j.ticket == t) || c.lanes.active.any (fun a => a.job.ticket == t)

/-- How many jobs exist (R94, R174). -/
def Sched.jobCount (c : Sched) : Nat := c.queue.length + c.lanes.active.length

/-! ### Admission's examination and the power request -/

/-- The examination of the queue, oldest first (R105): `busy` the regions of the ACTIVE jobs, `free` the free lanes,
`ahead` the regions of the jobs that stood ahead. It lists the jobs to activate with their lanes; when no lane is free it
stops. -/
def examine (busy : List Rect) (free : List (Fin 4)) (ahead : List Rect) : List Job → List (Job × Fin 4)
  | [] => []
  | j :: rest =>
    match free with
    | [] => []
    | k :: free' =>
      if busy.any (fun r => r.overlaps j.region) || ahead.any (fun r => r.overlaps j.region) then
        examine busy (k :: free') (j.region :: ahead) rest
      else (j, k) :: examine (j.region :: busy) free' (j.region :: ahead) rest

/-- The eligible jobs of the queue and the lanes they take (R105). -/
def Sched.eligible (c : Sched) : List (Job × Fin 4) :=
  examine (c.lanes.active.map fun a => a.job.region) c.lanes.free [] c.queue

/-- The temperature is valid and BAND holds a band (R104, R137). -/
def TempMonitor.inBand (t : TempMonitor) : Bool := t.temperature.isSome && t.band.isSome

/-- Conditions 1, 2 and 4 of R104, which are the first three of R106: RUNNING, SEALED, in band. -/
def State.mayAdmit (s : State) : Bool :=
  decide (s.sched.state = .running) && s.wave.table.isSome && s.temp.inBand

/-- The condition of the power request: a job is waiting only for the rails (R106). -/
def State.powerCondition (s : State) : Bool :=
  s.mayAdmit && decide (s.supply.rail ≠ .ready) && !s.sched.eligible.isEmpty

/-! ### The arbiter's pending steps (R27, R28) -/

/-- The supply step that a report makes. -/
def RailReport.command : RailReport → Instr
  | .overcurrent => .overcurrent
  | .railLost => .railLost
  | .drainDone => .drainDone
  | .railGood => .railGood

/-- The reports of one instant in the arbiter's order: overcurrent, rail-lost, drain-done, rail-good (R27). -/
def reportsInOrder (overcurrent railLost drainDone railGood : Bool) : List RailReport :=
  (if overcurrent then [.overcurrent] else []) ++ (if railLost then [.railLost] else [])
    ++ (if drainDone then [.drainDone] else []) ++ (if railGood then [.railGood] else [])

/-- A call makes its step pending (R27): each report and each tick a step of its own, in order of arrival; at most one
frame boundary step, and one only while the frame clock runs (`clock`; R29, R121). -/
def Arbiter.post (clock : Bool) (a : Arbiter) : StepCall → Arbiter
  | .reports o l d g => { a with reports := a.reports ++ reportsInOrder o l d g }
  | .tick => { a with ticks := a.ticks + 1 }
  | .boundary => { a with boundary := a.boundary || clock }

/-- A step ends: what called for a step while it ran is pending (R27, R28). -/
def Arbiter.stepEnds (clock : Bool) (a : Arbiter) : Arbiter :=
  { (a.coming.headD []).foldl (Arbiter.post clock) a with coming := a.coming.tail }

/-- The pending step that goes first, with what then stays pending (R27): supply, tick, frame boundary. -/
def Arbiter.next (sensed : SensorInput) (a : Arbiter) : Option (Instr × Arbiter) :=
  match a.reports, a.ticks, a.boundary with
  | r :: rest, _, _ => some (r.command, { a with reports := rest })
  | [], n + 1, _ => some (.tick sensed, { a with ticks := n })
  | [], 0, true => some (.frameBoundary, { a with boundary := false })
  | [], 0, false => none

/-- No frame boundary step is pending. -/
def Arbiter.dropBoundary (a : Arbiter) : Arbiter := { a with boundary := false }

/-- Every pending step is discarded (R29, R171). -/
def Arbiter.discard (a : Arbiter) : Arbiter := { a with reports := [], ticks := 0, boundary := false }

/-! ### The end of a step -/

/-- What the end of every step does, whatever its kind: the power request is cleared when its condition no longer holds
(R106), the hold count is loaded when the rails are READY and some lane holds a job (R142), and what called for a step while
it ran is pending (R27); no call is taken during a reset (R159, R171). -/
def endStep (s : State) : State :=
  { s with
    sched := { s.sched with powerRequest := s.sched.powerRequest && s.powerCondition }
    supply :=
      { s.supply with
        holdCount :=
          if s.supply.rail = .ready ∧ s.sched.lanes.anyActive = true then s.params.railHold.toNat
          else s.supply.holdCount }
    arbiter := if s.stepsRun then s.arbiter.stepEnds s.inRun else s.arbiter }

/-! ### Command steps -/

/-- How a command's own work ends: accepted with the state it leaves, or refused with an outcome; `payload` is the
response payload, used when the command is a query (R31, R34). -/
inductive Verdict where
  | accept (s : State) (payload : List Byte)
  | refuse (o : OutcomeCode) (payload : List Byte)

/-- The response buffer takes the query's answer, with the next sequence number; RESP_NEW is set; a Fetch in flight is no
longer current (R20, R21, R34). -/
def Link.respond (l : Link) (opcode : Byte) (o : OutcomeCode) (payload : List Byte) : Link :=
  { l with
    resp := ⟨l.resp.seq + 1#8, opcode, o.code, payload⟩
    respNew := true
    openFetch := l.openFetch.map fun f => { f with current := false } }

/-- The response is written only by a query (R34). -/
def Link.respondIf (l : Link) (opcode : Byte) (o : OutcomeCode) (payload : List Byte) : Link :=
  if isQuery opcode then l.respond opcode o payload else l

/-- The command's own entry leaves the head of the intake (R13); a command delivered otherwise has no entry there
(log entry 2). -/
def Link.leave (l : Link) (own : Bool) : Link := { l with intake := if own then l.intake.drop 1 else l.intake }

/-- REFUSED, and for a refused command LAST_OUTCOME (R32). -/
def Executor.finish (x : Executor) (opcode : Byte) (o : OutcomeCode) : Executor :=
  { x with
    refused := decide (o ≠ .ok)
    lastOutcome := if o = .ok then x.lastOutcome else opcode ++ o.code }

/-- The end of a command step: the response of a query, REFUSED and LAST_OUTCOME, the entry leaves, the end of the step. -/
def finishCommand (own : Bool) (opcode : Byte) (o : OutcomeCode) (payload : List Byte) (s : State) : State :=
  endStep
    { s with
      link := (s.link.respondIf opcode o payload).leave own
      executor := s.executor.finish opcode o }

/-- The command is the entry at the head of the intake. -/
def ownsHead (c : Instr) (s : State) : Bool :=
  match s.link.intake, encodeEntry c with
  | e :: _, some e' => e == e'
  | _, _ => false

/-- The Guard latch, read and then disarmed (R36). -/
def disarmGuard (s : State) : State := { s with executor := { s.executor with guardLatch := false } }

/-- A command step (R30, R31, R36): the Guard latch is read and disarmed first; the command's work sees the latch as it was
found; a refused command changes nothing else but the outcome and, for a query, the response. Where no command step can
run (R29) nothing happens. -/
def commandStep (own : Bool) (c : Instr) (work : Bool → State → Verdict) (s : State) : State :=
  if s.inRun then
    match work s.executor.guardLatch (disarmGuard s) with
    | .accept t payload => finishCommand own (opcodeOf c) .ok payload t
    | .refuse o payload => finishCommand own (opcodeOf c) o payload (disarmGuard s)
  else s

/-- A command step of a command that does not look at the Guard latch. -/
def plainCommand (c : Instr) (work : State → Verdict) (s : State) : State :=
  commandStep (ownsHead c s) c (fun _ t => work t) s

/-- A step of another kind, or an event of one, with the end every step has (R26, R106, R142). -/
def otherStep (work : State → State) (s : State) : State := if s.stepsRun then endStep (work s) else s

/-- The same for a step or event that occurs in Run only (R29). -/
def runStep (work : State → State) (s : State) : State := if s.inRun then endStep (work s) else s

/-! ### What the arbiter starts -/

/-- With no command waiting outside: the command the arbiter starts and the state it starts in (R27). The highest kind that
is pending goes first; a command step, the lowest, is the head of the intake, where command steps can run (R29, R30). A tick
step or a Sample Temperature started so reads a free value (log entry 7). During a reset no step runs (R29). -/
def State.arbiterStarts (s : State) : Option (Instr × State) :=
  let sensed := Config.freeReading s.freeTaken
  if s.stepsRun then
    match s.arbiter.next sensed with
    | some (c, a) => some (c, { s with arbiter := a, freeTaken := s.freeTaken + 1 })
    | none =>
      if s.inRun then
        match s.link.intake with
        | e :: _ => (decodeEntry sensed e).map fun c => (c, { s with freeTaken := s.freeTaken + 1 })
        | [] => none
      else none
  else none

end Sys2Proof.Machine
end

