-- ==== Sys2Proof/Machine/Link.lean ====
section
/-! DEFINITION. Machine/Link.lean: the Host Link Port (chapter 1): the link tests, the intake, READY, the status byte, the
Fetch, link failures and the WOKE result; the commands TRANSACTION and FETCH. -/

namespace Sys2Proof.Machine

/-! ### Pins and the status byte -/

/-- A wake is in progress: its cause set is not empty (R169). -/
def WakeCauses.any (c : WakeCauses) : Bool := c.pin || c.timer || c.link

/-- READY is high (R14): fewer than four entries in the intake, no reset in progress, power state RUN (which a wake reaches
only as it completes, R159). -/
def State.ready (s : State) : Bool :=
  decide (s.link.intake.length < Config.intakeSize) && s.stepsRun && decide (s.time.power = .run)

/-- The Fetch in flight is being served: SDO is driven (R18, R22, R25). -/
def OpenFetch.serving (f : OpenFetch) : Bool := decide (f.decision = some .ok) && f.cut.isNone

/-- SDO is driven (R22). -/
def State.sdoDriven (s : State) : Bool := s.link.openFetch.any OpenFetch.serving

/-- The link status byte (R19, Table 1-4). -/
def statusByte (s : State) : Byte :=
  byteOf ((if s.attn then 128 else 0) + (if s.link.intake.isEmpty then 64 else 0) + (if s.link.respNew then 32 else 0)
    + (if s.executor.refused then 16 else 0) + s.link.lastResult.code)

/-- Everything a Fetch delivers of the response: the four header bytes and the payload (R18, R20). -/
def Response.bytes (r : Response) : List Byte := [r.seq, r.opcode, r.outcome, byteOf r.payload.length] ++ r.payload

/-! ### Causes of a wake -/

/-- The cause set with one more cause. -/
def WakeCauses.add (c : WakeCauses) (k : WakeCause) : WakeCauses :=
  match k with
  | .pin => { c with pin := true }
  | .timer => { c with timer := true }
  | .link => { c with link := true }

/-- A cause is added in Hibernate; when no wake is in progress the wake begins and the main oscillator starts (R169). -/
def Timebase.addCause (t : Timebase) (k : WakeCause) : Timebase :=
  { t with
    causes := t.causes.add k
    oscRunning := true
    oscStable := if t.causes.any then t.oscStable else false }

/-! ### The address byte and the tests of section 1.3 -/

/-- The unit address field: bits 7:4 (Table 1-2). -/
def addrField (a : Byte) : Nat := (a.extractLsb' 4 4).toNat

/-- CHK: bit 3 (Table 1-2). -/
def chkBit (a : Byte) : Bool := a.getLsbD 3

/-- The marker is 101b (R7). -/
def markerOk (a : Byte) : Bool := decide (a.extractLsb' 0 3 = 0b101#3)

/-- The transaction is addressed to this unit (R3). -/
def addressed (unit : BitVec 3) (a : Byte) : Bool := addrField a == unit.toNat || addrField a == 15

/-- Broadcast (R16). -/
def isBroadcast (a : Byte) : Bool := addrField a == 15

/-- Bytes after the length byte that R4 requires. -/
def bodyLength (a len : Byte) : Nat := len.toNat + (if chkBit a then 1 else 0)

/-- The policy test fails (R9). -/
def policyFails (requireCheck : Bool) (a opcode : Byte) : Bool :=
  (!chkBit a && requireCheck) || (isBroadcast a && (isQuery opcode || opcode == fetchOpcode))

/-- The length test fails (R8): `body` is the number of complete bytes after the length byte. -/
def lengthFails (a opcode len : Byte) (body : Nat) : Bool :=
  decide (250 < len.toNat) || (knownOpcode opcode && !allowedLength opcode len.toNat)
    || decide (bodyLength a len < body)

/-- The link result of a transaction that is not a Fetch: the seven tests in their fixed order (R6 to R10). `rest` is the
bytes after the address byte; `stray`: bits of a further, incomplete byte came; `waiting`: the intake count. -/
def linkResult (requireCheck : Bool) (waiting : Nat) (a : Byte) (rest : List Byte) (stray : Bool) : LinkResult :=
  if !markerOk a then .framing
  else
    match rest with
    | opcode :: len :: body =>
      if decide (body.length < bodyLength a len) || stray then .truncated
      else if lengthFails a opcode len body.length then .length
      else if chkBit a && decide (crc8 (a :: rest) ≠ 0#8) then .check
      else if policyFails requireCheck a opcode then .policy
      else if decide (Config.intakeSize ≤ waiting) then .overrun
      else if !knownOpcode opcode then .opcode
      else .ok
    | _ => .truncated

/-- The intake entry of an accepted transaction: opcode and the L payload bytes (R4, R12). -/
def entryOf (rest : List Byte) : Option Entry :=
  match rest with
  | opcode :: len :: body => some ⟨opcode, body.take len.toNat⟩
  | _ => none

/-- The header of a Fetch: 3 bytes, or 4 with its check byte (R17). -/
def fetchHeaderLen (a : Byte) : Nat := if chkBit a then 4 else 3

/-- The result decided at the end of a Fetch's header: marker, length, check, policy (R17). `header` is the whole
header. -/
def fetchResult (requireCheck : Bool) (a len : Byte) (header : List Byte) : LinkResult :=
  if !markerOk a then .framing
  else if decide (len ≠ 0#8) then .length
  else if chkBit a && decide (crc8 header ≠ 0#8) then .check
  else if policyFails requireCheck a fetchOpcode then .policy
  else .ok

/-! ### Link updates -/

/-- A link result other than OK and WOKE: counted, flagged, recorded; the transaction is discarded (R11, R23). -/
def recordFailure (r : LinkResult) (s : State) : State :=
  { s with
    link := { s.link with lastResult := r, linkErrors := satInc s.link.linkErrors, openFetch := none, fetchOut := [] }
    events := s.events.raise .linkErr }

/-- The result WOKE (R25): recorded, neither counted nor flagged; cause LINK is added while the power state is
HIBERNATE (R169). `out`: the bytes SDO drove in the transaction before the part entered Hibernate (R22). -/
def recordWoke (out : List Byte) (s : State) : State :=
  { s with
    link := { s.link with lastResult := .woke, openFetch := none, fetchOut := out }
    time := if s.time.power = .hibernate then s.time.addCause .link else s.time }

/-- An accepted transaction joins the tail of the intake and LAST_LINK_RESULT becomes 0, in one update (R12). -/
def acceptEntry (e : Entry) (s : State) : State :=
  { s with link := { s.link with intake := s.link.intake ++ [e], lastResult := .ok, fetchOut := [] } }

/-- What a Fetch shifts out of its snapshot: status, header, payload, the CRC-8 of these when it was checked (R18). -/
def snapshotBytes (checked : Bool) (s : State) : List Byte :=
  let body := statusByte s :: s.link.resp.bytes
  if checked then body ++ [crc8 body] else body

/-- The header of a Fetch ends: the result is decided and the snapshot taken at that instant (R17, R18); in Hibernate or
in a wake there is no decision point (R25). -/
def openFetchOf (a len : Byte) (header : List Byte) (s : State) : OpenFetch :=
  { headerLen := header.length
    decision :=
      if s.time.power = .hibernate then none else some (fetchResult s.params.requireCheck a len header)
    snapshot := snapshotBytes (chkBit a) s
    wholeLen := 5 + s.link.resp.payload.length
    current := true
    cut := none }

/-- The first `k` bytes of a read-out: the snapshot, then FFH (R18). -/
def readOut (snapshot : List Byte) (k : Nat) : List Byte := (snapshot ++ List.replicate k 0xFF#8).take k

/-- The rising edge of CS# that ends a Fetch after `k` complete read-out bytes (R17, R21, R25). -/
def closeFetch (f : OpenFetch) (k : Nat) (s : State) : State :=
  if f.cut.isSome || decide (s.time.power = .hibernate) then recordWoke (f.cut.getD []) s
  else
    match f.decision with
    | none => recordWoke [] s
    | some .ok =>
      { s with
        link :=
          { s.link with
            lastResult := .ok
            respNew := if decide (f.wholeLen ≤ k) && f.current then false else s.link.respNew
            openFetch := none
            fetchOut := readOut f.snapshot k } }
    | some r => recordFailure r s

/-- An addressed Fetch seen whole at its rising edge of CS#: `bytes` are all its complete bytes (R17). CS# rising before
the header is complete makes the result at that edge. -/
def wholeFetch (a : Byte) (bytes : List Byte) (s : State) : State :=
  if s.time.power = .hibernate then recordWoke [] s
  else if bytes.length < fetchHeaderLen a then recordFailure (if markerOk a then .truncated else .framing) s
  else
    let header := bytes.take (fetchHeaderLen a)
    closeFetch (openFetchOf a (header.getD 2 0#8) header s) (bytes.length - fetchHeaderLen a) s

/-- A transaction that is not a Fetch, at its rising edge of CS# (R6, R11, R12, R25). -/
def endTransaction (a : Byte) (rest : List Byte) (stray : Bool) (s : State) : State :=
  if s.time.power = .hibernate then recordWoke [] s
  else
    match linkResult s.params.requireCheck s.link.intake.length a rest stray with
    | .ok =>
      match entryOf rest with
      | some e => acceptEntry e s
      | none => s
    | r => recordFailure r s

/-- The port's note that CS# is low in a transaction it has forgotten (R2). -/
def State.setForgotten (b : Bool) (s : State) : State := { s with link := { s.link with forgotten := b } }

/-- The port at a rising edge of CS# (R2, R3, R6, R24): nothing is recorded during a reset, for a transaction of no
complete byte, for one that is not addressed to this unit, or for one whose bytes a reset has made the port forget. -/
def portTransaction (bytes : List Byte) (stray : Bool) (s : State) : State :=
  if s.link.forgotten then s.setForgotten false
  else if s.stepsRun then
    match s.link.openFetch with
    | some f => closeFetch f (bytes.length - f.headerLen) s
    | none =>
      match bytes with
      | [] => s
      | a :: rest =>
        if addressed s.link.unitAddr a then
          if rest.head? = some fetchOpcode then wholeFetch a bytes s else endTransaction a rest stray s
        else s
  else s

/-- The header of a Fetch as the host sends it (R17). -/
def fetchHeader (addr len check : Byte) : List Byte :=
  [addr, fetchOpcode, len] ++ (if chkBit addr then [check] else [])

/-- The port at a Fetch (R17, R18, R21): with `readout` given, the whole transaction; without, its header only, CS# staying
low. A second falling edge of CS# cannot occur (R2). During a reset the port counts no byte, and a Fetch that stays open is
one it will not evaluate (R2, R24). -/
def portFetch (addr len check : Byte) (readout : Option Nat) (s : State) : State :=
  if s.link.forgotten then s
  else if !s.stepsRun then s.setForgotten readout.isNone
  else if s.link.openFetch.isNone && addressed s.link.unitAddr addr then
    match readout with
    | some k => wholeFetch addr (fetchHeader addr len check ++ List.replicate k 0#8) s
    | none =>
      { s with
        link := { s.link with openFetch := some (openFetchOf addr len (fetchHeader addr len check) s) } }
  else s

/-! ### What reaches the port while a step runs (R15) -/

/-- One arrival: the port judges it, or takes its snapshot, by the state as it finds it. -/
def portArrival (a : Arrival) (s : State) : State :=
  match a with
  | .transaction bytes stray => portTransaction bytes stray s
  | .fetch addr len check readout => portFetch addr len check readout s

/-- The arrivals, in order. The port sees no effect of the step in progress, and sees its own updates. -/
def State.receive (arrived : List Arrival) (s : State) : State := arrived.foldl (fun u a => portArrival a u) s

/-- The event flags that the port sets as the arrivals come. No test of the port reads a flag. -/
def State.portSets (arrived : List Arrival) (s : State) : Word :=
  (State.receive arrived { s with events := { s.events with flags := 0#16 } }).events.flags

/-! ### Commands -/

/-- TRANSACTION (R6). With a Fetch in flight this is its rising edge of CS#, `bytes` being all bytes of that Fetch. A
transaction whose CS# fell before the reset completed is never evaluated; its rising edge lets the port open the next one
(R2). -/
def execTransaction (bytes : List Byte) (edge : CsEdge) (s : State) : Host.Outcome State Fault Refusal :=
  .next (if edge.overReset then s.setForgotten false else portTransaction bytes edge.stray s)

/-- FETCH (R17, R18, R21). With `readout` given, the whole transaction; without, its header only: steps may run, and a later
TRANSACTION ends it. -/
def execFetch (addr len check : Byte) (readout : Option Nat) (s : State) : Host.Outcome State Fault Refusal :=
  .next (portFetch addr len check readout s)

end Sys2Proof.Machine
end

