-- ==== Sys2Proof/Machine/ResetOps.lean ====
section
/-! DEFINITION. Machine/ResetOps.lean: the reset mechanism as shared operations: the beginning of a reset with its
initialisation (R171, R174, R175), merging (R173) and completion (R173). -/

namespace Sys2Proof.Machine

/-- The full active area as a window (R47). -/
def fullArea (im : Image) : Rect := ⟨0, 0, im.width - 1, im.height - 1⟩

/-- The Window Writer's state after every reset (R47). -/
def resetWriter (im : Image) : Writer :=
  { window := fullArea im, cx := 0, cy := 0, scan := 0#3, op := .replace, key := 0#2 }

/-- The session parameters at their defaults, the panel configuration retained (R38). -/
def Params.sessionReset (p : Params) : Params :=
  { State.resetParams with
    frameRate := p.frameRate
    rampLimit := p.rampLimit
    drainLimit := p.drainLimit
    railHold := p.railHold
    sensorSelect := p.sensorSelect
    samplePeriod := p.samplePeriod }

/-- The link's initial values, the same for every kind (R24); the unit address is sampled at completion (R173). A Fetch in
flight is forgotten, and its CS# is still low (R2). -/
def Link.reset (l : Link) : Link :=
  { State.reset.link with
    unitAddr := l.unitAddr
    forgotten := l.forgotten || l.openFetch.isSome
    fetchOut := l.fetchOut }

/-- The Scheduler after a reset: no job, HALTED, NEXT_TICKET 1, power request and work mark clear (R120); the map keeps its
marks and gains the cells touched by `regions` (R174). -/
def Sched.reset (cols : Nat) (regions : List Rect) (c : Sched) : Sched :=
  { State.reset.sched with marks := regions.foldl (fun m r => markTouched cols r m) c.marks }

/-- The frame in progress is abandoned (R171); the count returns to 0 (R123). -/
def Sequencer.reset (q : Sequencer) : Sequencer := { q with frameCount := 0#16, frame := .idle, driveCodes := [] }

/-- The port sends the end-of-drive indication (R126). -/
def Sequencer.endDrive (q : Sequencer) : Sequencer := { q with endOfDrives := q.endOfDrives + 1 }

/-- The initialisation of a retaining reset (Table 11-2), with every flag clear and the journal empty until the reset
completes. The main oscillator is started and not yet noted stable (R159, R173); every pending step is discarded (R29,
R171). -/
def initRetaining (regions : List Rect) (s : State) : State :=
  { s with
    link := s.link.reset
    executor := State.reset.executor
    params := s.params.sessionReset
    writer := resetWriter s.image
    wave := { s.wave with table := none }
    sched := s.sched.reset (cellColumns s.image) regions
    seq := s.seq.reset
    temp := State.reset.temp
    supply := State.reset.supply
    events := { flags := 0#16, journal := [], nextSeq := 0#8, lost := 0 }
    time := { State.reset.time with oscStable := false }
    arbiter := s.arbiter.discard }

/-- What a POR sets beyond a retaining reset: planes, geometry, tiles, waveform RAM, panel configuration, the whole map
uncertain (Table 11-2, R42, R44, R63, R64, R75, R116). -/
def initMemories (s : State) : State :=
  { s with
    params := State.resetParams
    image := State.reset.image
    tiles := State.reset.tiles
    wave := State.reset.wave
    sched := { s.sched with marks := State.reset.sched.marks } }

/-- The full initialisation of a POR (Table 11-2). -/
def initFull (s : State) : State := initRetaining [] (initMemories s)

/-- The initialisation the kind calls for (Table 11-1). -/
def initFor (kind : ResetKind) (regions : List Rect) (s : State) : State :=
  if kind = .por then initFull s else initRetaining regions s

/-- The regions of the ACTIVE jobs, whose cells a retaining reset marks (R120). -/
def activeRegions (s : State) : List Rect := s.sched.lanes.active.map fun a => a.job.region

/-- The kind a merged reset takes: POR, then PIN (R173). -/
def mergedKind (old new : ResetKind) : ResetKind :=
  if old = .por ∨ new = .por then .por else if old = .pin ∨ new = .pin then .pin else old

/-- A reset begins (R171), whatever the frame, with the end-of-drive indication (R133, R171; log entry 15). `judged` is the
state as if a cut step had never begun: its jobs are counted and its ACTIVE jobs' cells are marked, with those of `extra`
(R174). While a reset is in progress the two merge: the first one's count stays, and a POR makes the full initialisation
(R173). DESIGN CHOICE (log entry 13): a merging POR makes the main oscillator's stability be awaited anew, a merging PIN
reset leaves the note of it as it is. A merged reset sends no second indication (log entry 15). -/
def beginReset (kind : ResetKind) (extra : List Rect) (judged s : State) : State :=
  match s.resetUnit.inProgress with
  | none =>
    let t := initFor kind (activeRegions judged ++ extra) s
    { t with
      seq := t.seq.endDrive
      resetUnit := { s.resetUnit with inProgress := some ⟨kind, judged.sched.jobCount⟩ } }
  | some r =>
    let t := if kind = .por then initFull s else s
    { t with resetUnit := { s.resetUnit with inProgress := some ⟨mergedKind r.kind kind, r.discarded⟩ } }

/-- The detail of the RESET record: kind in the high byte, jobs discarded in the low byte (R173, Table 9-4). -/
def resetDetail (r : Resetting) : Word := byteOf r.kind.code ++ byteOf r.discarded

/-- Completion (R173): the unit address is sampled, RESET_CAUSE taken, the RESET record written, RESET_DONE set, the power
state is RUN and the first frame begins, idle, at the rate FRAME_RATE sets (R121, R122, R124). -/
def completeReset (straps : BitVec 3) (r : Resetting) (s : State) : State :=
  { s with
    link := { s.link with unitAddr := straps }
    events := (s.events.record .reset 0#8 (resetDetail r)).raise .resetDone
    time := { s.time with power := .run }
    seq := { s.seq with frame := .idle, rateInForce := s.params.frameRate }
    resetUnit := { s.resetUnit with cause := r.kind, inProgress := none } }

end Sys2Proof.Machine
end

