-- ==== Sys2Proof/Machine/Executor.lean ====
section
/-! DEFINITION. Machine/Executor.lean: the parameter store as it reads (R40, R41) and the commands of chapters 2, 9 and 11
that belong to no other block: NOP, GUARD, SOFT_RESET, SET_PARAMETER, GET_PARAMETER, ACKNOWLEDGE_EVENTS, READ_JOURNAL,
CLEAR_JOURNAL. -/

namespace Sys2Proof.Machine

/-! ### The parameter store -/

/-- ACTIVE_LANES: bit n set while lane n holds a job (R41). -/
def activeLanes (l : Lanes) : Nat :=
  (if l.l0.isSome then 1 else 0) + (if l.l1.isSome then 2 else 0) + (if l.l2.isSome then 4 else 0)
    + (if l.l3.isSome then 8 else 0)

/-- TABLE_STATE: 8000H plus M in bits 11:8 and B in bits 3:0 while SEALED, else 0000H (R41). -/
def tableState (w : Wave) : Word :=
  match w.table with
  | some t => wordOf (0x8000 + 256 * t.modes + t.bands)
  | none => 0#16

/-- TEMPERATURE: 8000H plus the signed byte while valid, else 0000H (R41). -/
def temperatureWord (t : TempMonitor) : Word :=
  match t.temperature with
  | some c => 0x80#8 ++ signedByte c
  | none => 0#16

/-- BAND: the band number, or 00FFH for none (R41). -/
def bandWord (t : TempMonitor) : Word :=
  match t.band with
  | some b => wordOf b
  | none => 0x00FF#16

/-- WATCHDOG_STATE: 8000H plus the action while armed, else 0000H (R41). -/
def watchdogWord (t : Timebase) : Word := if t.armed then wordOf (0x8000 + t.action.code) else 0#16

/-- What a defined parameter reads (R40, R41); undefined numbers read 0 here and are refused before. -/
def readParam (n : Byte) (s : State) : Word :=
  match n.toNat with
  | 0x01 => wordOf s.image.width
  | 0x02 => wordOf s.image.height
  | 0x03 => s.params.frameRate
  | 0x04 => s.params.rampLimit
  | 0x05 => s.params.drainLimit
  | 0x06 => s.params.railHold
  | 0x07 => s.params.sensorSelect
  | 0x08 => s.params.samplePeriod
  | 0x10 => s.params.eventEnable
  | 0x11 => s.params.linkPolicy
  | 0x12 => s.params.tempOverride
  | 0x13 => s.params.wakeInterval
  | 0x14 => s.params.wakeMode
  | 0x20 => wordOf s.sched.state.code
  | 0x21 => wordOf s.sched.queue.length
  | 0x22 => wordOf (activeLanes s.sched.lanes)
  | 0x23 => 0#8 ++ s.sched.nextTicket
  | 0x24 => tableState s.wave
  | 0x25 => temperatureWord s.temp
  | 0x26 => bandWord s.temp
  | 0x27 => wordOf s.supply.rail.code
  | 0x28 => wordOf s.supply.faultKind.code
  | 0x29 => wordOf s.supply.faultCount
  | 0x2A => wordOf (countTrue s.sched.marks)
  | 0x2B => wordOf s.events.journal.length
  | 0x2C => wordOf s.events.lost
  | 0x2D => wordOf s.link.linkErrors
  | 0x2E => s.seq.frameCount
  | 0x2F => wordOf s.resetUnit.cause.code
  | 0x30 => s.events.flags
  | 0x31 => watchdogWord s.time
  | 0x32 => if s.time.armed then wordOf s.time.count else 0#16
  | 0x33 => s.executor.lastOutcome
  | 0x34 => Config.deviceId
  | _ => 0#16

/-- A write to WAKE_MODE restarts the wake count: loaded from WAKE_INTERVAL in modes 1 and 2, stopped in mode 0 (R162). -/
def restartWakeCount (p : Params) : Option Nat :=
  if p.wakeModeBits = 0#2 then none else some p.wakeInterval.toNat

/-- The store of an accepted Set Parameter with the action tied to the write (R39, R162). -/
def storeParam (n : Byte) (v : Word) (s : State) : State :=
  let p := s.params.write n v
  { s with
    params := p
    time := { s.time with wakeCount := if n = 0x14#8 then restartWakeCount p else s.time.wakeCount } }

/-- The guarded case of Set Parameter: LINK_POLICY whose bit 0 goes from 1 to 0 (R36). -/
def clearsRequireCheck (n : Byte) (v : Word) (p : Params) : Bool :=
  decide (n = 0x11#8) && p.requireCheck && !v.getLsbD 0

/-! ### Commands -/

/-- NOP (R37). -/
def execNop (s : State) : Host.Outcome State Fault Refusal :=
  .next (plainCommand .nop (fun t => .accept t []) s)

/-- GUARD (R35): C3H arms the latch, anything else is refused BAD_VALUE. -/
def execGuard (key : Byte) (s : State) : Host.Outcome State Fault Refusal :=
  .next
    (plainCommand (.guard key)
      (fun t =>
        if key = 0xC3#8 then .accept { t with executor := { t.executor with guardLatch := true } } []
        else .refuse .badValue [])
      s)

/-- SOFT_RESET (R172): guarded; when accepted the reset begins as the last act of its step. -/
def execSoftReset (s : State) : Host.Outcome State Fault Refusal :=
  let t :=
    commandStep (ownsHead .softReset s) .softReset
      (fun latch t => if latch then .accept t [] else .refuse .guard []) s
  .next (if s.inRun && s.executor.guardLatch then beginReset .soft [] t t else t)

/-- SET_PARAMETER (R39): NO_PARAM, READ_ONLY, BAD_VALUE, GUARD, in this order. -/
def execSetParameter (number : Byte) (value : Word) (s : State) : Host.Outcome State Fault Refusal :=
  .next
    (commandStep (ownsHead (.setParameter number value) s) (.setParameter number value)
      (fun latch t =>
        if !isParam number then .refuse .noParam []
        else if isReadOnly number then .refuse .readOnly []
        else if !paramValueOk number value then .refuse .badValue []
        else if clearsRequireCheck number value t.params && !latch then .refuse .guard []
        else .accept (storeParam number value t) [])
      s)

/-- A command step during which the port is reached: the port judges by the state before the step, the command's work finds
the port's updates made, and `work` itself decides what of them the command notices (R15). Where no command step can run
nothing happens. -/
def commandAmid (arrived : List Arrival) (c : Instr) (work : State → Verdict) (s : State) : State :=
  if s.inRun then commandStep (ownsHead c s) c (fun _ t => work t) (s.receive arrived) else s

/-- GET_PARAMETER (R40): the value as it stood at the start of the step, high byte first; an update of the port that lands
while the step runs is not in it (R15). -/
def execGetParameter (number : Amid Byte) (s : State) : Host.Outcome State Fault Refusal :=
  .next
    (commandAmid number.arrived (.getParameter number)
      (fun t =>
        if isParam number.operand then .accept t (wordBytes (readParam number.operand s)) else .refuse .noParam [])
      s)

/-- ACKNOWLEDGE_EVENTS (R152); a flag that the port sets while the step runs ends set (R15). -/
def execAcknowledgeEvents (mask : Amid Word) (s : State) : Host.Outcome State Fault Refusal :=
  .next
    (commandAmid mask.arrived (.acknowledgeEvents mask)
      (fun t => .accept { t with events := t.events.acknowledge (mask.operand &&& ~~~s.portSets mask.arrived) } []) s)

/-- The response payload of Read Journal (R156): `k` records of the journal are returned. -/
def journalPayload (k : Nat) (e : Events) : List Byte :=
  [byteOf (e.journal.take k).length, byteOf (e.journal.drop k).length, byteOf e.lost]
    ++ (e.journal.take k).flatMap JournalRecord.bytes

/-- READ_JOURNAL (R156): count 1..4; the oldest records leave the journal as the command executes. -/
def execReadJournal (count : Byte) (s : State) : Host.Outcome State Fault Refusal :=
  .next
    (plainCommand (.readJournal count)
      (fun t =>
        if count.toNat = 0 ∨ 4 < count.toNat then .refuse .badValue []
        else
          .accept { t with events := { t.events with journal := t.events.journal.drop count.toNat } }
            (journalPayload count.toNat t.events))
      s)

/-- CLEAR_JOURNAL (R157): every record and the lost count; the sequence counter and the flags stay. -/
def execClearJournal (s : State) : Host.Outcome State Fault Refusal :=
  .next
    (plainCommand .clearJournal
      (fun t => .accept { t with events := { t.events with journal := [], lost := 0 } } []) s)

end Sys2Proof.Machine
end

