-- ==== Sys2Proof/Machine/Image.lean ====
section
/-! DEFINITION. Machine/Image.lean: the Image Memory and the Window Writer (chapter 3): SET_GEOMETRY, SET_WINDOW, SET_CURSOR,
SET_SCAN, SET_PIXEL_OP, WRITE_PIXELS, READ_PIXELS, FILL_WINDOW. -/

namespace Sys2Proof.Machine

/-! ### Shared work -/

/-- The window and scan code as given, the cursor at their origin (R48, R52, R54). -/
def Writer.toOrigin (w : Writer) (win : Rect) (code : BitVec 3) : Writer :=
  { w with window := win, scan := code, cx := (origin win code).1, cy := (origin win code).2 }

/-- The pixel operation of the Window Writer on the plane at (x, y) with the incoming level `p` (R51). -/
def Writer.writePixel (w : Writer) (x y : Nat) (p : Level) (t : Plane) : Plane :=
  Plane.set t x y (applyOp w.op p (Plane.get t x y) w.key)

/-- The cursor one position on (R49). -/
def Writer.step (w : Writer) : Writer :=
  { w with cx := (advanceCursor w.window w.scan w.cx w.cy).1.1, cy := (advanceCursor w.window w.scan w.cx w.cy).1.2 }

/-- The next advance is a wrap (R49). -/
def Writer.wraps (w : Writer) : Bool := (advanceCursor w.window w.scan w.cx w.cy).2

/-- Pixels in stream order: each is written at the cursor, which then advances. The third part says whether some advance
wrapped (R56, R57, R50). -/
def streamPixels (w : Writer) (t : Plane) (wrapped : Bool) : List Level → Writer × Plane × Bool
  | [] => (w, t, wrapped)
  | p :: ps => streamPixels w.step (w.writePixel w.cx w.cy p t) (wrapped || w.wraps) ps

/-- `n` pixels read at the cursor, which advances after each (R58). -/
def readStream (plane : Plane) (w : Writer) (wrapped : Bool) : Nat → Writer × List Level × Bool
  | 0 => (w, [], wrapped)
  | n + 1 =>
    let r := readStream plane w.step (wrapped || w.wraps) n
    (r.1, Plane.get plane w.cx w.cy :: r.2.1, r.2.2)

/-- The pixel operation with one fill level at each listed pixel, in order (R60). -/
def fillPixels (w : Writer) (level : Level) (t : Plane) : List (Nat × Nat) → Plane
  | [] => t
  | (x, y) :: rest => fillPixels w level (w.writePixel x y level t) rest

/-- The width and height Set Geometry allows (R45 check 1). -/
def geometryOk (w h : Nat) : Bool :=
  decide (w % 16 = 0) && decide (16 ≤ w) && decide (w ≤ 480) && decide (h % 16 = 0) && decide (16 ≤ h) && decide (h ≤ 320)

/-- The scheduler is HALTED and no job exists (R45 check 2). -/
def jobsIdle (c : Sched) : Bool := decide (c.state = .halted) && c.queue.isEmpty && !c.lanes.anyActive

/-- The changes of an accepted Set Geometry (R46). -/
def applyGeometry (w h : Nat) (s : State) : State :=
  let im := { s.image with width := w, height := h }
  { s with
    image := im
    writer := s.writer.toOrigin (fullArea im) s.writer.scan
    sched := { s.sched with marks := List.replicate (cellCount im) true } }

/-- The planes Read Pixels can select (R58). -/
def selectedPlane (im : Image) (sel : Byte) : Option Plane :=
  match sel.toNat with
  | 0 => some im.target
  | 1 => some im.shown
  | _ => none

/-! ### Commands -/

/-- SET_GEOMETRY (R45, R46). -/
def execSetGeometry (width height : Word) (s : State) : Host.Outcome State Fault Refusal :=
  .next
    (plainCommand (.setGeometry width height)
      (fun t =>
        if !geometryOk width.toNat height.toNat then .refuse .badValue []
        else if !jobsIdle t.sched then .refuse .geometryBusy []
        else .accept (applyGeometry width.toNat height.toNat t) [])
      s)

/-- SET_WINDOW (R52). -/
def execSetWindow (xs ys xe ye : Word) (s : State) : Host.Outcome State Fault Refusal :=
  .next
    (plainCommand (.setWindow xs ys xe ye)
      (fun t =>
        if (rectOf xs ys xe ye).Valid t.image.width t.image.height then
          .accept { t with writer := t.writer.toOrigin (rectOf xs ys xe ye) t.writer.scan } []
        else .refuse .badRect [])
      s)

/-- SET_CURSOR (R53). -/
def execSetCursor (x y : Word) (s : State) : Host.Outcome State Fault Refusal :=
  .next
    (plainCommand (.setCursor x y)
      (fun t =>
        if t.writer.window.Holds x.toNat y.toNat then
          .accept { t with writer := { t.writer with cx := x.toNat, cy := y.toNat } } []
        else .refuse .badCursor [])
      s)

/-- SET_SCAN (R54). -/
def execSetScan (code : Byte) (s : State) : Host.Outcome State Fault Refusal :=
  .next
    (plainCommand (.setScan code)
      (fun t =>
        if 7 < code.toNat then .refuse .badValue []
        else .accept { t with writer := t.writer.toOrigin t.writer.window (code.extractLsb' 0 3) } [])
      s)

/-- SET_PIXEL_OP (R55). -/
def execSetPixelOp (op key : Byte) (s : State) : Host.Outcome State Fault Refusal :=
  .next
    (plainCommand (.setPixelOp op key)
      (fun t =>
        match pixelOpOf op, levelOf key with
        | some o, some k => .accept { t with writer := { t.writer with op := o, key := k } } []
        | _, _ => .refuse .badValue [])
      s)

/-- What a stream of levels does: T, the cursor, WINDOW_WRAP (R56, R57). -/
def writeStream (levels : List Level) (s : State) : State :=
  let r := streamPixels s.writer s.image.target false levels
  { s with
    writer := r.1
    image := { s.image with target := r.2.1 }
    events := s.events.raiseIf r.2.2 .windowWrap }

/-- WRITE_PIXELS (R56, R57): no refusal case; the link has checked the length (R8). -/
def execWritePixels (data : List Byte) (s : State) : Host.Outcome State Fault Refusal :=
  if dataLengthOk 1 250 data then
    .next (plainCommand (.writePixels data) (fun t => .accept (writeStream (unpack data) t) []) s)
  else .refused .payloadLength

/-- READ_PIXELS (R58, R59). -/
def execReadPixels (plane count : Byte) (s : State) : Host.Outcome State Fault Refusal :=
  .next
    (plainCommand (.readPixels plane count)
      (fun t =>
        match selectedPlane t.image plane with
        | none => .refuse .badValue []
        | some p =>
          if count.toNat = 0 ∨ 250 < count.toNat then .refuse .badValue []
          else
            let r := readStream p t.writer false (4 * count.toNat)
            .accept { t with writer := r.1, events := t.events.raiseIf r.2.2 .windowWrap } (pack r.2.1))
      s)

/-- FILL_WINDOW (R60): every pixel of the window once, in scan order from the origin; the cursor ends at the origin. -/
def execFillWindow (level : Byte) (s : State) : Host.Outcome State Fault Refusal :=
  .next
    (plainCommand (.fillWindow level)
      (fun t =>
        match levelOf level with
        | none => .refuse .badValue []
        | some l =>
          .accept
            { t with
              image :=
                { t.image with
                  target := fillPixels t.writer l t.image.target (scanOrder t.writer.window t.writer.scan) }
              writer := t.writer.toOrigin t.writer.window t.writer.scan }
            [])
      s)

end Sys2Proof.Machine
end

