-- ==== Sys2Proof/Machine/Temperature.lean ====
section
/-! DEFINITION. Machine/Temperature.lean: the Temperature Monitor (section 8.2): samples, BAND, the out-of-range transition;
the commands SAMPLE_TEMPERATURE and PERIODIC_SAMPLE. -/

namespace Sys2Proof.Machine

/-- The band whose interval holds `t`, bounds given from band `k` on: bound b ≤ t < bound b + 1 (R79). -/
def bandFrom (t : Int) (k : Nat) : List Int → Option Nat
  | lo :: hi :: rest => if lo ≤ t ∧ t < hi then some k else bandFrom t (k + 1) (hi :: rest)
  | _ => none

/-- BAND: none while the table is UNSEALED, the temperature invalid, or outside every band (R137). -/
def bandOf (table : Option Snapshot) (temperature : Option Int) : Option Nat :=
  match table, temperature with
  | some tb, some t => bandFrom t 0 tb.bounds
  | _, _ => none

/-- The detail of a TEMP_OUT record (R137). -/
def tempOutDetail (m : TempMonitor) : Word :=
  if m.sensorFault then 0x8000#16
  else
    match m.temperature with
    | none => 0x8001#16
    | some t => 0#8 ++ signedByte t

/-- The two transitions of R137, from `before` to `after`: entry to the sensor fault condition sets SENSOR_FAULT; leaving
band sets TEMP_RANGE and writes TEMP_OUT. -/
def tempTransitions (before after : TempMonitor) (e : Events) : Events :=
  let e1 := e.raiseIf (!before.sensorFault && after.sensorFault) .sensorFault
  if before.inBand && !after.inBand then (e1.raise .tempRange).record .tempOut 0#8 (tempOutDetail after) else e1

/-- BAND is derived afresh and the transitions against `before` are acted on (R137). -/
def reviseBand (before : TempMonitor) (s : State) : State :=
  let after := { s.temp with band := bandOf s.wave.table s.temp.temperature }
  { s with temp := after, events := tempTransitions before after s.events }

/-- A sensor reading in whole degrees, the fraction dropped toward the lower degree; invalid outside −40..100 (R136). -/
def wholeDegrees (reading : Int) : Option Int :=
  if TempRange (reading / 1000) then some (reading / 1000) else none

/-- The temperature and the sensor fault condition a sample obtains (R136). -/
def sampled (p : Params) (sensed : SensorInput) : Option Int × Bool :=
  if p.tempOverride.getLsbD 15 then (some (lowSigned p.tempOverride), false)
  else if p.sensorSelect = 0#16 then (wholeDegrees sensed.internal, false)
  else
    match sensed.external with
    | none => (none, true)
    | some r => (wholeDegrees r, false)

/-- A sample (R135, R136, R137): the new temperature and fault condition, the sample count from SAMPLE_PERIOD, BAND. -/
def takeSample (sensed : SensorInput) (s : State) : State :=
  let r := sampled s.params sensed
  reviseBand s.temp
    { s with
      temp :=
        { s.temp with temperature := r.1, sensorFault := r.2, sampleCount := s.params.samplePeriod.toNat } }

/-- The temperature part of a tick step in Run: a sample when the count stands at 0, else one less (R135). -/
def temperaturePart (sensed : SensorInput) (s : State) : State :=
  if s.temp.sampleCount = 0 then takeSample sensed s
  else { s with temp := { s.temp with sampleCount := s.temp.sampleCount - 1 } }

/-! ### Commands -/

/-- SAMPLE_TEMPERATURE (R138). -/
def execSampleTemperature (sensed : SensorInput) (s : State) : Host.Outcome State Fault Refusal :=
  .next (plainCommand (.sampleTemperature sensed) (fun t => .accept (takeSample sensed t) []) s)

/-- PERIODIC_SAMPLE (R135): the event of a tick step in Run whose sample count stands at 0; otherwise it does not occur. -/
def execPeriodicSample (sensed : SensorInput) (s : State) : Host.Outcome State Fault Refusal :=
  .next (runStep (fun t => if t.temp.sampleCount = 0 then takeSample sensed t else t) s)

end Sys2Proof.Machine
end

