-- ==== Sys2Proof/Machine/Waveform.lean ====
section
/-! DEFINITION. Machine/Waveform.lean: the Waveform Table (chapter 5): the table image, its seven tests, the snapshot, the
drive lookup; LOAD_WAVEFORM_DATA, SEAL_WAVEFORM, UNSEAL_WAVEFORM. -/

namespace Sys2Proof.Machine

/-! ### Mode attributes -/

/-- The attribute byte of a mode in the snapshot (R77). -/
def Snapshot.attr (t : Snapshot) (m : Nat) : Byte := t.attrs.getD m 0#8

/-- GREY (Table 5-2). -/
def isGrey (a : Byte) : Bool := a.getLsbD 0

/-- BLIND (Table 5-2). -/
def isBlind (a : Byte) : Bool := a.getLsbD 1

/-- RECOVERY_OK (Table 5-2). -/
def isRecoveryOk (a : Byte) : Bool := a.getLsbD 2

/-! ### The table image (R77, R80) -/

/-- The 16-bit value at two bytes of the RAM, high byte first. -/
def ramWord (ram : List Host.Cell) (a : Nat) : Nat := (joinBytes (byteAt ram a) (byteAt ram (a + 1))).toNat

/-- Mode count M as found (byte 1). -/
def imageModes (ram : List Host.Cell) : Nat := (byteAt ram 1).toNat

/-- Band count B as found (byte 2). -/
def imageBands (ram : List Host.Cell) : Nat := (byteAt ram 2).toNat

/-- Total length Lt (bytes 4 and 5). -/
def imageLength (ram : List Host.Cell) : Nat := ramWord ram 4

/-- The index end E = 7 + M + B + 3·M·B (R77). -/
def indexEnd (m b : Nat) : Nat := 7 + m + b + 3 * m * b

/-- Attribute byte of mode `m` (R77). -/
def imageAttr (ram : List Host.Cell) (m : Nat) : Byte := byteAt ram (6 + m)

/-- The band bounds of an image with `m` modes and `b` bands, signed (R77, R79). -/
def imageBounds (ram : List Host.Cell) (m b : Nat) : List Int :=
  (List.range (b + 1)).map fun j => (byteAt ram (6 + m + j)).toInt

/-- Record offset o and phase count c of index entry `e` (R77, R80). -/
def indexEntry (ram : List Host.Cell) (m b e : Nat) : Nat × Nat :=
  (ramWord ram (7 + m + b + 3 * e), (byteAt ram (7 + m + b + 3 * e + 2)).toNat)

/-- The index entries of the image (R77). -/
def indexEntries (ram : List Host.Cell) (m b : Nat) : List (Nat × Nat) :=
  (List.range (m * b)).map (indexEntry ram m b)

/-! ### Validation (R85 to R88) -/

/-- Lt lies in 19..8192. -/
def lengthInRange (ram : List Host.Cell) : Bool :=
  decide (19 ≤ imageLength ram) && decide (imageLength ram ≤ Config.ramSize)

/-- FORMAT fails (R85): it examines at most six attribute bytes, without trusting the mode count. -/
def formatFails (ram : List Host.Cell) : Bool :=
  decide (byteAt ram 0 ≠ 0x51#8) || !lengthInRange ram
    || (List.range (min (imageModes ram) 6)).any fun m => decide (imageAttr ram m &&& 0xF8#8 ≠ 0#8)

/-- COUNTS fails (R85). -/
def countsFails (ram : List Host.Cell) : Bool :=
  decide (imageModes ram < 1) || decide (6 < imageModes ram) || decide (imageBands ram < 1)
    || decide (8 < imageBands ram)

/-- Each element is greater than the one before it. -/
def strictlyAscending : List Int → Bool
  | a :: b :: rest => decide (a < b) && strictlyAscending (b :: rest)
  | _ => true

/-- BANDS fails (R86). DESIGN CHOICE (log entry 32): with Lt of 19 or 20 and M + B of 13 or more the last bounds lie at Lt or
above, where R75 says that no byte is examined; the test reads all B + 1 bounds, as R86 says. -/
def bandsFails (ram : List Host.Cell) : Bool :=
  let bounds := imageBounds ram (imageModes ram) (imageBands ram)
  bounds.any (fun t => !decide (TempRange t)) || !strictlyAscending bounds

/-- INDEX fails (R86). -/
def indexFails (ram : List Host.Cell) : Bool :=
  let e := indexEnd (imageModes ram) (imageBands ram)
  let last := imageLength ram - 2
  decide (last < e)
    || (indexEntries ram (imageModes ram) (imageBands ram)).any fun oc =>
        decide (oc.2 = 0) || decide (24 < oc.2) || decide (oc.1 < e) || decide (last < oc.1 + 5 * oc.2)

/-- FRAMES fails (R86): a record reached by some entry has frame count 0. -/
def framesFails (ram : List Host.Cell) : Bool :=
  (indexEntries ram (imageModes ram) (imageBands ram)).any fun oc =>
    (List.range oc.2).any fun p => decide (byteAt ram (oc.1 + 5 * p) = 0#8)

/-- RECOVERY fails (R87). -/
def recoveryFails (ram : List Host.Cell) : Bool :=
  let r := (byteAt ram 3).toNat
  decide (imageModes ram ≤ r) || !isBlind (imageAttr ram r) || !isRecoveryOk (imageAttr ram r)
    || (List.range (imageModes ram)).any fun m => isRecoveryOk (imageAttr ram m) && !isBlind (imageAttr ram m)

/-- The computed CRC over bytes 0 to Lt − 3 (R82). -/
def computedCrc (ram : List Host.Cell) : Word := crc16 ((List.range (imageLength ram - 2)).map (byteAt ram))

/-- The stored CRC, bytes Lt − 2 and Lt − 1 (R82). -/
def storedCrc (ram : List Host.Cell) : Word :=
  joinBytes (byteAt ram (imageLength ram - 2)) (byteAt ram (imageLength ram - 1))

/-- The reason code of the first test that fails, in the order of Table 5-5; 0 when all pass. -/
def sealReason (ram : List Host.Cell) : Nat :=
  if formatFails ram then 1
  else if countsFails ram then 2
  else if bandsFails ram then 3
  else if indexFails ram then 4
  else if framesFails ram then 5
  else if recoveryFails ram then 6
  else if decide (computedCrc ram ≠ storedCrc ram) then 7
  else 0

/-- The response payload of every Seal Waveform (R88). -/
def sealPayload (ram : List Host.Cell) : List Byte :=
  byteOf (sealReason ram) :: wordBytes (if lengthInRange ram then computedCrc ram else 0#16)
    ++ [byteAt ram 1, byteAt ram 2]

/-- The snapshot taken at sealing (R77, R89). -/
def snapshotOf (ram : List Host.Cell) : Snapshot where
  modes := imageModes ram
  bands := imageBands ram
  recovery := (byteAt ram 3).toNat
  attrs := (List.range (imageModes ram)).map (imageAttr ram)
  bounds := imageBounds ram (imageModes ram) (imageBands ram)

/-! ### Sequences and the drive lookup -/

/-- Record offset and phase count of a mode's sequence in a band: entry m·B + b (R77, R92). -/
def sequenceOf (ram : List Host.Cell) (t : Snapshot) (mode band : Nat) : Nat × Nat :=
  indexEntry ram t.modes t.bands (mode * t.bands + band)

/-- Phase count of the sequence (R80). -/
def phaseCount (ram : List Host.Cell) (t : Snapshot) (mode band : Nat) : Nat := (sequenceOf ram t mode band).2

/-- Frame count of phase `p`: byte o + 5p (R80, R129). -/
def frameCountOf (ram : List Host.Cell) (t : Snapshot) (mode band p : Nat) : Nat :=
  (byteAt ram ((sequenceOf ram t mode band).1 + 5 * p)).toNat

/-- The drive code of a pixel with Latch level `latch` and Shown level `shown` (R92): drive byte 1 + from-level of the
phase record, field of the to-level. -/
def driveCode (ram : List Host.Cell) (t : Snapshot) (mode band p : Nat) (latch shown : Level) : Level :=
  let from_ := if isBlind (t.attr mode) then 0 else shown.toNat
  fieldOf (byteAt ram ((sequenceOf ram t mode band).1 + 5 * p + 1 + from_)) latch.toNat

/-! ### Commands -/

/-- LOAD_WAVEFORM_DATA (R83, R84). -/
def execLoadWaveformData (offset : Word) (data : List Byte) (s : State) : Host.Outcome State Fault Refusal :=
  if dataLengthOk 1 247 data then
    .next
      (plainCommand (.loadWaveformData offset data)
        (fun t =>
          if t.wave.table.isSome then .refuse .tableSealed []
          else if Config.ramSize < offset.toNat + data.length then .refuse .badValue []
          else
            .accept
              { t with
                wave := { t.wave with ram := Memory.writeRun Config.porByte t.wave.ram offset.toNat data } }
              [])
        s)
  else .refused .payloadLength

/-- The queued jobs a new mode count removes, and their records (R90). -/
def rejectJobs (modes : Nat) (s : State) : State :=
  let gone := s.sched.queue.filter fun j => decide (modes ≤ j.mode)
  { s with
    sched := { s.sched with queue := s.sched.queue.filter fun j => decide (j.mode < modes) }
    events := gone.foldl (fun e j => (e.record .rejected j.ticket (wordOf j.mode)).raise .jobFail) s.events }

/-- The work of a successful seal (R89): snapshot, rejections, BAND. -/
def sealTable (s : State) : State :=
  let t := snapshotOf s.wave.ram
  reviseBand s.temp (rejectJobs t.modes { s with wave := { s.wave with table := some t } })

/-- SEAL_WAVEFORM (R85 to R90). -/
def execSealWaveform (s : State) : Host.Outcome State Fault Refusal :=
  .next
    (plainCommand .sealWaveform
      (fun t =>
        if sealReason t.wave.ram = 0 then .accept (sealTable t) (sealPayload t.wave.ram)
        else .refuse .tableInvalid (sealPayload t.wave.ram))
      s)

/-- UNSEAL_WAVEFORM (R91). -/
def execUnsealWaveform (s : State) : Host.Outcome State Fault Refusal :=
  .next
    (plainCommand .unsealWaveform
      (fun t =>
        if t.sched.lanes.anyActive then .refuse .tableBusy []
        else .accept (reviseBand t.temp { t with wave := { t.wave with table := none } }) [])
      s)

end Sys2Proof.Machine
end

