-- ==== Sys2Proof/Machine/Scheduler.lean ====
section
/-! DEFINITION. Machine/Scheduler.lean: the Scheduler (chapter 6): tickets, activation, completion, abort, cancellation, the
uncertain map; READ_UNCERTAIN_MAP, MARK_UNCERTAIN, SUBMIT_JOB, CANCEL_JOB, ABORT_JOB, FLUSH_QUEUE, START_SCHEDULER,
HALT_SCHEDULER, CLEAR_HOLD, QUERY_JOB and the events COMPLETED, ABORTED, ACTIVATED, QUIESCE_TO_HALTED,
PARKING_TO_HOLDING, PHASE_ADVANCE. -/

namespace Sys2Proof.Machine

/-! ### Tickets -/

/-- The ticket after `t`: 255 is followed by 1 (R95). -/
def ticketAfter (t : Byte) : Byte := if t = 255#8 then 1#8 else t + 1#8

/-- The first candidate from `t` on that no job holds; at most `n` candidates are tried (R95). -/
def freeTicket (c : Sched) : Nat → Byte → Byte
  | 0, t => t
  | n + 1, t => if c.held t then freeTicket c n (ticketAfter t) else t

/-- The ticket an accepted Submit Job gives: among the first thirteen candidates there is a free one (R95). -/
def nextFreeTicket (c : Sched) : Byte := freeTicket c 13 c.nextTicket

/-! ### Cancellation -/

/-- Why a queued job is cancelled: the detail of its record (Table 9-4). -/
def cancelHost : Word := 0x0001#16

/-- Reason FLUSH (R114). -/
def cancelFlush : Word := 0x0002#16

/-- Reason PARK (R114, R165). -/
def cancelPark : Word := 0x0003#16

/-- CANCELLED records, one for each job, in the order given (R112, R114). -/
def recordCancelled (reason : Word) (jobs : List Job) (e : Events) : Events :=
  jobs.foldl (fun e j => e.record .cancelled j.ticket reason) e

/-- Every QUEUED job is removed, in queue order, each with a CANCELLED record (R113, R114). -/
def cancelAll (reason : Word) (s : State) : State :=
  { s with
    sched := { s.sched with queue := [] }
    events := recordCancelled reason s.sched.queue s.events }

/-- One QUEUED job is cancelled with reason HOST (R112). -/
def cancelOne (j : Job) (s : State) : State :=
  { s with
    sched := { s.sched with queue := s.sched.queue.erase j }
    events := recordCancelled cancelHost [j] s.events }

/-! ### Activation, completion, abort -/

/-- Levels 0 and 1 become 0, levels 2 and 3 become 3 (R78, R108). -/
def roundLevel (l : Level) : Level := if l.toNat < 2 then 0#2 else 3#2

/-- The level latched for a Target level: unchanged with GREY, else rounded (R108). -/
def latchLevel (grey : Bool) (l : Level) : Level := if grey then l else roundLevel l

/-- The region touches an uncertain cell and the requested mode lacks RECOVERY_OK (R107). -/
def isUpgraded (t : Snapshot) (im : Image) (c : Sched) (j : Job) : Bool :=
  touchesMarked (cellColumns im) j.region c.marks && !isRecoveryOk (t.attr j.mode)

/-- The effective mode (R107). -/
def effectiveMode (t : Snapshot) (im : Image) (c : Sched) (j : Job) : Nat :=
  if isUpgraded t im c j then t.recovery else j.mode

/-- The detail of an ACTIVATED record: lane, band, effective mode, UPGRADED (R108). -/
def activatedDetail (k : Fin 4) (band mode : Nat) (upgraded : Bool) : Word :=
  wordOf (4096 * k.val + 256 * band + 16 * mode + (if upgraded then 1 else 0))

/-- The job as it enters its lane (R107, R108). -/
def activeJob (ram : List Host.Cell) (t : Snapshot) (im : Image) (c : Sched) (band : Nat) (j : Job) : ActiveJob :=
  let eff := effectiveMode t im c j
  { job := j
    effMode := eff
    band := band
    upgraded := isUpgraded t im c j
    phase := 0
    remaining := frameCountOf ram t eff band 0
    total := 0
    abortPending := false }

/-- Activation of a queued job into a lane (R107, R108): latch copy, lane, ACTIVATED record. It is called only with the
table SEALED and a band (R104). -/
def activateWith (t : Snapshot) (band : Nat) (j : Job) (k : Fin 4) (s : State) : State :=
  let a := activeJob s.wave.ram t s.image s.sched band j
  { s with
    image :=
      { s.image with
        latch :=
          Plane.paint (fun x y => latchLevel (isGrey (t.attr a.effMode)) (Plane.get s.image.target x y))
            s.image.latch j.region.raster }
    sched := { s.sched with queue := s.sched.queue.erase j, lanes := s.sched.lanes.set k (some a) }
    events := s.events.record .activated j.ticket (activatedDetail k band a.effMode a.upgraded) }

/-- Activation where the table and BAND allow it; otherwise nothing (R104). -/
def activate (j : Job) (k : Fin 4) (s : State) : State :=
  match s.wave.table, s.temp.band with
  | some t, some b => activateWith t b j k s
  | _, _ => s

/-- Completion of the job in a lane (R109). -/
def completeJob (t : Snapshot) (k : Fin 4) (a : ActiveJob) (s : State) : State :=
  { s with
    image :=
      { s.image with
        shown := Plane.paint (fun x y => Plane.get s.image.latch x y) s.image.shown a.job.region.raster }
    sched :=
      { s.sched with
        marks :=
          if isRecoveryOk (t.attr a.effMode) then clearCovered (cellColumns s.image) a.job.region s.sched.marks
          else s.sched.marks
        lanes := s.sched.lanes.set k none }
    events :=
      (s.events.record .completed a.job.ticket (wordOf a.total)).raiseIf a.job.notify .jobDone }

/-- The record and flag of an abort: for HOST and FAULT only (R110). -/
def abortEvents (cause : AbortCause) (ticket : Byte) (e : Events) : Events :=
  match cause with
  | .host => (e.record .aborted ticket 0x0001#16).raise .jobFail
  | .fault => (e.record .aborted ticket 0x0002#16).raise .jobFail
  | .reset => e

/-- The abort procedure for the job in a lane, whatever the cause (R110); a free lane is skipped. -/
def abortLane (cause : AbortCause) (k : Fin 4) (s : State) : State :=
  match s.sched.lanes.get k with
  | none => s
  | some a =>
    { s with
      sched :=
        { s.sched with
          lanes := s.sched.lanes.set k none
          marks := markTouched (cellColumns s.image) a.job.region s.sched.marks }
      events := abortEvents cause a.job.ticket s.events }

/-- Every ACTIVE job is aborted, in lane order (R110, R144). -/
def abortAll (cause : AbortCause) (s : State) : State := laneOrder.foldl (fun u k => abortLane cause k u) s

/-! ### One boundary's progress of a lane -/

/-- The frame that ends is the last of its phase (R128). -/
def ActiveJob.endsPhase (a : ActiveJob) : Bool := decide (a.remaining ≤ 1)

/-- The phase is the last of the job's sequence (R128). -/
def lastPhase (ram : List Host.Cell) (t : Snapshot) (a : ActiveJob) : Bool :=
  decide (phaseCount ram t a.effMode a.band ≤ a.phase + 1)

/-- One frame accounted for: frames remaining one less, running frame total one more (R128 item 1). -/
def ActiveJob.count (a : ActiveJob) : ActiveJob := { a with remaining := a.remaining - 1, total := a.total + 1 }

/-- The next phase, with its frame count (R128 item 3, R129). -/
def ActiveJob.nextPhase (ram : List Host.Cell) (t : Snapshot) (a : ActiveJob) : ActiveJob :=
  { a with phase := a.phase + 1, remaining := frameCountOf ram t a.effMode a.band (a.phase + 1) }

/-- The lane holds `a`. -/
def setLane (k : Fin 4) (a : ActiveJob) (s : State) : State :=
  { s with sched := { s.sched with lanes := s.sched.lanes.set k (some a) } }

/-! ### Scheduler transitions of a boundary (R103) -/

/-- QUIESCING with no ACTIVE job. -/
def State.quiesced (s : State) : Bool := decide (s.sched.state = .quiescing) && !s.sched.lanes.anyActive

/-- PARKING with no ACTIVE job. -/
def State.parked (s : State) : Bool := decide (s.sched.state = .parking) && !s.sched.lanes.anyActive

/-- The scheduler state becomes `x`. -/
def setSched (x : SchedState) (s : State) : State := { s with sched := { s.sched with state := x } }

/-- The flag becomes set. -/
def raiseFlag (f : EventFlag) (s : State) : State := { s with events := s.events.raise f }

/-! ### Host commands -/

/-- READ_UNCERTAIN_MAP (R118): the count and one bit for each cell. -/
def execReadUncertainMap (s : State) : Host.Outcome State Fault Refusal :=
  .next
    (plainCommand .readUncertainMap
      (fun t =>
        .accept t
          (wordBytes (wordOf (countTrue t.sched.marks))
            ++ markBytes ((cellCount t.image + 7) / 8) (t.sched.marks.take (cellCount t.image))))
      s)

/-- MARK_UNCERTAIN (R117). -/
def execMarkUncertain (xs ys xe ye : Word) (s : State) : Host.Outcome State Fault Refusal :=
  .next
    (plainCommand (.markUncertain xs ys xe ye)
      (fun t =>
        if (rectOf xs ys xe ye).Valid t.image.width t.image.height then
          .accept
            { t with
              sched :=
                { t.sched with
                  marks := markTouched (cellColumns t.image) (rectOf xs ys xe ye) t.sched.marks } }
            []
        else .refuse .badRect [])
      s)

/-- The response payload of Submit Job (R99). -/
def submitPayload (ticket : Byte) (depth superseded : Nat) : List Byte := [ticket, byteOf depth, byteOf superseded]

/-- The queued jobs a new job supersedes: with COALESCE, those of identical region and requested mode (R98). -/
def supersededJobs (new : Job) (q : List Job) : List Job :=
  if new.coalesce then q.filter fun j => decide (j.region = new.region ∧ j.mode = new.mode) else []

/-- The queued jobs that stay (R98). -/
def keptJobs (new : Job) (q : List Job) : List Job :=
  if new.coalesce then q.filter fun j => !decide (j.region = new.region ∧ j.mode = new.mode) else q

/-- The work of an accepted Submit Job: SUPERSEDED records, the new job at the tail, NEXT_TICKET (R95, R98, R99). -/
def submit (new : Job) (s : State) : State :=
  { s with
    sched :=
      { s.sched with
        queue := keptJobs new s.sched.queue ++ [new]
        nextTicket := ticketAfter new.ticket }
    events :=
      (supersededJobs new s.sched.queue).foldl
        (fun e j => e.record .superseded j.ticket (0#8 ++ new.ticket)) s.events }

/-- SUBMIT_JOB (R97 to R99): NO_TABLE, BAD_RECT, BAD_MODE, QUEUE_FULL, in this order. -/
def execSubmitJob (xs ys xe ye : Word) (mode options : Byte) (s : State) : Host.Outcome State Fault Refusal :=
  .next
    (plainCommand (.submitJob xs ys xe ye mode options)
      (fun t =>
        let refusal := submitPayload 0#8 t.sched.queue.length 0
        match t.wave.table with
        | none => .refuse .noTable refusal
        | some tb =>
          if ¬ (rectOf xs ys xe ye).Valid t.image.width t.image.height then .refuse .badRect refusal
          else if tb.modes ≤ mode.toNat then .refuse .badMode refusal
          else
            let new : Job :=
              { ticket := nextFreeTicket t.sched
                region := rectOf xs ys xe ye
                mode := mode.toNat
                notify := options.getLsbD 0
                coalesce := options.getLsbD 1 }
            if Config.queueSize ≤ (keptJobs new t.sched.queue).length then .refuse .queueFull refusal
            else
              .accept (submit new t)
                (submitPayload new.ticket (submit new t).sched.queue.length
                  (supersededJobs new t.sched.queue).length))
      s)

/-- CANCEL_JOB (R112). -/
def execCancelJob (ticket : Byte) (s : State) : Host.Outcome State Fault Refusal :=
  .next
    (plainCommand (.cancelJob ticket)
      (fun t =>
        match findQueued t.sched.queue ticket with
        | some j => .accept (cancelOne j t) []
        | none =>
          match t.sched.lanes.find ticket with
          | some _ => .refuse .jobActive []
          | none => .refuse .noSuchJob [])
      s)

/-- The ACTIVE job becomes abort-pending (R113). -/
def ActiveJob.pend (a : ActiveJob) : ActiveJob := { a with abortPending := true }

/-- The job in lane `k` becomes abort-pending (R113). -/
def pendLane (k : Fin 4) (s : State) : State :=
  { s with sched := { s.sched with lanes := s.sched.lanes.set k ((s.sched.lanes.get k).map ActiveJob.pend) } }

/-- Every ACTIVE job becomes abort-pending (R113). -/
def pendAll (s : State) : State :=
  { s with
    sched :=
      { s.sched with
        lanes :=
          ⟨s.sched.lanes.l0.map ActiveJob.pend, s.sched.lanes.l1.map ActiveJob.pend,
            s.sched.lanes.l2.map ActiveJob.pend, s.sched.lanes.l3.map ActiveJob.pend⟩ } }

/-- ABORT_JOB (R113); ticket 0 names every job. -/
def execAbortJob (ticket : Byte) (s : State) : Host.Outcome State Fault Refusal :=
  .next
    (plainCommand (.abortJob ticket)
      (fun t =>
        if ticket = 0#8 then .accept (pendAll (cancelAll cancelHost t)) []
        else
          match findQueued t.sched.queue ticket with
          | some j => .accept (cancelOne j t) []
          | none =>
            match t.sched.lanes.find ticket with
            | some k => .accept (pendLane k t) []
            | none => .refuse .noSuchJob [])
      s)

/-- FLUSH_QUEUE (R114). -/
def execFlushQueue (s : State) : Host.Outcome State Fault Refusal :=
  .next (plainCommand .flushQueue (fun t => .accept (cancelAll cancelFlush t) []) s)

/-- START_SCHEDULER (R100). -/
def execStartScheduler (s : State) : Host.Outcome State Fault Refusal :=
  .next
    (plainCommand .startScheduler
      (fun t =>
        match t.sched.state with
        | .halted | .quiescing => .accept (setSched .running t) []
        | .running => .accept t []
        | .parking | .holding => .refuse .badState [])
      s)

/-- HALT_SCHEDULER (R101). -/
def execHaltScheduler (s : State) : Host.Outcome State Fault Refusal :=
  .next
    (plainCommand .haltScheduler
      (fun t =>
        match t.sched.state with
        | .running => .accept (setSched (if t.sched.lanes.anyActive then .quiescing else .halted) t) []
        | .halted | .quiescing => .accept t []
        | .parking | .holding => .refuse .badState [])
      s)

/-- The work of an accepted Clear Hold (R102). -/
def clearHold (s : State) : State :=
  { s with
    sched := { s.sched with state := .halted }
    supply :=
      { s.supply with
        rail := if s.supply.rail = .fault then .off else s.supply.rail
        faultKind := .none } }

/-- CLEAR_HOLD (R102). -/
def execClearHold (s : State) : Host.Outcome State Fault Refusal :=
  .next
    (plainCommand .clearHold
      (fun t => if t.sched.state = .holding then .accept (clearHold t) [] else .refuse .badState []) s)

/-- Byte 8 of a Query Job response (R115). -/
def queryFlags (abortPending upgraded : Bool) (j : Job) : Byte :=
  byteOf ((if abortPending then 1 else 0) + (if upgraded then 2 else 0) + (if j.notify then 4 else 0)
    + (if j.coalesce then 8 else 0))

/-- Query Job's payload for a QUEUED job at a position of the queue (R115). -/
def queuedPayload (pos : Nat) (j : Job) : List Byte :=
  [j.ticket, 0#8, byteOf pos, byteOf j.mode, 0xFF#8, 0xFF#8, 0xFF#8, 0#8, queryFlags false false j, 0#8, 0#8]

/-- Query Job's payload for an ACTIVE job in a lane (R115). -/
def activePayload (k : Fin 4) (a : ActiveJob) : List Byte :=
  [a.job.ticket, 1#8, byteOf k.val, byteOf a.job.mode, byteOf a.effMode, byteOf a.band, byteOf a.phase,
    byteOf a.remaining, queryFlags a.abortPending a.upgraded a.job] ++ wordBytes (wordOf a.total)

/-- QUERY_JOB (R115). -/
def execQueryJob (ticket : Byte) (s : State) : Host.Outcome State Fault Refusal :=
  .next
    (plainCommand (.queryJob ticket)
      (fun t =>
        match findQueued t.sched.queue ticket with
        | some j => .accept t (queuedPayload (t.sched.queue.findIdx fun q => q.ticket == ticket) j)
        | none =>
          match t.sched.lanes.find ticket with
          | some k =>
            match t.sched.lanes.get k with
            | some a => .accept t (activePayload k a)
            | none => .refuse .noSuchJob []
          | none => .refuse .noSuchJob [])
      s)

/-! ### Events of a frame boundary step, each on its own (log entry 1) -/

/-- A lane holds a job while the table is UNSEALED, which R76 rules out. -/
def State.tableMissing (s : State) : Bool := s.sched.lanes.anyActive && s.wave.table.isNone

/-- An event of a boundary step for the job in a lane, in Run (R29); `work` sees the sealed table and the job. -/
def laneEvent (k : Fin 4) (work : Snapshot → ActiveJob → State → State) (s : State) :
    Host.Outcome State Fault Refusal :=
  if s.inRun && s.tableMissing then .fault .activeWithoutTable
  else
    .next
      (runStep
        (fun u =>
          match u.wave.table, u.sched.lanes.get k with
          | some t, some a => work t a u
          | _, _ => u)
        s)

/-- PHASE_ADVANCE (R128, R129): the last frame of a phase that is not the sequence's last has ended. -/
def execPhaseAdvance (lane : Fin 4) (s : State) : Host.Outcome State Fault Refusal :=
  laneEvent lane
    (fun t a u =>
      if a.endsPhase && !lastPhase u.wave.ram t a then setLane lane (a.count.nextPhase u.wave.ram t) u else u)
    s

/-- COMPLETED (R109, R128): the last frame of the last phase has ended. -/
def execCompleted (lane : Fin 4) (s : State) : Host.Outcome State Fault Refusal :=
  laneEvent lane
    (fun t a u => if a.endsPhase && lastPhase u.wave.ram t a then completeJob t lane a.count u else u) s

/-- ABORTED (R110): cause HOST acts on an abort-pending job only, and not on one whose last phase has ended (R111). -/
def execAborted (lane : Fin 4) (cause : AbortCause) (s : State) : Host.Outcome State Fault Refusal :=
  .next
    (runStep
      (fun u =>
        match cause with
        | .host =>
          match u.wave.table, u.sched.lanes.get lane with
          | some t, some a =>
            if a.abortPending && !(a.endsPhase && lastPhase u.wave.ram t a) then abortLane .host lane u else u
          | _, _ => u
        | .fault => abortLane .fault lane u
        | .reset => abortLane .reset lane u)
      s)

/-- QUIESCE_TO_HALTED (R103, R119): the change at step 2 of a boundary step and the SCHED_IDLE it causes. -/
def execQuiesceToHalted (s : State) : Host.Outcome State Fault Refusal :=
  .next (runStep (fun u => if u.quiesced then raiseFlag .schedIdle (setSched .halted u) else u) s)

/-- PARKING_TO_HOLDING (R103). -/
def execParkingToHolding (s : State) : Host.Outcome State Fault Refusal :=
  .next (runStep (fun u => if u.parked then setSched .holding u else u) s)

/-- ACTIVATED (R104 to R108): the job that admission's examination of the queue reaches first as eligible is activated
into the lowest-numbered free lane. -/
def execActivated (s : State) : Host.Outcome State Fault Refusal :=
  .next
    (runStep
      (fun u =>
        if u.mayAdmit && decide (u.supply.rail = .ready) then
          match u.sched.eligible with
          | (j, k) :: _ => activate j k u
          | [] => u
        else u)
      s)

end Sys2Proof.Machine
end

