-- ==== Sys2Proof/Machine/Supply.lean ====
section
/-! DEFINITION. Machine/Supply.lean: the Panel Supply (section 8.3): faults, ramps, holds and drains; RAILS_ON, RAILS_OFF, the
supply steps RAIL_GOOD, RAIL_LOST, OVERCURRENT, DRAIN_DONE, and the tick events POWER_REQUEST_RAMP, RAMP_TIMEOUT,
RAIL_HOLD_EXPIRY, DRAIN_SLOW. -/

namespace Sys2Proof.Machine

/-- The rail control outputs enable the high-voltage supply (R139). -/
def railsEnabled (r : RailState) : Bool := decide (r = .ramping) || decide (r = .ready)

/-! ### Shared work -/

/-- The supply entering RAMPING: the ramp count from RAMP_LIMIT (R141). -/
def Supply.ramp (p : Params) (u : Supply) : Supply :=
  { u with rail := .ramping, rampCount := p.rampLimit.toNat, holdCount := 0, drainCount := 0 }

/-- The supply entering READY: the ramp count stops, the hold count from RAIL_HOLD (R140). -/
def Supply.makeReady (p : Params) (u : Supply) : Supply :=
  { u with rail := .ready, rampCount := 0, holdCount := p.railHold.toNat, drainCount := 0 }

/-- The supply entering DRAINING: the other counts stop, the drain count from DRAIN_LIMIT (R142, R147). -/
def Supply.drain (p : Params) (u : Supply) : Supply :=
  { u with rail := .draining, rampCount := 0, holdCount := 0, drainCount := p.drainLimit.toNat }

/-- The supply reaching OFF: no count runs (R139, R143). -/
def Supply.turnOff (u : Supply) : Supply := { u with rail := .off, rampCount := 0, holdCount := 0, drainCount := 0 }

/-- The supply entering FAULT: steps 1 to 3 of R144. -/
def Supply.fail (kind : FaultKind) (u : Supply) : Supply :=
  { rail := .fault, rampCount := 0, drainCount := 0, holdCount := 0, faultKind := kind
    faultCount := satInc u.faultCount }

/-- A driving frame turns idle: the end-of-drive indication (R126, R132). -/
def Sequencer.stopDrive (q : Sequencer) : Sequencer :=
  { q with
    frame := .idle
    driveCodes := []
    endOfDrives := if q.frame = .driving then q.endOfDrives + 1 else q.endOfDrives }

/-- Entry to FAULT (R144): supply, RAIL_FAULT record and flag, every ACTIVE job aborted with cause FAULT, HOLDING; a driving
frame turns idle (R132). -/
def enterFault (kind : FaultKind) (s : State) : State :=
  let t :=
    { s with
      supply := s.supply.fail kind
      seq := s.seq.stopDrive
      events := (s.events.record .railFault 0#8 (wordOf kind.code)).raise .railFault }
  setSched .holding (abortAll .fault t)

/-- A second fault: FAULT_COUNT alone (R145). -/
def countFault (s : State) : State :=
  { s with supply := { s.supply with faultCount := satInc s.supply.faultCount } }

/-- The end of a drain: OFF and RAILS_OFF (R143). -/
def endDrain (s : State) : State :=
  { s with supply := s.supply.turnOff, events := s.events.raise .railsOff }

/-- The end of a drain by its count: OFF, the DRAIN_SLOW record, RAILS_OFF (R143). -/
def slowDrain (s : State) : State :=
  { s with
    supply := s.supply.turnOff
    events := (s.events.record .drainSlow 0#8 0#16).raise .railsOff }

/-- The tick finds the rails OFF and the power request set (R141). -/
def rampDue (s : State) : Bool := decide (s.supply.rail = .off) && s.sched.powerRequest

/-- This tick's decrement brings the ramp count to 0 (R141). -/
def rampExpires (s : State) : Bool := decide (s.supply.rail = .ramping) && decide (s.supply.rampCount ≤ 1)

/-- The tick finds READY rails, no lane in use and the power request clear (R142). -/
def holdIdle (s : State) : Bool :=
  decide (s.supply.rail = .ready) && !s.sched.lanes.anyActive && !s.sched.powerRequest

/-- This idle tick ends the hold: the count is 0 or 1 (R142). -/
def holdExpires (s : State) : Bool := holdIdle s && decide (s.supply.holdCount ≤ 1)

/-- This tick's decrement brings the drain count to 0 (R143). -/
def drainExpires (s : State) : Bool := decide (s.supply.rail = .draining) && decide (s.supply.drainCount ≤ 1)

/-- The supply part of a tick step, by the rail state it begins with (R141, R142, R143). -/
def supplyPart (s : State) : State :=
  match s.supply.rail with
  | .off => if s.sched.powerRequest then { s with supply := s.supply.ramp s.params } else s
  | .ramping =>
    if rampExpires s then enterFault .rampTimeout s
    else { s with supply := { s.supply with rampCount := s.supply.rampCount - 1 } }
  | .ready =>
    if holdExpires s then { s with supply := s.supply.drain s.params }
    else if holdIdle s then { s with supply := { s.supply with holdCount := s.supply.holdCount - 1 } }
    else s
  | .draining =>
    if drainExpires s then slowDrain s
    else { s with supply := { s.supply with drainCount := s.supply.drainCount - 1 } }
  | .fault => s

/-! ### Commands -/

/-- RAILS_ON (R146). -/
def execRailsOn (s : State) : Host.Outcome State Fault Refusal :=
  .next
    (plainCommand .railsOn
      (fun t =>
        match t.supply.rail with
        | .off => .accept { t with supply := t.supply.ramp t.params } []
        | .ramping | .ready => .accept t []
        | .draining | .fault => .refuse .badState [])
      s)

/-- RAILS_OFF (R147). -/
def execRailsOff (s : State) : Host.Outcome State Fault Refusal :=
  .next
    (plainCommand .railsOff
      (fun t =>
        match t.supply.rail with
        | .ready =>
          if t.sched.lanes.anyActive then .refuse .railsBusy []
          else .accept { t with supply := t.supply.drain t.params } []
        | .ramping => .accept { t with supply := t.supply.drain t.params } []
        | .off | .draining | .fault => .accept t [])
      s)

/-! ### Supply steps (R140) -/

/-- RAIL_GOOD. -/
def execRailGood (s : State) : Host.Outcome State Fault Refusal :=
  .next
    (otherStep
      (fun t =>
        match t.supply.rail with
        | .ramping => { t with supply := t.supply.makeReady t.params, events := t.events.raise .railsReady }
        | .off | .ready | .draining | .fault => t)
      s)

/-- RAIL_LOST. -/
def execRailLost (s : State) : Host.Outcome State Fault Refusal :=
  .next
    (otherStep
      (fun t =>
        match t.supply.rail with
        | .ready => enterFault .undervolt t
        | .fault => countFault t
        | .off | .ramping | .draining => t)
      s)

/-- OVERCURRENT. -/
def execOvercurrent (s : State) : Host.Outcome State Fault Refusal :=
  .next
    (otherStep
      (fun t =>
        match t.supply.rail with
        | .ramping | .ready | .draining => enterFault .overcurrent t
        | .fault => countFault t
        | .off => t)
      s)

/-- DRAIN_DONE. -/
def execDrainDone (s : State) : Host.Outcome State Fault Refusal :=
  .next
    (otherStep
      (fun t =>
        match t.supply.rail with
        | .draining => endDrain t
        | .off | .ramping | .ready | .fault => t)
      s)

/-! ### Events of a tick step, each on its own (log entry 1) -/

/-- POWER_REQUEST_RAMP (R141). -/
def execPowerRequestRamp (s : State) : Host.Outcome State Fault Refusal :=
  .next (otherStep (fun t => if rampDue t then { t with supply := t.supply.ramp t.params } else t) s)

/-- RAMP_TIMEOUT (R141, R144). -/
def execRampTimeout (s : State) : Host.Outcome State Fault Refusal :=
  .next (otherStep (fun t => if rampExpires t then enterFault .rampTimeout t else t) s)

/-- RAIL_HOLD_EXPIRY (R142). -/
def execRailHoldExpiry (s : State) : Host.Outcome State Fault Refusal :=
  .next (otherStep (fun t => if holdExpires t then { t with supply := t.supply.drain t.params } else t) s)

/-- DRAIN_SLOW (R143). -/
def execDrainSlow (s : State) : Host.Outcome State Fault Refusal :=
  .next (otherStep (fun t => if drainExpires t then slowDrain t else t) s)

end Sys2Proof.Machine
end

