-- ==== Sys2Proof/Machine/Sequencer.lean ====
section
/-! DEFINITION. Machine/Sequencer.lean: the Drive Sequencer (chapter 7): the lanes' progress, the order of the frame boundary
step, the kind of a frame, the drive codes at the panel port; FRAME_BOUNDARY. -/

namespace Sys2Proof.Machine

/-! ### The panel port -/

/-- The job in whose region pixel (x, y) lies (R125). -/
def jobAt (l : Lanes) (x y : Nat) : Option ActiveJob := l.active.find? fun a => decide (a.job.region.Holds x y)

/-- The code for a pixel in a driving frame: the drive lookup inside a lane's region, NEUTRAL elsewhere (R125, R92). -/
def panelCode (s : State) (t : Snapshot) (x y : Nat) : Level :=
  match jobAt s.sched.lanes x y with
  | some a =>
    driveCode s.wave.ram t a.effMode a.band a.phase (Plane.get s.image.latch x y) (Plane.get s.image.shown x y)
  | none => 0#2

/-- The codes of a driving frame: one for each pixel of the active area, in raster order (R125). -/
def frameCodes (s : State) : List Level :=
  match s.wave.table with
  | some t => (fullArea s.image).raster.map fun xy => panelCode s t xy.1 xy.2
  | none => []

/-- The frame that begins drives: rails READY and some lane holds a job (R124). -/
def drivesNow (s : State) : Bool := decide (s.supply.rail = .ready) && s.sched.lanes.anyActive

/-- The next frame begins (R121, R122, R124, R125, R126): its kind and rate are decided; a driving frame's codes are
transferred; an idle frame after a driving one sends the end-of-drive indication. Its boundary has not fallen yet (R27,
R28). -/
def beginFrame (s : State) : State :=
  if drivesNow s then
    { s with
      seq := { s.seq with frame := .driving, rateInForce := s.params.frameRate, driveCodes := frameCodes s }
      arbiter := s.arbiter.dropBoundary }
  else
    { s with
      seq := { s.seq.stopDrive with rateInForce := s.params.frameRate }
      arbiter := s.arbiter.dropBoundary }

/-! ### The parts of a frame boundary step (Table 7-2) -/

/-- Opening: FRAME_COUNT advances, wrapping (R123). -/
def countFrame (s : State) : State := { s with seq := { s.seq with frameCount := s.seq.frameCount + 1#16 } }

/-- Items 1 to 3 of R128: one frame accounted for, and the next phase when its phase has ended. -/
def progressed (ram : List Host.Cell) (t : Snapshot) (a : ActiveJob) : ActiveJob :=
  if a.endsPhase then a.count.nextPhase ram t else a.count

/-- Step 1 for one lane (R128): completion, or progress and then the pending abort; a free lane is skipped. -/
def advanceLane (t : Snapshot) (k : Fin 4) (s : State) : State :=
  match s.sched.lanes.get k with
  | none => s
  | some a =>
    if a.endsPhase && lastPhase s.wave.ram t a then completeJob t k a.count s
    else
      let u := setLane k (progressed s.wave.ram t a) s
      if a.abortPending then abortLane .host k u else u

/-- Step 1: lanes 0 to 3 in order (R127, R128). -/
def advanceLanes (s : State) : State :=
  match s.wave.table with
  | some t => laneOrder.foldl (fun u k => advanceLane t k u) s
  | none => s

/-- Step 2: QUIESCING or PARKING with no ACTIVE job (R103, R130). -/
def settleScheduler (s : State) : State :=
  if s.quiesced then setSched .halted s else if s.parked then setSched .holding s else s

/-- The conditions of admission (R104). -/
def admissionOpen (s : State) : Bool := s.mayAdmit && decide (s.supply.rail = .ready)

/-- Step 3: admission and activation, in queue order (R104, R105, R130). -/
def admitJobs (s : State) : State :=
  if admissionOpen s then s.sched.eligible.foldl (fun u jk => activate jk.1 jk.2 u) s else s

/-- Step 4: the power request is set when its condition holds (R106, R131). -/
def raisePowerRequest (s : State) : State :=
  { s with sched := { s.sched with powerRequest := s.sched.powerRequest || s.powerCondition } }

/-- The queue or the active set holds a job (R119). -/
def anyJob (c : Sched) : Bool := !c.queue.isEmpty || c.lanes.anyActive

/-- Step 5: SCHED_IDLE, then the work mark (R119). `justHalted`: step 2 of this boundary went from QUIESCING to HALTED. -/
def markWork (justHalted : Bool) (s : State) : State :=
  let idle := justHalted || (decide (s.sched.state = .running) && !anyJob s.sched && s.sched.workMark)
  { s with
    events := s.events.raiseIf idle .schedIdle
    sched := { s.sched with workMark := anyJob s.sched } }

/-- A frame boundary step up to its close (R127). -/
def boundaryWork (s : State) : State :=
  let s1 := advanceLanes (countFrame s)
  markWork s1.quiesced (raisePowerRequest (admitJobs (settleScheduler s1)))

/-! ### The order of the boundary step's writes, for a step that a PIN reset cuts short (R133) -/

/-- One write of a boundary step that outlives a retaining reset: a pixel of a completion copy, a pixel of a latch copy, or
the point at which a job has been activated. -/
inductive BoundaryWrite where
  | shown (x y : Nat) (v : Level)
  | latch (x y : Nat) (v : Level)
  | activation (region : Rect)
  deriving DecidableEq, Repr

/-- The job in a lane whose completion this boundary makes (R128 item 4). -/
def completing (t : Snapshot) (s : State) (k : Fin 4) : Option ActiveJob :=
  match s.sched.lanes.get k with
  | some a => if a.endsPhase && lastPhase s.wave.ram t a then some a else none
  | none => none

/-- The completion copies of step 1, in lane order, each in raster order (R109, R133). -/
def completionWrites (t : Snapshot) (s : State) : List BoundaryWrite :=
  (laneOrder.filterMap (completing t s)).flatMap fun a =>
    a.job.region.raster.map fun xy => .shown xy.1 xy.2 (Plane.get s.image.latch xy.1 xy.2)

/-- The latch copies and activations of step 3, in queue order (R108, R133). -/
def activationWrites (t : Snapshot) (s : State) : List BoundaryWrite :=
  s.sched.eligible.flatMap fun jk =>
    (jk.1.region.raster.map fun xy =>
        .latch xy.1 xy.2
          (latchLevel (isGrey (t.attr (effectiveMode t s.image s.sched jk.1)))
            (Plane.get s.image.target xy.1 xy.2)))
      ++ [.activation jk.1.region]

/-- Every such write of a boundary step made in state `s`, in order. -/
def boundaryWrites (s : State) : List BoundaryWrite :=
  match s.wave.table with
  | none => []
  | some t =>
    let s2 := settleScheduler (advanceLanes (countFrame s))
    completionWrites t s ++ (if admissionOpen s2 then activationWrites t s2 else [])

/-- One write on the planes. -/
def applyBoundaryWrite (im : Image) : BoundaryWrite → Image
  | .shown x y v => { im with shown := Plane.set im.shown x y v }
  | .latch x y v => { im with latch := Plane.set im.latch x y v }
  | .activation _ => im

/-- The regions of the jobs that the writes have activated (R133). -/
def activatedRegions : List BoundaryWrite → List Rect
  | [] => []
  | .activation r :: ws => r :: activatedRegions ws
  | _ :: ws => activatedRegions ws

/-! ### Command -/

/-- FRAME_BOUNDARY (R127): the work of Table 7-2 in its order, the end of the step, then the next frame begins. In
Hibernate and during a reset no boundary step occurs (R29). -/
def execFrameBoundary (s : State) : Host.Outcome State Fault Refusal :=
  if s.inRun then
    if s.tableMissing then .fault .activeWithoutTable else .next (beginFrame (endStep (boundaryWork s)))
  else .next s

end Sys2Proof.Machine
end

