-- ==== Sys2Proof/Machine/Tiles.lean ====
section
/-! DEFINITION. Machine/Tiles.lean: the Tile Store and Placer (chapter 4): DEFINE_TILE, LOAD_TILE_DATA, RELEASE_TILE,
PLACE_TILE. -/

namespace Sys2Proof.Machine

/-- Bytes of a tile's data: w·h/4 rounded up (Table 4-1). -/
def tileSize (w h : Nat) : Nat := (w * h + 3) / 4

/-- The tile's size in bytes. -/
def Tile.size (t : Tile) : Nat := tileSize t.width t.height

/-- The byte ranges of two tiles have a byte in common (R64, R67). -/
def Tile.shares (a b : Tile) : Bool := decide (a.base < b.base + b.size) && decide (b.base < a.base + a.size)

/-- The record of a slot (R64). -/
def slotAt (slots : List (Option Tile)) (k : Nat) : Option Tile := slots.getD k none

/-- The slot is one that Define Tile of slot `k` evicts: another valid slot whose bytes the new tile shares (R67). -/
def evicted (k : Nat) (new : Tile) (i : Nat) (old : Option Tile) : Bool :=
  decide (i ≠ k) && old.any fun o => o.shares new

/-- The directory after Define Tile: evictions, and the named slot's new record (R67). -/
def defineSlots (k : Nat) (new : Tile) (slots : List (Option Tile)) : List (Option Tile) :=
  mapFrom (fun i o => if i = k then some new else if evicted k new i o then none else o) 0 slots

/-- At least one slot is evicted (R67). -/
def evictsAny (k : Nat) (new : Tile) (slots : List (Option Tile)) : Bool := (mapFrom (evicted k new) 0 slots).any id

/-- The level of tile pixel (i, j) (R65). -/
def tilePixel (pattern : List Host.Cell) (t : Tile) (i j : Nat) : Level :=
  let n := j * t.width + i
  fieldOf (byteAt pattern (t.base + n / 4)) (n % 4)

/-- A tile column or row as a plane position: the sum is exact, with no 16-bit wrap; none when it lies outside
0..limit − 1 (R72). -/
def placedAt (start : Int) (k limit : Nat) : Option Nat :=
  if 0 ≤ start + k ∧ start + k < limit then some (start + k).toNat else none

/-- Tile pixels in the order Place Tile handles them: row by row, column by column (R73). -/
def tilePixels (t : Tile) : List (Nat × Nat) :=
  (List.range t.height).flatMap fun j => (List.range t.width).map fun i => (i, j)

/-- The placed pixels, in order: plane position and level; clipped pixels are skipped (R72, R73). -/
def placedPixels (pattern : List Host.Cell) (t : Tile) (x y : Int) (w h : Nat) : List ((Nat × Nat) × Level) :=
  (tilePixels t).filterMap fun ij =>
    match placedAt x ij.1 w, placedAt y ij.2 h with
    | some px, some py => some ((px, py), tilePixel pattern t ij.1 ij.2)
    | _, _ => none

/-- The placement's operation and key on the plane at each placed pixel, in order (R73). -/
def stampPixels (op : PixelOp) (key : Level) (p : Plane) : List ((Nat × Nat) × Level) → Plane
  | [] => p
  | ((x, y), l) :: rest => stampPixels op key (Plane.set p x y (applyOp op l (Plane.get p x y) key)) rest

/-! ### Commands -/

/-- DEFINE_TILE (R66, R67). -/
def execDefineTile (slot width height : Byte) (base : Word) (s : State) : Host.Outcome State Fault Refusal :=
  .next
    (plainCommand (.defineTile slot width height base)
      (fun t =>
        let new : Tile := ⟨width.toNat, height.toNat, base.toNat⟩
        if 15 < slot.toNat then .refuse .badValue []
        else if new.width = 0 ∨ 64 < new.width ∨ new.height = 0 ∨ 64 < new.height then .refuse .badValue []
        else if Config.patternSize < new.base + new.size then .refuse .tileRange []
        else
          .accept
            { t with
              tiles := { t.tiles with slots := defineSlots slot.toNat new t.tiles.slots }
              events := t.events.raiseIf (evictsAny slot.toNat new t.tiles.slots) .tileEvict }
            [])
      s)

/-- Pattern memory after data bytes at an offset of a tile (R69). -/
def loadTile (t : Tile) (offset : Nat) (data : List Byte) (m : List Host.Cell) : List Host.Cell :=
  Memory.writeRun Config.porByte m (t.base + offset) data

/-- LOAD_TILE_DATA (R68, R69). -/
def execLoadTileData (slot : Byte) (offset : Word) (data : List Byte) (s : State) : Host.Outcome State Fault Refusal :=
  if dataLengthOk 1 247 data then
    .next
      (plainCommand (.loadTileData slot offset data)
        (fun t =>
          if 15 < slot.toNat then .refuse .badValue []
          else
            match slotAt t.tiles.slots slot.toNat with
            | none => .refuse .tileInvalid []
            | some tile =>
              if tile.size < offset.toNat + data.length then .refuse .tileRange []
              else
                .accept
                  { t with
                    tiles := { t.tiles with pattern := loadTile tile offset.toNat data t.tiles.pattern } }
                  [])
        s)
  else .refused .payloadLength

/-- RELEASE_TILE (R70). -/
def execReleaseTile (slot : Byte) (s : State) : Host.Outcome State Fault Refusal :=
  .next
    (plainCommand (.releaseTile slot)
      (fun t =>
        if 15 < slot.toNat then .refuse .badValue []
        else .accept { t with tiles := { t.tiles with slots := t.tiles.slots.set slot.toNat none } } [])
      s)

/-- PLACE_TILE (R71 to R73). -/
def execPlaceTile (slot : Byte) (x y : Word) (op key : Byte) (s : State) : Host.Outcome State Fault Refusal :=
  .next
    (plainCommand (.placeTile slot x y op key)
      (fun t =>
        if 15 < slot.toNat then .refuse .badValue []
        else
          match pixelOpOf op, levelOf key with
          | some o, some k =>
            match slotAt t.tiles.slots slot.toNat with
            | none => .refuse .tileInvalid []
            | some tile =>
              .accept
                { t with
                  image :=
                    { t.image with
                      target :=
                        stampPixels o k t.image.target
                          (placedPixels t.tiles.pattern tile x.toInt y.toInt t.image.width t.image.height) } }
                []
          | _, _ => .refuse .badValue [])
      s)

end Sys2Proof.Machine
end

