-- ==== Sys2Proof/Machine/Reset.lean ====
section
/-! DEFINITION. Machine/Reset.lean: the resets that begin from outside and the completion of a reset (chapter 11): POR,
PIN_RESET with the step it cuts short, RESET_DONE. -/

namespace Sys2Proof.Machine

/-! ### What a cut step leaves behind (R29, R61, R74, R84, R133) -/

/-- The pixel operations of a cut Write Pixels already applied, in stream order, stay in T (R61). -/
def cutWritePixels (data : List Byte) (done : Nat) (s : State) : State :=
  { s with
    image := { s.image with target := (streamPixels s.writer s.image.target false ((unpack data).take done)).2.1 } }

/-- The pixels of a cut Fill Window already handled, in scan order, stay in T (R61). -/
def cutFillWindow (level : Byte) (done : Nat) (s : State) : State :=
  match levelOf level with
  | none => s
  | some l =>
    { s with
      image :=
        { s.image with
          target :=
            fillPixels s.writer l s.image.target ((scanOrder s.writer.window s.writer.scan).take done) } }

/-- The placed pixels of a cut Place Tile already handled stay in T (R74). -/
def cutPlaceTile (slot : Byte) (x y : Word) (op key : Byte) (done : Nat) (s : State) : State :=
  match pixelOpOf op, levelOf key, slotAt s.tiles.slots slot.toNat with
  | some o, some k, some tile =>
    if 15 < slot.toNat then s
    else
      { s with
        image :=
          { s.image with
            target :=
              stampPixels o k s.image.target
                ((placedPixels s.tiles.pattern tile x.toInt y.toInt s.image.width s.image.height).take done) } }
  | _, _, _ => s

/-- The data bytes of a cut Load Tile Data already written stay in pattern memory (R74). -/
def cutLoadTileData (slot : Byte) (offset : Word) (data : List Byte) (done : Nat) (s : State) : State :=
  match slotAt s.tiles.slots slot.toNat with
  | none => s
  | some tile =>
    if 15 < slot.toNat ∨ tile.size < offset.toNat + data.length then s
    else
      { s with
        tiles := { s.tiles with pattern := loadTile tile offset.toNat (data.take done) s.tiles.pattern } }

/-- The data bytes of a cut Load Waveform Data already written stay in the RAM (R84). -/
def cutLoadWaveformData (offset : Word) (data : List Byte) (done : Nat) (s : State) : State :=
  if s.wave.table.isSome = true ∨ Config.ramSize < offset.toNat + data.length then s
  else
    { s with wave := { s.wave with ram := Memory.writeRun Config.porByte s.wave.ram offset.toNat (data.take done) } }

/-- The leading part of a cut boundary step's copies stays in S and L (R133). -/
def cutFrameBoundary (done : Nat) (s : State) : State :=
  { s with image := ((boundaryWrites s).take done).foldl applyBoundaryWrite s.image }

/-- The state that the step cut short leaves in what a retaining reset retains; a step that cannot run leaves nothing. -/
def applyCut (cut : CutStep) (s : State) : State :=
  if s.inRun then
    match cut with
    | .nothing => s
    | .writePixels data done => cutWritePixels data done s
    | .fillWindow level done => cutFillWindow level done s
    | .placeTile slot x y op key done => cutPlaceTile slot x y op key done s
    | .loadTileData slot offset data done => cutLoadTileData slot offset data done s
    | .loadWaveformData offset data done => cutLoadWaveformData offset data done s
    | .frameBoundary done => cutFrameBoundary done s
  else s

/-- The regions of the jobs that the cut step had already activated (R133, R174). -/
def cutActivations (cut : CutStep) (s : State) : List Rect :=
  match cut with
  | .frameBoundary done => if s.inRun then activatedRegions ((boundaryWrites s).take done) else []
  | .nothing => []
  | .writePixels _ _ => []
  | .fillWindow _ _ => []
  | .placeTile _ _ _ _ _ _ => []
  | .loadTileData _ _ _ _ => []
  | .loadWaveformData _ _ _ => []

/-! ### Commands -/

/-- POR (R171): power is applied or restored; a full reset begins, at any moment and in either power state. A step that it
cuts leaves no trace (R61, R74, R133). -/
def execPor (s : State) : Host.Outcome State Fault Refusal := .next (beginReset .por [] s s)

/-- PIN_RESET (R171): RESET# is driven low. The jobs are counted and marked as if the cut step had never begun (R174). -/
def execPinReset (cut : CutStep) (s : State) : Host.Outcome State Fault Refusal :=
  let t := beginReset .pin (cutActivations cut s) s (applyCut cut s)
  .next { t with resetUnit := { t.resetUnit with resetPin := false } }

/-- RESET_DONE (R173): with RESET# high and the main oscillator stable the reset completes; otherwise it goes on. -/
def execResetDone (resetHigh : Bool) (straps : BitVec 3) (s : State) : Host.Outcome State Fault Refusal :=
  let t := { s with resetUnit := { s.resetUnit with resetPin := resetHigh } }
  .next
    (match s.resetUnit.inProgress with
    | some r => if resetHigh && s.time.oscStable then completeReset straps r t else t
    | none => s)

end Sys2Proof.Machine
end

