-- ==== Sys2Proof/Machine/Timebase.lean ====
section
/-! DEFINITION. Machine/Timebase.lean: the tick step, the wake timer, the watchdog and Hibernate (chapter 10); TICK,
WAKE_TIMER_EXPIRY, WATCHDOG_EXPIRY, WAKE_EDGE, OSCILLATOR_STABLE, WOKE, ARM_WATCHDOG, FEED_WATCHDOG, DISARM_WATCHDOG,
ENTER_HIBERNATE. -/

namespace Sys2Proof.Machine

/-! ### The wake (R169, R170) -/

/-- The first cause present, in the order PIN, TIMER, LINK (R170). -/
def WakeCauses.first (c : WakeCauses) : WakeCause :=
  if c.pin then .pin else if c.timer then .timer else .link

/-- The opening part takes a latched WAKE edge as cause PIN (R169). -/
def takeEdge (s : State) : State :=
  if s.time.wakeEdge then
    { s with time := { (s.time.addCause .pin) with wakeEdge := false } }
  else s

/-- A wake in progress can be completed: the main oscillator is stable (R170). -/
def wakeDue (s : State) : Bool := s.time.causes.any && s.time.oscStable

/-- The wake is completed (R170): RUN, the WOKE record and flag, the cause set emptied, the sample count 0. The first
frame after the wake is idle (R121, R124). -/
def completeWake (s : State) : State :=
  { s with
    time := { s.time with power := .run, causes := ⟨false, false, false⟩ }
    events := (s.events.record .woke 0#8 (wordOf s.time.causes.first.code)).raise .woke
    temp := { s.temp with sampleCount := 0 }
    seq := { s.seq with frame := .idle, rateInForce := s.params.frameRate } }

/-- The wake opening of a tick step; in RUN it does nothing (Table 10-1). -/
def wakeOpening (s : State) : State :=
  if s.time.power = .hibernate then
    let t := takeEdge s
    if wakeDue t then completeWake t else t
  else s

/-! ### The wake timer (R161) -/

/-- The wake timer expires (R161): WAKE_TIMER; one-shot stops and clears bits 1:0 of WAKE_MODE, periodic reloads; in
Hibernate with bit 2 set, cause TIMER. -/
def expireWakeTimer (s : State) : State :=
  { s with
    events := s.events.raise .wakeTimer
    params :=
      { s.params with
        wakeMode := if s.params.wakeModeBits = 2#2 then s.params.wakeMode else s.params.wakeMode &&& 0xFFFC#16 }
    time :=
      { (if s.time.power = .hibernate ∧ s.params.wakeFromHibernate = true then s.time.addCause .timer
          else s.time) with
        wakeCount := if s.params.wakeModeBits = 2#2 then some s.params.wakeInterval.toNat else none } }

/-- This tick brings the running wake count to 0 (R161). -/
def wakeTimerDue (s : State) : Bool :=
  match s.time.wakeCount with
  | some n => decide (n ≤ 1)
  | none => false

/-- The wake timer part of a tick step: a running count decreases by one and expires at 0 (R161). -/
def wakeTimerPart (s : State) : State :=
  if wakeTimerDue s then expireWakeTimer s
  else { s with time := { s.time with wakeCount := s.time.wakeCount.map fun n => n - 1 } }

/-! ### The watchdog (R165) -/

/-- The scheduler state after a PARK action (R103, R165). -/
def parkedState (c : Sched) : SchedState :=
  match c.state with
  | .running | .quiescing | .halted => if c.lanes.anyActive then .parking else .holding
  | .parking => .parking
  | .holding => .holding

/-- The PARK action: disarmed, every QUEUED job cancelled with reason PARK, the scheduler's new state (R165). -/
def parkAction (s : State) : State :=
  let t := cancelAll cancelPark { s with time := { s.time with armed := false, count := 0 } }
  setSched (parkedState s.sched) t

/-- The watchdog expires (R165): WATCHDOG record and flag, then the action; the RESET action is begun by the caller as
the last act of the step. -/
def expireWatchdog (s : State) : State :=
  let t :=
    { s with events := (s.events.record .watchdog 0#8 (wordOf s.time.action.code)).raise .watchdog }
  match s.time.action with
  | .notify => { t with time := { t.time with count := t.time.period } }
  | .park => parkAction t
  | .reset => { t with time := { t.time with count := 0 } }

/-- This tick brings the armed watchdog's count to 0 (R165). -/
def watchdogDue (s : State) : Bool := s.time.armed && decide (s.time.count ≤ 1)

/-- The watchdog's expiry resets the part (R165). -/
def watchdogResets (s : State) : Bool := watchdogDue s && decide (s.time.action = .reset)

/-- The watchdog part of a tick step in Run (R165). -/
def watchdogPart (s : State) : State :=
  if watchdogDue s then expireWatchdog s
  else if s.time.armed then { s with time := { s.time with count := s.time.count - 1 } }
  else s

/-! ### The tick step (R160, Table 10-1) -/

/-- Parts 1 to 4. -/
def tickParts (sensed : SensorInput) (s : State) : State :=
  let s2 := supplyPart (wakeOpening s)
  wakeTimerPart (if s2.time.power = .run then temperaturePart sensed s2 else s2)

/-- TICK (R160): the parts in order, each with the content of the power state in force as it begins; the power request
is cleared at the end; a watchdog RESET begins as the last act. -/
def execTick (sensed : SensorInput) (s : State) : Host.Outcome State Fault Refusal :=
  .next
    (if s.stepsRun then
      let t := tickParts sensed s
      if t.time.power = .run then
        let u := endStep (watchdogPart t)
        if watchdogResets t then beginReset .watchdog [] u u else u
      else endStep t
    else s)

/-! ### Events of a tick step, each on its own (log entry 1) -/

/-- WAKE_TIMER_EXPIRY (R161). -/
def execWakeTimerExpiry (s : State) : Host.Outcome State Fault Refusal :=
  .next (otherStep (fun t => if wakeTimerDue t then expireWakeTimer t else t) s)

/-- WATCHDOG_EXPIRY (R165), in Run. -/
def execWatchdogExpiry (s : State) : Host.Outcome State Fault Refusal :=
  let u := runStep (fun t => if watchdogDue t then expireWatchdog t else t) s
  .next (if s.inRun && watchdogResets s then beginReset .watchdog [] u u else u)

/-- WOKE (R170): the opening part of the tick step that completes the wake. -/
def execWoke (s : State) : Host.Outcome State Fault Refusal :=
  .next
    (otherStep
      (fun t =>
        if t.time.power = .hibernate ∧ wakeDue (takeEdge t) = true then completeWake (takeEdge t) else t)
      s)

/-- WAKE_EDGE (R169): latched in Hibernate only, and not during a reset (R171). -/
def execWakeEdge (s : State) : Host.Outcome State Fault Refusal :=
  .next
    (if s.stepsRun && decide (s.time.power = .hibernate) then
      { s with time := { s.time with wakeEdge := true } }
    else s)

/-- OSCILLATOR_STABLE (R159): noted while the oscillator runs; no step is run for it. -/
def execOscillatorStable (s : State) : Host.Outcome State Fault Refusal :=
  .next { s with time := { s.time with oscStable := s.time.oscStable || s.time.oscRunning } }

/-! ### Watchdog commands -/

/-- ARM_WATCHDOG (R163). -/
def execArmWatchdog (period : Word) (action : Byte) (s : State) : Host.Outcome State Fault Refusal :=
  .next
    (plainCommand (.armWatchdog period action)
      (fun t =>
        if period.toNat < 8 then .refuse .badValue []
        else
          match watchdogActionOf action with
          | none => .refuse .badValue []
          | some a =>
            .accept
              { t with
                time := { t.time with armed := true, period := period.toNat, action := a, count := period.toNat } }
              [])
      s)

/-- FEED_WATCHDOG (R164). -/
def execFeedWatchdog (s : State) : Host.Outcome State Fault Refusal :=
  .next
    (plainCommand .feedWatchdog
      (fun t =>
        if t.time.armed then .accept { t with time := { t.time with count := t.time.period } } []
        else .refuse .badState [])
      s)

/-- DISARM_WATCHDOG (R164): GUARD, then BAD_STATE. -/
def execDisarmWatchdog (s : State) : Host.Outcome State Fault Refusal :=
  .next
    (commandStep (ownsHead .disarmWatchdog s) .disarmWatchdog
      (fun latch t =>
        if !latch then .refuse .guard []
        else if !t.time.armed then .refuse .badState []
        else .accept { t with time := { t.time with armed := false, count := 0 } } [])
      s)

/-! ### Hibernate -/

/-- The entry conditions (R166); `own`: the head of the intake is the command's own entry. -/
def mayHibernate (own : Bool) (s : State) : Bool :=
  (decide (s.sched.state = .halted) || decide (s.sched.state = .holding)) && s.sched.queue.isEmpty
    && !s.sched.lanes.anyActive && (decide (s.supply.rail = .off) || decide (s.supply.rail = .fault))
    && (s.link.leave own).intake.isEmpty

/-- A Fetch in flight when the part enters Hibernate: what SDO has driven of it by then (R18, R22, R25). -/
def OpenFetch.cutAt (clocked : Nat) (f : OpenFetch) : OpenFetch :=
  { f with cut := some (f.cut.getD (if f.decision = some .ok then readOut f.snapshot clocked else [])) }

/-- The part enters Hibernate (R167, R126, R25): the main oscillator stops, the frame is abandoned, a pending
frame boundary step is discarded, the end-of-drive indication is repeated, a Fetch in flight is driven no further, SDO having driven `clocked` bytes of it if it was
served. -/
def hibernate (clocked : Nat) (s : State) : State :=
  { s with
    time :=
      { s.time with
        power := .hibernate, oscRunning := false, oscStable := false, wakeEdge := false
        causes := ⟨false, false, false⟩ }
    seq := { s.seq with frame := .idle, driveCodes := [], endOfDrives := s.seq.endOfDrives + 1 }
    link := { s.link with openFetch := s.link.openFetch.map (OpenFetch.cutAt clocked) }
    arbiter := s.arbiter.dropBoundary }

/-- ENTER_HIBERNATE (R166, R167): the checks look at the start of the step; transactions accepted while it runs
join the intake, and then the part does not enter Hibernate. -/
def execEnterHibernate (meanwhile : Meanwhile) (s : State) : Host.Outcome State Fault Refusal :=
  .next
    (if s.inRun then
      let own := ownsHead (.enterHibernate meanwhile) s
      let met := mayHibernate own s
      let t :=
        commandStep own (.enterHibernate meanwhile)
          (fun latch t =>
            if !latch then .refuse .guard [] else if !met then .refuse .hibBusy [] else .accept t [])
          (s.receive meanwhile.arrived)
      if s.executor.guardLatch && met && t.link.intake.isEmpty then hibernate meanwhile.clocked t else t
    else s)

end Sys2Proof.Machine
end

