-- ==== Sys2Proof/Machine/Dispatch.lean ====
section
/-! DEFINITION. Machine/Dispatch.lean: exec, one arm per command, each one direct call of its meaning. -/

namespace Sys2Proof.Machine
open Sys2Proof

def exec (i : Instr) (s : State) : Host.Outcome State Fault Refusal :=
  match i with
  | .transaction bytes edge => Sys2Proof.Machine.execTransaction bytes edge s
  | .fetch addr len check readout => Sys2Proof.Machine.execFetch addr len check readout s
  | .nop => Sys2Proof.Machine.execNop s
  | .guard key => Sys2Proof.Machine.execGuard key s
  | .softReset => Sys2Proof.Machine.execSoftReset s
  | .setParameter number value => Sys2Proof.Machine.execSetParameter number value s
  | .getParameter number => Sys2Proof.Machine.execGetParameter number s
  | .acknowledgeEvents mask => Sys2Proof.Machine.execAcknowledgeEvents mask s
  | .readJournal count => Sys2Proof.Machine.execReadJournal count s
  | .clearJournal => Sys2Proof.Machine.execClearJournal s
  | .setGeometry width height => Sys2Proof.Machine.execSetGeometry width height s
  | .setWindow xs ys xe ye => Sys2Proof.Machine.execSetWindow xs ys xe ye s
  | .setCursor x y => Sys2Proof.Machine.execSetCursor x y s
  | .setScan code => Sys2Proof.Machine.execSetScan code s
  | .setPixelOp op key => Sys2Proof.Machine.execSetPixelOp op key s
  | .writePixels data => Sys2Proof.Machine.execWritePixels data s
  | .readPixels plane count => Sys2Proof.Machine.execReadPixels plane count s
  | .fillWindow level => Sys2Proof.Machine.execFillWindow level s
  | .readUncertainMap => Sys2Proof.Machine.execReadUncertainMap s
  | .markUncertain xs ys xe ye => Sys2Proof.Machine.execMarkUncertain xs ys xe ye s
  | .defineTile slot width height base => Sys2Proof.Machine.execDefineTile slot width height base s
  | .loadTileData slot offset data => Sys2Proof.Machine.execLoadTileData slot offset data s
  | .placeTile slot x y op key => Sys2Proof.Machine.execPlaceTile slot x y op key s
  | .releaseTile slot => Sys2Proof.Machine.execReleaseTile slot s
  | .loadWaveformData offset data => Sys2Proof.Machine.execLoadWaveformData offset data s
  | .sealWaveform => Sys2Proof.Machine.execSealWaveform s
  | .unsealWaveform => Sys2Proof.Machine.execUnsealWaveform s
  | .submitJob xs ys xe ye mode options => Sys2Proof.Machine.execSubmitJob xs ys xe ye mode options s
  | .cancelJob ticket => Sys2Proof.Machine.execCancelJob ticket s
  | .abortJob ticket => Sys2Proof.Machine.execAbortJob ticket s
  | .flushQueue => Sys2Proof.Machine.execFlushQueue s
  | .startScheduler => Sys2Proof.Machine.execStartScheduler s
  | .haltScheduler => Sys2Proof.Machine.execHaltScheduler s
  | .clearHold => Sys2Proof.Machine.execClearHold s
  | .queryJob ticket => Sys2Proof.Machine.execQueryJob ticket s
  | .railsOn => Sys2Proof.Machine.execRailsOn s
  | .railsOff => Sys2Proof.Machine.execRailsOff s
  | .sampleTemperature sensed => Sys2Proof.Machine.execSampleTemperature sensed s
  | .armWatchdog period action => Sys2Proof.Machine.execArmWatchdog period action s
  | .feedWatchdog => Sys2Proof.Machine.execFeedWatchdog s
  | .disarmWatchdog => Sys2Proof.Machine.execDisarmWatchdog s
  | .enterHibernate meanwhile => Sys2Proof.Machine.execEnterHibernate meanwhile s
  | .railGood => Sys2Proof.Machine.execRailGood s
  | .railLost => Sys2Proof.Machine.execRailLost s
  | .overcurrent => Sys2Proof.Machine.execOvercurrent s
  | .drainDone => Sys2Proof.Machine.execDrainDone s
  | .tick sensed => Sys2Proof.Machine.execTick sensed s
  | .powerRequestRamp => Sys2Proof.Machine.execPowerRequestRamp s
  | .rampTimeout => Sys2Proof.Machine.execRampTimeout s
  | .railHoldExpiry => Sys2Proof.Machine.execRailHoldExpiry s
  | .drainSlow => Sys2Proof.Machine.execDrainSlow s
  | .periodicSample sensed => Sys2Proof.Machine.execPeriodicSample sensed s
  | .wakeTimerExpiry => Sys2Proof.Machine.execWakeTimerExpiry s
  | .watchdogExpiry => Sys2Proof.Machine.execWatchdogExpiry s
  | .wakeEdge => Sys2Proof.Machine.execWakeEdge s
  | .oscillatorStable => Sys2Proof.Machine.execOscillatorStable s
  | .woke => Sys2Proof.Machine.execWoke s
  | .frameBoundary => Sys2Proof.Machine.execFrameBoundary s
  | .phaseAdvance lane => Sys2Proof.Machine.execPhaseAdvance lane s
  | .completed lane => Sys2Proof.Machine.execCompleted lane s
  | .aborted lane cause => Sys2Proof.Machine.execAborted lane cause s
  | .quiesceToHalted => Sys2Proof.Machine.execQuiesceToHalted s
  | .parkingToHolding => Sys2Proof.Machine.execParkingToHolding s
  | .activated => Sys2Proof.Machine.execActivated s
  | .por => Sys2Proof.Machine.execPor s
  | .pinReset cut => Sys2Proof.Machine.execPinReset cut s
  | .resetDone resetHigh straps => Sys2Proof.Machine.execResetDone resetHigh straps s

end Sys2Proof.Machine
end

