-- ==== Sys2Proof/Machine/Step.lean ====
section
/-! DEFINITION. Machine/Step.lean: one step of the block: the command at the front of its queue, or, with nothing waiting there,
the step that the arbiter starts. -/

namespace Sys2Proof.Machine

/-- With no command waiting: the step that the arbiter starts is executed (R27, R30); with none pending the block idles (log
entries 3 and 4). -/
def idleStep (s : State) : Host.Outcome State Fault Refusal :=
  match s.arbiterStarts with
  | some (c, t) => exec c t
  | none => .next s

/-- The command at the front of the queue is executed with the queue's rest; on an empty queue, idleStep. -/
def step (s : State) : Host.Outcome State Fault Refusal :=
  match s.pending with
  | c :: rest => exec c { s with pending := rest }
  | [] => idleStep s

/-- The state with the command that the word spells at the front of its queue; unchanged where it spells none. -/
def State.withFetchWord (s : State) (nbits w : Nat) : State :=
  match decodeTableWord nbits w with
  | some c => { s with pending := c :: s.pending }
  | none => s

end Sys2Proof.Machine
end

