-- ==== Sys2Proof/Safety.lean ====
section
/-! DEFINITION. Safety.lean: what counts as a legal state of the Q480, rule by rule. Each structure is a condition that the
spec says holds at the end of every step, in the terms the claims use. -/

namespace Sys2Proof.Safety
open Sys2Proof.Machine

/-- Every addressed memory is in canonical form. -/
structure MemoriesCanonical (s : State) : Prop where
  target : Memory.wf Config.porLevel s.image.target = true
  latch : Memory.wf Config.porLevel s.image.latch = true
  shown : Memory.wf Config.porLevel s.image.shown = true
  pattern : Memory.wf Config.porByte s.tiles.pattern = true
  ram : Memory.wf Config.porByte s.wave.ram = true

/-- The geometry is legal (R44), the window is a valid rectangle of the active area and the cursor lies inside the window
(R47). -/
structure WriterLegal (s : State) : Prop where
  widthMultiple : s.image.width % 16 = 0
  widthRange : 16 ≤ s.image.width ∧ s.image.width ≤ 480
  heightMultiple : s.image.height % 16 = 0
  heightRange : 16 ≤ s.image.height ∧ s.image.height ≤ 320
  window : s.writer.window.Valid s.image.width s.image.height
  cursor : s.writer.window.Holds s.writer.cx s.writer.cy

/-- Byte `n` of pattern memory belongs to the tile (Table 4-1). -/
def tileHolds (t : Tile) (n : Nat) : Prop := t.base ≤ n ∧ n < t.base + t.size

/-- The tile directory (R64): sixteen slots, every valid record within Table 4-1 and inside pattern memory, no byte shared
by two valid slots. -/
structure DirectoryLegal (s : State) : Prop where
  slots : s.tiles.slots.length = 16
  records : ∀ t, some t ∈ s.tiles.slots →
    1 ≤ t.width ∧ t.width ≤ 64 ∧ 1 ≤ t.height ∧ t.height ≤ 64 ∧ t.base + t.size ≤ 4096
  disjoint : ∀ (i j : Nat) (a b : Tile), i ≠ j → s.tiles.slots[i]? = some (some a) → s.tiles.slots[j]? = some (some b) →
    ∀ n, ¬ (tileHolds a n ∧ tileHolds b n)

/-- While SEALED the snapshot describes the RAM exactly and the RAM holds a valid image (R76, R89). -/
structure TableSealedRight (s : State) : Prop where
  snapshot : ∀ t, s.wave.table = some t → t = snapshotOf s.wave.ram
  valid : s.wave.table.isSome = true → sealReason s.wave.ram = 0

/-- The four conditions of R96. -/
structure LanesLegal (s : State) : Prop where
  disjoint : ∀ j k a b, j ≠ k → s.sched.lanes.get j = some a → s.sched.lanes.get k = some b →
    ∀ x y, ¬ (a.job.region.Holds x y ∧ b.job.region.Holds x y)
  states : s.sched.lanes.anyActive = true →
    s.sched.state = .running ∨ s.sched.state = .quiescing ∨ s.sched.state = .parking
  driven : s.sched.lanes.anyActive = true → s.wave.table.isSome = true ∧ s.supply.rail = .ready
  fault : s.supply.rail = .fault → s.sched.state = .holding

/-- The tickets of all jobs, queued then active. -/
def allTickets (c : Sched) : List Byte := c.queue.map (fun j => j.ticket) ++ c.lanes.active.map fun a => a.job.ticket

/-- At most eight queued jobs (R96), no ticket held twice, no ticket 0 (R95). -/
structure TicketsLegal (s : State) : Prop where
  depth : s.sched.queue.length ≤ 8
  next : s.sched.nextTicket ≠ 0#8
  distinct : (allTickets s.sched).Nodup
  nonzero : 0#8 ∉ allTickets s.sched

/-- Every job's region is a valid rectangle of the active area, and while SEALED every queued job's mode is below M
(Table 6-1, R90, R97). -/
structure JobsLegal (s : State) : Prop where
  queued : ∀ j ∈ s.sched.queue, j.region.Valid s.image.width s.image.height
  active : ∀ a ∈ s.sched.lanes.active, a.job.region.Valid s.image.width s.image.height
  modes : ∀ t, s.wave.table = some t → ∀ j ∈ s.sched.queue, j.mode < t.modes
  marks : s.sched.marks.length = (s.image.width / 16) * (s.image.height / 16)

/-- The sum of the frame counts of phases 0 to `p` of a sequence (R80). -/
def framesUpTo (ram : List Host.Cell) (t : Snapshot) (mode band p : Nat) : Nat :=
  ((List.range (p + 1)).map fun q => frameCountOf ram t mode band q).sum

/-- Where an ACTIVE job stands in its sequence (R129): its mode, band and phase exist, it has 1..255 frames remaining, and
its running frame total is the frames it has driven. -/
structure JobOnCourse (ram : List Host.Cell) (t : Snapshot) (a : ActiveJob) : Prop where
  mode : a.effMode < t.modes
  band : a.band < t.bands
  phase : a.phase < phaseCount ram t a.effMode a.band
  phaseLimit : a.phase ≤ 23
  remaining : 1 ≤ a.remaining ∧ a.remaining ≤ 255
  total : a.total + a.remaining = framesUpTo ram t a.effMode a.band a.phase

/-- Every ACTIVE job is on course (R129). -/
def JobsOnCourse (s : State) : Prop :=
  ∀ t k a, s.wave.table = some t → s.sched.lanes.get k = some a → JobOnCourse s.wave.ram t a

/-- The power request stands only while its condition holds (R106). -/
def RequestJustified (s : State) : Prop := s.sched.powerRequest = true → s.powerCondition = true

/-- The temperature lies in −40..100 (R134), a sensor fault makes it invalid (R136), BAND is the one that R137 derives from
the table and the temperature. -/
structure MonitorLegal (s : State) : Prop where
  range : ∀ t, s.temp.temperature = some t → -40 ≤ t ∧ t ≤ 100
  fault : s.temp.sensorFault = true → s.temp.temperature = none
  band : s.temp.band = bandOf s.wave.table s.temp.temperature

/-- Only the count of the present rail state runs (R139), FAULT_KIND is NONE exactly outside FAULT (R144), FAULT_COUNT is
0..255. -/
structure SupplyLegal (s : State) : Prop where
  ramp : s.supply.rail ≠ .ramping → s.supply.rampCount = 0
  hold : s.supply.rail ≠ .ready → s.supply.holdCount = 0
  drain : s.supply.rail ≠ .draining → s.supply.drainCount = 0
  kind : s.supply.rail = .fault ↔ s.supply.faultKind ≠ .none
  count : s.supply.faultCount ≤ 255

/-- The sequence numbers of the records held are consecutive and end before the counter (R153, R155). -/
def seqsFrom (n : Byte) : List JournalRecord → Prop
  | [] => True
  | r :: rs => r.seq = n ∧ seqsFrom (n + 1#8) rs

/-- The journal holds 0..16 records (R153) whose sequence numbers are consecutive up to the counter (R155); the lost count
is 0..255. -/
structure JournalLegal (s : State) : Prop where
  size : s.events.journal.length ≤ 16
  seqs : seqsFrom (s.events.nextSeq - BitVec.ofNat 8 s.events.journal.length) s.events.journal
  lost : s.events.lost ≤ 255

/-- Every stored parameter holds a value Table 2-3 allows (R38, R39), and the wake count runs exactly while WAKE_MODE bits
1:0 are 1 or 2 (R161, R162). -/
structure ParametersLegal (s : State) : Prop where
  frameRate : paramValueOk 0x03#8 s.params.frameRate = true
  rampLimit : paramValueOk 0x04#8 s.params.rampLimit = true
  drainLimit : paramValueOk 0x05#8 s.params.drainLimit = true
  sensorSelect : paramValueOk 0x07#8 s.params.sensorSelect = true
  samplePeriod : paramValueOk 0x08#8 s.params.samplePeriod = true
  linkPolicy : paramValueOk 0x11#8 s.params.linkPolicy = true
  tempOverride : paramValueOk 0x12#8 s.params.tempOverride = true
  wakeInterval : paramValueOk 0x13#8 s.params.wakeInterval = true
  wakeMode : paramValueOk 0x14#8 s.params.wakeMode = true
  wakeRuns : s.time.wakeCount.isSome = true ↔ s.params.wakeModeBits ≠ 0#2
  wakeCount : ∀ n, s.time.wakeCount = some n → 1 ≤ n ∧ n ≤ 65535

/-- While armed, the watchdog's period is 8..65535 and its count reads between 1 and the period (R163, R165). -/
def WatchdogLegal (s : State) : Prop :=
  s.time.armed = true → 8 ≤ s.time.period ∧ s.time.period ≤ 65535 ∧ 1 ≤ s.time.count ∧ s.time.count ≤ s.time.period

/-- What holds in Hibernate (R166, R167, R168), that the WAKE edge latch and the cause set belong to Hibernate (R169), and that
no step is pending during a reset (R29, R171). -/
structure HibernateLegal (s : State) : Prop where
  quiet : s.time.power = .hibernate →
    (s.sched.state = .halted ∨ s.sched.state = .holding) ∧ s.sched.queue = [] ∧ s.sched.lanes.anyActive = false ∧
      (s.supply.rail = .off ∨ s.supply.rail = .fault) ∧ s.link.intake = [] ∧ s.sched.powerRequest = false
  noReset : s.time.power = .hibernate → s.resetUnit.inProgress = none
  causes : s.time.causes.any = true → s.time.power = .hibernate
  edge : s.time.wakeEdge = true → s.time.power = .hibernate
  boundary : s.time.power = .hibernate → s.arbiter.boundary = false
  discarded : s.resetUnit.inProgress ≠ none →
    s.arbiter.reports = [] ∧ s.arbiter.ticks = 0 ∧ s.arbiter.boundary = false

/-- The intake holds 0..4 entries (R13), each of a known opcode with an allowed payload length (R30); LINK_ERRORS is
0..255 (R23); no Fetch is in flight while the port waits for the end of a forgotten transaction or is held by a reset (R2,
R24); SDO is undriven in Hibernate and during a wake (R22). -/
structure LinkLegal (s : State) : Prop where
  size : s.link.intake.length ≤ 4
  entries : ∀ e ∈ s.link.intake, e.opcode ≠ fetchOpcode ∧ allowedLength e.opcode e.payload.length = true
  errors : s.link.linkErrors ≤ 255
  forgotten : s.link.forgotten = true → s.link.openFetch = none
  held : s.stepsRun = false → s.link.openFetch = none
  asleep : s.time.power = .hibernate → s.sdoDriven = false

end Sys2Proof.Safety
end

