-- ==== Sys2Proof/Certificates/Slice0/Obligations.lean ====
section
/-! DEFINITION. Certificates/Slice0/Obligations.lean: the statements for the provers, chapter by chapter, with the few
terms they share (namespace Sys2Proof.Claims). -/

namespace Sys2Proof.Claims
open Sys2Proof.Machine Sys2Proof.Safety

/-- The end of a command step with outcome `o` and response payload `payload`, from the state `s` in which the
command's own effects stand (R13, R20, R21, R30, R32, R34, R36): the command's entry, if it is at the head of the intake
(`own`), leaves it; a query writes the response buffer, sets RESP_NEW and outdates a Fetch in flight; the Guard latch is
armed only by Guard C3H; REFUSED and, for a refused command, LAST_OUTCOME; then what every step ends with (`endStep`). -/
def commandEndOf (own : Bool) (c : Instr) (o : OutcomeCode) (payload : List Byte) (s : State) : State :=
  endStep
    { s with
      link :=
        { s.link with
          intake := if own then s.link.intake.drop 1 else s.link.intake
          resp :=
            if isQuery (opcodeOf c) then ⟨s.link.resp.seq + 1#8, opcodeOf c, o.code, payload⟩ else s.link.resp
          respNew := isQuery (opcodeOf c) || s.link.respNew
          openFetch :=
            if isQuery (opcodeOf c) then s.link.openFetch.map fun f => { f with current := false }
            else s.link.openFetch }
      executor :=
        { guardLatch := decide (c = .guard 0xC3#8)
          refused := decide (o ≠ .ok)
          lastOutcome := if o = .ok then s.executor.lastOutcome else opcodeOf c ++ o.code } }

/-- The same for a command in whose step nothing reaches the port. -/
def commandEnd (c : Instr) (o : OutcomeCode) (payload : List Byte) (s : State) : State :=
  commandEndOf (ownsHead c s) c o payload s

/-- What reaches the port while the command's step runs (R15). -/
def arrivedIn (c : Instr) : List Arrival :=
  match c with
  | .getParameter n => n.arrived
  | .acknowledgeEvents mask => mask.arrived
  | .enterHibernate m => m.arrived
  | _ => []

/-- The first name in the list whose condition holds. -/
def firstOf {α : Type} : List (Bool × α) → Option α
  | [] => none
  | (b, x) :: rest => if b then some x else firstOf rest

/-- The seven tests of R6 in their fixed order, for a transaction that is not a Fetch: `a` its address byte, `rest` the
complete bytes after it, `stray` whether bits of an incomplete byte came (R7 to R10). -/
def linkTests (s : State) (a : Byte) (rest : List Byte) (stray : Bool) : List (Bool × LinkResult) :=
  let chk := a.getLsbD 3
  let opcode := rest.getD 0 0#8
  let len := (rest.getD 1 0#8).toNat
  let expected := 3 + len + (if chk then 1 else 0)
  [ (decide (a.extractLsb' 0 3 ≠ 5#3), .framing),
    (decide (rest.length + 1 < 3) || decide (rest.length + 1 < expected) || stray, .truncated),
    (decide (250 < len) || (knownOpcode opcode && !allowedLength opcode len) || decide (expected < rest.length + 1),
      .length),
    (chk && decide (rest.getD (2 + len) 0#8 ≠ crc8 (a :: rest.take (2 + len))), .check),
    ((!chk && s.params.linkPolicy.getLsbD 0) || (decide (a.extractLsb' 4 4 = 15#4) && isQuery opcode), .policy),
    (decide (4 ≤ s.link.intake.length), .overrun),
    (!knownOpcode opcode, .opcode) ]

/-- The tests of a Fetch header, in order (R17). -/
def fetchTests (s : State) (a len check : Byte) : List (Bool × LinkResult) :=
  [ (decide (a.extractLsb' 0 3 ≠ 5#3), .framing),
    (decide (len ≠ 0#8), .length),
    (a.getLsbD 3 && decide (check ≠ crc8 [a, 0#8, len]), .check),
    ((!a.getLsbD 3 && s.params.linkPolicy.getLsbD 0) || decide (a.extractLsb' 4 4 = 15#4), .policy) ]

/-- The transaction concerns this Q480: its unit address field is the strapped one, or 15 (R3). -/
def concerns (s : State) (a : Byte) : Prop :=
  a.extractLsb' 4 4 = 0#1 ++ s.link.unitAddr ∨ a.extractLsb' 4 4 = 15#4

/-- The four effects of a link failure (R11, R23): nothing enters the intake, LINK_ERRORS one more up to 255, LINK_ERR
(flag bit 9), LAST_LINK_RESULT. SDO drove nothing. -/
def linkFailure (r : LinkResult) (s : State) : State :=
  { s with
    link :=
      { s.link with
        lastResult := r
        linkErrors := if s.link.linkErrors < 255 then s.link.linkErrors + 1 else s.link.linkErrors
        openFetch := none
        fetchOut := [] }
    events := { s.events with flags := s.events.flags ||| 0x0200#16 } }

/-- The result WOKE (R25): recorded, neither counted nor flagged; while the power state is HIBERNATE it adds cause LINK,
and starts the main oscillator when no wake was in progress (R169). `out`: what SDO had driven (R22). -/
def linkWoke (out : List Byte) (s : State) : State :=
  { s with
    link := { s.link with lastResult := .woke, openFetch := none, fetchOut := out }
    time :=
      if s.time.power = .hibernate then
        { s.time with
          causes := { s.time.causes with link := true }
          oscRunning := true
          oscStable := s.time.causes.any && s.time.oscStable }
      else s.time }

/-- The bytes a passing Fetch delivers, before the FFH that follow (R18, R19, R20). -/
def fetchBytes (checked : Bool) (s : State) : List Byte :=
  let body :=
    [statusByte s, s.link.resp.seq, s.link.resp.opcode, s.link.resp.outcome, BitVec.ofNat 8 s.link.resp.payload.length]
      ++ s.link.resp.payload
  if checked then body ++ [crc8 body] else body

/-- The header of a Fetch has ended and CS# stays low (R17, R18, R25): in Run the decision is made and the snapshot taken; in
Hibernate and during a wake there is no decision. -/
def fetchOpened (s : State) (addr len check : Byte) : State :=
  { s with
    link :=
      { s.link with
        openFetch :=
          some
            { headerLen := if addr.getLsbD 3 then 4 else 3
              decision :=
                if s.time.power = .hibernate then none
                else some ((firstOf (fetchTests s addr len check)).getD .ok)
              snapshot := fetchBytes (addr.getLsbD 3) s
              wholeLen := 5 + s.link.resp.payload.length
              current := true
              cut := none } } }

/-- A served Fetch ends after `k` complete read-out bytes (R12, R18, R21). -/
def fetchServed (bytes : List Byte) (k : Nat) (whole current : Bool) (s : State) : State :=
  { s with
    link :=
      { s.link with
        lastResult := .ok
        respNew := s.link.respNew && !(whole && current)
        openFetch := none
        fetchOut := (bytes ++ List.replicate k 0xFF#8).take k } }

/-- The command that comes out of the intake: what it reads of the sensors and what arrives while it runs are not part
of its entry. -/
def asDecoded (x : SensorInput) (c : Instr) : Instr :=
  match c with
  | .sampleTemperature _ => .sampleTemperature x
  | .getParameter n => .getParameter ⟨n.operand, []⟩
  | .acknowledgeEvents mask => .acknowledgeEvents ⟨mask.operand, []⟩
  | .enterHibernate _ => .enterHibernate ⟨[], 0⟩
  | c => c

/-- Pixel `i` of the scan order of a window (R48, R49): lines along the primary axis, X unless bit 2 of the scan code is
set; x falls from xe where bit 1 is set and y from ye where bit 0 is set. -/
def scanPixel (win : Rect) (code : BitVec 3) (i : Nat) : Nat × Nat :=
  let w := win.xe - win.xs + 1
  let h := win.ye - win.ys + 1
  let col := if code.getLsbD 2 then i / h else i % w
  let row := if code.getLsbD 2 then i % h else i / w
  (if code.getLsbD 1 then win.xe - col else win.xs + col, if code.getLsbD 0 then win.ye - row else win.ys + row)

/-- What the pixel operation leaves in T (Table 3-3): `p` the incoming level, `t` the level in T, `k` the key. -/
def opResult (op : PixelOp) (p t k : Level) : Level :=
  match op with
  | .replace => p
  | .keySkip => if p = k then t else p
  | .matchOnly => if t = k then p else t
  | .invert => BitVec.ofNat 2 (3 - p.toNat)

/-- The numbers of the RW rows of Table 2-3. -/
def Writable (n : Byte) : Prop := (3 ≤ n.toNat ∧ n.toNat ≤ 8) ∨ (16 ≤ n.toNat ∧ n.toNat ≤ 20)

/-- The numbers of the RO rows of Table 2-3. -/
def ReadOnly (n : Byte) : Prop := n.toNat = 1 ∨ n.toNat = 2 ∨ (32 ≤ n.toNat ∧ n.toNat ≤ 52)

/-- The values Table 2-3 allows an RW parameter. -/
def AllowedValue (n : Byte) (v : Word) : Prop :=
  (n = 0x03#8 → 20 ≤ v.toNat ∧ v.toNat ≤ 85) ∧
  (n = 0x04#8 ∨ n = 0x05#8 ∨ n = 0x08#8 → 1 ≤ v.toNat ∧ v.toNat ≤ 255) ∧
  (n = 0x07#8 ∨ n = 0x11#8 → v.toNat ≤ 1) ∧
  (n = 0x12#8 → v.extractLsb' 8 7 = 0#7 ∧ -40 ≤ (v.extractLsb' 0 8).toInt ∧ (v.extractLsb' 0 8).toInt ≤ 100) ∧
  (n = 0x13#8 → 1 ≤ v.toNat) ∧
  (n = 0x14#8 → v.toNat ≤ 7 ∧ v.extractLsb' 0 2 ≠ 3#2)

/-- The cursor after `k` advances (R49). -/
def cursorAt (w : Writer) (k : Nat) : Nat × Nat := ((Writer.step^[k] w).cx, (Writer.step^[k] w).cy)

/-- Some of the first `n` advances is a wrap (R49, R50). -/
def wrapsWithin (w : Writer) (n : Nat) : Bool := (List.range n).any fun k => (Writer.step^[k] w).wraps

/-- Pixel `k` of a payload in stream order: four to a byte, the first in bits 7:6 (R56). -/
def pixelOf (data : List Byte) (k : Nat) : Level := (data.getD (k / 4) 0#8).extractLsb' (6 - 2 * (k % 4)) 2

/-- Set Geometry's allowed sizes (R45 check 1). -/
def GeometryAllowed (w h : Nat) : Prop :=
  w % 16 = 0 ∧ 16 ≤ w ∧ w ≤ 480 ∧ h % 16 = 0 ∧ 16 ≤ h ∧ h ≤ 320

/-- No job exists and the scheduler is HALTED (R45 check 2). -/
def NoJobs (s : State) : Prop :=
  s.sched.state = .halted ∧ s.sched.queue = [] ∧ s.sched.lanes.anyActive = false

/-- Byte `n` belongs to both tiles. -/
def ShareByte (a b : Tile) : Prop := ∃ n, tileHolds a n ∧ tileHolds b n

/-! #### The table image (R77, R85 to R87) -/

/-- Total length Lt: bytes 4 and 5, high byte first. -/
def lengthOf (ram : List Host.Cell) : Nat := 256 * (byteAt ram 4).toNat + (byteAt ram 5).toNat

/-- Record offset of index entry `e`, for M modes and B bands (R77, R80). -/
def entryOffset (ram : List Host.Cell) (m b e : Nat) : Nat :=
  256 * (byteAt ram (7 + m + b + 3 * e)).toNat + (byteAt ram (7 + m + b + 3 * e + 1)).toNat

/-- Phase count of index entry `e` (R77, R80). -/
def entryCount (ram : List Host.Cell) (m b e : Nat) : Nat := (byteAt ram (7 + m + b + 3 * e + 2)).toNat

/-- FORMAT passes (R85). -/
def FormatPasses (ram : List Host.Cell) : Prop :=
  byteAt ram 0 = 0x51#8 ∧ 19 ≤ lengthOf ram ∧ lengthOf ram ≤ 8192 ∧
    ∀ m, m < (byteAt ram 1).toNat → m < 6 → byteAt ram (6 + m) &&& 0xF8#8 = 0#8

/-- COUNTS passes (R85). -/
def CountsPasses (ram : List Host.Cell) : Prop :=
  1 ≤ (byteAt ram 1).toNat ∧ (byteAt ram 1).toNat ≤ 6 ∧ 1 ≤ (byteAt ram 2).toNat ∧ (byteAt ram 2).toNat ≤ 8

/-- BANDS passes (R86); bound j is the signed byte 6 + M + j. That a bound at Lt or above is read too is the model's choice
(log entry 32). -/
def BandsPasses (ram : List Host.Cell) : Prop :=
  let bound := fun j => (byteAt ram (6 + (byteAt ram 1).toNat + j)).toInt
  (∀ j, j ≤ (byteAt ram 2).toNat → -40 ≤ bound j ∧ bound j ≤ 100) ∧
    ∀ j, j < (byteAt ram 2).toNat → bound j < bound (j + 1)

/-- INDEX passes (R86): E = 7 + M + B + 3·M·B. -/
def IndexPasses (ram : List Host.Cell) : Prop :=
  let m := (byteAt ram 1).toNat
  let b := (byteAt ram 2).toNat
  7 + m + b + 3 * m * b + 2 ≤ lengthOf ram ∧
    ∀ e, e < m * b →
      1 ≤ entryCount ram m b e ∧ entryCount ram m b e ≤ 24 ∧ 7 + m + b + 3 * m * b ≤ entryOffset ram m b e ∧
        entryOffset ram m b e + 5 * entryCount ram m b e + 2 ≤ lengthOf ram

/-- FRAMES passes (R86). -/
def FramesPasses (ram : List Host.Cell) : Prop :=
  let m := (byteAt ram 1).toNat
  let b := (byteAt ram 2).toNat
  ∀ e p, e < m * b → p < entryCount ram m b e → byteAt ram (entryOffset ram m b e + 5 * p) ≠ 0#8

/-- RECOVERY passes (R87): attribute bit 1 is BLIND, bit 2 RECOVERY_OK (Table 5-2). -/
def RecoveryPasses (ram : List Host.Cell) : Prop :=
  let m := (byteAt ram 1).toNat
  let r := (byteAt ram 3).toNat
  r < m ∧ (byteAt ram (6 + r)).getLsbD 1 = true ∧ (byteAt ram (6 + r)).getLsbD 2 = true ∧
    ∀ k, k < m → (byteAt ram (6 + k)).getLsbD 2 = true → (byteAt ram (6 + k)).getLsbD 1 = true

/-- The computed CRC, over bytes 0 to Lt − 3 (R82). -/
def imageCrc (ram : List Host.Cell) : Word := crc16 ((List.range (lengthOf ram - 2)).map (byteAt ram))

/-- CHECKSUM passes (R87). -/
def ChecksumPasses (ram : List Host.Cell) : Prop :=
  imageCrc ram = byteAt ram (lengthOf ram - 2) ++ byteAt ram (lengthOf ram - 1)

/-! #### The sealed table in use (R77, R80, R92, R129) -/

/-- Phases of the sequence of a mode in a band. -/
def phasesOf (ram : List Host.Cell) (t : Snapshot) (mode band : Nat) : Nat :=
  entryCount ram t.modes t.bands (mode * t.bands + band)

/-- The first byte of phase record `p` of the sequence. -/
def recordStart (ram : List Host.Cell) (t : Snapshot) (mode band p : Nat) : Nat :=
  entryOffset ram t.modes t.bands (mode * t.bands + band) + 5 * p

/-- Frames of phase `p` of the sequence. -/
def framesOf (ram : List Host.Cell) (t : Snapshot) (mode band p : Nat) : Nat :=
  (byteAt ram (recordStart ram t mode band p)).toNat

/-- BAND takes the value R137 derives, and the monitor acts on the two transitions. -/
def rebanded (before : TempMonitor) (s : State) : State :=
  let after := { s.temp with band := bandOf s.wave.table s.temp.temperature }
  let wasIn := before.temperature.isSome && before.band.isSome
  let isIn := after.temperature.isSome && after.band.isSome
  let flagged := s.events.raiseIf (!before.sensorFault && after.sensorFault) .sensorFault
  { s with
    temp := after
    events :=
      if wasIn && !isIn then
        (flagged.raise .tempRange).record .tempOut 0#8
          (if after.sensorFault then 0x8000#16
          else
            match after.temperature with
            | none => 0x8001#16
            | some t => 0x00#8 ++ BitVec.ofInt 8 t)
      else flagged }

/-- The state a successful seal leaves (R77, R89, R90). -/
def sealedState (s : State) : State :=
  let ram := s.wave.ram
  let m := (byteAt ram 1).toNat
  let b := (byteAt ram 2).toNat
  rebanded s.temp
    { s with
      wave :=
        { s.wave with
          table :=
            some
              { modes := m
                bands := b
                recovery := (byteAt ram 3).toNat
                attrs := (List.range m).map fun k => byteAt ram (6 + k)
                bounds := (List.range (b + 1)).map fun j => (byteAt ram (6 + m + j)).toInt } }
      sched := { s.sched with queue := s.sched.queue.filter fun j => decide (j.mode < m) }
      events :=
        (s.sched.queue.filter fun j => decide (m ≤ j.mode)).foldl
          (fun e j => (e.record .rejected j.ticket (BitVec.ofNat 16 j.mode)).raise .jobFail) s.events }

/-! #### Jobs -/

/-- The rectangle touches cell number `k` of a map with `cols` cells in a row: some pixel lies in both (R1, R118). -/
def TouchesCell (r : Rect) (cols k : Nat) : Prop := ∃ x y, r.Holds x y ∧ x / 16 = k % cols ∧ y / 16 = k / cols

/-- The rectangle covers cell number `k`: it holds all the cell's pixels (R1). -/
def CoversCell (r : Rect) (cols k : Nat) : Prop := ∀ x y, x / 16 = k % cols → y / 16 = k / cols → r.Holds x y

/-- The map after every cell touched by a rectangle is marked (R110, R117). -/
def MarkedBy (r : Rect) (cols : Nat) (before after : List Bool) : Prop :=
  after.length = before.length ∧
    ∀ k, k < before.length → (after[k]? = some true ↔ before[k]? = some true ∨ TouchesCell r cols k)

/-- The queued jobs that nothing but a lane and admission's conditions hold back: no ACTIVE job's region, and no
region of a job ahead in the queue, overlaps theirs (R105 conditions 2 and 3). -/
def unblocked (c : Sched) : List Job :=
  (List.range c.queue.length).filterMap fun i =>
    (c.queue[i]?).bind fun j =>
      if c.lanes.active.any (fun a => a.job.region.overlaps j.region)
          || (c.queue.take i).any (fun ahead => ahead.region.overlaps j.region) then
        none
      else some j

/-- What activation latches at a pixel (R108): T's level, or its nearer end level unless the effective mode has GREY. -/
def latchedFrom (s : State) (t : Snapshot) (eff : Nat) (xy : Nat × Nat) : Level :=
  let v := Plane.get s.image.target xy.1 xy.2
  if (t.attrs.getD eff 0#8).getLsbD 0 then v else if v = 0#2 ∨ v = 1#2 then 0#2 else 3#2

/-- The region of the job that a write of a boundary step has activated (R133). -/
def activatedBy : BoundaryWrite → Option Rect
  | .activation r => some r
  | .shown _ _ _ => none
  | .latch _ _ _ => none

/-- No job with the ticket is queued or in a lane. -/
def Unheld (s : State) (t : Byte) : Prop :=
  (∀ j ∈ s.sched.queue, j.ticket ≠ t) ∧ ∀ k a, s.sched.lanes.get k = some a → a.job.ticket ≠ t

/-- CANCELLED records for the listed jobs, in order. -/
def cancelledRecords (reason : Word) (jobs : List Job) (e : Events) : Events :=
  jobs.foldl (fun e j => e.record .cancelled j.ticket reason) e

/-- The frame that ends is the last of the job's last phase (R128 item 4). -/
def finishes (s : State) (t : Snapshot) (a : ActiveJob) : Prop :=
  a.remaining ≤ 1 ∧ phasesOf s.wave.ram t a.effMode a.band ≤ a.phase + 1

/-- Entry to FAULT (R144, R110, R126, R132): the supply, every ACTIVE job aborted in lane order with cause FAULT,
HOLDING, and a driving frame turned idle. -/
def faulted (kind : FaultKind) (code : Word) (s : State) : State :=
  { s with
    supply :=
      { rail := .fault
        rampCount := 0
        drainCount := 0
        holdCount := 0
        faultKind := kind
        faultCount := if s.supply.faultCount < 255 then s.supply.faultCount + 1 else s.supply.faultCount }
    sched :=
      { s.sched with
        state := .holding
        lanes := ⟨none, none, none, none⟩
        marks :=
          s.sched.lanes.active.foldl (fun m a => markTouched (s.image.width / 16) a.job.region m) s.sched.marks }
    events :=
      s.sched.lanes.active.foldl (fun e a => (e.record .aborted a.job.ticket 0x0002#16).raise .jobFail)
        ((s.events.record .railFault 0#8 code).raise .railFault)
    seq :=
      { s.seq with
        frame := .idle
        driveCodes := []
        endOfDrives := if s.seq.frame = .driving then s.seq.endOfDrives + 1 else s.seq.endOfDrives } }

/-- The rails OFF with no count running and RAILS_OFF set, `e` being the journal as the step leaves it (R143). -/
def drained (e : Events) (s : State) : State :=
  { s with
    supply := { s.supply with rail := .off, rampCount := 0, holdCount := 0, drainCount := 0 }
    events := e.raise .railsOff }

/-- The rails RAMPING with the ramp count from RAMP_LIMIT (R141). -/
def ramping (s : State) : State :=
  { s with
    supply :=
      { s.supply with rail := .ramping, rampCount := s.params.rampLimit.toNat, holdCount := 0, drainCount := 0 } }

/-- The rails DRAINING with the drain count from DRAIN_LIMIT (R142, R147). -/
def draining (s : State) : State :=
  { s with
    supply :=
      { s.supply with rail := .draining, rampCount := 0, holdCount := 0, drainCount := s.params.drainLimit.toNat } }

/-- What a sample obtains (R136): the temperature and the sensor fault condition. -/
def obtained (s : State) (x : SensorInput) : Option Int × Bool :=
  let whole := fun r : Int => if -40 ≤ r / 1000 ∧ r / 1000 ≤ 100 then some (r / 1000) else none
  if s.params.tempOverride.getLsbD 15 then (some (s.params.tempOverride.extractLsb' 0 8).toInt, false)
  else if s.params.sensorSelect = 0#16 then (whole x.internal, false)
  else
    match x.external with
    | none => (none, true)
    | some r => (whole r, false)

/-- A sample (R135, R136, R137). -/
def afterSample (x : SensorInput) (s : State) : State :=
  rebanded s.temp
    { s with
      temp :=
        { s.temp with
          temperature := (obtained s x).1
          sensorFault := (obtained s x).2
          sampleCount := s.params.samplePeriod.toNat } }

/-- The watchdog's expiry up to its RESET action (R165, R114, R103). -/
def dogExpired (s : State) : State :=
  let e := (s.events.record .watchdog 0#8 (BitVec.ofNat 16 s.time.action.code)).raise .watchdog
  match s.time.action with
  | .notify => { s with events := e, time := { s.time with count := s.time.period } }
  | .reset => { s with events := e, time := { s.time with count := 0 } }
  | .park =>
    { s with
      events := cancelledRecords 0x0003#16 s.sched.queue e
      time := { s.time with armed := false, count := 0 }
      sched :=
        { s.sched with
          queue := []
          state :=
            if s.sched.state = .parking ∨ s.sched.state = .holding then s.sched.state
            else if s.sched.lanes.anyActive then .parking
            else .holding } }

/-- The wake timer's expiry (R161, R169). -/
def timerExpired (s : State) : State :=
  let periodic := decide (s.params.wakeMode.extractLsb' 0 2 = 2#2)
  let wakes := decide (s.time.power = .hibernate) && s.params.wakeMode.getLsbD 2
  { s with
    events := s.events.raise .wakeTimer
    params :=
      { s.params with
        wakeMode := if periodic then s.params.wakeMode else s.params.wakeMode &&& 0xFFFC#16 }
    time :=
      { s.time with
        wakeCount := if periodic then some s.params.wakeInterval.toNat else none
        causes := if wakes then { s.time.causes with timer := true } else s.time.causes
        oscRunning := s.time.oscRunning || wakes
        oscStable := if wakes then s.time.causes.any && s.time.oscStable else s.time.oscStable } }

/-- A latched WAKE edge is taken as cause PIN (R169). -/
def edgeTaken (s : State) : State :=
  if s.time.wakeEdge then
    { s with
      time :=
        { s.time with
          wakeEdge := false
          causes := { s.time.causes with pin := true }
          oscRunning := true
          oscStable := s.time.causes.any && s.time.oscStable } }
  else s

/-- A wake is completed (R170, R124). -/
def woken (s : State) : State :=
  { s with
    time := { s.time with power := .run, causes := ⟨false, false, false⟩ }
    events :=
      (s.events.record .woke 0#8
        (if s.time.causes.pin then 0x0001#16 else if s.time.causes.timer then 0x0002#16 else 0x0003#16)).raise .woke
    temp := { s.temp with sampleCount := 0 }
    seq := { s.seq with frame := .idle, rateInForce := s.params.frameRate } }

/-- The part is in Hibernate (R25, R29, R126, R167): what SDO drove of a Fetch in flight, `clocked` bytes if it was served,
is final (R22). A pending frame boundary step is discarded. -/
def fallenAsleep (clocked : Nat) (t : State) : State :=
  { t with
    time :=
      { t.time with
        power := .hibernate
        oscRunning := false
        oscStable := false
        wakeEdge := false
        causes := ⟨false, false, false⟩ }
    seq := { t.seq with frame := .idle, driveCodes := [], endOfDrives := t.seq.endOfDrives + 1 }
    link :=
      { t.link with
        openFetch :=
          t.link.openFetch.map fun f =>
            { f with
              cut :=
                some
                  (f.cut.getD
                    (if f.decision = some .ok then (f.snapshot ++ List.replicate clocked 0xFF#8).take clocked
                    else [])) } }
    arbiter := { t.arbiter with boundary := false } }

/-- No supply, tick or frame boundary step is pending (R27). -/
def NothingWaits (s : State) : Prop :=
  s.arbiter.reports = [] ∧ s.arbiter.ticks = 0 ∧ s.arbiter.boundary = false

/-- The reports that one call presents, in the arbiter's order: overcurrent, rail-lost, drain-done, rail-good (R27). -/
def reportsOf (call : StepCall) : List RailReport :=
  match call with
  | .reports o l d g =>
    ([(o, .overcurrent), (l, .railLost), (d, .drainDone), (g, .railGood)].filter fun p => p.1).map fun p => p.2
  | .tick => []
  | .boundary => []

/-- What a retaining reset leaves at its completion (R173, R174, R175, Table 11-2), from the state `s` in which it
began: `kind` its kind. The port is told by `forgotten` that a Fetch in flight is still to end (R2). One end-of-drive
indication has been sent (R133, R171; log entry 15). The records of the model (log entry 16), the free-value counter,
the queue and the calls to come stand as they were, but for those of the step that began the reset. -/
def afterRetainingReset (kind : ResetKind) (straps : BitVec 3) (s : State) : State :=
  { State.reset with
    link :=
      { State.reset.link with
        unitAddr := straps
        forgotten := s.link.forgotten || s.link.openFetch.isSome
        fetchOut := s.link.fetchOut }
    params :=
      { State.resetParams with
        frameRate := s.params.frameRate
        rampLimit := s.params.rampLimit
        drainLimit := s.params.drainLimit
        railHold := s.params.railHold
        sensorSelect := s.params.sensorSelect
        samplePeriod := s.params.samplePeriod }
    image := s.image
    writer := { State.reset.writer with window := ⟨0, 0, s.image.width - 1, s.image.height - 1⟩ }
    tiles := s.tiles
    wave := { ram := s.wave.ram, table := none }
    sched :=
      { State.reset.sched with
        marks :=
          (s.sched.lanes.active.map fun a => a.job.region).foldl
            (fun m r => markTouched (s.image.width / 16) r m) s.sched.marks }
    seq :=
      { State.reset.seq with
        rateInForce := s.params.frameRate
        endOfDrives := s.seq.endOfDrives + 1 }
    events :=
      { flags := 0x0001#16
        journal :=
          [⟨0#8, .reset, 0#8, BitVec.ofNat 8 kind.code ++ BitVec.ofNat 8 s.sched.jobCount⟩]
        nextSeq := 1#8
        lost := 0 }
    resetUnit := { cause := kind, inProgress := none, resetPin := true }
    arbiter :=
      { State.reset.arbiter with
        coming := if kind = .soft ∨ kind = .watchdog then s.arbiter.coming.tail else s.arbiter.coming }
    freeTaken := s.freeTaken
    pending := s.pending }

/-- What a POR leaves at its completion (R173, R175): `jobs` the number of jobs discarded, `drives` the end-of-drive
indications sent. -/
def afterFullReset (straps : BitVec 3) (jobs drives : Nat) (s : State) : State :=
  { State.reset with
    link :=
      { State.reset.link with
        unitAddr := straps
        forgotten := s.link.forgotten || s.link.openFetch.isSome
        fetchOut := s.link.fetchOut }
    seq := { State.reset.seq with endOfDrives := drives }
    events :=
      { State.reset.events with
        journal := [⟨0#8, .reset, 0#8, 0x01#8 ++ BitVec.ofNat 8 jobs⟩] }
    arbiter := { State.reset.arbiter with coming := s.arbiter.coming }
    freeTaken := s.freeTaken
    pending := s.pending }

end Sys2Proof.Claims

section
open Sys2Proof Sys2Proof.Machine Sys2Proof.Safety Sys2Proof.Claims

/-! ### The queue of the block -/

/-- One step takes the command at the front of the queue and executes it on the state with the queue's rest. -/
def Obligations.StepExecutesTheFrontCommand : Prop :=
  ∀ (c : Instr) (rest : List Instr) (s : State),
    step { s with pending := c :: rest } = exec c { s with pending := rest }

/-- The arbiter (R27, R28, R29, R30, R159). With no command waiting outside, it starts exactly one pending step: the supply
step of the oldest report, else a tick step, else the frame boundary step, else the command step of the intake's head where
command steps can run; with none pending, or during a reset, the block idles. What called for a step while a step ran is
pending when that step has ended, each report and each tick on its own, at most one frame boundary step and one only in Run.
That the arbiter's steps run on an empty queue, that the calls come from a list in the state, and the reading of a tick step
or of a Sample Temperature started so are the model's choices (log entries 3, 4 and 7). -/
def Obligations.EmptyQueueRunsWhatWaitsOrIdles : Prop :=
  (∀ s : State, s.pending = [] →
    let start := fun (c : Instr) (a : Arbiter) => exec c { s with arbiter := a, freeTaken := s.freeTaken + 1 }
    (s.resetUnit.inProgress ≠ none → step s = .next s) ∧
    (s.resetUnit.inProgress = none →
      (∀ r rest, s.arbiter.reports = r :: rest →
        step s =
          start
            (match r with
            | .overcurrent => .overcurrent | .railLost => .railLost | .drainDone => .drainDone | .railGood => .railGood)
            { s.arbiter with reports := rest }) ∧
      (s.arbiter.reports = [] → 1 ≤ s.arbiter.ticks →
        step s = start (.tick (Config.freeReading s.freeTaken)) { s.arbiter with ticks := s.arbiter.ticks - 1 }) ∧
      (s.arbiter.reports = [] → s.arbiter.ticks = 0 → s.arbiter.boundary = true →
        step s = start .frameBoundary { s.arbiter with boundary := false }) ∧
      (NothingWaits s → s.time.power = .hibernate ∨ s.link.intake = [] → step s = .next s) ∧
      (∀ e rest c, NothingWaits s → s.time.power = .run → s.link.intake = e :: rest →
        decodeEntry (Config.freeReading s.freeTaken) e = some c → step s = start c s.arbiter))) ∧
  (∀ (s : State) (calls : List StepCall) (later : List (List StepCall)), s.resetUnit.inProgress = none →
    s.arbiter.coming = calls :: later →
    (endStep s).arbiter =
      { reports := s.arbiter.reports ++ calls.flatMap reportsOf
        ticks := s.arbiter.ticks + calls.count .tick
        boundary := s.arbiter.boundary || (decide (s.time.power = .run) && decide (StepCall.boundary ∈ calls))
        coming := later }) ∧
  (∀ s : State, s.arbiter.coming = [] → (endStep s).arbiter = s.arbiter)

/-- With no command waiting outside and no step pending in the arbiter, the head of a legal intake executes to its end as one
command step and then has left the intake, the rest in order behind it (R13, R27, R30). Soft Reset apart, which empties the intake. That a step on an
empty queue runs the intake's head is DEDUCED from R27 and R30 (log entry 3), and the reading of a Sample Temperature run
so is a free value (log entry 7). -/
def Obligations.IntakeHeadExecutesAndLeaves : Prop :=
  ∀ (s : State) (e : Entry) (rest : List Entry), s.pending = [] → NothingWaits s → s.inRun = true → LinkLegal s →
    s.link.intake = e :: rest → e.opcode ≠ 0x03#8 →
    ∃ t, step s = .next t ∧ t.link.intake = rest

/-- The whole list of the model's stops (log entries 18 and 19). Every well-formed command completes in every state in
which the table is SEALED whenever a lane holds a job, which R76 says always holds. Outside that, a payload length that
the link never lets through (R8, R30) is refused, and a lane's work without a table is a fault. -/
def Obligations.CommandsStopOnlyAsNamed : Prop :=
  (∀ (c : Instr) (s : State), c.wf = true →
    (s.sched.lanes.anyActive = true → s.wave.table.isSome = true) → ∃ t, exec c s = .next t) ∧
  (∀ (slot : Byte) (offset : Word) (data : List Byte) (s : State),
    (data.length = 0 ∨ 250 < data.length → exec (.writePixels data) s = .refused .payloadLength) ∧
    (data.length = 0 ∨ 247 < data.length →
      exec (.loadTileData slot offset data) s = .refused .payloadLength ∧
        exec (.loadWaveformData offset data) s = .refused .payloadLength)) ∧
  (∀ (k : Fin 4) (s : State), s.inRun = true → s.sched.lanes.anyActive = true → s.wave.table = none →
    exec .frameBoundary s = .fault .activeWithoutTable ∧
      exec (.phaseAdvance k) s = .fault .activeWithoutTable ∧
      exec (.completed k) s = .fault .activeWithoutTable)

/-- The intake carries every command faithfully: the entry of a well-formed command decodes to that command, only a
command with that entry is read from an entry, and every entry the link lets through decodes (R8, R12, R30, Table
2-4). -/
def Obligations.IntakeEntriesDecodeToTheirCommands : Prop :=
  (∀ (x : SensorInput) (c : Instr) (e : Entry), c.wf = true → encodeEntry c = some e →
    decodeEntry x e = some (asDecoded x c)) ∧
  (∀ (x : SensorInput) (c : Instr) (e : Entry), decodeEntry x e = some c →
    encodeEntry c = some e ∧ asDecoded x c = c) ∧
  (∀ (x : SensorInput) (e : Entry), e.opcode ≠ fetchOpcode → allowedLength e.opcode e.payload.length = true →
    (decodeEntry x e).isSome = true)

/-! ### Chapter 1: the link -/

/-- A transaction that is not a Fetch, at its rising edge of CS# in Run: the first of the seven tests that fails
decides and has the four effects of R11; when none fails, opcode and payload join the tail of the intake (R6 to R12).
-/
def Obligations.TransactionIsJudgedBySevenTests : Prop :=
  ∀ (s : State) (a : Byte) (rest : List Byte) (stray : Bool), s.inRun = true → s.link.openFetch = none →
    s.link.forgotten = false → concerns s a → rest.head? ≠ some 0x00#8 →
    exec (.transaction (a :: rest) ⟨stray, false⟩) s =
      .next
        (match firstOf (linkTests s a rest stray) with
        | some r => linkFailure r s
        | none =>
          { s with
            link :=
              { s.link with
                intake :=
                  s.link.intake
                    ++ [⟨rest.getD 0 0#8, (rest.drop 2).take (rest.getD 1 0#8).toNat⟩]
                lastResult := .ok
                fetchOut := [] } })

/-- Traffic outside a judged transaction (R2, R3, R24, R25, R169, R176). A transaction whose CS# fell before the reset
completed, one that a reset has made the port forget, and one whose CS# rises during a reset leave no trace; their rising
edge of CS# is the end of what the port has forgotten. A transaction with no complete byte or not addressed to this unit
leaves no trace. In Hibernate and during a wake every addressed transaction, a Fetch included, records WOKE and adds
cause LINK, and nothing else changes. That a second falling edge of CS# changes nothing is log entry 5. -/
def Obligations.UnjudgedTrafficLeavesNoTraceOrWakes : Prop :=
  ∀ (s : State) (bytes : List Byte) (stray : Bool) (addr len check : Byte) (readout : Option Nat) (k : Nat),
    (let ended := { s with link := { s.link with forgotten := false } }
    exec (.transaction bytes ⟨stray, true⟩) s = .next ended ∧
      (s.resetUnit.inProgress ≠ none ∨ s.link.forgotten = true →
        exec (.transaction bytes ⟨stray, false⟩) s = .next ended)) ∧
    (s.link.forgotten = true → exec (.fetch addr len check readout) s = .next s) ∧
    (s.resetUnit.inProgress ≠ none →
      exec (.fetch addr len check (some k)) s = .next s ∧
        exec (.fetch addr len check none) s = .next { s with link := { s.link with forgotten := true } }) ∧
    (s.link.forgotten = false → s.link.openFetch = none →
      exec (.transaction [] ⟨stray, false⟩) s = .next s ∧
      (¬ concerns s addr →
        exec (.transaction (addr :: bytes) ⟨stray, false⟩) s = .next s ∧
          (s.resetUnit.inProgress = none → exec (.fetch addr len check readout) s = .next s)) ∧
      (s.resetUnit.inProgress = none → s.time.power = .hibernate → concerns s addr →
        exec (.transaction (addr :: bytes) ⟨stray, false⟩) s = .next (linkWoke [] s) ∧
          exec (.fetch addr len check (some k)) s = .next (linkWoke [] s)))

/-- A whole Fetch in Run, as the row FETCH and as the bytes of a transaction whose second byte is 00H: a failed header has
the effects of R11; a passing one delivers the first `k` bytes of status, header, payload, check byte, FFH …; RESP_NEW is
cleared exactly when at least 5 + n bytes were clocked. CS# rising before the header is complete makes the result at that
edge, FRAMING or TRUNCATED (R17, R18, R21). -/
def Obligations.FetchDeliversTheResponse : Prop :=
  ∀ (s : State) (addr : Byte), s.inRun = true → s.link.openFetch = none → s.link.forgotten = false →
    concerns s addr →
    let fetched := fun (len check : Byte) (k : Nat) =>
      match firstOf (fetchTests s addr len check) with
      | some r => linkFailure r s
      | none => fetchServed (fetchBytes (addr.getLsbD 3) s) k (decide (5 + s.link.resp.payload.length ≤ k)) true s
    let header := if addr.getLsbD 3 then 4 else 3
    (∀ (len check : Byte) (k : Nat), exec (.fetch addr len check (some k)) s = .next (fetched len check k)) ∧
    (∀ (rest : List Byte) (stray : Bool), rest.head? = some 0x00#8 →
      exec (.transaction (addr :: rest) ⟨stray, false⟩) s =
        .next
          (if rest.length + 1 < header then
            linkFailure (if addr.extractLsb' 0 3 = 5#3 then .truncated else .framing) s
          else fetched (rest.getD 1 0#8) (rest.getD 2 0#8) (rest.length + 1 - header)))

/-- A Fetch that stays open over other steps (R17, R18, R21, R25): its header takes the snapshot and changes nothing else,
and in Hibernate or during a wake it has no decision point; its rising edge of CS# records WOKE when the part is in
Hibernate or has been there since, or when the header had no decision, and else delivers the snapshot, clearing RESP_NEW
only when the response is still the current one, or records a failure decided at the header. That a header can come
alone and a later TRANSACTION end it is the model's choice (log entry 10); that a Fetch cut by Hibernate receives WOKE even
after the wake is DEDUCED (log entry 21). -/
def Obligations.FetchSpansSteps : Prop :=
  (∀ (s : State) (addr len check : Byte), s.resetUnit.inProgress = none → s.link.openFetch = none →
    s.link.forgotten = false → concerns s addr →
    exec (.fetch addr len check none) s = .next (fetchOpened s addr len check)) ∧
  (∀ (s : State) (f : OpenFetch) (bytes : List Byte) (stray : Bool), s.resetUnit.inProgress = none →
    s.link.forgotten = false → s.link.openFetch = some f →
    exec (.transaction bytes ⟨stray, false⟩) s =
      .next
        (if s.time.power = .hibernate ∨ f.cut ≠ none then linkWoke (f.cut.getD []) s
        else
          match f.decision with
          | none => linkWoke [] s
          | some .ok =>
            fetchServed f.snapshot (bytes.length - f.headerLen)
              (decide (f.wholeLen ≤ bytes.length - f.headerLen)) f.current s
          | some r => linkFailure r s))

/-- A check byte that equals the check value leaves the CRC-8 register at 00H, and no other byte does (R5). -/
def Obligations.CheckByteLeavesRegisterZero : Prop :=
  ∀ (bytes : List Byte) (b : Byte), crc8 (bytes ++ [b]) = 0x00#8 ↔ b = crc8 bytes

/-- What the outside reads of the port: the link status byte (R19, Table 1-4); READY, high exactly with fewer than four
entries in the intake, no reset in progress and the power state RUN, which a wake reaches only as it completes (R14); SDO,
driven exactly from the end of the header of a Fetch that passes (R18, R22) until its CS# rises, and undriven whatever the
header's result in Hibernate. -/
def Obligations.StatusByteReadyAndSdo : Prop :=
  (∀ s : State,
    (statusByte s).getLsbD 7 = decide (s.events.flags &&& s.params.eventEnable ≠ 0#16) ∧
    (statusByte s).getLsbD 6 = decide (s.link.intake = []) ∧
    (statusByte s).getLsbD 5 = s.link.respNew ∧
    (statusByte s).getLsbD 4 = s.executor.refused ∧
    ((statusByte s).extractLsb' 0 4).toNat = s.link.lastResult.code ∧
    s.link.lastResult.code ≤ 8 ∧
    (s.ready = true ↔
      s.link.intake.length < 4 ∧ s.resetUnit.inProgress = none ∧ s.time.power = .run) ∧
    (s.sdoDriven = true ↔ ∃ f, s.link.openFetch = some f ∧ f.decision = some .ok ∧ f.cut = none)) ∧
  (∀ (s : State) (addr len check : Byte), s.resetUnit.inProgress = none → s.link.openFetch = none →
    s.link.forgotten = false → concerns s addr →
    ∃ t, exec (.fetch addr len check none) s = .next t ∧
      (t.sdoDriven = true ↔ s.time.power = .run ∧ firstOf (fetchTests s addr len check) = none)) ∧
  (∀ (s t : State) (bytes : List Byte) (stray : Bool), s.resetUnit.inProgress = none → s.link.forgotten = false →
    exec (.transaction bytes ⟨stray, false⟩) s = .next t → t.sdoDriven = false)

/-! ### Chapter 2: the executor and the parameters -/

/-- NOP and Guard (R35, R36, R37): C3H arms the latch, any other key is refused BAD_VALUE; both consume a latch found
armed. -/
def Obligations.NopAndGuard : Prop :=
  ∀ (s : State) (key : Byte), s.inRun = true →
    exec .nop s = .next (commandEnd .nop .ok [] s) ∧
    exec (.guard key) s =
      .next (if key = 0xC3#8 then commandEnd (.guard key) .ok [] s else commandEnd (.guard key) .badValue [] s)

/-- Set Parameter (R36, R38, R39, R162): NO_PARAM, READ_ONLY, BAD_VALUE, GUARD in this order; then the value is
stored, and a write to WAKE_MODE restarts the wake count. -/
def Obligations.SetParameterChecksThenStores : Prop :=
  ∀ (s : State) (n : Byte) (v : Word), s.inRun = true →
    let c := Instr.setParameter n v
    let guarded := n = 0x11#8 ∧ s.params.linkPolicy.getLsbD 0 = true ∧ v.getLsbD 0 = false
    (¬ Writable n → ¬ ReadOnly n → exec c s = .next (commandEnd c .noParam [] s)) ∧
    (ReadOnly n → exec c s = .next (commandEnd c .readOnly [] s)) ∧
    (Writable n → ¬ AllowedValue n v → exec c s = .next (commandEnd c .badValue [] s)) ∧
    (Writable n → AllowedValue n v → guarded → s.executor.guardLatch = false →
      exec c s = .next (commandEnd c .guard [] s)) ∧
    (Writable n → AllowedValue n v → ¬ guarded ∨ s.executor.guardLatch = true →
      exec c s =
        .next
          (commandEnd c .ok []
            { s with
              params :=
                { frameRate := if n = 0x03#8 then v else s.params.frameRate
                  rampLimit := if n = 0x04#8 then v else s.params.rampLimit
                  drainLimit := if n = 0x05#8 then v else s.params.drainLimit
                  railHold := if n = 0x06#8 then v else s.params.railHold
                  sensorSelect := if n = 0x07#8 then v else s.params.sensorSelect
                  samplePeriod := if n = 0x08#8 then v else s.params.samplePeriod
                  eventEnable := if n = 0x10#8 then v else s.params.eventEnable
                  linkPolicy := if n = 0x11#8 then v else s.params.linkPolicy
                  tempOverride := if n = 0x12#8 then v else s.params.tempOverride
                  wakeInterval := if n = 0x13#8 then v else s.params.wakeInterval
                  wakeMode := if n = 0x14#8 then v else s.params.wakeMode }
              time :=
                { s.time with
                  wakeCount :=
                    if n = 0x14#8 then
                      (if v.extractLsb' 0 2 = 0#2 then none else some s.params.wakeInterval.toNat)
                    else s.time.wakeCount } }))

/-- What each parameter reads (R40, R41, Table 2-3): an RW parameter its stored value, an RO parameter the state of
the block that owns it in its encoding. -/
def Obligations.ParametersReadTheirSources : Prop :=
  ∀ s : State,
    [0x03#8, 0x04#8, 0x05#8, 0x06#8, 0x07#8, 0x08#8, 0x10#8, 0x11#8, 0x12#8, 0x13#8, 0x14#8].map (readParam · s) =
      [s.params.frameRate, s.params.rampLimit, s.params.drainLimit, s.params.railHold, s.params.sensorSelect,
        s.params.samplePeriod, s.params.eventEnable, s.params.linkPolicy, s.params.tempOverride,
        s.params.wakeInterval, s.params.wakeMode] ∧
    [0x01#8, 0x02#8, 0x21#8, 0x29#8, 0x2A#8, 0x2B#8, 0x2C#8, 0x2D#8].map (readParam · s) =
      [s.image.width, s.image.height, s.sched.queue.length, s.supply.faultCount, s.sched.marks.count true,
        s.events.journal.length, s.events.lost, s.link.linkErrors].map (BitVec.ofNat 16) ∧
    readParam 0x20#8 s =
      (match s.sched.state with
      | .halted => 0#16 | .running => 1#16 | .quiescing => 2#16 | .parking => 3#16 | .holding => 4#16) ∧
    (∀ k : Fin 4, (readParam 0x22#8 s).getLsbD k.val = (s.sched.lanes.get k).isSome) ∧
    (readParam 0x22#8 s).extractLsb' 4 12 = 0#12 ∧
    readParam 0x23#8 s = 0x00#8 ++ s.sched.nextTicket ∧
    (s.wave.table = none → readParam 0x24#8 s = 0x0000#16) ∧
    (∀ t, s.wave.table = some t → t.modes ≤ 6 → t.bands ≤ 8 →
      readParam 0x24#8 s = 0x8#4 ++ BitVec.ofNat 4 t.modes ++ 0x0#4 ++ BitVec.ofNat 4 t.bands) ∧
    (s.temp.temperature = none → readParam 0x25#8 s = 0x0000#16) ∧
    (∀ c, s.temp.temperature = some c → -40 ≤ c → c ≤ 100 →
      (readParam 0x25#8 s).extractLsb' 8 8 = 0x80#8 ∧ ((readParam 0x25#8 s).extractLsb' 0 8).toInt = c) ∧
    (s.temp.band = none → readParam 0x26#8 s = 0x00FF#16) ∧
    (∀ b, s.temp.band = some b → readParam 0x26#8 s = BitVec.ofNat 16 b) ∧
    readParam 0x27#8 s =
      (match s.supply.rail with
      | .off => 0#16 | .ramping => 1#16 | .ready => 2#16 | .draining => 3#16 | .fault => 4#16) ∧
    readParam 0x28#8 s =
      (match s.supply.faultKind with
      | .none => 0#16 | .rampTimeout => 1#16 | .undervolt => 2#16 | .overcurrent => 3#16) ∧
    readParam 0x2E#8 s = s.seq.frameCount ∧
    readParam 0x2F#8 s =
      (match s.resetUnit.cause with | .por => 1#16 | .pin => 2#16 | .watchdog => 3#16 | .soft => 4#16) ∧
    readParam 0x30#8 s = s.events.flags ∧
    (s.time.armed = false → readParam 0x31#8 s = 0x0000#16 ∧ readParam 0x32#8 s = 0x0000#16) ∧
    (s.time.armed = true →
      readParam 0x31#8 s =
          (match s.time.action with | .notify => 0x8000#16 | .park => 0x8001#16 | .reset => 0x8002#16) ∧
        readParam 0x32#8 s = BitVec.ofNat 16 s.time.count) ∧
    readParam 0x33#8 s = s.executor.lastOutcome ∧
    readParam 0x34#8 s = 0x3A48#16

/-- Get Parameter (R40): the parameter's value as it stood at the start of the step, high byte first; NO_PARAM with an
empty payload for a number that names none; nothing else changes. Transactions and Fetches that reach the port while the
step runs are judged, and their snapshots taken, one after the other by the state before the step, and the value is from
before their updates (R15). A Fetch whose header lands last stays in flight, outdated by the response (R18, R21). That
what lands is an operand of the command is the model's choice (log entry 20). -/
def Obligations.GetParameterAnswers : Prop :=
  (∀ (s : State) (n : Byte) (arrived : List Arrival), s.inRun = true →
    let c := Instr.getParameter ⟨n, arrived⟩
    (Writable n ∨ ReadOnly n →
      exec c s =
        .next
          (commandEndOf (ownsHead c s) c .ok
            [(readParam n s).extractLsb' 8 8, (readParam n s).extractLsb' 0 8] (s.receive arrived))) ∧
    (¬ Writable n → ¬ ReadOnly n →
      exec c s = .next (commandEndOf (ownsHead c s) c .noParam [] (s.receive arrived)))) ∧
  (∀ (s : State) (a : Arrival) (rest : List Arrival) (bytes : List Byte) (stray : Bool) (addr len check : Byte)
    (readout : Option Nat),
    s.receive [] = s ∧ s.receive (a :: rest) = (s.receive [a]).receive rest ∧
      exec (.transaction bytes ⟨stray, false⟩) s = .next (s.receive [.transaction bytes stray]) ∧
      exec (.fetch addr len check readout) s = .next (s.receive [.fetch addr len check readout])) ∧
  (∀ (s : State) (n addr len check : Byte) (arrived : List Arrival), s.inRun = true →
    (s.receive arrived).link.openFetch = none → (s.receive arrived).link.forgotten = false → concerns s addr →
    ∃ t f, exec (.getParameter ⟨n, arrived ++ [.fetch addr len check none]⟩) s = .next t ∧
      t.link.openFetch = some f ∧ f.snapshot = fetchBytes (addr.getLsbD 3) (s.receive arrived) ∧ f.current = false)

/-- What every command step leaves, whatever the command and whatever lands while it runs (R15, R31 to R36): the Guard latch
armed only by Guard C3H; a refused command is the outcome and, for a query, the response, and nothing else; an accepted
one leaves LAST_OUTCOME; a query writes the next response and sets RESP_NEW, any other command leaves the response buffer
and RESP_NEW to what the port makes of them. Steps that begin a reset apart. -/
def Obligations.EveryCommandStepReportsItsOutcome : Prop :=
  ∀ (c : Instr) (s t : State), (encodeEntry c).isSome = true → s.inRun = true → exec c s = .next t →
    t.resetUnit.inProgress = none →
    t.executor.guardLatch = decide (c = .guard 0xC3#8) ∧
    (t.executor.refused = true →
      ∃ o payload, o ≠ .ok ∧ t = commandEndOf (ownsHead c s) c o payload (s.receive (arrivedIn c))) ∧
    (t.executor.refused = false → t.executor.lastOutcome = s.executor.lastOutcome) ∧
    (isQuery (opcodeOf c) = true →
      t.link.respNew = true ∧ t.link.resp.seq = s.link.resp.seq + 1#8 ∧ t.link.resp.opcode = opcodeOf c ∧
        t.link.resp.outcome =
          (if t.executor.refused then t.executor.lastOutcome.extractLsb' 0 8 else 0x00#8)) ∧
    (isQuery (opcodeOf c) = false →
      t.link.resp = s.link.resp ∧ t.link.respNew = (s.receive (arrivedIn c)).link.respNew)

/-! ### Chapter 3: the planes and the Window Writer -/

/-- Set Geometry (R45, R46). -/
def Obligations.SetGeometryReformsTheArea : Prop :=
  ∀ (s : State) (width height : Word), s.inRun = true →
    (¬ GeometryAllowed width.toNat height.toNat →
      exec (.setGeometry width height) s = .next (commandEnd (.setGeometry width height) .badValue [] s)) ∧
    (GeometryAllowed width.toNat height.toNat → ¬ NoJobs s →
      exec (.setGeometry width height) s = .next (commandEnd (.setGeometry width height) .geometryBusy [] s)) ∧
    (GeometryAllowed width.toNat height.toNat → NoJobs s →
      exec (.setGeometry width height) s =
        .next
          (commandEnd (.setGeometry width height) .ok []
            { s with
              image := { s.image with width := width.toNat, height := height.toNat }
              writer :=
                { s.writer with
                  window := ⟨0, 0, width.toNat - 1, height.toNat - 1⟩
                  cx := if s.writer.scan.getLsbD 1 then width.toNat - 1 else 0
                  cy := if s.writer.scan.getLsbD 0 then height.toNat - 1 else 0 }
              sched :=
                { s.sched with
                  marks := List.replicate ((width.toNat / 16) * (height.toNat / 16)) true } }))

/-- Set Window (R52), Set Cursor (R53), Set Scan (R54) and Set Pixel Op (R55). -/
def Obligations.WindowCursorScanAndPixelOpAreSet : Prop :=
  ∀ (s : State) (xs ys xe ye x y : Word) (code op key : Byte), s.inRun = true →
    exec (.setWindow xs ys xe ye) s =
      .next
        (if xs.toNat ≤ xe.toNat ∧ xe.toNat < s.image.width ∧ ys.toNat ≤ ye.toNat ∧ ye.toNat < s.image.height then
          commandEnd (.setWindow xs ys xe ye) .ok []
            { s with
              writer :=
                { s.writer with
                  window := ⟨xs.toNat, ys.toNat, xe.toNat, ye.toNat⟩
                  cx := if s.writer.scan.getLsbD 1 then xe.toNat else xs.toNat
                  cy := if s.writer.scan.getLsbD 0 then ye.toNat else ys.toNat } }
        else commandEnd (.setWindow xs ys xe ye) .badRect [] s) ∧
    exec (.setCursor x y) s =
      .next
        (if s.writer.window.xs ≤ x.toNat ∧ x.toNat ≤ s.writer.window.xe ∧ s.writer.window.ys ≤ y.toNat ∧
            y.toNat ≤ s.writer.window.ye then
          commandEnd (.setCursor x y) .ok [] { s with writer := { s.writer with cx := x.toNat, cy := y.toNat } }
        else commandEnd (.setCursor x y) .badCursor [] s) ∧
    exec (.setScan code) s =
      .next
        (if code.toNat ≤ 7 then
          commandEnd (.setScan code) .ok []
            { s with
              writer :=
                { s.writer with
                  scan := code.extractLsb' 0 3
                  cx := if code.getLsbD 1 then s.writer.window.xe else s.writer.window.xs
                  cy := if code.getLsbD 0 then s.writer.window.ye else s.writer.window.ys } }
        else commandEnd (.setScan code) .badValue [] s) ∧
    exec (.setPixelOp op key) s =
      .next
        (if op.toNat ≤ 3 ∧ key.toNat ≤ 3 then
          commandEnd (.setPixelOp op key) .ok []
            { s with
              writer :=
                { s.writer with
                  op := [PixelOp.replace, .keySkip, .matchOnly, .invert].getD op.toNat .replace
                  key := key.extractLsb' 0 2 } }
        else commandEnd (.setPixelOp op key) .badValue [] s)

/-- The cursor's walk (R48, R49, Table 3-2): pixel i of the scan order has the coordinates that the three bits of the scan
code give it, X the primary axis unless bit 2 is set; the order begins at the origin, holds every pixel of the window exactly once, and
each advance goes to the next pixel of the order; the advance from the last pixel, and that alone, is a wrap to the
origin. -/
def Obligations.CursorWalksTheScanOrder : Prop :=
  ∀ (win : Rect) (code : BitVec 3), win.xs ≤ win.xe → win.ys ≤ win.ye →
    (∀ i, i < (win.xe - win.xs + 1) * (win.ye - win.ys + 1) →
      (scanOrder win code)[i]? = some (scanPixel win code i)) ∧
    (scanOrder win code)[0]? = some (origin win code) ∧
    (scanOrder win code).length = (win.xe - win.xs + 1) * (win.ye - win.ys + 1) ∧
    (scanOrder win code).Nodup ∧
    (∀ x y, (x, y) ∈ scanOrder win code ↔ win.Holds x y) ∧
    (∀ i x y, (scanOrder win code)[i]? = some (x, y) →
      (scanOrder win code)[(i + 1) % (scanOrder win code).length]? = some (advanceCursor win code x y).1 ∧
        (advanceCursor win code x y).2 = decide (i + 1 = (scanOrder win code).length))

/-- Write Pixels (R51, R56, R57): T goes through one state for each pixel of the stream, each applying the pixel
operation at the cursor of its turn; pixels at no cursor position keep their level; cursor and WINDOW_WRAP follow the
4n advances. -/
def Obligations.WritePixelsStreamsIntoTarget : Prop :=
  ∀ (s : State) (data : List Byte), s.inRun = true → 1 ≤ data.length → data.length ≤ 250 → MemoriesCanonical s →
    WriterLegal s →
    ∃ T : Nat → Plane,
      T 0 = s.image.target ∧
      (∀ k, k < 4 * data.length → ∀ x y, x < 480 →
        Plane.get (T (k + 1)) x y =
          if (x, y) = cursorAt s.writer k then
            opResult s.writer.op (pixelOf data k) (Plane.get (T k) x y) s.writer.key
          else Plane.get (T k) x y) ∧
      exec (.writePixels data) s =
        .next
          (commandEnd (.writePixels data) .ok []
            { s with
              image := { s.image with target := T (4 * data.length) }
              writer := Writer.step^[4 * data.length] s.writer
              events := s.events.raiseIf (wrapsWithin s.writer (4 * data.length)) .windowWrap })

/-- Read Pixels (R58, R59): BAD_VALUE for a plane other than T and S or a count outside 1..250; else 4n levels read at
the cursor, packed four to a byte; the cursor and WINDOW_WRAP follow; no plane changes. -/
def Obligations.ReadPixelsReturnsTheWalk : Prop :=
  ∀ (s : State) (plane count : Byte), s.inRun = true →
    (1 < plane.toNat ∨ count.toNat = 0 ∨ 250 < count.toNat →
      exec (.readPixels plane count) s = .next (commandEnd (.readPixels plane count) .badValue [] s)) ∧
    (∀ p, plane = 0#8 ∧ p = s.image.target ∨ plane = 1#8 ∧ p = s.image.shown →
      1 ≤ count.toNat → count.toNat ≤ 250 →
      exec (.readPixels plane count) s =
        .next
          (commandEnd (.readPixels plane count) .ok
            ((List.range count.toNat).map fun i =>
              Plane.get p (cursorAt s.writer (4 * i)).1 (cursorAt s.writer (4 * i)).2
                ++ Plane.get p (cursorAt s.writer (4 * i + 1)).1 (cursorAt s.writer (4 * i + 1)).2
                ++ Plane.get p (cursorAt s.writer (4 * i + 2)).1 (cursorAt s.writer (4 * i + 2)).2
                ++ Plane.get p (cursorAt s.writer (4 * i + 3)).1 (cursorAt s.writer (4 * i + 3)).2)
            { s with
              writer := Writer.step^[4 * count.toNat] s.writer
              events := s.events.raiseIf (wrapsWithin s.writer (4 * count.toNat)) .windowWrap }))

/-- Fill Window (R51, R60): every pixel of the window once, no other pixel; the cursor ends at the origin. -/
def Obligations.FillWindowFillsTheWindowOnce : Prop :=
  ∀ (s : State) (level : Byte), s.inRun = true → MemoriesCanonical s → WriterLegal s →
    (3 < level.toNat → exec (.fillWindow level) s = .next (commandEnd (.fillWindow level) .badValue [] s)) ∧
    (level.toNat ≤ 3 →
      ∃ T : Plane,
        (∀ x y, x < 480 →
          Plane.get T x y =
            if s.writer.window.Holds x y then
              opResult s.writer.op (level.extractLsb' 0 2) (Plane.get s.image.target x y) s.writer.key
            else Plane.get s.image.target x y) ∧
        exec (.fillWindow level) s =
          .next
            (commandEnd (.fillWindow level) .ok []
              { s with
                image := { s.image with target := T }
                writer :=
                  { s.writer with
                    cx := (origin s.writer.window s.writer.scan).1
                    cy := (origin s.writer.window s.writer.scan).2 } }))

/-! ### Chapter 4: tiles -/

/-- Define Tile (R66, R67) and Release Tile (R70): the named slot takes the new record; every other slot that shares a
byte with it becomes invalid, and TILE_EVICT is set exactly when there is one; every other slot stays. -/
def Obligations.DefineAndReleaseTile : Prop :=
  ∀ (s : State) (slot width height : Byte) (base : Word), s.inRun = true → DirectoryLegal s →
    (15 < slot.toNat ∨ width.toNat = 0 ∨ 64 < width.toNat ∨ height.toNat = 0 ∨ 64 < height.toNat →
      exec (.defineTile slot width height base) s =
        .next (commandEnd (.defineTile slot width height base) .badValue [] s)) ∧
    (slot.toNat ≤ 15 → 1 ≤ width.toNat → width.toNat ≤ 64 → 1 ≤ height.toNat → height.toNat ≤ 64 →
      4096 < base.toNat + (width.toNat * height.toNat + 3) / 4 →
      exec (.defineTile slot width height base) s =
        .next (commandEnd (.defineTile slot width height base) .tileRange [] s)) ∧
    (slot.toNat ≤ 15 → 1 ≤ width.toNat → width.toNat ≤ 64 → 1 ≤ height.toNat → height.toNat ≤ 64 →
      base.toNat + (width.toNat * height.toNat + 3) / 4 ≤ 4096 →
      ∃ (slots : List (Option Tile)) (evicts : Bool),
        slots.length = 16 ∧
        slots[slot.toNat]? = some (some ⟨width.toNat, height.toNat, base.toNat⟩) ∧
        (∀ i, i ≠ slot.toNat → s.tiles.slots[i]? = some none → slots[i]? = some none) ∧
        (∀ i old, i ≠ slot.toNat → s.tiles.slots[i]? = some (some old) →
          (ShareByte old ⟨width.toNat, height.toNat, base.toNat⟩ → slots[i]? = some none) ∧
          (¬ ShareByte old ⟨width.toNat, height.toNat, base.toNat⟩ → slots[i]? = some (some old))) ∧
        (evicts = true ↔ ∃ i old, i ≠ slot.toNat ∧ s.tiles.slots[i]? = some (some old) ∧
          ShareByte old ⟨width.toNat, height.toNat, base.toNat⟩) ∧
        exec (.defineTile slot width height base) s =
          .next
            (commandEnd (.defineTile slot width height base) .ok []
              { s with
                tiles := { s.tiles with slots := slots }
                events := s.events.raiseIf evicts .tileEvict })) ∧
    exec (.releaseTile slot) s =
      .next
        (if slot.toNat ≤ 15 then
          commandEnd (.releaseTile slot) .ok []
            { s with tiles := { s.tiles with slots := s.tiles.slots.set slot.toNat none } }
        else commandEnd (.releaseTile slot) .badValue [] s)

/-- Load Tile Data (R68, R69): data byte k goes to pattern byte base + offset + k, and no other byte changes. -/
def Obligations.LoadTileDataWritesTheSlotsBytes : Prop :=
  ∀ (s : State) (slot : Byte) (offset : Word) (data : List Byte), s.inRun = true → MemoriesCanonical s →
    1 ≤ data.length → data.length ≤ 247 →
    (15 < slot.toNat →
      exec (.loadTileData slot offset data) s = .next (commandEnd (.loadTileData slot offset data) .badValue [] s)) ∧
    (slot.toNat ≤ 15 → slotAt s.tiles.slots slot.toNat = none →
      exec (.loadTileData slot offset data) s =
        .next (commandEnd (.loadTileData slot offset data) .tileInvalid [] s)) ∧
    (∀ tile, slot.toNat ≤ 15 → slotAt s.tiles.slots slot.toNat = some tile →
      (tile.size < offset.toNat + data.length →
        exec (.loadTileData slot offset data) s =
          .next (commandEnd (.loadTileData slot offset data) .tileRange [] s)) ∧
      (offset.toNat + data.length ≤ tile.size →
        ∃ m : List Host.Cell,
          (∀ a, byteAt m a =
            if tile.base + offset.toNat ≤ a ∧ a < tile.base + offset.toNat + data.length then
              data.getD (a - (tile.base + offset.toNat)) 0#8
            else byteAt s.tiles.pattern a) ∧
          exec (.loadTileData slot offset data) s =
            .next
              (commandEnd (.loadTileData slot offset data) .ok []
                { s with tiles := { s.tiles with pattern := m } })))

/-- Place Tile (R65, R71, R72, R73): each tile pixel whose exact position lies in the active area is applied to T with
the payload's operation and key; every other pixel of T, and all else, stays. -/
def Obligations.PlaceTileStampsTheClippedTile : Prop :=
  ∀ (s : State) (slot op key : Byte) (x y : Word), s.inRun = true → MemoriesCanonical s → WriterLegal s →
    (15 < slot.toNat ∨ 3 < op.toNat ∨ 3 < key.toNat →
      exec (.placeTile slot x y op key) s = .next (commandEnd (.placeTile slot x y op key) .badValue [] s)) ∧
    (slot.toNat ≤ 15 → op.toNat ≤ 3 → key.toNat ≤ 3 → slotAt s.tiles.slots slot.toNat = none →
      exec (.placeTile slot x y op key) s = .next (commandEnd (.placeTile slot x y op key) .tileInvalid [] s)) ∧
    (∀ tile o, slot.toNat ≤ 15 → [PixelOp.replace, .keySkip, .matchOnly, .invert][op.toNat]? = some o →
      key.toNat ≤ 3 → slotAt s.tiles.slots slot.toNat = some tile →
      ∃ T : Plane,
        (∀ px py : Nat, px < 480 →
          Plane.get T px py =
            if px < s.image.width ∧ py < s.image.height ∧ x.toInt ≤ px ∧ (px : Int) < x.toInt + tile.width ∧
                y.toInt ≤ py ∧ (py : Int) < y.toInt + tile.height then
              opResult o
                (let n := (py - y.toInt).toNat * tile.width + (px - x.toInt).toNat
                (byteAt s.tiles.pattern (tile.base + n / 4)).extractLsb' (6 - 2 * (n % 4)) 2)
                (Plane.get s.image.target px py) (key.extractLsb' 0 2)
            else Plane.get s.image.target px py) ∧
        exec (.placeTile slot x y op key) s =
          .next
            (commandEnd (.placeTile slot x y op key) .ok [] { s with image := { s.image with target := T } }))

/-! ### Chapter 5: the waveform table -/

/-- Load Waveform Data (R83, R84): TABLE_SEALED, then BAD_VALUE; data byte k goes to RAM byte offset + k, and no other
byte changes. -/
def Obligations.LoadWaveformDataWritesTheRam : Prop :=
  ∀ (s : State) (offset : Word) (data : List Byte), s.inRun = true → MemoriesCanonical s →
    1 ≤ data.length → data.length ≤ 247 →
    (s.wave.table ≠ none →
      exec (.loadWaveformData offset data) s =
        .next (commandEnd (.loadWaveformData offset data) .tableSealed [] s)) ∧
    (s.wave.table = none → 8192 < offset.toNat + data.length →
      exec (.loadWaveformData offset data) s = .next (commandEnd (.loadWaveformData offset data) .badValue [] s)) ∧
    (s.wave.table = none → offset.toNat + data.length ≤ 8192 →
      ∃ m : List Host.Cell,
        (∀ a, byteAt m a =
          if offset.toNat ≤ a ∧ a < offset.toNat + data.length then data.getD (a - offset.toNat) 0#8
          else byteAt s.wave.ram a) ∧
        exec (.loadWaveformData offset data) s =
          .next (commandEnd (.loadWaveformData offset data) .ok [] { s with wave := { s.wave with ram := m } }))

/-- The reason code of Seal Waveform names the first of the seven tests that fails, 0 when none does (R85, R86, R87,
Table 5-5). That BANDS reads bounds that lie at Lt or above is the model's choice (log entry 32). -/
def Obligations.SealReasonNamesTheFirstFailingTest : Prop :=
  ∀ ram : List Host.Cell,
    (¬ FormatPasses ram → sealReason ram = 1) ∧
    (FormatPasses ram → ¬ CountsPasses ram → sealReason ram = 2) ∧
    (FormatPasses ram → CountsPasses ram → ¬ BandsPasses ram → sealReason ram = 3) ∧
    (FormatPasses ram → CountsPasses ram → BandsPasses ram → ¬ IndexPasses ram → sealReason ram = 4) ∧
    (FormatPasses ram → CountsPasses ram → BandsPasses ram → IndexPasses ram → ¬ FramesPasses ram →
      sealReason ram = 5) ∧
    (FormatPasses ram → CountsPasses ram → BandsPasses ram → IndexPasses ram → FramesPasses ram →
      ¬ RecoveryPasses ram → sealReason ram = 6) ∧
    (FormatPasses ram → CountsPasses ram → BandsPasses ram → IndexPasses ram → FramesPasses ram →
      RecoveryPasses ram → ¬ ChecksumPasses ram → sealReason ram = 7) ∧
    (FormatPasses ram → CountsPasses ram → BandsPasses ram → IndexPasses ram → FramesPasses ram →
      RecoveryPasses ram → ChecksumPasses ram → sealReason ram = 0)

/-- Seal Waveform (R88, R89, R90) and Unseal Waveform (R91). -/
def Obligations.SealAndUnsealWaveform : Prop :=
  ∀ s : State, s.inRun = true →
    (let payload : List Byte :=
        [BitVec.ofNat 8 (sealReason s.wave.ram)]
          ++ (if 19 ≤ lengthOf s.wave.ram ∧ lengthOf s.wave.ram ≤ 8192 then
              [(imageCrc s.wave.ram).extractLsb' 8 8, (imageCrc s.wave.ram).extractLsb' 0 8]
            else [0x00#8, 0x00#8])
          ++ [byteAt s.wave.ram 1, byteAt s.wave.ram 2]
     exec .sealWaveform s =
       .next
         (if sealReason s.wave.ram = 0 then commandEnd .sealWaveform .ok payload (sealedState s)
         else commandEnd .sealWaveform .tableInvalid payload s)) ∧
    exec .unsealWaveform s =
      .next
        (if s.sched.lanes.anyActive then commandEnd .unsealWaveform .tableBusy [] s
        else
          commandEnd .unsealWaveform .ok []
            (rebanded s.temp { s with wave := { s.wave with table := none } }))

/-- BAND while SEALED: for strictly ascending bounds and a valid temperature it is the one band whose interval holds the
temperature, and none when no interval does; it is none while the table is UNSEALED or the temperature invalid (R79,
R137). -/
def Obligations.BandIsTheIntervalOfTheTemperature : Prop :=
  (∀ temperature, bandOf none temperature = none) ∧
  (∀ table, bandOf table none = none) ∧
  (∀ (t : Snapshot) (c : Int) (b : Nat), strictlyAscending t.bounds = true →
    (bandOf (some t) (some c) = some b ↔
      ∃ lo hi, t.bounds[b]? = some lo ∧ t.bounds[b + 1]? = some hi ∧ lo ≤ c ∧ c < hi))

/-! ### Chapter 6: the Scheduler -/

/-- Read Uncertain Map (R118) and Mark Uncertain (R117). -/
def Obligations.UncertainMapIsReadAndMarked : Prop :=
  ∀ (s : State) (xs ys xe ye : Word), s.inRun = true → JobsLegal s → WriterLegal s →
    (∃ payload : List Byte,
      payload.length = 2 + (s.sched.marks.length + 7) / 8 ∧
      (payload.getD 0 0#8 ++ payload.getD 1 0#8).toNat = s.sched.marks.count true ∧
      (∀ k, k < 8 * ((s.sched.marks.length + 7) / 8) →
        (payload.getD (2 + k / 8) 0#8).getLsbD (7 - k % 8) = s.sched.marks.getD k false) ∧
      exec .readUncertainMap s = .next (commandEnd .readUncertainMap .ok payload s)) ∧
    (¬ (rectOf xs ys xe ye).Valid s.image.width s.image.height →
      exec (.markUncertain xs ys xe ye) s = .next (commandEnd (.markUncertain xs ys xe ye) .badRect [] s)) ∧
    ((rectOf xs ys xe ye).Valid s.image.width s.image.height →
      ∃ marks : List Bool,
        MarkedBy (rectOf xs ys xe ye) (s.image.width / 16) s.sched.marks marks ∧
        exec (.markUncertain xs ys xe ye) s =
          .next
            (commandEnd (.markUncertain xs ys xe ye) .ok [] { s with sched := { s.sched with marks := marks } }))

/-- Submit Job (R97, R98, R99): NO_TABLE, BAD_RECT, BAD_MODE, QUEUE_FULL in this order, each with the payload of a
refusal; else the superseded jobs leave with their records, the new job joins at the tail, and the payload tells
ticket, depth and number superseded. -/
def Obligations.SubmitJobQueuesTheJob : Prop :=
  ∀ (s : State) (xs ys xe ye : Word) (mode options : Byte), s.inRun = true →
    let c := Instr.submitJob xs ys xe ye mode options
    let refusal : List Byte := [0x00#8, BitVec.ofNat 8 s.sched.queue.length, 0x00#8]
    let region := rectOf xs ys xe ye
    let same := fun j : Job => options.getLsbD 1 && decide (j.region = region) && decide (j.mode = mode.toNat)
    let gone := s.sched.queue.filter same
    let kept := s.sched.queue.filter fun j => !same j
    let ticket := nextFreeTicket s.sched
    (s.wave.table = none → exec c s = .next (commandEnd c .noTable refusal s)) ∧
    (∀ t, s.wave.table = some t →
      (¬ region.Valid s.image.width s.image.height → exec c s = .next (commandEnd c .badRect refusal s)) ∧
      (region.Valid s.image.width s.image.height → t.modes ≤ mode.toNat →
        exec c s = .next (commandEnd c .badMode refusal s)) ∧
      (region.Valid s.image.width s.image.height → mode.toNat < t.modes → 8 ≤ kept.length →
        exec c s = .next (commandEnd c .queueFull refusal s)) ∧
      (region.Valid s.image.width s.image.height → mode.toNat < t.modes → kept.length < 8 →
        exec c s =
          .next
            (commandEnd c .ok [ticket, BitVec.ofNat 8 (kept.length + 1), BitVec.ofNat 8 gone.length]
              { s with
                sched :=
                  { s.sched with
                    queue :=
                      kept ++
                        [{ ticket := ticket
                           region := region
                           mode := mode.toNat
                           notify := options.getLsbD 0
                           coalesce := options.getLsbD 1 }]
                    nextTicket := if ticket = 255#8 then 1#8 else ticket + 1#8 }
                events :=
                  gone.foldl (fun e j => e.record .superseded j.ticket (0x00#8 ++ ticket)) s.events })))

/-- The ticket of a new job (R95): the first of the candidates NEXT_TICKET, NEXT_TICKET + 1, … (255 followed by 1)
that no job holds, found among the first thirteen, never 0. -/
def Obligations.NewTicketIsTheFirstFreeCandidate : Prop :=
  ∀ c : Sched, c.nextTicket ≠ 0#8 → c.queue.length ≤ 8 →
    ∃ n, n < 13 ∧ nextFreeTicket c = ticketAfter^[n] c.nextTicket ∧ c.held (nextFreeTicket c) = false ∧
      (∀ m, m < n → c.held (ticketAfter^[m] c.nextTicket) = true) ∧ nextFreeTicket c ≠ 0#8

/-- Cancel Job (R112), Abort Job (R113) and Flush Queue (R114). -/
def Obligations.CancelAbortAndFlush : Prop :=
  ∀ (s : State) (t : Byte), s.inRun = true → TicketsLegal s →
    (Unheld s t →
      exec (.cancelJob t) s = .next (commandEnd (.cancelJob t) .noSuchJob [] s) ∧
        (t ≠ 0#8 → exec (.abortJob t) s = .next (commandEnd (.abortJob t) .noSuchJob [] s))) ∧
    (∀ (older newer : List Job) (j : Job), s.sched.queue = older ++ j :: newer → j.ticket = t →
      let u :=
        { s with
          sched := { s.sched with queue := older ++ newer }
          events := s.events.record .cancelled t 0x0001#16 }
      exec (.cancelJob t) s = .next (commandEnd (.cancelJob t) .ok [] u) ∧
        exec (.abortJob t) s = .next (commandEnd (.abortJob t) .ok [] u)) ∧
    (∀ k a, s.sched.lanes.get k = some a → a.job.ticket = t →
      exec (.cancelJob t) s = .next (commandEnd (.cancelJob t) .jobActive [] s) ∧
        exec (.abortJob t) s =
          .next
            (commandEnd (.abortJob t) .ok []
              { s with
                sched := { s.sched with lanes := s.sched.lanes.set k (some { a with abortPending := true }) } })) ∧
    (∃ lanes : Lanes,
      (∀ k, lanes.get k = (s.sched.lanes.get k).map fun a => { a with abortPending := true }) ∧
      exec (.abortJob 0x00#8) s =
        .next
          (commandEnd (.abortJob 0x00#8) .ok []
            { s with
              sched := { s.sched with queue := [], lanes := lanes }
              events := cancelledRecords 0x0001#16 s.sched.queue s.events })) ∧
    exec .flushQueue s =
      .next
        (commandEnd .flushQueue .ok []
          { s with
            sched := { s.sched with queue := [] }
            events := cancelledRecords 0x0002#16 s.sched.queue s.events })

/-- Start Scheduler (R100), Halt Scheduler (R101) and Clear Hold (R102) in each scheduler state, and the events
QUIESCE_TO_HALTED and PARKING_TO_HOLDING (R103, R119). That these events can come alone is the model's choice (log
entry 1). -/
def Obligations.SchedulerStateChanges : Prop :=
  ∀ s : State, s.inRun = true →
    exec .startScheduler s =
      .next
        (if s.sched.state = .parking ∨ s.sched.state = .holding then commandEnd .startScheduler .badState [] s
        else commandEnd .startScheduler .ok [] { s with sched := { s.sched with state := .running } }) ∧
    exec .haltScheduler s =
      .next
        (if s.sched.state = .parking ∨ s.sched.state = .holding then commandEnd .haltScheduler .badState [] s
        else if s.sched.state = .running then
          commandEnd .haltScheduler .ok []
            { s with sched := { s.sched with state := if s.sched.lanes.anyActive then .quiescing else .halted } }
        else commandEnd .haltScheduler .ok [] s) ∧
    exec .clearHold s =
      .next
        (if s.sched.state = .holding then
          commandEnd .clearHold .ok []
            { s with
              sched := { s.sched with state := .halted }
              supply :=
                { s.supply with
                  rail := if s.supply.rail = .fault then .off else s.supply.rail
                  faultKind := .none } }
        else commandEnd .clearHold .badState [] s) ∧
    exec .quiesceToHalted s =
      .next
        (if s.sched.state = .quiescing ∧ s.sched.lanes.anyActive = false then
          endStep
            { s with sched := { s.sched with state := .halted }, events := s.events.raise .schedIdle }
        else endStep s) ∧
    exec .parkingToHolding s =
      .next
        (if s.sched.state = .parking ∧ s.sched.lanes.anyActive = false then
          endStep { s with sched := { s.sched with state := .holding } }
        else endStep s)

/-- Query Job (R115): the eleven bytes of a QUEUED and of an ACTIVE job, NO_SUCH_JOB with an empty payload otherwise;
the job is not changed. -/
def Obligations.QueryJobDescribesTheJob : Prop :=
  ∀ (s : State) (t : Byte), s.inRun = true → TicketsLegal s →
    let flags := fun (abortPending upgraded : Bool) (j : Job) =>
      BitVec.ofNat 8
        ((if abortPending then 1 else 0) + (if upgraded then 2 else 0) + (if j.notify then 4 else 0)
          + (if j.coalesce then 8 else 0))
    (Unheld s t → exec (.queryJob t) s = .next (commandEnd (.queryJob t) .noSuchJob [] s)) ∧
    (∀ i j, s.sched.queue[i]? = some j → j.ticket = t →
      exec (.queryJob t) s =
        .next
          (commandEnd (.queryJob t) .ok
            [t, 0x00#8, BitVec.ofNat 8 i, BitVec.ofNat 8 j.mode, 0xFF#8, 0xFF#8, 0xFF#8, 0x00#8,
              flags false false j, 0x00#8, 0x00#8] s)) ∧
    (∀ k a, s.sched.lanes.get k = some a → a.job.ticket = t →
      exec (.queryJob t) s =
        .next
          (commandEnd (.queryJob t) .ok
            [t, 0x01#8, BitVec.ofNat 8 k.val, BitVec.ofNat 8 a.job.mode, BitVec.ofNat 8 a.effMode,
              BitVec.ofNat 8 a.band, BitVec.ofNat 8 a.phase, BitVec.ofNat 8 a.remaining,
              flags a.abortPending a.upgraded a.job, (BitVec.ofNat 16 a.total).extractLsb' 8 8,
              (BitVec.ofNat 16 a.total).extractLsb' 0 8] s))

/-- Admission's examination (R105) gives the unblocked jobs, in queue order, the free lanes from the lowest on, until
one of the two runs out; and the power request's condition (R106): with the rails not READY it holds exactly when the
scheduler is RUNNING, the table SEALED, the monitor in band and the queue not empty, and with the rails READY it does
not hold. -/
def Obligations.ExaminationAndPowerRequest : Prop :=
  (∀ c : Sched, c.eligible = (unblocked c).zip c.lanes.free) ∧
  (∀ s : State, LanesLegal s →
    (s.supply.rail = .ready → s.powerCondition = false) ∧
    (s.supply.rail ≠ .ready →
      (s.powerCondition = true ↔
        s.sched.state = .running ∧ s.wave.table ≠ none ∧ s.temp.temperature ≠ none ∧ s.temp.band ≠ none ∧
          s.sched.queue ≠ [])))

/-- The event ACTIVATED (R104, R107, R108): with admission closed, or no eligible job, nothing; else the first
eligible job takes its band, effective mode and lane, its region of T is latched into L (rounded unless the mode has
GREY), and the ACTIVATED record is written. That the event activates the first eligible job, alone, is the model's
choice (log entry 1). -/
def Obligations.ActivatedLatchesAndFillsTheLane : Prop :=
  ∀ s : State, s.inRun = true → MemoriesCanonical s → JobsLegal s → WriterLegal s →
    (s.sched.state ≠ .running ∨ s.wave.table = none ∨ s.supply.rail ≠ .ready ∨ s.temp.temperature = none ∨
        s.temp.band = none ∨ s.sched.eligible = [] →
      exec .activated s = .next (endStep s)) ∧
    (∀ t b c j k rest, s.sched.state = .running → s.wave.table = some t → s.supply.rail = .ready →
      s.temp.temperature = some c → s.temp.band = some b → s.sched.eligible = (j, k) :: rest →
      ∃ (upgraded : Bool) (L : Plane),
        (upgraded = true ↔
          (∃ n, s.sched.marks[n]? = some true ∧ TouchesCell j.region (s.image.width / 16) n) ∧
            (t.attrs.getD j.mode 0#8).getLsbD 2 = false) ∧
        (let eff := if upgraded then t.recovery else j.mode
        (∀ x y, x < 480 →
          Plane.get L x y =
            if j.region.Holds x y then
              (if (t.attrs.getD eff 0#8).getLsbD 0 then Plane.get s.image.target x y
              else if Plane.get s.image.target x y = 0#2 ∨ Plane.get s.image.target x y = 1#2 then 0#2
              else 3#2)
            else Plane.get s.image.latch x y) ∧
        exec .activated s =
          .next
            (endStep
              { s with
                image := { s.image with latch := L }
                sched :=
                  { s.sched with
                    queue := s.sched.queue.erase j
                    lanes :=
                      s.sched.lanes.set k
                        (some
                          { job := j
                            effMode := eff
                            band := b
                            upgraded := upgraded
                            phase := 0
                            remaining := framesOf s.wave.ram t eff b 0
                            total := 0
                            abortPending := false }) }
                events :=
                  s.events.record .activated j.ticket
                    (BitVec.ofNat 16 (4096 * k.val + 256 * b + 16 * eff + (if upgraded then 1 else 0))) })))

/-- The events PHASE_ADVANCE, COMPLETED and ABORTED of one lane (R109, R110, R111, R128, R129), each with its enabling
condition; where it does not hold, or the lane is free, nothing happens. That such an event can come alone is the
model's choice (log entry 1). -/
def Obligations.LaneEventsAdvanceCompleteAndAbort : Prop :=
  ∀ (s : State) (k : Fin 4) (t : Snapshot), s.inRun = true → s.wave.table = some t → MemoriesCanonical s →
    JobsLegal s → WriterLegal s →
    (s.sched.lanes.get k = none → ∀ cause,
      exec (.phaseAdvance k) s = .next (endStep s) ∧ exec (.completed k) s = .next (endStep s) ∧
        exec (.aborted k cause) s = .next (endStep s)) ∧
    (∀ a, s.sched.lanes.get k = some a →
      (¬ (a.remaining ≤ 1 ∧ ¬ finishes s t a) → exec (.phaseAdvance k) s = .next (endStep s)) ∧
      (a.remaining ≤ 1 → ¬ finishes s t a →
        exec (.phaseAdvance k) s =
          .next
            (endStep
              { s with
                sched :=
                  { s.sched with
                    lanes :=
                      s.sched.lanes.set k
                        (some
                          { a with
                            phase := a.phase + 1
                            remaining := framesOf s.wave.ram t a.effMode a.band (a.phase + 1)
                            total := a.total + 1 }) } })) ∧
      (¬ finishes s t a → exec (.completed k) s = .next (endStep s)) ∧
      (finishes s t a →
        ∃ (S : Plane) (marks : List Bool),
          (∀ x y, x < 480 →
            Plane.get S x y =
              if a.job.region.Holds x y then Plane.get s.image.latch x y else Plane.get s.image.shown x y) ∧
          marks.length = s.sched.marks.length ∧
          (∀ n, n < s.sched.marks.length →
            (marks[n]? = some true ↔
              s.sched.marks[n]? = some true ∧
                ¬ ((t.attrs.getD a.effMode 0#8).getLsbD 2 = true ∧
                  CoversCell a.job.region (s.image.width / 16) n))) ∧
          exec (.completed k) s =
            .next
              (endStep
                { s with
                  image := { s.image with shown := S }
                  sched := { s.sched with lanes := s.sched.lanes.set k none, marks := marks }
                  events :=
                    (s.events.record .completed a.job.ticket (BitVec.ofNat 16 (a.total + 1))).raiseIf a.job.notify
                      .jobDone })) ∧
      (a.abortPending = false ∨ finishes s t a → exec (.aborted k .host) s = .next (endStep s)) ∧
      (∃ marks : List Bool,
        MarkedBy a.job.region (s.image.width / 16) s.sched.marks marks ∧
        (let freed := { s with sched := { s.sched with lanes := s.sched.lanes.set k none, marks := marks } }
        (a.abortPending = true → ¬ finishes s t a →
          exec (.aborted k .host) s =
            .next
              (endStep
                { freed with
                  events := (s.events.record .aborted a.job.ticket 0x0001#16).raise .jobFail })) ∧
        exec (.aborted k .fault) s =
          .next
            (endStep
              { freed with
                events := (s.events.record .aborted a.job.ticket 0x0002#16).raise .jobFail }) ∧
        exec (.aborted k .reset) s = .next (endStep freed))))

/-! ### Chapter 7: frames -/

/-- The order of a frame boundary step (R123, R127, R128, R130, R131): FRAME_COUNT, the lanes 0 to 3, the scheduler's
settling, admission in queue order, the power request, SCHED_IDLE and the work mark, the end of the step, the next
frame. What step 1 does with one lane: completion when the last phase has ended; else one frame accounted for, the
next phase when its phase has ended, then the pending abort. -/
def Obligations.FrameBoundaryWorksInOrder : Prop :=
  (∀ s : State, s.inRun = true → LanesLegal s →
    ∃ s1 s2 s3 s4 s5 : State,
      (s.wave.table = none → s1 = { s with seq := { s.seq with frameCount := s.seq.frameCount + 1#16 } }) ∧
      (∀ t, s.wave.table = some t →
        s1 =
          advanceLane t 3
            (advanceLane t 2
              (advanceLane t 1
                (advanceLane t 0
                  { s with seq := { s.seq with frameCount := s.seq.frameCount + 1#16 } })))) ∧
      s2 =
        { s1 with
          sched :=
            { s1.sched with
              state :=
                if s1.sched.lanes.anyActive then s1.sched.state
                else if s1.sched.state = .quiescing then .halted
                else if s1.sched.state = .parking then .holding
                else s1.sched.state } } ∧
      s3 =
        (if s2.mayAdmit = true ∧ s2.supply.rail = .ready then
          s2.sched.eligible.foldl (fun u jk => activate jk.1 jk.2 u) s2
        else s2) ∧
      s4 = { s3 with sched := { s3.sched with powerRequest := s3.sched.powerRequest || s3.powerCondition } } ∧
      s5 =
        (let someJob := decide (s4.sched.queue ≠ []) || s4.sched.lanes.anyActive
        { s4 with
          events :=
            s4.events.raiseIf
              ((decide (s1.sched.state = .quiescing) && !s1.sched.lanes.anyActive)
                || (decide (s4.sched.state = .running) && !someJob && s4.sched.workMark))
              .schedIdle
          sched := { s4.sched with workMark := someJob } }) ∧
      exec .frameBoundary s = .next (beginFrame (endStep s5))) ∧
  (∀ (u : State) (t : Snapshot) (k : Fin 4),
    (u.sched.lanes.get k = none → advanceLane t k u = u) ∧
    (∀ a, u.sched.lanes.get k = some a →
      (finishes u t a →
        advanceLane t k u = completeJob t k { a with remaining := a.remaining - 1, total := a.total + 1 } u) ∧
      (¬ finishes u t a →
        let b : ActiveJob :=
          if a.remaining ≤ 1 then
            { a with
              phase := a.phase + 1
              remaining := framesOf u.wave.ram t a.effMode a.band (a.phase + 1)
              total := a.total + 1 }
          else { a with remaining := a.remaining - 1, total := a.total + 1 }
        let v := { u with sched := { u.sched with lanes := u.sched.lanes.set k (some b) } }
        advanceLane t k u = if a.abortPending then abortLane .host k v else v)))

/-- The frame that begins (R122, R124, R125, R126, R92), its boundary not fallen yet (R27, R28): driving exactly when the rails are READY and some lane holds
a job; a driving frame transfers one code for each pixel of the active area in raster order, the drive lookup's inside
a lane's region, NEUTRAL elsewhere; an idle frame transfers none, and after a driving one sends the end-of-drive
indication. -/
def Obligations.FrameKindAndDriveCodes : Prop :=
  ∀ s t : State, s.inRun = true → exec .frameBoundary s = .next t →
    t.seq.frameCount = s.seq.frameCount + 1#16 ∧
    t.seq.rateInForce = t.params.frameRate ∧ t.arbiter.boundary = false ∧
    (t.seq.frame = .driving ↔ t.supply.rail = .ready ∧ t.sched.lanes.anyActive = true) ∧
    (t.seq.frame = .idle →
      t.seq.driveCodes = [] ∧
        t.seq.endOfDrives = (if s.seq.frame = .driving then s.seq.endOfDrives + 1 else s.seq.endOfDrives)) ∧
    (∀ table, t.seq.frame = .driving → t.wave.table = some table → 1 ≤ t.image.width → 1 ≤ t.image.height →
      t.seq.endOfDrives = s.seq.endOfDrives ∧
      t.seq.driveCodes.length = t.image.width * t.image.height ∧
      (∀ x y, x < t.image.width → y < t.image.height →
        (∀ k a, t.sched.lanes.get k = some a → ¬ a.job.region.Holds x y) →
        t.seq.driveCodes[y * t.image.width + x]? = some 0#2) ∧
      (∀ x y k a, x < t.image.width → y < t.image.height → t.sched.lanes.get k = some a → a.job.region.Holds x y →
        (∀ j b, j < k → t.sched.lanes.get j = some b → ¬ b.job.region.Holds x y) →
        let start := recordStart t.wave.ram table a.effMode a.band a.phase
        let shown := if (table.attrs.getD a.effMode 0#8).getLsbD 1 then 0 else (Plane.get t.image.shown x y).toNat
        t.seq.driveCodes[y * t.image.width + x]? =
          some
            ((byteAt t.wave.ram (start + 1 + shown)).extractLsb'
              (6 - 2 * (Plane.get t.image.latch x y).toNat) 2)))

/-! ### Chapter 8: temperature and supply -/

/-- Sample Temperature (R138) and the periodic sample (R135), with what a sample obtains (R136) and its transitions
(R137). -/
def Obligations.SamplesRenewTemperatureAndBand : Prop :=
  ∀ (s : State) (x : SensorInput), s.inRun = true →
    exec (.sampleTemperature x) s = .next (commandEnd (.sampleTemperature x) .ok [] (afterSample x s)) ∧
    exec (.periodicSample x) s =
      .next (endStep (if s.temp.sampleCount = 0 then afterSample x s else s))

/-- Rails On (R146), Rails Off (R147), and the four supply reports in each rail state (R140, R143, R144, R145). -/
def Obligations.RailCommandsAndReports : Prop :=
  (∀ s : State, s.inRun = true →
    exec .railsOn s =
      .next
        (match s.supply.rail with
        | .off => commandEnd .railsOn .ok [] (ramping s)
        | .ramping => commandEnd .railsOn .ok [] s
        | .ready => commandEnd .railsOn .ok [] s
        | .draining => commandEnd .railsOn .badState [] s
        | .fault => commandEnd .railsOn .badState [] s) ∧
    exec .railsOff s =
      .next
        (match s.supply.rail with
        | .ready =>
          if s.sched.lanes.anyActive then commandEnd .railsOff .railsBusy [] s
          else commandEnd .railsOff .ok [] (draining s)
        | .ramping => commandEnd .railsOff .ok [] (draining s)
        | .off => commandEnd .railsOff .ok [] s
        | .draining => commandEnd .railsOff .ok [] s
        | .fault => commandEnd .railsOff .ok [] s)) ∧
  (∀ s : State, s.resetUnit.inProgress = none →
    let counted :=
      { s with
        supply :=
          { s.supply with
            faultCount := if s.supply.faultCount < 255 then s.supply.faultCount + 1 else s.supply.faultCount } }
    exec .railGood s =
      .next
        (endStep
          (if s.supply.rail = .ramping then
            { s with
              supply :=
                { s.supply with
                  rail := .ready
                  rampCount := 0
                  holdCount := s.params.railHold.toNat
                  drainCount := 0 }
              events := s.events.raise .railsReady }
          else s)) ∧
    exec .railLost s =
      .next
        (endStep
          (if s.supply.rail = .ready then faulted .undervolt 0x0002#16 s
          else if s.supply.rail = .fault then counted
          else s)) ∧
    exec .overcurrent s =
      .next
        (endStep
          (if s.supply.rail = .off then s
          else if s.supply.rail = .fault then counted
          else faulted .overcurrent 0x0003#16 s)) ∧
    exec .drainDone s = .next (endStep (if s.supply.rail = .draining then drained s.events s else s)))

/-- The supply events of a tick step (R141, R142, R143, R144), each with the condition under which its tick makes it;
where the condition does not hold, nothing. That such an event can come alone is the model's choice (log entry 1). -/
def Obligations.SupplyTickEvents : Prop :=
  ∀ s : State, s.resetUnit.inProgress = none →
    exec .powerRequestRamp s =
      .next (endStep (if s.supply.rail = .off ∧ s.sched.powerRequest = true then ramping s else s)) ∧
    exec .rampTimeout s =
      .next
        (endStep
          (if s.supply.rail = .ramping ∧ s.supply.rampCount ≤ 1 then faulted .rampTimeout 0x0001#16 s else s)) ∧
    exec .railHoldExpiry s =
      .next
        (endStep
          (if s.supply.rail = .ready ∧ s.sched.lanes.anyActive = false ∧ s.sched.powerRequest = false ∧
              s.supply.holdCount ≤ 1 then
            draining s
          else s)) ∧
    exec .drainSlow s =
      .next
        (endStep
          (if s.supply.rail = .draining ∧ s.supply.drainCount ≤ 1 then
            drained (s.events.record .drainSlow 0#8 0x0000#16) s
          else s))

/-! ### Chapter 9: events and the journal -/

/-- Acknowledge Events (R152), Read Journal (R156) and Clear Journal (R157). Of the flags that the port sets while the
step of Acknowledge Events runs, which is LINK_ERR or none, none is lost (R15). That what lands is an operand of the
command is the model's choice (log entry 20). -/
def Obligations.AcknowledgeReadAndClear : Prop :=
  ∀ (s : State) (mask : Word) (arrived : List Arrival) (count : Byte), s.inRun = true →
    (let c := Instr.acknowledgeEvents ⟨mask, arrived⟩
    let set := (State.receive arrived { s with events := { s.events with flags := 0#16 } }).events.flags
    (set = 0#16 ∨ set = 0x0200#16) ∧ (s.receive arrived).events.flags = s.events.flags ||| set ∧
      exec c s =
        .next
          (commandEndOf (ownsHead c s) c .ok []
            { s.receive arrived with
              events := { s.events with flags := (s.events.flags &&& ~~~mask) ||| set } })) ∧
    exec .clearJournal s =
      .next
        (commandEnd .clearJournal .ok [] { s with events := { s.events with journal := [], lost := 0 } }) ∧
    (count.toNat = 0 ∨ 4 < count.toNat →
      exec (.readJournal count) s = .next (commandEnd (.readJournal count) .badValue [] s)) ∧
    (1 ≤ count.toNat → count.toNat ≤ 4 →
      let k := min count.toNat s.events.journal.length
      exec (.readJournal count) s =
        .next
          (commandEnd (.readJournal count) .ok
            ([BitVec.ofNat 8 k, BitVec.ofNat 8 (s.events.journal.length - k), BitVec.ofNat 8 s.events.lost]
              ++ (s.events.journal.take k).flatMap fun r =>
                [r.seq, r.code.code, r.ticket, r.detail.extractLsb' 8 8, r.detail.extractLsb' 0 8])
            { s with events := { s.events with journal := s.events.journal.drop k } }))

/-- Flags are sticky (R148): whatever the command, a set flag stays set unless Acknowledge Events names it or a reset
has begun; and Acknowledge Events clears no flag outside its mask. -/
def Obligations.FlagsStaySetUntilAcknowledged : Prop :=
  ∀ (c : Instr) (s t : State) (f : EventFlag), exec c s = .next t → t.resetUnit.inProgress = none →
    s.events.has f = true →
    (∀ mask arrived, c = .acknowledgeEvents ⟨mask, arrived⟩ → mask.getLsbD f.bit = false) →
    t.events.has f = true

/-- The journal keeps its records (R153, R155): whatever the command, unless it reads or clears the journal or a reset
has begun, the records held stay at its head in their order; new ones stand behind them with consecutive seq from the
counter on; the lost count never falls. -/
def Obligations.JournalKeepsItsRecords : Prop :=
  ∀ (c : Instr) (s t : State), exec c s = .next t → t.resetUnit.inProgress = none →
    (∀ n, c ≠ .readJournal n) → c ≠ .clearJournal →
    ∃ new : List JournalRecord,
      t.events.journal = s.events.journal ++ new ∧ seqsFrom s.events.nextSeq new ∧
        t.events.nextSeq = s.events.nextSeq + BitVec.ofNat 8 new.length ∧ s.events.lost ≤ t.events.lost

/-! ### Chapter 10: watchdog, wake timer, tick, Hibernate -/

/-- Arm, Feed and Disarm Watchdog (R163, R164) and the event WATCHDOG_EXPIRY (R165); its RESET action begins a reset
as the last act. That the expiry can come alone is the model's choice (log entry 1). -/
def Obligations.WatchdogCommandsAndExpiry : Prop :=
  ∀ (s : State) (period : Word) (action : Byte), s.inRun = true →
    (period.toNat < 8 ∨ 2 < action.toNat →
      exec (.armWatchdog period action) s = .next (commandEnd (.armWatchdog period action) .badValue [] s)) ∧
    (∀ a, 8 ≤ period.toNat → [WatchdogAction.notify, .park, .reset][action.toNat]? = some a →
      exec (.armWatchdog period action) s =
        .next
          (commandEnd (.armWatchdog period action) .ok []
            { s with
              time :=
                { s.time with armed := true, period := period.toNat, action := a, count := period.toNat } })) ∧
    exec .feedWatchdog s =
      .next
        (if s.time.armed then
          commandEnd .feedWatchdog .ok [] { s with time := { s.time with count := s.time.period } }
        else commandEnd .feedWatchdog .badState [] s) ∧
    exec .disarmWatchdog s =
      .next
        (if s.executor.guardLatch = false then commandEnd .disarmWatchdog .guard [] s
        else if s.time.armed = false then commandEnd .disarmWatchdog .badState [] s
        else
          commandEnd .disarmWatchdog .ok [] { s with time := { s.time with armed := false, count := 0 } }) ∧
    (s.time.armed = false ∨ 1 < s.time.count → exec .watchdogExpiry s = .next (endStep s)) ∧
    (s.time.armed = true → s.time.count ≤ 1 → s.time.action ≠ .reset →
      exec .watchdogExpiry s = .next (endStep (dogExpired s))) ∧
    (s.time.armed = true → s.time.count ≤ 1 → s.time.action = .reset →
      ∃ t, exec .watchdogExpiry s = .next t ∧
        t.resetUnit.inProgress = some ⟨.watchdog, s.sched.jobCount⟩ ∧ t.sched.queue = [] ∧
        t.sched.lanes.anyActive = false ∧ t.image = s.image ∧ t.tiles = s.tiles ∧ t.wave.ram = s.wave.ram)

/-- The wake timer's expiry (R161), the WAKE edge (R169), the main oscillator's stability (R159) and the completion of a
wake (R170), each with its condition. -/
def Obligations.WakeEvents : Prop :=
  ∀ s : State, s.resetUnit.inProgress = none →
    (∀ n, s.time.wakeCount = some n → n ≤ 1 → exec .wakeTimerExpiry s = .next (endStep (timerExpired s))) ∧
    (∀ n, s.time.wakeCount = some n → 1 < n → exec .wakeTimerExpiry s = .next (endStep s)) ∧
    (s.time.wakeCount = none → exec .wakeTimerExpiry s = .next (endStep s)) ∧
    (s.time.power = .run → exec .wakeEdge s = .next s ∧ exec .woke s = .next (endStep s)) ∧
    (s.time.power = .hibernate → exec .wakeEdge s = .next { s with time := { s.time with wakeEdge := true } }) ∧
    exec .oscillatorStable s =
      .next { s with time := { s.time with oscStable := s.time.oscStable || s.time.oscRunning } } ∧
    (s.time.power = .hibernate → (edgeTaken s).time.causes.any = true → (edgeTaken s).time.oscStable = true →
      exec .woke s = .next (endStep (woken (edgeTaken s)))) ∧
    (s.time.power = .hibernate → (edgeTaken s).time.causes.any = false ∨ (edgeTaken s).time.oscStable = false →
      exec .woke s = .next (endStep s))

/-- A tick step (R160, Table 10-1): nothing during a reset; in Hibernate the wake opening, the supply part and the
wake timer part; once the opening has completed a wake, and in Run, all the parts of the Run column in order, and the
watchdog's RESET action as the last act. And what each part does when nothing expires: its count decreases by one
(R135, R141, R142, R143, R161, R165). -/
def Obligations.TickStepWorksInOrder : Prop :=
  (∀ (s : State) (x : SensorInput),
    let running := fun u : State =>
      let v := wakeTimerPart (temperaturePart x (supplyPart u))
      let w := endStep (watchdogPart v)
      if v.time.armed = true ∧ v.time.count ≤ 1 ∧ v.time.action = .reset then beginReset .watchdog [] w w else w
    (s.resetUnit.inProgress ≠ none → exec (.tick x) s = .next s) ∧
    (s.resetUnit.inProgress = none → s.time.power = .run → exec (.tick x) s = .next (running s)) ∧
    (s.resetUnit.inProgress = none → s.time.power = .hibernate →
      ((edgeTaken s).time.causes.any = false ∨ (edgeTaken s).time.oscStable = false →
        exec (.tick x) s = .next (endStep (wakeTimerPart (supplyPart (edgeTaken s))))) ∧
      ((edgeTaken s).time.causes.any = true → (edgeTaken s).time.oscStable = true →
        exec (.tick x) s = .next (running (woken (edgeTaken s)))))) ∧
  (∀ (s : State) (x : SensorInput),
    (s.temp.sampleCount = 0 → temperaturePart x s = afterSample x s) ∧
    (s.temp.sampleCount ≠ 0 →
      temperaturePart x s = { s with temp := { s.temp with sampleCount := s.temp.sampleCount - 1 } }) ∧
    (s.supply.rail = .off → supplyPart s = if s.sched.powerRequest then ramping s else s) ∧
    (s.supply.rail = .ramping →
      supplyPart s =
        if s.supply.rampCount ≤ 1 then faulted .rampTimeout 0x0001#16 s
        else { s with supply := { s.supply with rampCount := s.supply.rampCount - 1 } }) ∧
    (s.supply.rail = .ready →
      supplyPart s =
        if s.sched.lanes.anyActive = true ∨ s.sched.powerRequest = true then s
        else if s.supply.holdCount ≤ 1 then draining s
        else { s with supply := { s.supply with holdCount := s.supply.holdCount - 1 } }) ∧
    (s.supply.rail = .draining →
      supplyPart s =
        if s.supply.drainCount ≤ 1 then drained (s.events.record .drainSlow 0#8 0x0000#16) s
        else { s with supply := { s.supply with drainCount := s.supply.drainCount - 1 } }) ∧
    (s.supply.rail = .fault → supplyPart s = s) ∧
    (s.time.wakeCount = none → wakeTimerPart s = s) ∧
    (∀ n, s.time.wakeCount = some n →
      wakeTimerPart s =
        if n ≤ 1 then timerExpired s else { s with time := { s.time with wakeCount := some (n - 1) } }) ∧
    (s.time.armed = false → watchdogPart s = s) ∧
    (s.time.armed = true →
      watchdogPart s =
        if s.time.count ≤ 1 then dogExpired s else { s with time := { s.time with count := s.time.count - 1 } }))

/-- Enter Hibernate (R15, R25, R29, R126, R166, R167), whatever lands while its step runs: GUARD, HIB_BUSY,
else it ends OK, and with nothing accepted meanwhile the part enters Hibernate at the end of its step, while with an
accepted transaction in the intake it stays in RUN. The checks look at the state before the step; the port judges what
lands by that state. That what lands, and how many read-out bytes a Fetch in flight has clocked, are operands is the
model's choice (log entry 20). -/
def Obligations.EnterHibernateChecksThenSleeps : Prop :=
  ∀ (s : State) (arrived : List Arrival) (clocked : Nat), s.inRun = true →
    let c := Instr.enterHibernate ⟨arrived, clocked⟩
    let quiet :=
      (s.sched.state = .halted ∨ s.sched.state = .holding) ∧ s.sched.queue = [] ∧
        s.sched.lanes.anyActive = false ∧ (s.supply.rail = .off ∨ s.supply.rail = .fault) ∧
        (s.link.intake = [] ∨ s.link.intake = [⟨0x43#8, []⟩])
    (s.executor.guardLatch = false →
      exec c s = .next (commandEndOf (ownsHead c s) c .guard [] (s.receive arrived))) ∧
    (s.executor.guardLatch = true → ¬ quiet →
      exec c s = .next (commandEndOf (ownsHead c s) c .hibBusy [] (s.receive arrived))) ∧
    (s.executor.guardLatch = true → quiet →
      ∃ accepted : List Entry,
        (s.receive arrived).link.intake = s.link.intake ++ accepted ∧
        (let t := commandEndOf (ownsHead c s) c .ok [] (s.receive arrived)
        t.link.intake = accepted ∧
          exec c s = .next (if accepted = [] then fallenAsleep clocked t else t)))

/-! ### Chapter 11: reset -/

/-- A reset begins (R171, R172, R173): POR in any state, PIN in any state, whatever step it cuts, Soft Reset only with
the Guard latch armed; it is in progress with its kind and the number of jobs it discarded, every flag is clear, the
rails are OFF, every pending step is discarded (R29), SDO undriven, READY low, a Fetch in flight forgotten (R2), the end-of-drive indication sent (R133, R171; log
entry 15); a retaining reset keeps the geometry, the tile directory and, when it cuts no step, the planes, the pattern
memory and the RAM. That the journal, the jobs, the scheduler's state, the table, the intake and the power state are
initialised at this instant already is the model's choice (log entry 22). A reset that begins while one is in progress
merges into it: the kind of higher precedence, the first one's count, the full initialisation when it is a POR; a request
of lower precedence changes nothing (R173, R174, R176). -/
def Obligations.ResetsBegin : Prop :=
  (∀ (s : State) (cut : CutStep), s.resetUnit.inProgress = none →
    let cleared := fun t : State =>
      t.events.flags = 0#16 ∧ t.events.journal = [] ∧ t.supply = State.reset.supply ∧ t.sched.queue = [] ∧
        t.sched.lanes.anyActive = false ∧ t.sched.state = .halted ∧ t.link.intake = [] ∧
        t.link.openFetch = none ∧ t.link.forgotten = (s.link.forgotten || s.link.openFetch.isSome) ∧
        t.time.power = .run ∧ t.wave.table = none ∧ t.ready = false ∧ t.attn = false ∧ t.sdoDriven = false ∧
        t.seq.frame = .idle ∧ t.seq.driveCodes = [] ∧ t.seq.endOfDrives = s.seq.endOfDrives + 1 ∧ NothingWaits t
    (∃ t, exec .por s = .next t ∧ t.resetUnit.inProgress = some ⟨.por, s.sched.jobCount⟩ ∧ cleared t) ∧
    (∃ t, exec (.pinReset cut) s = .next t ∧ t.resetUnit.inProgress = some ⟨.pin, s.sched.jobCount⟩ ∧
      t.resetUnit.resetPin = false ∧ cleared t ∧ t.image.width = s.image.width ∧
      t.image.height = s.image.height ∧ t.tiles.slots = s.tiles.slots ∧
      (cut = .nothing ∨ s.time.power = .hibernate →
        t.image = s.image ∧ t.tiles = s.tiles ∧ t.wave.ram = s.wave.ram)) ∧
    (s.time.power = .run → s.executor.guardLatch = false →
      exec .softReset s = .next (commandEnd .softReset .guard [] s)) ∧
    (s.time.power = .run → s.executor.guardLatch = true →
      ∃ t, exec .softReset s = .next t ∧ t.resetUnit.inProgress = some ⟨.soft, s.sched.jobCount⟩ ∧ cleared t ∧
        t.image = s.image ∧ t.tiles = s.tiles ∧ t.wave.ram = s.wave.ram)) ∧
  (∀ (s : State) (r : Resetting) (cut : CutStep), s.resetUnit.inProgress = some r →
    (∃ t, exec .por s = .next t ∧ t.resetUnit.inProgress = some ⟨.por, r.discarded⟩ ∧
      t.image = State.reset.image ∧ t.tiles = State.reset.tiles ∧ t.wave = State.reset.wave ∧
      t.params = State.reset.params ∧ t.sched = State.reset.sched) ∧
    exec (.pinReset cut) s =
      .next
        { s with
          resetUnit :=
            { s.resetUnit with
              inProgress := some ⟨if r.kind = .por then .por else .pin, r.discarded⟩
              resetPin := false } } ∧
    exec .softReset s = .next s ∧ exec .watchdogExpiry s = .next s)

/-- A reset from its beginning to its completion (R171, R173, R174, R175, Table 11-2): it completes only with RESET#
high and the main oscillator stable, and then every block holds what Table 11-2 gives, after a POR, after a PIN reset,
after a Soft Reset and after a watchdog's RESET action; what a cut step leaves in the planes, pattern memory, RAM and map
(PinResetKeepsLeadingWrites) stays as the reset's beginning left it. A POR that merges into a reset completes as a POR with
the first one's count. Not of Table 11-2 but the model's own are: that every reset waits for OSCILLATOR_STABLE anew, and a
merging POR too (log entry 13); the period 0, action NOTIFY and count 0 of a disarmed watchdog and the 0 of the counts that do
not run (log entry 9); the model's output records (log entry 16); the queue, the calls to come and the free-value counter,
which stand (log entries 4, 7 and 29); and the note that a Fetch in flight is forgotten (log entry 31). That each reset sends
one end-of-drive indication, whatever the frame, is DEDUCED (log entry 15). -/
def Obligations.CompletedResetLeavesTable112 : Prop :=
  (∀ (s : State) (straps : BitVec 3), s.resetUnit.inProgress = none →
    (∃ t u, exec .por s = .next t ∧
      exec (.resetDone true straps) t = .next { t with resetUnit := { t.resetUnit with resetPin := true } } ∧
      exec .oscillatorStable t = .next u ∧
      exec (.resetDone true straps) u =
        .next (afterFullReset straps s.sched.jobCount (s.seq.endOfDrives + 1) s)) ∧
    (∃ t u, exec (.pinReset .nothing) s = .next t ∧ exec .oscillatorStable t = .next u ∧
      exec (.resetDone false straps) u = .next u ∧
      exec (.resetDone true straps) u = .next (afterRetainingReset .pin straps s)) ∧
    (∀ cut, ∃ t u, exec (.pinReset cut) s = .next t ∧ exec .oscillatorStable t = .next u ∧
      exec (.resetDone true straps) u =
        .next
          { afterRetainingReset .pin straps s with
            image := t.image
            tiles := t.tiles
            wave := { ram := t.wave.ram, table := none }
            sched := { State.reset.sched with marks := t.sched.marks } }) ∧
    (s.time.power = .run → s.executor.guardLatch = true →
      ∃ t u, exec .softReset s = .next t ∧ exec .oscillatorStable t = .next u ∧
        exec (.resetDone true straps) u = .next (afterRetainingReset .soft straps s)) ∧
    (s.time.power = .run → s.time.armed = true → s.time.count ≤ 1 → s.time.action = .reset →
      ∃ t u, exec .watchdogExpiry s = .next t ∧ exec .oscillatorStable t = .next u ∧
        exec (.resetDone true straps) u = .next (afterRetainingReset .watchdog straps s))) ∧
  (∀ (s : State) (r : Resetting) (straps : BitVec 3), s.resetUnit.inProgress = some r →
    ∃ t u, exec .por s = .next t ∧
      exec (.resetDone true straps) t = .next { t with resetUnit := { t.resetUnit with resetPin := true } } ∧
      exec .oscillatorStable t = .next u ∧
      exec (.resetDone true straps) u = .next (afterFullReset straps r.discarded s.seq.endOfDrives s))

/-- A PIN reset that cuts a step keeps the leading part of its writes (R29, R61, R74, R84, R133, R174): the first
`done` data bytes of Load Waveform Data and of Load Tile Data, the first `done` pixels of Fill Window in scan order,
of Write Pixels in stream order and of Place Tile in its order; the first `done` of a boundary step's writes, which are
the completion copies of the lanes that finish, in lane order and each in raster order, and then the latch copies and
activations of step 3 in their order. Jobs are counted as if the step had never begun; the cells of every job that
occupied a lane at its start, and of every job that the cut boundary step had activated, are marked. That `done` counts
single writes is the model's choice (log entry 12). -/
def Obligations.PinResetKeepsLeadingWrites : Prop :=
  ∀ (s : State) (slot level op key : Byte) (offset x y : Word) (data : List Byte) (done : Nat), s.inRun = true →
    MemoriesCanonical s → WriterLegal s → JobsLegal s →
    let marked := fun (extra : List Rect) (t : State) =>
      t.resetUnit.inProgress = some ⟨.pin, s.sched.jobCount⟩ ∧
        t.sched.marks =
          ((s.sched.lanes.active.map fun a => a.job.region) ++ extra).foldl
            (fun m r => markTouched (s.image.width / 16) r m) s.sched.marks
    let begun := marked []
    (s.wave.table = none → offset.toNat + data.length ≤ 8192 →
      ∃ t, exec (.pinReset (.loadWaveformData offset data done)) s = .next t ∧ begun t ∧ t.image = s.image ∧
        t.tiles = s.tiles ∧
        ∀ a, byteAt t.wave.ram a =
          if offset.toNat ≤ a ∧ a < offset.toNat + min done data.length then data.getD (a - offset.toNat) 0#8
          else byteAt s.wave.ram a) ∧
    (∀ tile, slot.toNat ≤ 15 → slotAt s.tiles.slots slot.toNat = some tile →
      offset.toNat + data.length ≤ tile.size →
      ∃ t, exec (.pinReset (.loadTileData slot offset data done)) s = .next t ∧ begun t ∧ t.image = s.image ∧
        t.wave.ram = s.wave.ram ∧
        ∀ a, byteAt t.tiles.pattern a =
          if tile.base + offset.toNat ≤ a ∧ a < tile.base + offset.toNat + min done data.length then
            data.getD (a - (tile.base + offset.toNat)) 0#8
          else byteAt s.tiles.pattern a) ∧
    (level.toNat ≤ 3 →
      ∃ t, exec (.pinReset (.fillWindow level done)) s = .next t ∧ begun t ∧ t.image.latch = s.image.latch ∧
        t.image.shown = s.image.shown ∧ t.wave.ram = s.wave.ram ∧ t.tiles = s.tiles ∧
        ∀ px py, px < 480 →
          Plane.get t.image.target px py =
            if (px, py) ∈ (scanOrder s.writer.window s.writer.scan).take done then
              opResult s.writer.op (level.extractLsb' 0 2) (Plane.get s.image.target px py) s.writer.key
            else Plane.get s.image.target px py) ∧
    (∃ (t : State) (T : Nat → Plane), exec (.pinReset (.writePixels data done)) s = .next t ∧ begun t ∧
      t.image.latch = s.image.latch ∧ t.image.shown = s.image.shown ∧ t.wave.ram = s.wave.ram ∧ t.tiles = s.tiles ∧
      T 0 = s.image.target ∧ t.image.target = T (min done (4 * data.length)) ∧
      ∀ k, k < min done (4 * data.length) → ∀ px py, px < 480 →
        Plane.get (T (k + 1)) px py =
          if (px, py) = cursorAt s.writer k then
            opResult s.writer.op (pixelOf data k) (Plane.get (T k) px py) s.writer.key
          else Plane.get (T k) px py) ∧
    (∀ tile o, slot.toNat ≤ 15 → [PixelOp.replace, .keySkip, .matchOnly, .invert][op.toNat]? = some o →
      key.toNat ≤ 3 → slotAt s.tiles.slots slot.toNat = some tile →
      ∃ t, exec (.pinReset (.placeTile slot x y op key done)) s = .next t ∧ begun t ∧
        t.image.latch = s.image.latch ∧ t.image.shown = s.image.shown ∧ t.wave.ram = s.wave.ram ∧ t.tiles = s.tiles ∧
        ∀ px py, px < 480 →
          Plane.get t.image.target px py =
            match
              ((placedPixels s.tiles.pattern tile x.toInt y.toInt s.image.width s.image.height).take done).find?
                fun p => decide (p.1 = (px, py))
            with
            | some p => opResult o p.2 (Plane.get s.image.target px py) (key.extractLsb' 0 2)
            | none => Plane.get s.image.target px py) ∧
    (∃ t, exec (.pinReset (.frameBoundary done)) s = .next t ∧ t.wave.ram = s.wave.ram ∧ t.tiles = s.tiles ∧
      t.image = ((boundaryWrites s).take done).foldl applyBoundaryWrite s.image ∧ t.image.target = s.image.target ∧
      marked (((boundaryWrites s).take done).filterMap activatedBy) t ∧
      (s.wave.table = none → boundaryWrites s = []) ∧
      (∀ table, s.wave.table = some table →
        let s2 := settleScheduler (advanceLanes (countFrame s))
        let finished :=
          ([0, 1, 2, 3] : List (Fin 4)).filterMap fun k =>
            (s.sched.lanes.get k).filter fun a =>
              decide (a.remaining ≤ 1) && decide (phasesOf s.wave.ram table a.effMode a.band ≤ a.phase + 1)
        let copied := finished.flatMap fun a => a.job.region.raster
        boundaryWrites s =
            (copied.map fun xy => .shown xy.1 xy.2 (Plane.get s.image.latch xy.1 xy.2)) ++
              (if s2.mayAdmit = true ∧ s2.supply.rail = .ready then
                s2.sched.eligible.flatMap fun jk =>
                  (jk.1.region.raster.map fun xy =>
                    .latch xy.1 xy.2 (latchedFrom s table (effectiveMode table s.image s2.sched jk.1) xy)) ++
                    [.activation jk.1.region]
              else []) ∧
          ∀ px py, px < 480 →
            Plane.get t.image.shown px py =
              if (px, py) ∈ copied.take done then Plane.get s.image.latch px py
              else Plane.get s.image.shown px py))

/-! ### The whole machine -/

/-- Each memory has its writers and no other (R43, R63, R75, Table 3-1): POR apart, and a PIN reset, which may keep the
leading part of a cut step's writes. -/
def Obligations.MemoriesHaveTheirWriters : Prop :=
  ∀ (c : Instr) (s t : State), exec c s = .next t → c ≠ .por → (∀ cut, c ≠ .pinReset cut) →
    (match c with
      | .writePixels _ => True
      | .fillWindow _ => True
      | .placeTile _ _ _ _ _ => True
      | _ => t.image.target = s.image.target) ∧
    (match c with
      | .frameBoundary => True
      | .activated => True
      | _ => t.image.latch = s.image.latch) ∧
    (match c with
      | .frameBoundary => True
      | .completed _ => True
      | _ => t.image.shown = s.image.shown) ∧
    (match c with
      | .loadTileData _ _ _ => True
      | _ => t.tiles.pattern = s.tiles.pattern) ∧
    (match c with
      | .loadWaveformData _ _ => True
      | _ => t.wave.ram = s.wave.ram) ∧
    (match c with
      | .setGeometry _ _ => True
      | _ => t.image.width = s.image.width ∧ t.image.height = s.image.height) ∧
    (match c with
      | .frameBoundary => t.seq.frameCount = s.seq.frameCount ∨ t.seq.frameCount = s.seq.frameCount + 1#16
      | _ => t.seq.frameCount = s.seq.frameCount ∨ t.resetUnit.inProgress ≠ none)

/-- The state after a POR meets every condition that the steps keep. -/
def Obligations.ResetStateIsLegal : Prop :=
  MemoriesCanonical State.reset ∧ WriterLegal State.reset ∧ DirectoryLegal State.reset ∧
    TableSealedRight State.reset ∧ LanesLegal State.reset ∧ TicketsLegal State.reset ∧ JobsLegal State.reset ∧
    JobsOnCourse State.reset ∧ RequestJustified State.reset ∧ MonitorLegal State.reset ∧ SupplyLegal State.reset ∧
    JournalLegal State.reset ∧ ParametersLegal State.reset ∧ WatchdogLegal State.reset ∧
    HibernateLegal State.reset ∧ LinkLegal State.reset

/-- Every step keeps the memories canonical, the window, cursor and geometry legal (R44, R47), the tile directory legal
(R64) and the sealed table exact and valid (R76). -/
def Obligations.StepsKeepTheStoresLegal : Prop :=
  ∀ s t : State, step s = .next t →
    (MemoriesCanonical s → MemoriesCanonical t) ∧ (WriterLegal s → WriterLegal t) ∧
      (DirectoryLegal s → DirectoryLegal t) ∧ (TableSealedRight s → TableSealedRight t)

/-- Every step keeps the journal (R153, R155), the link (R13, R23, R30), the supply (R139, R144), the watchdog (R163,
R165), and the parameters with the temperature monitor (R38, R134, R136, R137, R161) legal. -/
def Obligations.StepsKeepTheRegistersLegal : Prop :=
  ∀ s t : State, step s = .next t →
    (JournalLegal s → JournalLegal t) ∧ (LinkLegal s → LinkLegal t) ∧ (SupplyLegal s → SupplyLegal t) ∧
      (WatchdogLegal s → WatchdogLegal t) ∧
      (ParametersLegal s → MonitorLegal s → ParametersLegal t ∧ MonitorLegal t)

/-- Every step keeps the four conditions of R96; and every step keeps at most eight queued jobs, and every ticket held
once and never 0 (R95, R96). -/
def Obligations.StepsKeepTheLanesAndTicketsLegal : Prop :=
  ∀ s t : State, step s = .next t → (LanesLegal s → LanesLegal t) ∧ (TicketsLegal s → TicketsLegal t)

/-- Every step keeps every job's region valid and every ACTIVE job on its course through its drive sequence: its frames
driven so far and its frames remaining make up the frame counts of its phases (R97, R129). -/
def Obligations.StepsKeepTheJobsOnCourse : Prop :=
  ∀ s t : State, step s = .next t →
    (JobsLegal s → JobsLegal t) ∧
      (TableSealedRight s → MonitorLegal s → JobsLegal s → LanesLegal s → JobsOnCourse s → JobsOnCourse t)

/-- Every step keeps what holds in Hibernate (R166, R167, R168, R169) and that nothing is pending in the arbiter during a reset
(R29, R171), and the power request stands at the end of a step only
while its condition holds (R106). -/
def Obligations.StepsKeepHibernateQuiet : Prop :=
  ∀ s t : State, step s = .next t →
    (RequestJustified s → RequestJustified t) ∧ (HibernateLegal s → RequestJustified s → HibernateLegal t)

end
end

