-- ==== Sys2Proof/Laws/State.lean ====
section
/-! SUPPORT. Laws/State.lean: for each named update of State, one lemma per field it leaves alone. -/

namespace Sys2Proof.Laws
open Sys2Proof.Machine

/-! `disarmGuard` -/

@[simp] theorem disarmGuard_link (s : State) : (disarmGuard s).link = s.link := rfl

@[simp] theorem disarmGuard_params (s : State) : (disarmGuard s).params = s.params := rfl

@[simp] theorem disarmGuard_image (s : State) : (disarmGuard s).image = s.image := rfl

@[simp] theorem disarmGuard_writer (s : State) : (disarmGuard s).writer = s.writer := rfl

@[simp] theorem disarmGuard_tiles (s : State) : (disarmGuard s).tiles = s.tiles := rfl

@[simp] theorem disarmGuard_wave (s : State) : (disarmGuard s).wave = s.wave := rfl

@[simp] theorem disarmGuard_sched (s : State) : (disarmGuard s).sched = s.sched := rfl

@[simp] theorem disarmGuard_seq (s : State) : (disarmGuard s).seq = s.seq := rfl

@[simp] theorem disarmGuard_temp (s : State) : (disarmGuard s).temp = s.temp := rfl

@[simp] theorem disarmGuard_supply (s : State) : (disarmGuard s).supply = s.supply := rfl

@[simp] theorem disarmGuard_events (s : State) : (disarmGuard s).events = s.events := rfl

@[simp] theorem disarmGuard_time (s : State) : (disarmGuard s).time = s.time := rfl

@[simp] theorem disarmGuard_resetUnit (s : State) : (disarmGuard s).resetUnit = s.resetUnit := rfl

@[simp] theorem disarmGuard_freeTaken (s : State) : (disarmGuard s).freeTaken = s.freeTaken := rfl

@[simp] theorem disarmGuard_arbiter (s : State) : (disarmGuard s).arbiter = s.arbiter := rfl

@[simp] theorem disarmGuard_pending (s : State) : (disarmGuard s).pending = s.pending := rfl

/-! `endStep` -/

@[simp] theorem endStep_link (s : State) : (endStep s).link = s.link := rfl

@[simp] theorem endStep_executor (s : State) : (endStep s).executor = s.executor := rfl

@[simp] theorem endStep_params (s : State) : (endStep s).params = s.params := rfl

@[simp] theorem endStep_image (s : State) : (endStep s).image = s.image := rfl

@[simp] theorem endStep_writer (s : State) : (endStep s).writer = s.writer := rfl

@[simp] theorem endStep_tiles (s : State) : (endStep s).tiles = s.tiles := rfl

@[simp] theorem endStep_wave (s : State) : (endStep s).wave = s.wave := rfl

@[simp] theorem endStep_seq (s : State) : (endStep s).seq = s.seq := rfl

@[simp] theorem endStep_temp (s : State) : (endStep s).temp = s.temp := rfl

@[simp] theorem endStep_events (s : State) : (endStep s).events = s.events := rfl

@[simp] theorem endStep_time (s : State) : (endStep s).time = s.time := rfl

@[simp] theorem endStep_resetUnit (s : State) : (endStep s).resetUnit = s.resetUnit := rfl

@[simp] theorem endStep_freeTaken (s : State) : (endStep s).freeTaken = s.freeTaken := rfl

@[simp] theorem endStep_arbiter (s : State) : (endStep s).arbiter = if s.stepsRun then s.arbiter.stepEnds s.inRun else s.arbiter := rfl

@[simp] theorem endStep_pending (s : State) : (endStep s).pending = s.pending := rfl

/-! `finishCommand` -/

@[simp] theorem finishCommand_params (own : Bool) (op : Byte) (o : OutcomeCode) (p : List Byte) (s : State) : (finishCommand own op o p s).params = s.params := rfl

@[simp] theorem finishCommand_image (own : Bool) (op : Byte) (o : OutcomeCode) (p : List Byte) (s : State) : (finishCommand own op o p s).image = s.image := rfl

@[simp] theorem finishCommand_writer (own : Bool) (op : Byte) (o : OutcomeCode) (p : List Byte) (s : State) : (finishCommand own op o p s).writer = s.writer := rfl

@[simp] theorem finishCommand_tiles (own : Bool) (op : Byte) (o : OutcomeCode) (p : List Byte) (s : State) : (finishCommand own op o p s).tiles = s.tiles := rfl

@[simp] theorem finishCommand_wave (own : Bool) (op : Byte) (o : OutcomeCode) (p : List Byte) (s : State) : (finishCommand own op o p s).wave = s.wave := rfl

@[simp] theorem finishCommand_seq (own : Bool) (op : Byte) (o : OutcomeCode) (p : List Byte) (s : State) : (finishCommand own op o p s).seq = s.seq := rfl

@[simp] theorem finishCommand_temp (own : Bool) (op : Byte) (o : OutcomeCode) (p : List Byte) (s : State) : (finishCommand own op o p s).temp = s.temp := rfl

@[simp] theorem finishCommand_events (own : Bool) (op : Byte) (o : OutcomeCode) (p : List Byte) (s : State) : (finishCommand own op o p s).events = s.events := rfl

@[simp] theorem finishCommand_time (own : Bool) (op : Byte) (o : OutcomeCode) (p : List Byte) (s : State) : (finishCommand own op o p s).time = s.time := rfl

@[simp] theorem finishCommand_resetUnit (own : Bool) (op : Byte) (o : OutcomeCode) (p : List Byte) (s : State) : (finishCommand own op o p s).resetUnit = s.resetUnit := rfl

@[simp] theorem finishCommand_freeTaken (own : Bool) (op : Byte) (o : OutcomeCode) (p : List Byte) (s : State) : (finishCommand own op o p s).freeTaken = s.freeTaken := rfl

@[simp] theorem finishCommand_arbiter (own : Bool) (op : Byte) (o : OutcomeCode) (p : List Byte) (s : State) : (finishCommand own op o p s).arbiter = if s.stepsRun then s.arbiter.stepEnds s.inRun else s.arbiter := rfl

@[simp] theorem finishCommand_pending (own : Bool) (op : Byte) (o : OutcomeCode) (p : List Byte) (s : State) : (finishCommand own op o p s).pending = s.pending := rfl

/-! `recordFailure` -/

@[simp] theorem recordFailure_executor (r : LinkResult) (s : State) : (recordFailure r s).executor = s.executor := rfl

@[simp] theorem recordFailure_params (r : LinkResult) (s : State) : (recordFailure r s).params = s.params := rfl

@[simp] theorem recordFailure_image (r : LinkResult) (s : State) : (recordFailure r s).image = s.image := rfl

@[simp] theorem recordFailure_writer (r : LinkResult) (s : State) : (recordFailure r s).writer = s.writer := rfl

@[simp] theorem recordFailure_tiles (r : LinkResult) (s : State) : (recordFailure r s).tiles = s.tiles := rfl

@[simp] theorem recordFailure_wave (r : LinkResult) (s : State) : (recordFailure r s).wave = s.wave := rfl

@[simp] theorem recordFailure_sched (r : LinkResult) (s : State) : (recordFailure r s).sched = s.sched := rfl

@[simp] theorem recordFailure_seq (r : LinkResult) (s : State) : (recordFailure r s).seq = s.seq := rfl

@[simp] theorem recordFailure_temp (r : LinkResult) (s : State) : (recordFailure r s).temp = s.temp := rfl

@[simp] theorem recordFailure_supply (r : LinkResult) (s : State) : (recordFailure r s).supply = s.supply := rfl

@[simp] theorem recordFailure_time (r : LinkResult) (s : State) : (recordFailure r s).time = s.time := rfl

@[simp] theorem recordFailure_resetUnit (r : LinkResult) (s : State) : (recordFailure r s).resetUnit = s.resetUnit := rfl

@[simp] theorem recordFailure_freeTaken (r : LinkResult) (s : State) : (recordFailure r s).freeTaken = s.freeTaken := rfl

@[simp] theorem recordFailure_arbiter (r : LinkResult) (s : State) : (recordFailure r s).arbiter = s.arbiter := rfl

@[simp] theorem recordFailure_pending (r : LinkResult) (s : State) : (recordFailure r s).pending = s.pending := rfl

/-! `setForgotten` -/

@[simp] theorem setForgotten_executor (b : Bool) (s : State) : (s.setForgotten b).executor = s.executor := rfl

@[simp] theorem setForgotten_params (b : Bool) (s : State) : (s.setForgotten b).params = s.params := rfl

@[simp] theorem setForgotten_image (b : Bool) (s : State) : (s.setForgotten b).image = s.image := rfl

@[simp] theorem setForgotten_writer (b : Bool) (s : State) : (s.setForgotten b).writer = s.writer := rfl

@[simp] theorem setForgotten_tiles (b : Bool) (s : State) : (s.setForgotten b).tiles = s.tiles := rfl

@[simp] theorem setForgotten_wave (b : Bool) (s : State) : (s.setForgotten b).wave = s.wave := rfl

@[simp] theorem setForgotten_sched (b : Bool) (s : State) : (s.setForgotten b).sched = s.sched := rfl

@[simp] theorem setForgotten_seq (b : Bool) (s : State) : (s.setForgotten b).seq = s.seq := rfl

@[simp] theorem setForgotten_temp (b : Bool) (s : State) : (s.setForgotten b).temp = s.temp := rfl

@[simp] theorem setForgotten_supply (b : Bool) (s : State) : (s.setForgotten b).supply = s.supply := rfl

@[simp] theorem setForgotten_events (b : Bool) (s : State) : (s.setForgotten b).events = s.events := rfl

@[simp] theorem setForgotten_time (b : Bool) (s : State) : (s.setForgotten b).time = s.time := rfl

@[simp] theorem setForgotten_resetUnit (b : Bool) (s : State) : (s.setForgotten b).resetUnit = s.resetUnit := rfl

@[simp] theorem setForgotten_freeTaken (b : Bool) (s : State) : (s.setForgotten b).freeTaken = s.freeTaken := rfl

@[simp] theorem setForgotten_arbiter (b : Bool) (s : State) : (s.setForgotten b).arbiter = s.arbiter := rfl

@[simp] theorem setForgotten_pending (b : Bool) (s : State) : (s.setForgotten b).pending = s.pending := rfl

@[simp] theorem setForgotten_intake (b : Bool) (s : State) : (s.setForgotten b).link.intake = s.link.intake := rfl

@[simp] theorem setForgotten_forgotten (b : Bool) (s : State) : (s.setForgotten b).link.forgotten = b := rfl

/-! `recordWoke` -/

@[simp] theorem recordWoke_executor (o : List Byte) (s : State) : (recordWoke o s).executor = s.executor := rfl

@[simp] theorem recordWoke_params (o : List Byte) (s : State) : (recordWoke o s).params = s.params := rfl

@[simp] theorem recordWoke_image (o : List Byte) (s : State) : (recordWoke o s).image = s.image := rfl

@[simp] theorem recordWoke_writer (o : List Byte) (s : State) : (recordWoke o s).writer = s.writer := rfl

@[simp] theorem recordWoke_tiles (o : List Byte) (s : State) : (recordWoke o s).tiles = s.tiles := rfl

@[simp] theorem recordWoke_wave (o : List Byte) (s : State) : (recordWoke o s).wave = s.wave := rfl

@[simp] theorem recordWoke_sched (o : List Byte) (s : State) : (recordWoke o s).sched = s.sched := rfl

@[simp] theorem recordWoke_seq (o : List Byte) (s : State) : (recordWoke o s).seq = s.seq := rfl

@[simp] theorem recordWoke_temp (o : List Byte) (s : State) : (recordWoke o s).temp = s.temp := rfl

@[simp] theorem recordWoke_supply (o : List Byte) (s : State) : (recordWoke o s).supply = s.supply := rfl

@[simp] theorem recordWoke_events (o : List Byte) (s : State) : (recordWoke o s).events = s.events := rfl

@[simp] theorem recordWoke_resetUnit (o : List Byte) (s : State) : (recordWoke o s).resetUnit = s.resetUnit := rfl

@[simp] theorem recordWoke_freeTaken (o : List Byte) (s : State) : (recordWoke o s).freeTaken = s.freeTaken := rfl

@[simp] theorem recordWoke_arbiter (o : List Byte) (s : State) : (recordWoke o s).arbiter = s.arbiter := rfl

@[simp] theorem recordWoke_pending (o : List Byte) (s : State) : (recordWoke o s).pending = s.pending := rfl

/-! `acceptEntry` -/

@[simp] theorem acceptEntry_executor (e : Entry) (s : State) : (acceptEntry e s).executor = s.executor := rfl

@[simp] theorem acceptEntry_params (e : Entry) (s : State) : (acceptEntry e s).params = s.params := rfl

@[simp] theorem acceptEntry_image (e : Entry) (s : State) : (acceptEntry e s).image = s.image := rfl

@[simp] theorem acceptEntry_writer (e : Entry) (s : State) : (acceptEntry e s).writer = s.writer := rfl

@[simp] theorem acceptEntry_tiles (e : Entry) (s : State) : (acceptEntry e s).tiles = s.tiles := rfl

@[simp] theorem acceptEntry_wave (e : Entry) (s : State) : (acceptEntry e s).wave = s.wave := rfl

@[simp] theorem acceptEntry_sched (e : Entry) (s : State) : (acceptEntry e s).sched = s.sched := rfl

@[simp] theorem acceptEntry_seq (e : Entry) (s : State) : (acceptEntry e s).seq = s.seq := rfl

@[simp] theorem acceptEntry_temp (e : Entry) (s : State) : (acceptEntry e s).temp = s.temp := rfl

@[simp] theorem acceptEntry_supply (e : Entry) (s : State) : (acceptEntry e s).supply = s.supply := rfl

@[simp] theorem acceptEntry_events (e : Entry) (s : State) : (acceptEntry e s).events = s.events := rfl

@[simp] theorem acceptEntry_time (e : Entry) (s : State) : (acceptEntry e s).time = s.time := rfl

@[simp] theorem acceptEntry_resetUnit (e : Entry) (s : State) : (acceptEntry e s).resetUnit = s.resetUnit := rfl

@[simp] theorem acceptEntry_freeTaken (e : Entry) (s : State) : (acceptEntry e s).freeTaken = s.freeTaken := rfl

@[simp] theorem acceptEntry_arbiter (e : Entry) (s : State) : (acceptEntry e s).arbiter = s.arbiter := rfl

@[simp] theorem acceptEntry_pending (e : Entry) (s : State) : (acceptEntry e s).pending = s.pending := rfl

/-! `storeParam` -/

@[simp] theorem storeParam_link (n : Byte) (v : Word) (s : State) : (storeParam n v s).link = s.link := rfl

@[simp] theorem storeParam_executor (n : Byte) (v : Word) (s : State) : (storeParam n v s).executor = s.executor := rfl

@[simp] theorem storeParam_image (n : Byte) (v : Word) (s : State) : (storeParam n v s).image = s.image := rfl

@[simp] theorem storeParam_writer (n : Byte) (v : Word) (s : State) : (storeParam n v s).writer = s.writer := rfl

@[simp] theorem storeParam_tiles (n : Byte) (v : Word) (s : State) : (storeParam n v s).tiles = s.tiles := rfl

@[simp] theorem storeParam_wave (n : Byte) (v : Word) (s : State) : (storeParam n v s).wave = s.wave := rfl

@[simp] theorem storeParam_sched (n : Byte) (v : Word) (s : State) : (storeParam n v s).sched = s.sched := rfl

@[simp] theorem storeParam_seq (n : Byte) (v : Word) (s : State) : (storeParam n v s).seq = s.seq := rfl

@[simp] theorem storeParam_temp (n : Byte) (v : Word) (s : State) : (storeParam n v s).temp = s.temp := rfl

@[simp] theorem storeParam_supply (n : Byte) (v : Word) (s : State) : (storeParam n v s).supply = s.supply := rfl

@[simp] theorem storeParam_events (n : Byte) (v : Word) (s : State) : (storeParam n v s).events = s.events := rfl

@[simp] theorem storeParam_resetUnit (n : Byte) (v : Word) (s : State) : (storeParam n v s).resetUnit = s.resetUnit := rfl

@[simp] theorem storeParam_freeTaken (n : Byte) (v : Word) (s : State) : (storeParam n v s).freeTaken = s.freeTaken := rfl

@[simp] theorem storeParam_arbiter (n : Byte) (v : Word) (s : State) : (storeParam n v s).arbiter = s.arbiter := rfl

@[simp] theorem storeParam_pending (n : Byte) (v : Word) (s : State) : (storeParam n v s).pending = s.pending := rfl

/-! `applyGeometry` -/

@[simp] theorem applyGeometry_link (w h : Nat) (s : State) : (applyGeometry w h s).link = s.link := rfl

@[simp] theorem applyGeometry_executor (w h : Nat) (s : State) : (applyGeometry w h s).executor = s.executor := rfl

@[simp] theorem applyGeometry_params (w h : Nat) (s : State) : (applyGeometry w h s).params = s.params := rfl

@[simp] theorem applyGeometry_tiles (w h : Nat) (s : State) : (applyGeometry w h s).tiles = s.tiles := rfl

@[simp] theorem applyGeometry_wave (w h : Nat) (s : State) : (applyGeometry w h s).wave = s.wave := rfl

@[simp] theorem applyGeometry_seq (w h : Nat) (s : State) : (applyGeometry w h s).seq = s.seq := rfl

@[simp] theorem applyGeometry_temp (w h : Nat) (s : State) : (applyGeometry w h s).temp = s.temp := rfl

@[simp] theorem applyGeometry_supply (w h : Nat) (s : State) : (applyGeometry w h s).supply = s.supply := rfl

@[simp] theorem applyGeometry_events (w h : Nat) (s : State) : (applyGeometry w h s).events = s.events := rfl

@[simp] theorem applyGeometry_time (w h : Nat) (s : State) : (applyGeometry w h s).time = s.time := rfl

@[simp] theorem applyGeometry_resetUnit (w h : Nat) (s : State) : (applyGeometry w h s).resetUnit = s.resetUnit := rfl

@[simp] theorem applyGeometry_freeTaken (w h : Nat) (s : State) : (applyGeometry w h s).freeTaken = s.freeTaken := rfl

@[simp] theorem applyGeometry_arbiter (w h : Nat) (s : State) : (applyGeometry w h s).arbiter = s.arbiter := rfl

@[simp] theorem applyGeometry_pending (w h : Nat) (s : State) : (applyGeometry w h s).pending = s.pending := rfl

/-! `writeStream` -/

@[simp] theorem writeStream_link (l : List Level) (s : State) : (writeStream l s).link = s.link := rfl

@[simp] theorem writeStream_executor (l : List Level) (s : State) : (writeStream l s).executor = s.executor := rfl

@[simp] theorem writeStream_params (l : List Level) (s : State) : (writeStream l s).params = s.params := rfl

@[simp] theorem writeStream_tiles (l : List Level) (s : State) : (writeStream l s).tiles = s.tiles := rfl

@[simp] theorem writeStream_wave (l : List Level) (s : State) : (writeStream l s).wave = s.wave := rfl

@[simp] theorem writeStream_sched (l : List Level) (s : State) : (writeStream l s).sched = s.sched := rfl

@[simp] theorem writeStream_seq (l : List Level) (s : State) : (writeStream l s).seq = s.seq := rfl

@[simp] theorem writeStream_temp (l : List Level) (s : State) : (writeStream l s).temp = s.temp := rfl

@[simp] theorem writeStream_supply (l : List Level) (s : State) : (writeStream l s).supply = s.supply := rfl

@[simp] theorem writeStream_time (l : List Level) (s : State) : (writeStream l s).time = s.time := rfl

@[simp] theorem writeStream_resetUnit (l : List Level) (s : State) : (writeStream l s).resetUnit = s.resetUnit := rfl

@[simp] theorem writeStream_freeTaken (l : List Level) (s : State) : (writeStream l s).freeTaken = s.freeTaken := rfl

@[simp] theorem writeStream_arbiter (l : List Level) (s : State) : (writeStream l s).arbiter = s.arbiter := rfl

@[simp] theorem writeStream_pending (l : List Level) (s : State) : (writeStream l s).pending = s.pending := rfl

/-! `reviseBand` -/

@[simp] theorem reviseBand_link (b : TempMonitor) (s : State) : (reviseBand b s).link = s.link := rfl

@[simp] theorem reviseBand_executor (b : TempMonitor) (s : State) : (reviseBand b s).executor = s.executor := rfl

@[simp] theorem reviseBand_params (b : TempMonitor) (s : State) : (reviseBand b s).params = s.params := rfl

@[simp] theorem reviseBand_image (b : TempMonitor) (s : State) : (reviseBand b s).image = s.image := rfl

@[simp] theorem reviseBand_writer (b : TempMonitor) (s : State) : (reviseBand b s).writer = s.writer := rfl

@[simp] theorem reviseBand_tiles (b : TempMonitor) (s : State) : (reviseBand b s).tiles = s.tiles := rfl

@[simp] theorem reviseBand_wave (b : TempMonitor) (s : State) : (reviseBand b s).wave = s.wave := rfl

@[simp] theorem reviseBand_sched (b : TempMonitor) (s : State) : (reviseBand b s).sched = s.sched := rfl

@[simp] theorem reviseBand_seq (b : TempMonitor) (s : State) : (reviseBand b s).seq = s.seq := rfl

@[simp] theorem reviseBand_supply (b : TempMonitor) (s : State) : (reviseBand b s).supply = s.supply := rfl

@[simp] theorem reviseBand_time (b : TempMonitor) (s : State) : (reviseBand b s).time = s.time := rfl

@[simp] theorem reviseBand_resetUnit (b : TempMonitor) (s : State) : (reviseBand b s).resetUnit = s.resetUnit := rfl

@[simp] theorem reviseBand_freeTaken (b : TempMonitor) (s : State) : (reviseBand b s).freeTaken = s.freeTaken := rfl

@[simp] theorem reviseBand_arbiter (b : TempMonitor) (s : State) : (reviseBand b s).arbiter = s.arbiter := rfl

@[simp] theorem reviseBand_pending (b : TempMonitor) (s : State) : (reviseBand b s).pending = s.pending := rfl

/-! `takeSample` -/

@[simp] theorem takeSample_link (x : SensorInput) (s : State) : (takeSample x s).link = s.link := rfl

@[simp] theorem takeSample_executor (x : SensorInput) (s : State) : (takeSample x s).executor = s.executor := rfl

@[simp] theorem takeSample_params (x : SensorInput) (s : State) : (takeSample x s).params = s.params := rfl

@[simp] theorem takeSample_image (x : SensorInput) (s : State) : (takeSample x s).image = s.image := rfl

@[simp] theorem takeSample_writer (x : SensorInput) (s : State) : (takeSample x s).writer = s.writer := rfl

@[simp] theorem takeSample_tiles (x : SensorInput) (s : State) : (takeSample x s).tiles = s.tiles := rfl

@[simp] theorem takeSample_wave (x : SensorInput) (s : State) : (takeSample x s).wave = s.wave := rfl

@[simp] theorem takeSample_sched (x : SensorInput) (s : State) : (takeSample x s).sched = s.sched := rfl

@[simp] theorem takeSample_seq (x : SensorInput) (s : State) : (takeSample x s).seq = s.seq := rfl

@[simp] theorem takeSample_supply (x : SensorInput) (s : State) : (takeSample x s).supply = s.supply := rfl

@[simp] theorem takeSample_time (x : SensorInput) (s : State) : (takeSample x s).time = s.time := rfl

@[simp] theorem takeSample_resetUnit (x : SensorInput) (s : State) : (takeSample x s).resetUnit = s.resetUnit := rfl

@[simp] theorem takeSample_freeTaken (x : SensorInput) (s : State) : (takeSample x s).freeTaken = s.freeTaken := rfl

@[simp] theorem takeSample_arbiter (x : SensorInput) (s : State) : (takeSample x s).arbiter = s.arbiter := rfl

@[simp] theorem takeSample_pending (x : SensorInput) (s : State) : (takeSample x s).pending = s.pending := rfl

/-! `rejectJobs` -/

@[simp] theorem rejectJobs_link (m : Nat) (s : State) : (rejectJobs m s).link = s.link := rfl

@[simp] theorem rejectJobs_executor (m : Nat) (s : State) : (rejectJobs m s).executor = s.executor := rfl

@[simp] theorem rejectJobs_params (m : Nat) (s : State) : (rejectJobs m s).params = s.params := rfl

@[simp] theorem rejectJobs_image (m : Nat) (s : State) : (rejectJobs m s).image = s.image := rfl

@[simp] theorem rejectJobs_writer (m : Nat) (s : State) : (rejectJobs m s).writer = s.writer := rfl

@[simp] theorem rejectJobs_tiles (m : Nat) (s : State) : (rejectJobs m s).tiles = s.tiles := rfl

@[simp] theorem rejectJobs_wave (m : Nat) (s : State) : (rejectJobs m s).wave = s.wave := rfl

@[simp] theorem rejectJobs_seq (m : Nat) (s : State) : (rejectJobs m s).seq = s.seq := rfl

@[simp] theorem rejectJobs_temp (m : Nat) (s : State) : (rejectJobs m s).temp = s.temp := rfl

@[simp] theorem rejectJobs_supply (m : Nat) (s : State) : (rejectJobs m s).supply = s.supply := rfl

@[simp] theorem rejectJobs_time (m : Nat) (s : State) : (rejectJobs m s).time = s.time := rfl

@[simp] theorem rejectJobs_resetUnit (m : Nat) (s : State) : (rejectJobs m s).resetUnit = s.resetUnit := rfl

@[simp] theorem rejectJobs_freeTaken (m : Nat) (s : State) : (rejectJobs m s).freeTaken = s.freeTaken := rfl

@[simp] theorem rejectJobs_arbiter (m : Nat) (s : State) : (rejectJobs m s).arbiter = s.arbiter := rfl

@[simp] theorem rejectJobs_pending (m : Nat) (s : State) : (rejectJobs m s).pending = s.pending := rfl

/-! `sealTable` -/

@[simp] theorem sealTable_link (s : State) : (sealTable s).link = s.link := rfl

@[simp] theorem sealTable_executor (s : State) : (sealTable s).executor = s.executor := rfl

@[simp] theorem sealTable_params (s : State) : (sealTable s).params = s.params := rfl

@[simp] theorem sealTable_image (s : State) : (sealTable s).image = s.image := rfl

@[simp] theorem sealTable_writer (s : State) : (sealTable s).writer = s.writer := rfl

@[simp] theorem sealTable_tiles (s : State) : (sealTable s).tiles = s.tiles := rfl

@[simp] theorem sealTable_seq (s : State) : (sealTable s).seq = s.seq := rfl

@[simp] theorem sealTable_supply (s : State) : (sealTable s).supply = s.supply := rfl

@[simp] theorem sealTable_time (s : State) : (sealTable s).time = s.time := rfl

@[simp] theorem sealTable_resetUnit (s : State) : (sealTable s).resetUnit = s.resetUnit := rfl

@[simp] theorem sealTable_freeTaken (s : State) : (sealTable s).freeTaken = s.freeTaken := rfl

@[simp] theorem sealTable_arbiter (s : State) : (sealTable s).arbiter = s.arbiter := rfl

@[simp] theorem sealTable_pending (s : State) : (sealTable s).pending = s.pending := rfl

/-! `cancelAll` -/

@[simp] theorem cancelAll_link (r : Word) (s : State) : (cancelAll r s).link = s.link := rfl

@[simp] theorem cancelAll_executor (r : Word) (s : State) : (cancelAll r s).executor = s.executor := rfl

@[simp] theorem cancelAll_params (r : Word) (s : State) : (cancelAll r s).params = s.params := rfl

@[simp] theorem cancelAll_image (r : Word) (s : State) : (cancelAll r s).image = s.image := rfl

@[simp] theorem cancelAll_writer (r : Word) (s : State) : (cancelAll r s).writer = s.writer := rfl

@[simp] theorem cancelAll_tiles (r : Word) (s : State) : (cancelAll r s).tiles = s.tiles := rfl

@[simp] theorem cancelAll_wave (r : Word) (s : State) : (cancelAll r s).wave = s.wave := rfl

@[simp] theorem cancelAll_seq (r : Word) (s : State) : (cancelAll r s).seq = s.seq := rfl

@[simp] theorem cancelAll_temp (r : Word) (s : State) : (cancelAll r s).temp = s.temp := rfl

@[simp] theorem cancelAll_supply (r : Word) (s : State) : (cancelAll r s).supply = s.supply := rfl

@[simp] theorem cancelAll_time (r : Word) (s : State) : (cancelAll r s).time = s.time := rfl

@[simp] theorem cancelAll_resetUnit (r : Word) (s : State) : (cancelAll r s).resetUnit = s.resetUnit := rfl

@[simp] theorem cancelAll_freeTaken (r : Word) (s : State) : (cancelAll r s).freeTaken = s.freeTaken := rfl

@[simp] theorem cancelAll_arbiter (r : Word) (s : State) : (cancelAll r s).arbiter = s.arbiter := rfl

@[simp] theorem cancelAll_pending (r : Word) (s : State) : (cancelAll r s).pending = s.pending := rfl

/-! `cancelOne` -/

@[simp] theorem cancelOne_link (j : Job) (s : State) : (cancelOne j s).link = s.link := rfl

@[simp] theorem cancelOne_executor (j : Job) (s : State) : (cancelOne j s).executor = s.executor := rfl

@[simp] theorem cancelOne_params (j : Job) (s : State) : (cancelOne j s).params = s.params := rfl

@[simp] theorem cancelOne_image (j : Job) (s : State) : (cancelOne j s).image = s.image := rfl

@[simp] theorem cancelOne_writer (j : Job) (s : State) : (cancelOne j s).writer = s.writer := rfl

@[simp] theorem cancelOne_tiles (j : Job) (s : State) : (cancelOne j s).tiles = s.tiles := rfl

@[simp] theorem cancelOne_wave (j : Job) (s : State) : (cancelOne j s).wave = s.wave := rfl

@[simp] theorem cancelOne_seq (j : Job) (s : State) : (cancelOne j s).seq = s.seq := rfl

@[simp] theorem cancelOne_temp (j : Job) (s : State) : (cancelOne j s).temp = s.temp := rfl

@[simp] theorem cancelOne_supply (j : Job) (s : State) : (cancelOne j s).supply = s.supply := rfl

@[simp] theorem cancelOne_time (j : Job) (s : State) : (cancelOne j s).time = s.time := rfl

@[simp] theorem cancelOne_resetUnit (j : Job) (s : State) : (cancelOne j s).resetUnit = s.resetUnit := rfl

@[simp] theorem cancelOne_freeTaken (j : Job) (s : State) : (cancelOne j s).freeTaken = s.freeTaken := rfl

@[simp] theorem cancelOne_arbiter (j : Job) (s : State) : (cancelOne j s).arbiter = s.arbiter := rfl

@[simp] theorem cancelOne_pending (j : Job) (s : State) : (cancelOne j s).pending = s.pending := rfl

/-! `activateWith` -/

@[simp] theorem activateWith_link (t : Snapshot) (b : Nat) (j : Job) (k : Fin 4) (s : State) : (activateWith t b j k s).link = s.link := rfl

@[simp] theorem activateWith_executor (t : Snapshot) (b : Nat) (j : Job) (k : Fin 4) (s : State) : (activateWith t b j k s).executor = s.executor := rfl

@[simp] theorem activateWith_params (t : Snapshot) (b : Nat) (j : Job) (k : Fin 4) (s : State) : (activateWith t b j k s).params = s.params := rfl

@[simp] theorem activateWith_writer (t : Snapshot) (b : Nat) (j : Job) (k : Fin 4) (s : State) : (activateWith t b j k s).writer = s.writer := rfl

@[simp] theorem activateWith_tiles (t : Snapshot) (b : Nat) (j : Job) (k : Fin 4) (s : State) : (activateWith t b j k s).tiles = s.tiles := rfl

@[simp] theorem activateWith_wave (t : Snapshot) (b : Nat) (j : Job) (k : Fin 4) (s : State) : (activateWith t b j k s).wave = s.wave := rfl

@[simp] theorem activateWith_seq (t : Snapshot) (b : Nat) (j : Job) (k : Fin 4) (s : State) : (activateWith t b j k s).seq = s.seq := rfl

@[simp] theorem activateWith_temp (t : Snapshot) (b : Nat) (j : Job) (k : Fin 4) (s : State) : (activateWith t b j k s).temp = s.temp := rfl

@[simp] theorem activateWith_supply (t : Snapshot) (b : Nat) (j : Job) (k : Fin 4) (s : State) : (activateWith t b j k s).supply = s.supply := rfl

@[simp] theorem activateWith_time (t : Snapshot) (b : Nat) (j : Job) (k : Fin 4) (s : State) : (activateWith t b j k s).time = s.time := rfl

@[simp] theorem activateWith_resetUnit (t : Snapshot) (b : Nat) (j : Job) (k : Fin 4) (s : State) : (activateWith t b j k s).resetUnit = s.resetUnit := rfl

@[simp] theorem activateWith_freeTaken (t : Snapshot) (b : Nat) (j : Job) (k : Fin 4) (s : State) : (activateWith t b j k s).freeTaken = s.freeTaken := rfl

@[simp] theorem activateWith_arbiter (t : Snapshot) (b : Nat) (j : Job) (k : Fin 4) (s : State) : (activateWith t b j k s).arbiter = s.arbiter := rfl

@[simp] theorem activateWith_pending (t : Snapshot) (b : Nat) (j : Job) (k : Fin 4) (s : State) : (activateWith t b j k s).pending = s.pending := rfl

/-! `completeJob` -/

@[simp] theorem completeJob_link (t : Snapshot) (k : Fin 4) (a : ActiveJob) (s : State) : (completeJob t k a s).link = s.link := rfl

@[simp] theorem completeJob_executor (t : Snapshot) (k : Fin 4) (a : ActiveJob) (s : State) : (completeJob t k a s).executor = s.executor := rfl

@[simp] theorem completeJob_params (t : Snapshot) (k : Fin 4) (a : ActiveJob) (s : State) : (completeJob t k a s).params = s.params := rfl

@[simp] theorem completeJob_writer (t : Snapshot) (k : Fin 4) (a : ActiveJob) (s : State) : (completeJob t k a s).writer = s.writer := rfl

@[simp] theorem completeJob_tiles (t : Snapshot) (k : Fin 4) (a : ActiveJob) (s : State) : (completeJob t k a s).tiles = s.tiles := rfl

@[simp] theorem completeJob_wave (t : Snapshot) (k : Fin 4) (a : ActiveJob) (s : State) : (completeJob t k a s).wave = s.wave := rfl

@[simp] theorem completeJob_seq (t : Snapshot) (k : Fin 4) (a : ActiveJob) (s : State) : (completeJob t k a s).seq = s.seq := rfl

@[simp] theorem completeJob_temp (t : Snapshot) (k : Fin 4) (a : ActiveJob) (s : State) : (completeJob t k a s).temp = s.temp := rfl

@[simp] theorem completeJob_supply (t : Snapshot) (k : Fin 4) (a : ActiveJob) (s : State) : (completeJob t k a s).supply = s.supply := rfl

@[simp] theorem completeJob_time (t : Snapshot) (k : Fin 4) (a : ActiveJob) (s : State) : (completeJob t k a s).time = s.time := rfl

@[simp] theorem completeJob_resetUnit (t : Snapshot) (k : Fin 4) (a : ActiveJob) (s : State) : (completeJob t k a s).resetUnit = s.resetUnit := rfl

@[simp] theorem completeJob_freeTaken (t : Snapshot) (k : Fin 4) (a : ActiveJob) (s : State) : (completeJob t k a s).freeTaken = s.freeTaken := rfl

@[simp] theorem completeJob_arbiter (t : Snapshot) (k : Fin 4) (a : ActiveJob) (s : State) : (completeJob t k a s).arbiter = s.arbiter := rfl

@[simp] theorem completeJob_pending (t : Snapshot) (k : Fin 4) (a : ActiveJob) (s : State) : (completeJob t k a s).pending = s.pending := rfl

/-! `setLane` -/

@[simp] theorem setLane_link (k : Fin 4) (a : ActiveJob) (s : State) : (setLane k a s).link = s.link := rfl

@[simp] theorem setLane_executor (k : Fin 4) (a : ActiveJob) (s : State) : (setLane k a s).executor = s.executor := rfl

@[simp] theorem setLane_params (k : Fin 4) (a : ActiveJob) (s : State) : (setLane k a s).params = s.params := rfl

@[simp] theorem setLane_image (k : Fin 4) (a : ActiveJob) (s : State) : (setLane k a s).image = s.image := rfl

@[simp] theorem setLane_writer (k : Fin 4) (a : ActiveJob) (s : State) : (setLane k a s).writer = s.writer := rfl

@[simp] theorem setLane_tiles (k : Fin 4) (a : ActiveJob) (s : State) : (setLane k a s).tiles = s.tiles := rfl

@[simp] theorem setLane_wave (k : Fin 4) (a : ActiveJob) (s : State) : (setLane k a s).wave = s.wave := rfl

@[simp] theorem setLane_seq (k : Fin 4) (a : ActiveJob) (s : State) : (setLane k a s).seq = s.seq := rfl

@[simp] theorem setLane_temp (k : Fin 4) (a : ActiveJob) (s : State) : (setLane k a s).temp = s.temp := rfl

@[simp] theorem setLane_supply (k : Fin 4) (a : ActiveJob) (s : State) : (setLane k a s).supply = s.supply := rfl

@[simp] theorem setLane_events (k : Fin 4) (a : ActiveJob) (s : State) : (setLane k a s).events = s.events := rfl

@[simp] theorem setLane_time (k : Fin 4) (a : ActiveJob) (s : State) : (setLane k a s).time = s.time := rfl

@[simp] theorem setLane_resetUnit (k : Fin 4) (a : ActiveJob) (s : State) : (setLane k a s).resetUnit = s.resetUnit := rfl

@[simp] theorem setLane_freeTaken (k : Fin 4) (a : ActiveJob) (s : State) : (setLane k a s).freeTaken = s.freeTaken := rfl

@[simp] theorem setLane_arbiter (k : Fin 4) (a : ActiveJob) (s : State) : (setLane k a s).arbiter = s.arbiter := rfl

@[simp] theorem setLane_pending (k : Fin 4) (a : ActiveJob) (s : State) : (setLane k a s).pending = s.pending := rfl

/-! `setSched` -/

@[simp] theorem setSched_link (x : SchedState) (s : State) : (setSched x s).link = s.link := rfl

@[simp] theorem setSched_executor (x : SchedState) (s : State) : (setSched x s).executor = s.executor := rfl

@[simp] theorem setSched_params (x : SchedState) (s : State) : (setSched x s).params = s.params := rfl

@[simp] theorem setSched_image (x : SchedState) (s : State) : (setSched x s).image = s.image := rfl

@[simp] theorem setSched_writer (x : SchedState) (s : State) : (setSched x s).writer = s.writer := rfl

@[simp] theorem setSched_tiles (x : SchedState) (s : State) : (setSched x s).tiles = s.tiles := rfl

@[simp] theorem setSched_wave (x : SchedState) (s : State) : (setSched x s).wave = s.wave := rfl

@[simp] theorem setSched_seq (x : SchedState) (s : State) : (setSched x s).seq = s.seq := rfl

@[simp] theorem setSched_temp (x : SchedState) (s : State) : (setSched x s).temp = s.temp := rfl

@[simp] theorem setSched_supply (x : SchedState) (s : State) : (setSched x s).supply = s.supply := rfl

@[simp] theorem setSched_events (x : SchedState) (s : State) : (setSched x s).events = s.events := rfl

@[simp] theorem setSched_time (x : SchedState) (s : State) : (setSched x s).time = s.time := rfl

@[simp] theorem setSched_resetUnit (x : SchedState) (s : State) : (setSched x s).resetUnit = s.resetUnit := rfl

@[simp] theorem setSched_freeTaken (x : SchedState) (s : State) : (setSched x s).freeTaken = s.freeTaken := rfl

@[simp] theorem setSched_arbiter (x : SchedState) (s : State) : (setSched x s).arbiter = s.arbiter := rfl

@[simp] theorem setSched_pending (x : SchedState) (s : State) : (setSched x s).pending = s.pending := rfl

/-! `raiseFlag` -/

@[simp] theorem raiseFlag_link (f : EventFlag) (s : State) : (raiseFlag f s).link = s.link := rfl

@[simp] theorem raiseFlag_executor (f : EventFlag) (s : State) : (raiseFlag f s).executor = s.executor := rfl

@[simp] theorem raiseFlag_params (f : EventFlag) (s : State) : (raiseFlag f s).params = s.params := rfl

@[simp] theorem raiseFlag_image (f : EventFlag) (s : State) : (raiseFlag f s).image = s.image := rfl

@[simp] theorem raiseFlag_writer (f : EventFlag) (s : State) : (raiseFlag f s).writer = s.writer := rfl

@[simp] theorem raiseFlag_tiles (f : EventFlag) (s : State) : (raiseFlag f s).tiles = s.tiles := rfl

@[simp] theorem raiseFlag_wave (f : EventFlag) (s : State) : (raiseFlag f s).wave = s.wave := rfl

@[simp] theorem raiseFlag_sched (f : EventFlag) (s : State) : (raiseFlag f s).sched = s.sched := rfl

@[simp] theorem raiseFlag_seq (f : EventFlag) (s : State) : (raiseFlag f s).seq = s.seq := rfl

@[simp] theorem raiseFlag_temp (f : EventFlag) (s : State) : (raiseFlag f s).temp = s.temp := rfl

@[simp] theorem raiseFlag_supply (f : EventFlag) (s : State) : (raiseFlag f s).supply = s.supply := rfl

@[simp] theorem raiseFlag_time (f : EventFlag) (s : State) : (raiseFlag f s).time = s.time := rfl

@[simp] theorem raiseFlag_resetUnit (f : EventFlag) (s : State) : (raiseFlag f s).resetUnit = s.resetUnit := rfl

@[simp] theorem raiseFlag_freeTaken (f : EventFlag) (s : State) : (raiseFlag f s).freeTaken = s.freeTaken := rfl

@[simp] theorem raiseFlag_arbiter (f : EventFlag) (s : State) : (raiseFlag f s).arbiter = s.arbiter := rfl

@[simp] theorem raiseFlag_pending (f : EventFlag) (s : State) : (raiseFlag f s).pending = s.pending := rfl

/-! `submit` -/

@[simp] theorem submit_link (j : Job) (s : State) : (submit j s).link = s.link := rfl

@[simp] theorem submit_executor (j : Job) (s : State) : (submit j s).executor = s.executor := rfl

@[simp] theorem submit_params (j : Job) (s : State) : (submit j s).params = s.params := rfl

@[simp] theorem submit_image (j : Job) (s : State) : (submit j s).image = s.image := rfl

@[simp] theorem submit_writer (j : Job) (s : State) : (submit j s).writer = s.writer := rfl

@[simp] theorem submit_tiles (j : Job) (s : State) : (submit j s).tiles = s.tiles := rfl

@[simp] theorem submit_wave (j : Job) (s : State) : (submit j s).wave = s.wave := rfl

@[simp] theorem submit_seq (j : Job) (s : State) : (submit j s).seq = s.seq := rfl

@[simp] theorem submit_temp (j : Job) (s : State) : (submit j s).temp = s.temp := rfl

@[simp] theorem submit_supply (j : Job) (s : State) : (submit j s).supply = s.supply := rfl

@[simp] theorem submit_time (j : Job) (s : State) : (submit j s).time = s.time := rfl

@[simp] theorem submit_resetUnit (j : Job) (s : State) : (submit j s).resetUnit = s.resetUnit := rfl

@[simp] theorem submit_freeTaken (j : Job) (s : State) : (submit j s).freeTaken = s.freeTaken := rfl

@[simp] theorem submit_arbiter (j : Job) (s : State) : (submit j s).arbiter = s.arbiter := rfl

@[simp] theorem submit_pending (j : Job) (s : State) : (submit j s).pending = s.pending := rfl

/-! `pendLane` -/

@[simp] theorem pendLane_link (k : Fin 4) (s : State) : (pendLane k s).link = s.link := rfl

@[simp] theorem pendLane_executor (k : Fin 4) (s : State) : (pendLane k s).executor = s.executor := rfl

@[simp] theorem pendLane_params (k : Fin 4) (s : State) : (pendLane k s).params = s.params := rfl

@[simp] theorem pendLane_image (k : Fin 4) (s : State) : (pendLane k s).image = s.image := rfl

@[simp] theorem pendLane_writer (k : Fin 4) (s : State) : (pendLane k s).writer = s.writer := rfl

@[simp] theorem pendLane_tiles (k : Fin 4) (s : State) : (pendLane k s).tiles = s.tiles := rfl

@[simp] theorem pendLane_wave (k : Fin 4) (s : State) : (pendLane k s).wave = s.wave := rfl

@[simp] theorem pendLane_seq (k : Fin 4) (s : State) : (pendLane k s).seq = s.seq := rfl

@[simp] theorem pendLane_temp (k : Fin 4) (s : State) : (pendLane k s).temp = s.temp := rfl

@[simp] theorem pendLane_supply (k : Fin 4) (s : State) : (pendLane k s).supply = s.supply := rfl

@[simp] theorem pendLane_events (k : Fin 4) (s : State) : (pendLane k s).events = s.events := rfl

@[simp] theorem pendLane_time (k : Fin 4) (s : State) : (pendLane k s).time = s.time := rfl

@[simp] theorem pendLane_resetUnit (k : Fin 4) (s : State) : (pendLane k s).resetUnit = s.resetUnit := rfl

@[simp] theorem pendLane_freeTaken (k : Fin 4) (s : State) : (pendLane k s).freeTaken = s.freeTaken := rfl

@[simp] theorem pendLane_arbiter (k : Fin 4) (s : State) : (pendLane k s).arbiter = s.arbiter := rfl

@[simp] theorem pendLane_pending (k : Fin 4) (s : State) : (pendLane k s).pending = s.pending := rfl

/-! `pendAll` -/

@[simp] theorem pendAll_link (s : State) : (pendAll s).link = s.link := rfl

@[simp] theorem pendAll_executor (s : State) : (pendAll s).executor = s.executor := rfl

@[simp] theorem pendAll_params (s : State) : (pendAll s).params = s.params := rfl

@[simp] theorem pendAll_image (s : State) : (pendAll s).image = s.image := rfl

@[simp] theorem pendAll_writer (s : State) : (pendAll s).writer = s.writer := rfl

@[simp] theorem pendAll_tiles (s : State) : (pendAll s).tiles = s.tiles := rfl

@[simp] theorem pendAll_wave (s : State) : (pendAll s).wave = s.wave := rfl

@[simp] theorem pendAll_seq (s : State) : (pendAll s).seq = s.seq := rfl

@[simp] theorem pendAll_temp (s : State) : (pendAll s).temp = s.temp := rfl

@[simp] theorem pendAll_supply (s : State) : (pendAll s).supply = s.supply := rfl

@[simp] theorem pendAll_events (s : State) : (pendAll s).events = s.events := rfl

@[simp] theorem pendAll_time (s : State) : (pendAll s).time = s.time := rfl

@[simp] theorem pendAll_resetUnit (s : State) : (pendAll s).resetUnit = s.resetUnit := rfl

@[simp] theorem pendAll_freeTaken (s : State) : (pendAll s).freeTaken = s.freeTaken := rfl

@[simp] theorem pendAll_arbiter (s : State) : (pendAll s).arbiter = s.arbiter := rfl

@[simp] theorem pendAll_pending (s : State) : (pendAll s).pending = s.pending := rfl

/-! `clearHold` -/

@[simp] theorem clearHold_link (s : State) : (clearHold s).link = s.link := rfl

@[simp] theorem clearHold_executor (s : State) : (clearHold s).executor = s.executor := rfl

@[simp] theorem clearHold_params (s : State) : (clearHold s).params = s.params := rfl

@[simp] theorem clearHold_image (s : State) : (clearHold s).image = s.image := rfl

@[simp] theorem clearHold_writer (s : State) : (clearHold s).writer = s.writer := rfl

@[simp] theorem clearHold_tiles (s : State) : (clearHold s).tiles = s.tiles := rfl

@[simp] theorem clearHold_wave (s : State) : (clearHold s).wave = s.wave := rfl

@[simp] theorem clearHold_seq (s : State) : (clearHold s).seq = s.seq := rfl

@[simp] theorem clearHold_temp (s : State) : (clearHold s).temp = s.temp := rfl

@[simp] theorem clearHold_events (s : State) : (clearHold s).events = s.events := rfl

@[simp] theorem clearHold_time (s : State) : (clearHold s).time = s.time := rfl

@[simp] theorem clearHold_resetUnit (s : State) : (clearHold s).resetUnit = s.resetUnit := rfl

@[simp] theorem clearHold_freeTaken (s : State) : (clearHold s).freeTaken = s.freeTaken := rfl

@[simp] theorem clearHold_arbiter (s : State) : (clearHold s).arbiter = s.arbiter := rfl

@[simp] theorem clearHold_pending (s : State) : (clearHold s).pending = s.pending := rfl

/-! `countFault` -/

@[simp] theorem countFault_link (s : State) : (countFault s).link = s.link := rfl

@[simp] theorem countFault_executor (s : State) : (countFault s).executor = s.executor := rfl

@[simp] theorem countFault_params (s : State) : (countFault s).params = s.params := rfl

@[simp] theorem countFault_image (s : State) : (countFault s).image = s.image := rfl

@[simp] theorem countFault_writer (s : State) : (countFault s).writer = s.writer := rfl

@[simp] theorem countFault_tiles (s : State) : (countFault s).tiles = s.tiles := rfl

@[simp] theorem countFault_wave (s : State) : (countFault s).wave = s.wave := rfl

@[simp] theorem countFault_sched (s : State) : (countFault s).sched = s.sched := rfl

@[simp] theorem countFault_seq (s : State) : (countFault s).seq = s.seq := rfl

@[simp] theorem countFault_temp (s : State) : (countFault s).temp = s.temp := rfl

@[simp] theorem countFault_events (s : State) : (countFault s).events = s.events := rfl

@[simp] theorem countFault_time (s : State) : (countFault s).time = s.time := rfl

@[simp] theorem countFault_resetUnit (s : State) : (countFault s).resetUnit = s.resetUnit := rfl

@[simp] theorem countFault_freeTaken (s : State) : (countFault s).freeTaken = s.freeTaken := rfl

@[simp] theorem countFault_arbiter (s : State) : (countFault s).arbiter = s.arbiter := rfl

@[simp] theorem countFault_pending (s : State) : (countFault s).pending = s.pending := rfl

/-! `endDrain` -/

@[simp] theorem endDrain_link (s : State) : (endDrain s).link = s.link := rfl

@[simp] theorem endDrain_executor (s : State) : (endDrain s).executor = s.executor := rfl

@[simp] theorem endDrain_params (s : State) : (endDrain s).params = s.params := rfl

@[simp] theorem endDrain_image (s : State) : (endDrain s).image = s.image := rfl

@[simp] theorem endDrain_writer (s : State) : (endDrain s).writer = s.writer := rfl

@[simp] theorem endDrain_tiles (s : State) : (endDrain s).tiles = s.tiles := rfl

@[simp] theorem endDrain_wave (s : State) : (endDrain s).wave = s.wave := rfl

@[simp] theorem endDrain_sched (s : State) : (endDrain s).sched = s.sched := rfl

@[simp] theorem endDrain_seq (s : State) : (endDrain s).seq = s.seq := rfl

@[simp] theorem endDrain_temp (s : State) : (endDrain s).temp = s.temp := rfl

@[simp] theorem endDrain_time (s : State) : (endDrain s).time = s.time := rfl

@[simp] theorem endDrain_resetUnit (s : State) : (endDrain s).resetUnit = s.resetUnit := rfl

@[simp] theorem endDrain_freeTaken (s : State) : (endDrain s).freeTaken = s.freeTaken := rfl

@[simp] theorem endDrain_arbiter (s : State) : (endDrain s).arbiter = s.arbiter := rfl

@[simp] theorem endDrain_pending (s : State) : (endDrain s).pending = s.pending := rfl

/-! `slowDrain` -/

@[simp] theorem slowDrain_link (s : State) : (slowDrain s).link = s.link := rfl

@[simp] theorem slowDrain_executor (s : State) : (slowDrain s).executor = s.executor := rfl

@[simp] theorem slowDrain_params (s : State) : (slowDrain s).params = s.params := rfl

@[simp] theorem slowDrain_image (s : State) : (slowDrain s).image = s.image := rfl

@[simp] theorem slowDrain_writer (s : State) : (slowDrain s).writer = s.writer := rfl

@[simp] theorem slowDrain_tiles (s : State) : (slowDrain s).tiles = s.tiles := rfl

@[simp] theorem slowDrain_wave (s : State) : (slowDrain s).wave = s.wave := rfl

@[simp] theorem slowDrain_sched (s : State) : (slowDrain s).sched = s.sched := rfl

@[simp] theorem slowDrain_seq (s : State) : (slowDrain s).seq = s.seq := rfl

@[simp] theorem slowDrain_temp (s : State) : (slowDrain s).temp = s.temp := rfl

@[simp] theorem slowDrain_time (s : State) : (slowDrain s).time = s.time := rfl

@[simp] theorem slowDrain_resetUnit (s : State) : (slowDrain s).resetUnit = s.resetUnit := rfl

@[simp] theorem slowDrain_freeTaken (s : State) : (slowDrain s).freeTaken = s.freeTaken := rfl

@[simp] theorem slowDrain_arbiter (s : State) : (slowDrain s).arbiter = s.arbiter := rfl

@[simp] theorem slowDrain_pending (s : State) : (slowDrain s).pending = s.pending := rfl

/-! `countFrame` -/

@[simp] theorem countFrame_link (s : State) : (countFrame s).link = s.link := rfl

@[simp] theorem countFrame_executor (s : State) : (countFrame s).executor = s.executor := rfl

@[simp] theorem countFrame_params (s : State) : (countFrame s).params = s.params := rfl

@[simp] theorem countFrame_image (s : State) : (countFrame s).image = s.image := rfl

@[simp] theorem countFrame_writer (s : State) : (countFrame s).writer = s.writer := rfl

@[simp] theorem countFrame_tiles (s : State) : (countFrame s).tiles = s.tiles := rfl

@[simp] theorem countFrame_wave (s : State) : (countFrame s).wave = s.wave := rfl

@[simp] theorem countFrame_sched (s : State) : (countFrame s).sched = s.sched := rfl

@[simp] theorem countFrame_temp (s : State) : (countFrame s).temp = s.temp := rfl

@[simp] theorem countFrame_supply (s : State) : (countFrame s).supply = s.supply := rfl

@[simp] theorem countFrame_events (s : State) : (countFrame s).events = s.events := rfl

@[simp] theorem countFrame_time (s : State) : (countFrame s).time = s.time := rfl

@[simp] theorem countFrame_resetUnit (s : State) : (countFrame s).resetUnit = s.resetUnit := rfl

@[simp] theorem countFrame_freeTaken (s : State) : (countFrame s).freeTaken = s.freeTaken := rfl

@[simp] theorem countFrame_arbiter (s : State) : (countFrame s).arbiter = s.arbiter := rfl

@[simp] theorem countFrame_pending (s : State) : (countFrame s).pending = s.pending := rfl

/-! `raisePowerRequest` -/

@[simp] theorem raisePowerRequest_link (s : State) : (raisePowerRequest s).link = s.link := rfl

@[simp] theorem raisePowerRequest_executor (s : State) : (raisePowerRequest s).executor = s.executor := rfl

@[simp] theorem raisePowerRequest_params (s : State) : (raisePowerRequest s).params = s.params := rfl

@[simp] theorem raisePowerRequest_image (s : State) : (raisePowerRequest s).image = s.image := rfl

@[simp] theorem raisePowerRequest_writer (s : State) : (raisePowerRequest s).writer = s.writer := rfl

@[simp] theorem raisePowerRequest_tiles (s : State) : (raisePowerRequest s).tiles = s.tiles := rfl

@[simp] theorem raisePowerRequest_wave (s : State) : (raisePowerRequest s).wave = s.wave := rfl

@[simp] theorem raisePowerRequest_seq (s : State) : (raisePowerRequest s).seq = s.seq := rfl

@[simp] theorem raisePowerRequest_temp (s : State) : (raisePowerRequest s).temp = s.temp := rfl

@[simp] theorem raisePowerRequest_supply (s : State) : (raisePowerRequest s).supply = s.supply := rfl

@[simp] theorem raisePowerRequest_events (s : State) : (raisePowerRequest s).events = s.events := rfl

@[simp] theorem raisePowerRequest_time (s : State) : (raisePowerRequest s).time = s.time := rfl

@[simp] theorem raisePowerRequest_resetUnit (s : State) : (raisePowerRequest s).resetUnit = s.resetUnit := rfl

@[simp] theorem raisePowerRequest_freeTaken (s : State) : (raisePowerRequest s).freeTaken = s.freeTaken := rfl

@[simp] theorem raisePowerRequest_arbiter (s : State) : (raisePowerRequest s).arbiter = s.arbiter := rfl

@[simp] theorem raisePowerRequest_pending (s : State) : (raisePowerRequest s).pending = s.pending := rfl

/-! `markWork` -/

@[simp] theorem markWork_link (h : Bool) (s : State) : (markWork h s).link = s.link := rfl

@[simp] theorem markWork_executor (h : Bool) (s : State) : (markWork h s).executor = s.executor := rfl

@[simp] theorem markWork_params (h : Bool) (s : State) : (markWork h s).params = s.params := rfl

@[simp] theorem markWork_image (h : Bool) (s : State) : (markWork h s).image = s.image := rfl

@[simp] theorem markWork_writer (h : Bool) (s : State) : (markWork h s).writer = s.writer := rfl

@[simp] theorem markWork_tiles (h : Bool) (s : State) : (markWork h s).tiles = s.tiles := rfl

@[simp] theorem markWork_wave (h : Bool) (s : State) : (markWork h s).wave = s.wave := rfl

@[simp] theorem markWork_seq (h : Bool) (s : State) : (markWork h s).seq = s.seq := rfl

@[simp] theorem markWork_temp (h : Bool) (s : State) : (markWork h s).temp = s.temp := rfl

@[simp] theorem markWork_supply (h : Bool) (s : State) : (markWork h s).supply = s.supply := rfl

@[simp] theorem markWork_time (h : Bool) (s : State) : (markWork h s).time = s.time := rfl

@[simp] theorem markWork_resetUnit (h : Bool) (s : State) : (markWork h s).resetUnit = s.resetUnit := rfl

@[simp] theorem markWork_freeTaken (h : Bool) (s : State) : (markWork h s).freeTaken = s.freeTaken := rfl

@[simp] theorem markWork_arbiter (h : Bool) (s : State) : (markWork h s).arbiter = s.arbiter := rfl

@[simp] theorem markWork_pending (h : Bool) (s : State) : (markWork h s).pending = s.pending := rfl

/-! `completeWake` -/

@[simp] theorem completeWake_link (s : State) : (completeWake s).link = s.link := rfl

@[simp] theorem completeWake_executor (s : State) : (completeWake s).executor = s.executor := rfl

@[simp] theorem completeWake_params (s : State) : (completeWake s).params = s.params := rfl

@[simp] theorem completeWake_image (s : State) : (completeWake s).image = s.image := rfl

@[simp] theorem completeWake_writer (s : State) : (completeWake s).writer = s.writer := rfl

@[simp] theorem completeWake_tiles (s : State) : (completeWake s).tiles = s.tiles := rfl

@[simp] theorem completeWake_wave (s : State) : (completeWake s).wave = s.wave := rfl

@[simp] theorem completeWake_sched (s : State) : (completeWake s).sched = s.sched := rfl

@[simp] theorem completeWake_supply (s : State) : (completeWake s).supply = s.supply := rfl

@[simp] theorem completeWake_resetUnit (s : State) : (completeWake s).resetUnit = s.resetUnit := rfl

@[simp] theorem completeWake_freeTaken (s : State) : (completeWake s).freeTaken = s.freeTaken := rfl

@[simp] theorem completeWake_arbiter (s : State) : (completeWake s).arbiter = s.arbiter := rfl

@[simp] theorem completeWake_pending (s : State) : (completeWake s).pending = s.pending := rfl

/-! `expireWakeTimer` -/

@[simp] theorem expireWakeTimer_link (s : State) : (expireWakeTimer s).link = s.link := rfl

@[simp] theorem expireWakeTimer_executor (s : State) : (expireWakeTimer s).executor = s.executor := rfl

@[simp] theorem expireWakeTimer_image (s : State) : (expireWakeTimer s).image = s.image := rfl

@[simp] theorem expireWakeTimer_writer (s : State) : (expireWakeTimer s).writer = s.writer := rfl

@[simp] theorem expireWakeTimer_tiles (s : State) : (expireWakeTimer s).tiles = s.tiles := rfl

@[simp] theorem expireWakeTimer_wave (s : State) : (expireWakeTimer s).wave = s.wave := rfl

@[simp] theorem expireWakeTimer_sched (s : State) : (expireWakeTimer s).sched = s.sched := rfl

@[simp] theorem expireWakeTimer_seq (s : State) : (expireWakeTimer s).seq = s.seq := rfl

@[simp] theorem expireWakeTimer_temp (s : State) : (expireWakeTimer s).temp = s.temp := rfl

@[simp] theorem expireWakeTimer_supply (s : State) : (expireWakeTimer s).supply = s.supply := rfl

@[simp] theorem expireWakeTimer_resetUnit (s : State) : (expireWakeTimer s).resetUnit = s.resetUnit := rfl

@[simp] theorem expireWakeTimer_freeTaken (s : State) : (expireWakeTimer s).freeTaken = s.freeTaken := rfl

@[simp] theorem expireWakeTimer_arbiter (s : State) : (expireWakeTimer s).arbiter = s.arbiter := rfl

@[simp] theorem expireWakeTimer_pending (s : State) : (expireWakeTimer s).pending = s.pending := rfl

/-! `parkAction` -/

@[simp] theorem parkAction_link (s : State) : (parkAction s).link = s.link := rfl

@[simp] theorem parkAction_executor (s : State) : (parkAction s).executor = s.executor := rfl

@[simp] theorem parkAction_params (s : State) : (parkAction s).params = s.params := rfl

@[simp] theorem parkAction_image (s : State) : (parkAction s).image = s.image := rfl

@[simp] theorem parkAction_writer (s : State) : (parkAction s).writer = s.writer := rfl

@[simp] theorem parkAction_tiles (s : State) : (parkAction s).tiles = s.tiles := rfl

@[simp] theorem parkAction_wave (s : State) : (parkAction s).wave = s.wave := rfl

@[simp] theorem parkAction_seq (s : State) : (parkAction s).seq = s.seq := rfl

@[simp] theorem parkAction_temp (s : State) : (parkAction s).temp = s.temp := rfl

@[simp] theorem parkAction_supply (s : State) : (parkAction s).supply = s.supply := rfl

@[simp] theorem parkAction_resetUnit (s : State) : (parkAction s).resetUnit = s.resetUnit := rfl

@[simp] theorem parkAction_freeTaken (s : State) : (parkAction s).freeTaken = s.freeTaken := rfl

@[simp] theorem parkAction_arbiter (s : State) : (parkAction s).arbiter = s.arbiter := rfl

@[simp] theorem parkAction_pending (s : State) : (parkAction s).pending = s.pending := rfl

/-! `hibernate` -/

@[simp] theorem hibernate_executor (k : Nat) (s : State) : (hibernate k s).executor = s.executor := rfl

@[simp] theorem hibernate_params (k : Nat) (s : State) : (hibernate k s).params = s.params := rfl

@[simp] theorem hibernate_image (k : Nat) (s : State) : (hibernate k s).image = s.image := rfl

@[simp] theorem hibernate_writer (k : Nat) (s : State) : (hibernate k s).writer = s.writer := rfl

@[simp] theorem hibernate_tiles (k : Nat) (s : State) : (hibernate k s).tiles = s.tiles := rfl

@[simp] theorem hibernate_wave (k : Nat) (s : State) : (hibernate k s).wave = s.wave := rfl

@[simp] theorem hibernate_sched (k : Nat) (s : State) : (hibernate k s).sched = s.sched := rfl

@[simp] theorem hibernate_temp (k : Nat) (s : State) : (hibernate k s).temp = s.temp := rfl

@[simp] theorem hibernate_supply (k : Nat) (s : State) : (hibernate k s).supply = s.supply := rfl

@[simp] theorem hibernate_events (k : Nat) (s : State) : (hibernate k s).events = s.events := rfl

@[simp] theorem hibernate_resetUnit (k : Nat) (s : State) : (hibernate k s).resetUnit = s.resetUnit := rfl

@[simp] theorem hibernate_freeTaken (k : Nat) (s : State) : (hibernate k s).freeTaken = s.freeTaken := rfl

@[simp] theorem hibernate_arbiter (k : Nat) (s : State) : (hibernate k s).arbiter = s.arbiter.dropBoundary := rfl

@[simp] theorem hibernate_pending (k : Nat) (s : State) : (hibernate k s).pending = s.pending := rfl

/-! `initMemories` -/

@[simp] theorem initMemories_link (s : State) : (initMemories s).link = s.link := rfl

@[simp] theorem initMemories_executor (s : State) : (initMemories s).executor = s.executor := rfl

@[simp] theorem initMemories_writer (s : State) : (initMemories s).writer = s.writer := rfl

@[simp] theorem initMemories_seq (s : State) : (initMemories s).seq = s.seq := rfl

@[simp] theorem initMemories_temp (s : State) : (initMemories s).temp = s.temp := rfl

@[simp] theorem initMemories_supply (s : State) : (initMemories s).supply = s.supply := rfl

@[simp] theorem initMemories_events (s : State) : (initMemories s).events = s.events := rfl

@[simp] theorem initMemories_time (s : State) : (initMemories s).time = s.time := rfl

@[simp] theorem initMemories_resetUnit (s : State) : (initMemories s).resetUnit = s.resetUnit := rfl

@[simp] theorem initMemories_freeTaken (s : State) : (initMemories s).freeTaken = s.freeTaken := rfl

@[simp] theorem initMemories_arbiter (s : State) : (initMemories s).arbiter = s.arbiter := rfl

@[simp] theorem initMemories_pending (s : State) : (initMemories s).pending = s.pending := rfl

/-! `completeReset` -/

@[simp] theorem completeReset_executor (a : BitVec 3) (r : Resetting) (s : State) : (completeReset a r s).executor = s.executor := rfl

@[simp] theorem completeReset_params (a : BitVec 3) (r : Resetting) (s : State) : (completeReset a r s).params = s.params := rfl

@[simp] theorem completeReset_image (a : BitVec 3) (r : Resetting) (s : State) : (completeReset a r s).image = s.image := rfl

@[simp] theorem completeReset_writer (a : BitVec 3) (r : Resetting) (s : State) : (completeReset a r s).writer = s.writer := rfl

@[simp] theorem completeReset_tiles (a : BitVec 3) (r : Resetting) (s : State) : (completeReset a r s).tiles = s.tiles := rfl

@[simp] theorem completeReset_wave (a : BitVec 3) (r : Resetting) (s : State) : (completeReset a r s).wave = s.wave := rfl

@[simp] theorem completeReset_sched (a : BitVec 3) (r : Resetting) (s : State) : (completeReset a r s).sched = s.sched := rfl

@[simp] theorem completeReset_temp (a : BitVec 3) (r : Resetting) (s : State) : (completeReset a r s).temp = s.temp := rfl

@[simp] theorem completeReset_supply (a : BitVec 3) (r : Resetting) (s : State) : (completeReset a r s).supply = s.supply := rfl

@[simp] theorem completeReset_freeTaken (a : BitVec 3) (r : Resetting) (s : State) : (completeReset a r s).freeTaken = s.freeTaken := rfl

@[simp] theorem completeReset_arbiter (a : BitVec 3) (r : Resetting) (s : State) : (completeReset a r s).arbiter = s.arbiter := rfl

@[simp] theorem completeReset_pending (a : BitVec 3) (r : Resetting) (s : State) : (completeReset a r s).pending = s.pending := rfl

/-! `activate` -/

@[simp] theorem activate_link (j : Job) (k : Fin 4) (s : State) : (activate j k s).link = s.link := by
  unfold activate; (repeat' split) <;> rfl

@[simp] theorem activate_executor (j : Job) (k : Fin 4) (s : State) : (activate j k s).executor = s.executor := by
  unfold activate; (repeat' split) <;> rfl

@[simp] theorem activate_params (j : Job) (k : Fin 4) (s : State) : (activate j k s).params = s.params := by
  unfold activate; (repeat' split) <;> rfl

@[simp] theorem activate_writer (j : Job) (k : Fin 4) (s : State) : (activate j k s).writer = s.writer := by
  unfold activate; (repeat' split) <;> rfl

@[simp] theorem activate_tiles (j : Job) (k : Fin 4) (s : State) : (activate j k s).tiles = s.tiles := by
  unfold activate; (repeat' split) <;> rfl

@[simp] theorem activate_wave (j : Job) (k : Fin 4) (s : State) : (activate j k s).wave = s.wave := by
  unfold activate; (repeat' split) <;> rfl

@[simp] theorem activate_seq (j : Job) (k : Fin 4) (s : State) : (activate j k s).seq = s.seq := by
  unfold activate; (repeat' split) <;> rfl

@[simp] theorem activate_temp (j : Job) (k : Fin 4) (s : State) : (activate j k s).temp = s.temp := by
  unfold activate; (repeat' split) <;> rfl

@[simp] theorem activate_supply (j : Job) (k : Fin 4) (s : State) : (activate j k s).supply = s.supply := by
  unfold activate; (repeat' split) <;> rfl

@[simp] theorem activate_time (j : Job) (k : Fin 4) (s : State) : (activate j k s).time = s.time := by
  unfold activate; (repeat' split) <;> rfl

@[simp] theorem activate_resetUnit (j : Job) (k : Fin 4) (s : State) : (activate j k s).resetUnit = s.resetUnit := by
  unfold activate; (repeat' split) <;> rfl

@[simp] theorem activate_freeTaken (j : Job) (k : Fin 4) (s : State) : (activate j k s).freeTaken = s.freeTaken := by
  unfold activate; (repeat' split) <;> rfl

@[simp] theorem activate_arbiter (j : Job) (k : Fin 4) (s : State) : (activate j k s).arbiter = s.arbiter := by
  unfold activate; (repeat' split) <;> rfl

@[simp] theorem activate_pending (j : Job) (k : Fin 4) (s : State) : (activate j k s).pending = s.pending := by
  unfold activate; (repeat' split) <;> rfl

/-! `abortLane` -/

@[simp] theorem abortLane_link (c : AbortCause) (k : Fin 4) (s : State) : (abortLane c k s).link = s.link := by
  unfold abortLane; (repeat' split) <;> rfl

@[simp] theorem abortLane_executor (c : AbortCause) (k : Fin 4) (s : State) : (abortLane c k s).executor = s.executor := by
  unfold abortLane; (repeat' split) <;> rfl

@[simp] theorem abortLane_params (c : AbortCause) (k : Fin 4) (s : State) : (abortLane c k s).params = s.params := by
  unfold abortLane; (repeat' split) <;> rfl

@[simp] theorem abortLane_image (c : AbortCause) (k : Fin 4) (s : State) : (abortLane c k s).image = s.image := by
  unfold abortLane; (repeat' split) <;> rfl

@[simp] theorem abortLane_writer (c : AbortCause) (k : Fin 4) (s : State) : (abortLane c k s).writer = s.writer := by
  unfold abortLane; (repeat' split) <;> rfl

@[simp] theorem abortLane_tiles (c : AbortCause) (k : Fin 4) (s : State) : (abortLane c k s).tiles = s.tiles := by
  unfold abortLane; (repeat' split) <;> rfl

@[simp] theorem abortLane_wave (c : AbortCause) (k : Fin 4) (s : State) : (abortLane c k s).wave = s.wave := by
  unfold abortLane; (repeat' split) <;> rfl

@[simp] theorem abortLane_seq (c : AbortCause) (k : Fin 4) (s : State) : (abortLane c k s).seq = s.seq := by
  unfold abortLane; (repeat' split) <;> rfl

@[simp] theorem abortLane_temp (c : AbortCause) (k : Fin 4) (s : State) : (abortLane c k s).temp = s.temp := by
  unfold abortLane; (repeat' split) <;> rfl

@[simp] theorem abortLane_supply (c : AbortCause) (k : Fin 4) (s : State) : (abortLane c k s).supply = s.supply := by
  unfold abortLane; (repeat' split) <;> rfl

@[simp] theorem abortLane_time (c : AbortCause) (k : Fin 4) (s : State) : (abortLane c k s).time = s.time := by
  unfold abortLane; (repeat' split) <;> rfl

@[simp] theorem abortLane_resetUnit (c : AbortCause) (k : Fin 4) (s : State) : (abortLane c k s).resetUnit = s.resetUnit := by
  unfold abortLane; (repeat' split) <;> rfl

@[simp] theorem abortLane_freeTaken (c : AbortCause) (k : Fin 4) (s : State) : (abortLane c k s).freeTaken = s.freeTaken := by
  unfold abortLane; (repeat' split) <;> rfl

@[simp] theorem abortLane_arbiter (c : AbortCause) (k : Fin 4) (s : State) : (abortLane c k s).arbiter = s.arbiter := by
  unfold abortLane; (repeat' split) <;> rfl

@[simp] theorem abortLane_pending (c : AbortCause) (k : Fin 4) (s : State) : (abortLane c k s).pending = s.pending := by
  unfold abortLane; (repeat' split) <;> rfl

/-! `wakeTimerPart` -/

@[simp] theorem wakeTimerPart_link (s : State) : (wakeTimerPart s).link = s.link := by
  unfold wakeTimerPart; (repeat' split) <;> rfl

@[simp] theorem wakeTimerPart_executor (s : State) : (wakeTimerPart s).executor = s.executor := by
  unfold wakeTimerPart; (repeat' split) <;> rfl

@[simp] theorem wakeTimerPart_image (s : State) : (wakeTimerPart s).image = s.image := by
  unfold wakeTimerPart; (repeat' split) <;> rfl

@[simp] theorem wakeTimerPart_writer (s : State) : (wakeTimerPart s).writer = s.writer := by
  unfold wakeTimerPart; (repeat' split) <;> rfl

@[simp] theorem wakeTimerPart_tiles (s : State) : (wakeTimerPart s).tiles = s.tiles := by
  unfold wakeTimerPart; (repeat' split) <;> rfl

@[simp] theorem wakeTimerPart_wave (s : State) : (wakeTimerPart s).wave = s.wave := by
  unfold wakeTimerPart; (repeat' split) <;> rfl

@[simp] theorem wakeTimerPart_sched (s : State) : (wakeTimerPart s).sched = s.sched := by
  unfold wakeTimerPart; (repeat' split) <;> rfl

@[simp] theorem wakeTimerPart_seq (s : State) : (wakeTimerPart s).seq = s.seq := by
  unfold wakeTimerPart; (repeat' split) <;> rfl

@[simp] theorem wakeTimerPart_temp (s : State) : (wakeTimerPart s).temp = s.temp := by
  unfold wakeTimerPart; (repeat' split) <;> rfl

@[simp] theorem wakeTimerPart_supply (s : State) : (wakeTimerPart s).supply = s.supply := by
  unfold wakeTimerPart; (repeat' split) <;> rfl

@[simp] theorem wakeTimerPart_resetUnit (s : State) : (wakeTimerPart s).resetUnit = s.resetUnit := by
  unfold wakeTimerPart; (repeat' split) <;> rfl

@[simp] theorem wakeTimerPart_freeTaken (s : State) : (wakeTimerPart s).freeTaken = s.freeTaken := by
  unfold wakeTimerPart; (repeat' split) <;> rfl

@[simp] theorem wakeTimerPart_arbiter (s : State) : (wakeTimerPart s).arbiter = s.arbiter := by
  unfold wakeTimerPart; (repeat' split) <;> rfl

@[simp] theorem wakeTimerPart_pending (s : State) : (wakeTimerPart s).pending = s.pending := by
  unfold wakeTimerPart; (repeat' split) <;> rfl

/-! `takeEdge` -/

@[simp] theorem takeEdge_link (s : State) : (takeEdge s).link = s.link := by
  unfold takeEdge; (repeat' split) <;> rfl

@[simp] theorem takeEdge_executor (s : State) : (takeEdge s).executor = s.executor := by
  unfold takeEdge; (repeat' split) <;> rfl

@[simp] theorem takeEdge_params (s : State) : (takeEdge s).params = s.params := by
  unfold takeEdge; (repeat' split) <;> rfl

@[simp] theorem takeEdge_image (s : State) : (takeEdge s).image = s.image := by
  unfold takeEdge; (repeat' split) <;> rfl

@[simp] theorem takeEdge_writer (s : State) : (takeEdge s).writer = s.writer := by
  unfold takeEdge; (repeat' split) <;> rfl

@[simp] theorem takeEdge_tiles (s : State) : (takeEdge s).tiles = s.tiles := by
  unfold takeEdge; (repeat' split) <;> rfl

@[simp] theorem takeEdge_wave (s : State) : (takeEdge s).wave = s.wave := by
  unfold takeEdge; (repeat' split) <;> rfl

@[simp] theorem takeEdge_sched (s : State) : (takeEdge s).sched = s.sched := by
  unfold takeEdge; (repeat' split) <;> rfl

@[simp] theorem takeEdge_seq (s : State) : (takeEdge s).seq = s.seq := by
  unfold takeEdge; (repeat' split) <;> rfl

@[simp] theorem takeEdge_temp (s : State) : (takeEdge s).temp = s.temp := by
  unfold takeEdge; (repeat' split) <;> rfl

@[simp] theorem takeEdge_supply (s : State) : (takeEdge s).supply = s.supply := by
  unfold takeEdge; (repeat' split) <;> rfl

@[simp] theorem takeEdge_events (s : State) : (takeEdge s).events = s.events := by
  unfold takeEdge; (repeat' split) <;> rfl

@[simp] theorem takeEdge_resetUnit (s : State) : (takeEdge s).resetUnit = s.resetUnit := by
  unfold takeEdge; (repeat' split) <;> rfl

@[simp] theorem takeEdge_freeTaken (s : State) : (takeEdge s).freeTaken = s.freeTaken := by
  unfold takeEdge; (repeat' split) <;> rfl

@[simp] theorem takeEdge_arbiter (s : State) : (takeEdge s).arbiter = s.arbiter := by
  unfold takeEdge; (repeat' split) <;> rfl

@[simp] theorem takeEdge_pending (s : State) : (takeEdge s).pending = s.pending := by
  unfold takeEdge; (repeat' split) <;> rfl

/-! `wakeOpening` -/

@[simp] theorem wakeOpening_link (s : State) : (wakeOpening s).link = s.link := by
  unfold wakeOpening; dsimp only; (repeat' split) <;> simp

@[simp] theorem wakeOpening_executor (s : State) : (wakeOpening s).executor = s.executor := by
  unfold wakeOpening; dsimp only; (repeat' split) <;> simp

@[simp] theorem wakeOpening_params (s : State) : (wakeOpening s).params = s.params := by
  unfold wakeOpening; dsimp only; (repeat' split) <;> simp

@[simp] theorem wakeOpening_image (s : State) : (wakeOpening s).image = s.image := by
  unfold wakeOpening; dsimp only; (repeat' split) <;> simp

@[simp] theorem wakeOpening_writer (s : State) : (wakeOpening s).writer = s.writer := by
  unfold wakeOpening; dsimp only; (repeat' split) <;> simp

@[simp] theorem wakeOpening_tiles (s : State) : (wakeOpening s).tiles = s.tiles := by
  unfold wakeOpening; dsimp only; (repeat' split) <;> simp

@[simp] theorem wakeOpening_wave (s : State) : (wakeOpening s).wave = s.wave := by
  unfold wakeOpening; dsimp only; (repeat' split) <;> simp

@[simp] theorem wakeOpening_sched (s : State) : (wakeOpening s).sched = s.sched := by
  unfold wakeOpening; dsimp only; (repeat' split) <;> simp

@[simp] theorem wakeOpening_supply (s : State) : (wakeOpening s).supply = s.supply := by
  unfold wakeOpening; dsimp only; (repeat' split) <;> simp

@[simp] theorem wakeOpening_resetUnit (s : State) : (wakeOpening s).resetUnit = s.resetUnit := by
  unfold wakeOpening; dsimp only; (repeat' split) <;> simp

@[simp] theorem wakeOpening_freeTaken (s : State) : (wakeOpening s).freeTaken = s.freeTaken := by
  unfold wakeOpening; dsimp only; (repeat' split) <;> simp

@[simp] theorem wakeOpening_arbiter (s : State) : (wakeOpening s).arbiter = s.arbiter := by
  unfold wakeOpening; dsimp only; (repeat' split) <;> simp

@[simp] theorem wakeOpening_pending (s : State) : (wakeOpening s).pending = s.pending := by
  unfold wakeOpening; dsimp only; (repeat' split) <;> simp

/-! `expireWatchdog` -/

@[simp] theorem expireWatchdog_link (s : State) : (expireWatchdog s).link = s.link := by
  unfold expireWatchdog; (repeat' split) <;> rfl

@[simp] theorem expireWatchdog_executor (s : State) : (expireWatchdog s).executor = s.executor := by
  unfold expireWatchdog; (repeat' split) <;> rfl

@[simp] theorem expireWatchdog_params (s : State) : (expireWatchdog s).params = s.params := by
  unfold expireWatchdog; (repeat' split) <;> rfl

@[simp] theorem expireWatchdog_image (s : State) : (expireWatchdog s).image = s.image := by
  unfold expireWatchdog; (repeat' split) <;> rfl

@[simp] theorem expireWatchdog_writer (s : State) : (expireWatchdog s).writer = s.writer := by
  unfold expireWatchdog; (repeat' split) <;> rfl

@[simp] theorem expireWatchdog_tiles (s : State) : (expireWatchdog s).tiles = s.tiles := by
  unfold expireWatchdog; (repeat' split) <;> rfl

@[simp] theorem expireWatchdog_wave (s : State) : (expireWatchdog s).wave = s.wave := by
  unfold expireWatchdog; (repeat' split) <;> rfl

@[simp] theorem expireWatchdog_seq (s : State) : (expireWatchdog s).seq = s.seq := by
  unfold expireWatchdog; (repeat' split) <;> rfl

@[simp] theorem expireWatchdog_temp (s : State) : (expireWatchdog s).temp = s.temp := by
  unfold expireWatchdog; (repeat' split) <;> rfl

@[simp] theorem expireWatchdog_supply (s : State) : (expireWatchdog s).supply = s.supply := by
  unfold expireWatchdog; (repeat' split) <;> rfl

@[simp] theorem expireWatchdog_resetUnit (s : State) : (expireWatchdog s).resetUnit = s.resetUnit := by
  unfold expireWatchdog; (repeat' split) <;> rfl

@[simp] theorem expireWatchdog_freeTaken (s : State) : (expireWatchdog s).freeTaken = s.freeTaken := by
  unfold expireWatchdog; (repeat' split) <;> rfl

@[simp] theorem expireWatchdog_arbiter (s : State) : (expireWatchdog s).arbiter = s.arbiter := by
  unfold expireWatchdog; (repeat' split) <;> rfl

@[simp] theorem expireWatchdog_pending (s : State) : (expireWatchdog s).pending = s.pending := by
  unfold expireWatchdog; (repeat' split) <;> rfl

/-! `watchdogPart` -/

@[simp] theorem watchdogPart_link (s : State) : (watchdogPart s).link = s.link := by
  unfold watchdogPart; (repeat' split) <;> simp

@[simp] theorem watchdogPart_executor (s : State) : (watchdogPart s).executor = s.executor := by
  unfold watchdogPart; (repeat' split) <;> simp

@[simp] theorem watchdogPart_params (s : State) : (watchdogPart s).params = s.params := by
  unfold watchdogPart; (repeat' split) <;> simp

@[simp] theorem watchdogPart_image (s : State) : (watchdogPart s).image = s.image := by
  unfold watchdogPart; (repeat' split) <;> simp

@[simp] theorem watchdogPart_writer (s : State) : (watchdogPart s).writer = s.writer := by
  unfold watchdogPart; (repeat' split) <;> simp

@[simp] theorem watchdogPart_tiles (s : State) : (watchdogPart s).tiles = s.tiles := by
  unfold watchdogPart; (repeat' split) <;> simp

@[simp] theorem watchdogPart_wave (s : State) : (watchdogPart s).wave = s.wave := by
  unfold watchdogPart; (repeat' split) <;> simp

@[simp] theorem watchdogPart_seq (s : State) : (watchdogPart s).seq = s.seq := by
  unfold watchdogPart; (repeat' split) <;> simp

@[simp] theorem watchdogPart_temp (s : State) : (watchdogPart s).temp = s.temp := by
  unfold watchdogPart; (repeat' split) <;> simp

@[simp] theorem watchdogPart_supply (s : State) : (watchdogPart s).supply = s.supply := by
  unfold watchdogPart; (repeat' split) <;> simp

@[simp] theorem watchdogPart_resetUnit (s : State) : (watchdogPart s).resetUnit = s.resetUnit := by
  unfold watchdogPart; (repeat' split) <;> simp

@[simp] theorem watchdogPart_freeTaken (s : State) : (watchdogPart s).freeTaken = s.freeTaken := by
  unfold watchdogPart; (repeat' split) <;> simp

@[simp] theorem watchdogPart_arbiter (s : State) : (watchdogPart s).arbiter = s.arbiter := by
  unfold watchdogPart; (repeat' split) <;> simp

@[simp] theorem watchdogPart_pending (s : State) : (watchdogPart s).pending = s.pending := by
  unfold watchdogPart; (repeat' split) <;> simp

/-! `temperaturePart` -/

@[simp] theorem temperaturePart_link (x : SensorInput) (s : State) : (temperaturePart x s).link = s.link := by
  unfold temperaturePart; (repeat' split) <;> rfl

@[simp] theorem temperaturePart_executor (x : SensorInput) (s : State) : (temperaturePart x s).executor = s.executor := by
  unfold temperaturePart; (repeat' split) <;> rfl

@[simp] theorem temperaturePart_params (x : SensorInput) (s : State) : (temperaturePart x s).params = s.params := by
  unfold temperaturePart; (repeat' split) <;> rfl

@[simp] theorem temperaturePart_image (x : SensorInput) (s : State) : (temperaturePart x s).image = s.image := by
  unfold temperaturePart; (repeat' split) <;> rfl

@[simp] theorem temperaturePart_writer (x : SensorInput) (s : State) : (temperaturePart x s).writer = s.writer := by
  unfold temperaturePart; (repeat' split) <;> rfl

@[simp] theorem temperaturePart_tiles (x : SensorInput) (s : State) : (temperaturePart x s).tiles = s.tiles := by
  unfold temperaturePart; (repeat' split) <;> rfl

@[simp] theorem temperaturePart_wave (x : SensorInput) (s : State) : (temperaturePart x s).wave = s.wave := by
  unfold temperaturePart; (repeat' split) <;> rfl

@[simp] theorem temperaturePart_sched (x : SensorInput) (s : State) : (temperaturePart x s).sched = s.sched := by
  unfold temperaturePart; (repeat' split) <;> rfl

@[simp] theorem temperaturePart_seq (x : SensorInput) (s : State) : (temperaturePart x s).seq = s.seq := by
  unfold temperaturePart; (repeat' split) <;> rfl

@[simp] theorem temperaturePart_supply (x : SensorInput) (s : State) : (temperaturePart x s).supply = s.supply := by
  unfold temperaturePart; (repeat' split) <;> rfl

@[simp] theorem temperaturePart_time (x : SensorInput) (s : State) : (temperaturePart x s).time = s.time := by
  unfold temperaturePart; (repeat' split) <;> rfl

@[simp] theorem temperaturePart_resetUnit (x : SensorInput) (s : State) : (temperaturePart x s).resetUnit = s.resetUnit := by
  unfold temperaturePart; (repeat' split) <;> rfl

@[simp] theorem temperaturePart_freeTaken (x : SensorInput) (s : State) : (temperaturePart x s).freeTaken = s.freeTaken := by
  unfold temperaturePart; (repeat' split) <;> rfl

@[simp] theorem temperaturePart_arbiter (x : SensorInput) (s : State) : (temperaturePart x s).arbiter = s.arbiter := by
  unfold temperaturePart; (repeat' split) <;> rfl

@[simp] theorem temperaturePart_pending (x : SensorInput) (s : State) : (temperaturePart x s).pending = s.pending := by
  unfold temperaturePart; (repeat' split) <;> rfl

/-! `beginFrame` -/

@[simp] theorem beginFrame_link (s : State) : (beginFrame s).link = s.link := by
  unfold beginFrame; (repeat' split) <;> rfl

@[simp] theorem beginFrame_executor (s : State) : (beginFrame s).executor = s.executor := by
  unfold beginFrame; (repeat' split) <;> rfl

@[simp] theorem beginFrame_params (s : State) : (beginFrame s).params = s.params := by
  unfold beginFrame; (repeat' split) <;> rfl

@[simp] theorem beginFrame_image (s : State) : (beginFrame s).image = s.image := by
  unfold beginFrame; (repeat' split) <;> rfl

@[simp] theorem beginFrame_writer (s : State) : (beginFrame s).writer = s.writer := by
  unfold beginFrame; (repeat' split) <;> rfl

@[simp] theorem beginFrame_tiles (s : State) : (beginFrame s).tiles = s.tiles := by
  unfold beginFrame; (repeat' split) <;> rfl

@[simp] theorem beginFrame_wave (s : State) : (beginFrame s).wave = s.wave := by
  unfold beginFrame; (repeat' split) <;> rfl

@[simp] theorem beginFrame_sched (s : State) : (beginFrame s).sched = s.sched := by
  unfold beginFrame; (repeat' split) <;> rfl

@[simp] theorem beginFrame_temp (s : State) : (beginFrame s).temp = s.temp := by
  unfold beginFrame; (repeat' split) <;> rfl

@[simp] theorem beginFrame_supply (s : State) : (beginFrame s).supply = s.supply := by
  unfold beginFrame; (repeat' split) <;> rfl

@[simp] theorem beginFrame_events (s : State) : (beginFrame s).events = s.events := by
  unfold beginFrame; (repeat' split) <;> rfl

@[simp] theorem beginFrame_time (s : State) : (beginFrame s).time = s.time := by
  unfold beginFrame; (repeat' split) <;> rfl

@[simp] theorem beginFrame_resetUnit (s : State) : (beginFrame s).resetUnit = s.resetUnit := by
  unfold beginFrame; (repeat' split) <;> rfl

@[simp] theorem beginFrame_freeTaken (s : State) : (beginFrame s).freeTaken = s.freeTaken := by
  unfold beginFrame; (repeat' split) <;> rfl

@[simp] theorem beginFrame_arbiter (s : State) : (beginFrame s).arbiter = s.arbiter.dropBoundary := by
  unfold beginFrame; (repeat' split) <;> rfl

@[simp] theorem beginFrame_pending (s : State) : (beginFrame s).pending = s.pending := by
  unfold beginFrame; (repeat' split) <;> rfl

/-! `settleScheduler` -/

@[simp] theorem settleScheduler_link (s : State) : (settleScheduler s).link = s.link := by
  unfold settleScheduler; (repeat' split) <;> rfl

@[simp] theorem settleScheduler_executor (s : State) : (settleScheduler s).executor = s.executor := by
  unfold settleScheduler; (repeat' split) <;> rfl

@[simp] theorem settleScheduler_params (s : State) : (settleScheduler s).params = s.params := by
  unfold settleScheduler; (repeat' split) <;> rfl

@[simp] theorem settleScheduler_image (s : State) : (settleScheduler s).image = s.image := by
  unfold settleScheduler; (repeat' split) <;> rfl

@[simp] theorem settleScheduler_writer (s : State) : (settleScheduler s).writer = s.writer := by
  unfold settleScheduler; (repeat' split) <;> rfl

@[simp] theorem settleScheduler_tiles (s : State) : (settleScheduler s).tiles = s.tiles := by
  unfold settleScheduler; (repeat' split) <;> rfl

@[simp] theorem settleScheduler_wave (s : State) : (settleScheduler s).wave = s.wave := by
  unfold settleScheduler; (repeat' split) <;> rfl

@[simp] theorem settleScheduler_seq (s : State) : (settleScheduler s).seq = s.seq := by
  unfold settleScheduler; (repeat' split) <;> rfl

@[simp] theorem settleScheduler_temp (s : State) : (settleScheduler s).temp = s.temp := by
  unfold settleScheduler; (repeat' split) <;> rfl

@[simp] theorem settleScheduler_supply (s : State) : (settleScheduler s).supply = s.supply := by
  unfold settleScheduler; (repeat' split) <;> rfl

@[simp] theorem settleScheduler_events (s : State) : (settleScheduler s).events = s.events := by
  unfold settleScheduler; (repeat' split) <;> rfl

@[simp] theorem settleScheduler_time (s : State) : (settleScheduler s).time = s.time := by
  unfold settleScheduler; (repeat' split) <;> rfl

@[simp] theorem settleScheduler_resetUnit (s : State) : (settleScheduler s).resetUnit = s.resetUnit := by
  unfold settleScheduler; (repeat' split) <;> rfl

@[simp] theorem settleScheduler_freeTaken (s : State) : (settleScheduler s).freeTaken = s.freeTaken := by
  unfold settleScheduler; (repeat' split) <;> rfl

@[simp] theorem settleScheduler_arbiter (s : State) : (settleScheduler s).arbiter = s.arbiter := by
  unfold settleScheduler; (repeat' split) <;> rfl

@[simp] theorem settleScheduler_pending (s : State) : (settleScheduler s).pending = s.pending := by
  unfold settleScheduler; (repeat' split) <;> rfl

end Sys2Proof.Laws
end

