-- ==== Sys2Proof/Laws/Steps.lean ====
section
/-! SUPPORT. Laws/Steps.lean: one lemma for each shared shape of a step, saying once everything it can do. -/

namespace Sys2Proof.Laws
open Sys2Proof.Machine

/-- A command step leaves the state alone, or finishes an accepted command, or finishes a refused one. -/
theorem commandStep_elim {own : Bool} {c : Instr} {work : Bool → State → Verdict} {s : State} (P : State → Prop)
    (skipped : s.inRun = false → P s)
    (accepted : s.inRun = true → ∀ t p, work s.executor.guardLatch (disarmGuard s) = .accept t p →
      P (finishCommand own (opcodeOf c) .ok p t))
    (refused : s.inRun = true → ∀ o p, work s.executor.guardLatch (disarmGuard s) = .refuse o p →
      P (finishCommand own (opcodeOf c) o p (disarmGuard s))) :
    P (commandStep own c work s) := by
  unfold commandStep
  split
  · next h =>
    split
    · next e => exact accepted h _ _ e
    · next e => exact refused h _ _ e
  · next h => exact skipped (by simpa using h)

/-- The same for a command that does not look at the Guard latch. -/
theorem plainCommand_elim {c : Instr} {work : State → Verdict} {s : State} (P : State → Prop)
    (skipped : s.inRun = false → P s)
    (accepted : s.inRun = true → ∀ t p, work (disarmGuard s) = .accept t p →
      P (finishCommand (ownsHead c s) (opcodeOf c) .ok p t))
    (refused : s.inRun = true → ∀ o p, work (disarmGuard s) = .refuse o p →
      P (finishCommand (ownsHead c s) (opcodeOf c) o p (disarmGuard s))) :
    P (plainCommand c work s) :=
  commandStep_elim (work := fun _ t => work t) P skipped accepted refused

/-- A step of another kind leaves the state alone, or does its work and ends. -/
theorem otherStep_elim {work : State → State} {s : State} (P : State → Prop) (skipped : s.stepsRun = false → P s)
    (worked : s.stepsRun = true → P (endStep (work s))) : P (otherStep work s) := by
  unfold otherStep
  split
  · next h => exact worked h
  · next h => exact skipped (by simpa using h)

/-- A step that occurs in Run leaves the state alone, or does its work and ends. -/
theorem runStep_elim {work : State → State} {s : State} (P : State → Prop) (skipped : s.inRun = false → P s)
    (worked : s.inRun = true → P (endStep (work s))) : P (runStep work s) := by
  unfold runStep
  split
  · next h => exact worked h
  · next h => exact skipped (by simpa using h)

/-- A quantity that no command end and no disarming changes is changed by a command step only through its work. -/
theorem commandStep_keeps {α : Type} {own : Bool} {c : Instr} {work : Bool → State → Verdict} {s : State}
    (f : State → α) (fin : ∀ o p t, f (finishCommand own (opcodeOf c) o p t) = f t) (dis : f (disarmGuard s) = f s)
    (acc : ∀ t p, work s.executor.guardLatch (disarmGuard s) = .accept t p → f t = f s) :
    f (commandStep own c work s) = f s := by
  apply commandStep_elim (fun t => f t = f s)
  · intro _; rfl
  · intro _ t p h; rw [fin, acc t p h]
  · intro _ o p _; rw [fin, dis]

/-- The same for a command that does not look at the Guard latch. -/
theorem plainCommand_keeps {α : Type} {c : Instr} {work : State → Verdict} {s : State} (f : State → α)
    (fin : ∀ own o p t, f (finishCommand own (opcodeOf c) o p t) = f t) (dis : f (disarmGuard s) = f s)
    (acc : ∀ t p, work (disarmGuard s) = .accept t p → f t = f s) : f (plainCommand c work s) = f s :=
  commandStep_keeps (work := fun _ t => work t) f (fin _) dis acc

/-- A quantity that no step end changes is changed by another step only through its work. -/
theorem otherStep_keeps {α : Type} {work : State → State} {s : State} (f : State → α)
    (fin : ∀ t, f (endStep t) = f t) (worked : f (work s) = f s) : f (otherStep work s) = f s := by
  apply otherStep_elim (fun t => f t = f s)
  · intro _; rfl
  · intro _; rw [fin, worked]

/-- The same for a step that occurs in Run. -/
theorem runStep_keeps {α : Type} {work : State → State} {s : State} (f : State → α)
    (fin : ∀ t, f (endStep t) = f t) (worked : f (work s) = f s) : f (runStep work s) = f s := by
  apply runStep_elim (fun t => f t = f s)
  · intro _; rfl
  · intro _; rw [fin, worked]

/-- Everything the arbiter can start (R27): a pending step of the highest kind, or, when none is pending and command steps can
run, the head of the intake. -/
theorem arbiterStarts_elim {s t : State} {c : Instr} (P : Instr → State → Prop)
    (pending : ∀ a, s.stepsRun = true → s.arbiter.next (Config.freeReading s.freeTaken) = some (c, a) →
      P c { s with arbiter := a, freeTaken := s.freeTaken + 1 })
    (head : ∀ e rest, s.inRun = true → s.link.intake = e :: rest →
      decodeEntry (Config.freeReading s.freeTaken) e = some c → P c { s with freeTaken := s.freeTaken + 1 })
    (h : s.arbiterStarts = some (c, t)) : P c t := by
  unfold State.arbiterStarts at h
  dsimp only at h
  split at h
  · next hr =>
    split at h
    · next e => cases h; exact pending _ hr e
    · split at h
      · next hi =>
        split at h
        · next e rest he =>
          simp only [Option.map_eq_some_iff, Prod.mk.injEq] at h
          obtain ⟨d, hd, rfl, rfl⟩ := h
          exact head e rest hi he hd
        · cases h
      · cases h
  · cases h

end Sys2Proof.Laws
end

