-- ==== Sys2Proof/Laws/Admission.lean ====
section
/-! SUPPORT. Laws/Admission.lean: lanes, and what admission's examination of the queue guarantees of each job it lists
(R105). -/

namespace Sys2Proof.Laws
open Sys2Proof Sys2Proof.Machine

/-! ### Lanes -/

@[simp] theorem lanes_get_set_self (l : Lanes) (k : Fin 4) (v : Option ActiveJob) : (l.set k v).get k = v := by
  match k with
  | 0 | 1 | 2 | 3 => rfl

theorem lanes_get_set_other (l : Lanes) {k j : Fin 4} (v : Option ActiveJob) (h : j ≠ k) :
    (l.set k v).get j = l.get j := by
  match k, j with
  | 0, 0 | 1, 1 | 2, 2 | 3, 3 => exact absurd rfl h
  | 0, 1 | 0, 2 | 0, 3 | 1, 0 | 1, 2 | 1, 3 | 2, 0 | 2, 1 | 2, 3 | 3, 0 | 3, 1 | 3, 2 => rfl

theorem lanes_get_set (l : Lanes) (k j : Fin 4) (v : Option ActiveJob) :
    (l.set k v).get j = if j = k then v else l.get j := by
  split
  · next h => subst h; simp
  · next h => exact lanes_get_set_other l v h

theorem mem_laneOrder (k : Fin 4) : k ∈ laneOrder := by
  match k with
  | 0 | 1 | 2 | 3 => decide

/-- A job is active exactly when some lane holds it. -/
theorem mem_active {l : Lanes} {a : ActiveJob} : a ∈ l.active ↔ ∃ k, l.get k = some a := by
  simp only [Lanes.active, List.mem_filterMap]
  exact ⟨fun ⟨k, _, h⟩ => ⟨k, h⟩, fun ⟨k, h⟩ => ⟨k, mem_laneOrder k, h⟩⟩

theorem anyActive_iff {l : Lanes} : l.anyActive = true ↔ ∃ k a, l.get k = some a := by
  simp only [Lanes.anyActive, Bool.or_eq_true, Option.isSome_iff_exists]
  constructor
  · rintro (((⟨a, h⟩ | ⟨a, h⟩) | ⟨a, h⟩) | ⟨a, h⟩)
    · exact ⟨0, a, h⟩
    · exact ⟨1, a, h⟩
    · exact ⟨2, a, h⟩
    · exact ⟨3, a, h⟩
  · rintro ⟨k, a, h⟩
    match k with
    | 0 => exact .inl (.inl (.inl ⟨a, h⟩))
    | 1 => exact .inl (.inl (.inr ⟨a, h⟩))
    | 2 => exact .inl (.inr ⟨a, h⟩)
    | 3 => exact .inr ⟨a, h⟩

theorem anyActive_false {l : Lanes} : l.anyActive = false ↔ ∀ k, l.get k = none := by
  rw [Bool.eq_false_iff, Ne, anyActive_iff]
  constructor
  · intro h k
    cases e : l.get k with
    | none => rfl
    | some a => exact absurd ⟨k, a, e⟩ h
  · rintro h ⟨k, a, e⟩
    rw [h k] at e; cases e

theorem mem_free {l : Lanes} {k : Fin 4} : k ∈ l.free ↔ l.get k = none := by
  simp [Lanes.free, mem_laneOrder]

theorem free_nodup (l : Lanes) : l.free.Nodup := List.Nodup.filter _ (by decide)

/-- Filling the lowest free lane leaves the other free lanes free. -/
theorem free_set {l : Lanes} {k : Fin 4} {ks : List (Fin 4)} (h : l.free = k :: ks) (a : ActiveJob) :
    (l.set k (some a)).free = ks := by
  have hn := free_nodup l
  rw [h] at hn
  have hk : k ∉ ks := (List.nodup_cons.1 hn).1
  have e : (l.set k (some a)).free = l.free.filter fun j => decide (j ≠ k) := by
    simp only [Lanes.free, List.filter_filter]
    apply List.filter_congr
    intro j _
    rw [lanes_get_set]
    by_cases hj : j = k
    · simp [hj]
    · simp [hj]
  rw [e, h]
  rw [List.filter_cons_of_neg (by simp)]
  rw [List.filter_eq_self]
  intro j hj
  simp only [ne_eq, decide_eq_true_eq]
  rintro rfl
  exact hk hj

/-- The jobs of the lanes after one more activation. -/
theorem mem_active_set {l : Lanes} {k : Fin 4} {a b : ActiveJob} (h : l.get k = none) :
    b ∈ (l.set k (some a)).active ↔ b = a ∨ b ∈ l.active := by
  simp only [mem_active, lanes_get_set]
  constructor
  · rintro ⟨j, hj⟩
    split at hj
    · cases hj; exact .inl rfl
    · exact .inr ⟨j, hj⟩
  · rintro (rfl | ⟨j, hj⟩)
    · exact ⟨k, by simp⟩
    · refine ⟨j, ?_⟩
      rw [if_neg]
      · exact hj
      · rintro rfl; rw [h] at hj; cases hj

/-! ### Rectangles -/

/-- Two rectangles overlap exactly when they share a pixel (R1). -/
theorem overlaps_iff {a b : Rect} : a.overlaps b = true ↔ ∃ x y, a.Holds x y ∧ b.Holds x y := by
  simp only [Rect.overlaps, Bool.and_eq_true, decide_eq_true_eq, Rect.Holds]
  constructor
  · intro h
    exact ⟨max a.xs b.xs, max a.ys b.ys, by omega, by omega⟩
  · rintro ⟨x, y, h1, h2⟩
    omega

/-! ### The examination -/

/-- An activation as the examination makes it: from state `u`, job `j` of the queue into a free lane, its region apart from
every ACTIVE job's. -/
structure Admissible (u : State) (j : Job) (k : Fin 4) : Prop where
  run : u.inRun = true
  opened : u.mayAdmit = true ∧ u.supply.rail = .ready
  queued : j ∈ u.sched.queue
  lane : u.sched.lanes.get k = none
  lowest : u.sched.lanes.free.head? = some k
  apart : ∀ a ∈ u.sched.lanes.active, a.job.region.overlaps j.region = false

theorem mayAdmit_parts {u : State} (h : u.mayAdmit = true) :
    u.sched.state = .running ∧ (∃ t, u.wave.table = some t) ∧ (∃ c, u.temp.temperature = some c) ∧
      ∃ b, u.temp.band = some b := by
  simp only [State.mayAdmit, TempMonitor.inBand, Bool.and_eq_true, decide_eq_true_eq, Option.isSome_iff_exists] at h
  exact ⟨h.1.1, h.1.2, h.2.1, h.2.2⟩

theorem activate_of_open {u : State} {t : Snapshot} {b : Nat} (ht : u.wave.table = some t)
    (hb : u.temp.band = some b) (j : Job) (k : Fin 4) : activate j k u = activateWith t b j k u := by
  simp [activate, ht, hb]

/-- A relation kept by every admissible activation is kept by the activations of the whole examination. -/
theorem fold_examine_rel {R : State → State → Prop} (refl : ∀ u, R u u)
    (trans : ∀ {u v w}, R u v → R v w → R u w) (act : ∀ u j k, Admissible u j k → R u (activate j k u)) :
    ∀ (q : List Job) (busy ahead : List Rect) (free : List (Fin 4)) (u : State),
      u.inRun = true → u.mayAdmit = true → u.supply.rail = .ready → u.sched.lanes.free = free →
      (∀ a ∈ u.sched.lanes.active, a.job.region ∈ busy) → q.Subperm u.sched.queue →
      R u ((examine busy free ahead q).foldl (fun v jk => activate jk.1 jk.2 v) u) := by
  intro q
  induction q with
  | nil => intro busy ahead free u _ _ _ _ _ _; exact refl u
  | cons j q ih =>
    intro busy ahead free u hr hm hrail hfree hbusy hsub
    match free with
    | [] => exact refl u
    | k :: ks =>
      simp only [examine]
      split
      · exact ih busy _ _ u hr hm hrail hfree hbusy
          (((List.sublist_cons_self j q).subperm).trans hsub)
      · next hno =>
        simp only [Bool.or_eq_true, not_or, Bool.not_eq_true, List.any_eq_false] at hno
        obtain ⟨-, ⟨t, ht⟩, -, ⟨b, hb⟩⟩ := mayAdmit_parts hm
        have hk : u.sched.lanes.get k = none := mem_free.1 (by rw [hfree]; simp)
        have hadm : Admissible u j k :=
          { run := hr
            opened := ⟨hm, hrail⟩
            queued := hsub.subset (by simp)
            lane := hk
            lowest := by rw [hfree]; rfl
            apart := fun a ha => by simpa using hno.1 _ (hbusy a ha) }
        simp only [List.foldl_cons]
        refine trans (act u j k hadm) ?_
        rw [activate_of_open ht hb]
        refine ih _ _ ks (activateWith t b j k u) hr hm hrail ?_ ?_ ?_
        · exact free_set hfree _
        · intro a ha
          rcases (mem_active_set hk).1 ha with rfl | ha
          · simp [activeJob]
          · exact List.mem_cons_of_mem _ (hbusy a ha)
        · have := hsub.erase j
          rw [List.erase_cons_head] at this
          exact this

theorem admitJobs_rel {R : State → State → Prop} (refl : ∀ u, R u u)
    (trans : ∀ {u v w}, R u v → R v w → R u w) (act : ∀ u j k, Admissible u j k → R u (activate j k u))
    {u : State} (hr : u.inRun = true) : R u (admitJobs u) := by
  unfold admitJobs
  split
  · next h =>
    simp only [admissionOpen, Bool.and_eq_true, decide_eq_true_eq] at h
    exact fold_examine_rel refl trans act u.sched.queue _ _ _ u hr h.1 h.2 rfl
      (fun a ha => List.mem_map.2 ⟨a, ha, rfl⟩) (List.Subperm.refl _)
  · exact refl u

/-- The job that the examination reaches first as eligible is admissible. -/
theorem eligible_head {u : State} {j : Job} {k : Fin 4} {rest : List (Job × Fin 4)} (hr : u.inRun = true)
    (hm : u.mayAdmit = true) (hrail : u.supply.rail = .ready) (h : u.sched.eligible = (j, k) :: rest) :
    Admissible u j k := by
  have key : ∀ (q : List Job) (busy ahead : List Rect), q.Subperm u.sched.queue →
      (∀ a ∈ u.sched.lanes.active, a.job.region ∈ busy) →
      examine busy u.sched.lanes.free ahead q = (j, k) :: rest → Admissible u j k := by
    intro q
    induction q with
    | nil => intro busy ahead _ _ h; cases h
    | cons x q ih =>
      intro busy ahead hsub hbusy h
      cases hf : u.sched.lanes.free with
      | nil => rw [hf] at h; cases h
      | cons f fs =>
        rw [hf] at h
        simp only [examine] at h
        split at h
        · rw [← hf] at h
          exact ih busy _ (((List.sublist_cons_self x q).subperm).trans hsub) hbusy h
        · next hno =>
          simp only [Bool.or_eq_true, not_or, Bool.not_eq_true, List.any_eq_false] at hno
          simp only [List.cons.injEq, Prod.mk.injEq] at h
          obtain ⟨⟨rfl, rfl⟩, -⟩ := h
          exact
            { run := hr
              opened := ⟨hm, hrail⟩
              queued := hsub.subset (by simp)
              lane := mem_free.1 (by rw [hf]; simp)
              lowest := by rw [hf]; rfl
              apart := fun a ha => by simpa using hno.1 _ (hbusy a ha) }
  exact key u.sched.queue (u.sched.lanes.active.map fun a : ActiveJob => a.job.region) [] (List.Subperm.refl _)
    (fun a ha => List.mem_map.2 ⟨a, ha, rfl⟩) h

end Sys2Proof.Laws
end

