-- ==== Sys2Proof/Laws/Updates.lean ====
section
/-! SUPPORT. Laws/Updates.lean: every way in which one command changes the state, as a list of elementary updates with the
conditions under which the meanings make them, and the theorem that a relation kept by each of them is kept by every
command. An invariant, a frame or a monotonicity over all commands follows by checking the list. -/

namespace Sys2Proof.Laws
open Sys2Proof Sys2Proof.Machine

/-- `R` is a preorder that relates a state to what each elementary update of a command step makes of it. -/
structure CommandUpdates (R : State → State → Prop) : Prop where
  refl : ∀ u, R u u
  trans : ∀ {u v w}, R u v → R v w → R u w
  disarm : ∀ u, u.inRun = true → R u (disarmGuard u)
  finish : ∀ own op o p u, R u (finishCommand own op o p u)
  arm : ∀ u, u.inRun = true → R u { u with executor := { u.executor with guardLatch := true } }
  store : ∀ u n v, u.inRun = true → isWritable n = true → paramValueOk n v = true → R u (storeParam n v u)
  acknowledge : ∀ u m, u.inRun = true → R u { u with events := u.events.acknowledge m }
  readRecords : ∀ u n, u.inRun = true →
    R u { u with events := { u.events with journal := u.events.journal.drop n } }
  clearRecords : ∀ u, u.inRun = true → R u { u with events := { u.events with journal := [], lost := 0 } }
  geometry : ∀ u w h, u.inRun = true → geometryOk w h = true → jobsIdle u.sched = true → R u (applyGeometry w h u)
  window : ∀ u r, u.inRun = true → r.Valid u.image.width u.image.height →
    R u { u with writer := u.writer.toOrigin r u.writer.scan }
  cursor : ∀ u x y, u.inRun = true → u.writer.window.Holds x y →
    R u { u with writer := { u.writer with cx := x, cy := y } }
  scan : ∀ u c, u.inRun = true → R u { u with writer := u.writer.toOrigin u.writer.window c }
  pixelOp : ∀ u o k, u.inRun = true → R u { u with writer := { u.writer with op := o, key := k } }
  writePixels : ∀ u l, u.inRun = true → R u (writeStream l u)
  readPixels : ∀ u p n, u.inRun = true →
    R u { u with
      writer := (readStream p u.writer false n).1
      events := u.events.raiseIf (readStream p u.writer false n).2.2 .windowWrap }
  fill : ∀ u l, u.inRun = true →
    R u { u with
      image :=
        { u.image with target := fillPixels u.writer l u.image.target (scanOrder u.writer.window u.writer.scan) }
      writer := u.writer.toOrigin u.writer.window u.writer.scan }
  mark : ∀ u r, u.inRun = true → r.Valid u.image.width u.image.height →
    R u { u with sched := { u.sched with marks := markTouched (cellColumns u.image) r u.sched.marks } }
  define : ∀ u k (t : Tile), u.inRun = true → k ≤ 15 → 1 ≤ t.width → t.width ≤ 64 → 1 ≤ t.height → t.height ≤ 64 →
    t.base + t.size ≤ Config.patternSize →
    R u { u with
      tiles := { u.tiles with slots := defineSlots k t u.tiles.slots }
      events := u.events.raiseIf (evictsAny k t u.tiles.slots) .tileEvict }
  loadTile : ∀ u k t offset data, u.inRun = true → k ≤ 15 → slotAt u.tiles.slots k = some t →
    offset + data.length ≤ t.size →
    R u { u with tiles := { u.tiles with pattern := loadTile t offset data u.tiles.pattern } }
  release : ∀ u k, u.inRun = true → k ≤ 15 → R u { u with tiles := { u.tiles with slots := u.tiles.slots.set k none } }
  place : ∀ u k t o key x y, u.inRun = true → slotAt u.tiles.slots k = some t →
    R u { u with
      image :=
        { u.image with
          target :=
            stampPixels o key u.image.target
              (placedPixels u.tiles.pattern t x y u.image.width u.image.height) } }
  loadRam : ∀ u offset data, u.inRun = true → u.wave.table = none → offset + data.length ≤ Config.ramSize →
    R u { u with wave := { u.wave with ram := Memory.writeRun Config.porByte u.wave.ram offset data } }
  sealTable : ∀ u, u.inRun = true → sealReason u.wave.ram = 0 → R u (sealTable u)
  unsealTable : ∀ u, u.inRun = true → u.sched.lanes.anyActive = false →
    R u (reviseBand u.temp { u with wave := { u.wave with table := none } })
  submit : ∀ u t j, u.inRun = true → u.wave.table = some t → j.region.Valid u.image.width u.image.height →
    j.mode < t.modes → j.ticket = nextFreeTicket u.sched → (keptJobs j u.sched.queue).length < Config.queueSize →
    R u (submit j u)
  cancelOne : ∀ u j, u.inRun = true → j ∈ u.sched.queue → R u (cancelOne j u)
  cancelAll : ∀ u r, u.inRun = true → R u (cancelAll r u)
  pendLane : ∀ u k, u.inRun = true → R u (pendLane k u)
  pendAll : ∀ u, u.inRun = true → R u (pendAll u)
  start : ∀ u, u.inRun = true → u.sched.state = .halted ∨ u.sched.state = .quiescing → R u (setSched .running u)
  quiesce : ∀ u, u.inRun = true → u.sched.state = .running → u.sched.lanes.anyActive = true →
    R u (setSched .quiescing u)
  halt : ∀ u, u.inRun = true → u.sched.state = .running → u.sched.lanes.anyActive = false → R u (setSched .halted u)
  clearHold : ∀ u, u.inRun = true → u.sched.state = .holding → R u (clearHold u)
  railsOn : ∀ u, u.inRun = true → u.supply.rail = .off → R u { u with supply := u.supply.ramp u.params }
  railsOff : ∀ u, u.inRun = true → u.supply.rail = .ramping ∨ u.supply.rail = .ready ∧ u.sched.lanes.anyActive = false →
    R u { u with supply := u.supply.drain u.params }
  sample : ∀ u x, u.inRun = true → R u (takeSample x u)
  armDog : ∀ u p a, u.inRun = true → 8 ≤ p → p ≤ 65535 →
    R u { u with time := { u.time with armed := true, period := p, action := a, count := p } }
  feedDog : ∀ u, u.inRun = true → u.time.armed = true → R u { u with time := { u.time with count := u.time.period } }
  disarmDog : ∀ u, u.inRun = true → R u { u with time := { u.time with armed := false, count := 0 } }

section
variable {R : State → State → Prop} {s t : State}

theorem plainCommand_rel (C : CommandUpdates R) {c : Instr} {work : State → Verdict}
    (acc : ∀ u u' p, u.inRun = true → work u = .accept u' p → R u u') : R s (plainCommand c work s) := by
  refine plainCommand_elim (R s) (fun _ => C.refl s) ?_ ?_
  · intro hr u p e
    have hr' : (disarmGuard s).inRun = true := hr
    exact C.trans (C.trans (C.disarm s hr) (acc _ _ _ hr' e)) (C.finish _ _ _ _ _)
  · intro hr o p _
    exact C.trans (C.disarm s hr) (C.finish _ _ _ _ _)

theorem commandStep_rel (C : CommandUpdates R) {own : Bool} {c : Instr} {work : Bool → State → Verdict}
    (acc : ∀ l u u' p, u.inRun = true → work l u = .accept u' p → R u u') : R s (commandStep own c work s) := by
  refine commandStep_elim (R s) (fun _ => C.refl s) ?_ ?_
  · intro hr u p e
    have hr' : (disarmGuard s).inRun = true := hr
    exact C.trans (C.trans (C.disarm s hr) (acc _ _ _ _ hr' e)) (C.finish _ _ _ _ _)
  · intro hr o p _
    exact C.trans (C.disarm s hr) (C.finish _ _ _ _ _)

theorem execNop_rel (C : CommandUpdates R) (h : execNop s = .next t) : R s t := by
  simp only [execNop, Host.Outcome.next.injEq] at h; subst h
  refine plainCommand_rel C fun u u' p _ e => ?_
  cases e; exact C.refl u

theorem execGuard_rel (C : CommandUpdates R) {key : Byte} (h : execGuard key s = .next t) : R s t := by
  simp only [execGuard, Host.Outcome.next.injEq] at h; subst h
  refine plainCommand_rel C fun u u' p hr e => ?_
  split at e
  · cases e; exact C.arm u hr
  · cases e

theorem execSetParameter_rel (C : CommandUpdates R) {n : Byte} {v : Word} (h : execSetParameter n v s = .next t) :
    R s t := by
  simp only [execSetParameter, Host.Outcome.next.injEq] at h; subst h
  refine commandStep_rel C fun l u u' p hr e => ?_
  split at e
  · cases e
  · next h1 =>
    split at e
    · cases e
    · next h2 =>
      split at e
      · cases e
      · next h3 =>
        split at e
        · cases e
        · cases e
          refine C.store u n v hr ?_ (by simpa using h3)
          simp only [isParam, Bool.not_eq_true', Bool.or_eq_false_iff, not_and] at h1
          by_contra hw
          exact h1 (by simpa using hw) (by simpa using h2)

theorem execReadJournal_rel (C : CommandUpdates R) {n : Byte} (h : execReadJournal n s = .next t) : R s t := by
  simp only [execReadJournal, Host.Outcome.next.injEq] at h; subst h
  refine plainCommand_rel C fun u u' p hr e => ?_
  split at e <;> cases e
  exact C.readRecords u _ hr

theorem execClearJournal_rel (C : CommandUpdates R) (h : execClearJournal s = .next t) : R s t := by
  simp only [execClearJournal, Host.Outcome.next.injEq] at h; subst h
  refine plainCommand_rel C fun u u' p hr e => ?_
  cases e; exact C.clearRecords u hr

theorem execSetGeometry_rel (C : CommandUpdates R) {w h : Word} (e : execSetGeometry w h s = .next t) : R s t := by
  simp only [execSetGeometry, Host.Outcome.next.injEq] at e; subst e
  refine plainCommand_rel C fun u u' p hr e => ?_
  split at e
  · cases e
  · next h1 =>
    split at e
    · cases e
    · next h2 => cases e; exact C.geometry u _ _ hr (by simpa using h1) (by simpa using h2)

theorem execSetWindow_rel (C : CommandUpdates R) {xs ys xe ye : Word} (h : execSetWindow xs ys xe ye s = .next t) :
    R s t := by
  simp only [execSetWindow, Host.Outcome.next.injEq] at h; subst h
  refine plainCommand_rel C fun u u' p hr e => ?_
  split at e
  · next h1 => cases e; exact C.window u _ hr h1
  · cases e

theorem execSetCursor_rel (C : CommandUpdates R) {x y : Word} (h : execSetCursor x y s = .next t) : R s t := by
  simp only [execSetCursor, Host.Outcome.next.injEq] at h; subst h
  refine plainCommand_rel C fun u u' p hr e => ?_
  split at e
  · next h1 => cases e; exact C.cursor u _ _ hr h1
  · cases e

theorem execSetScan_rel (C : CommandUpdates R) {c : Byte} (h : execSetScan c s = .next t) : R s t := by
  simp only [execSetScan, Host.Outcome.next.injEq] at h; subst h
  refine plainCommand_rel C fun u u' p hr e => ?_
  split at e <;> cases e
  exact C.scan u _ hr

theorem execSetPixelOp_rel (C : CommandUpdates R) {o k : Byte} (h : execSetPixelOp o k s = .next t) : R s t := by
  simp only [execSetPixelOp, Host.Outcome.next.injEq] at h; subst h
  refine plainCommand_rel C fun u u' p hr e => ?_
  split at e <;> cases e
  exact C.pixelOp u _ _ hr

theorem execWritePixels_rel (C : CommandUpdates R) {d : List Byte} (h : execWritePixels d s = .next t) : R s t := by
  unfold execWritePixels at h
  split at h
  · simp only [Host.Outcome.next.injEq] at h; subst h
    refine plainCommand_rel C fun u u' p hr e => ?_
    cases e; exact C.writePixels u _ hr
  · cases h

theorem execReadPixels_rel (C : CommandUpdates R) {p n : Byte} (h : execReadPixels p n s = .next t) : R s t := by
  simp only [execReadPixels, Host.Outcome.next.injEq] at h; subst h
  refine plainCommand_rel C fun u u' p hr e => ?_
  split at e
  · cases e
  · split at e <;> cases e
    exact C.readPixels u _ _ hr

theorem execFillWindow_rel (C : CommandUpdates R) {l : Byte} (h : execFillWindow l s = .next t) : R s t := by
  simp only [execFillWindow, Host.Outcome.next.injEq] at h; subst h
  refine plainCommand_rel C fun u u' p hr e => ?_
  split at e <;> cases e
  exact C.fill u _ hr

theorem execReadUncertainMap_rel (C : CommandUpdates R) (h : execReadUncertainMap s = .next t) : R s t := by
  simp only [execReadUncertainMap, Host.Outcome.next.injEq] at h; subst h
  refine plainCommand_rel C fun u u' p _ e => ?_
  cases e; exact C.refl u

theorem execMarkUncertain_rel (C : CommandUpdates R) {xs ys xe ye : Word}
    (h : execMarkUncertain xs ys xe ye s = .next t) : R s t := by
  simp only [execMarkUncertain, Host.Outcome.next.injEq] at h; subst h
  refine plainCommand_rel C fun u u' p hr e => ?_
  split at e
  · next h1 => cases e; exact C.mark u _ hr h1
  · cases e

theorem execDefineTile_rel (C : CommandUpdates R) {k w h : Byte} {b : Word} (e : execDefineTile k w h b s = .next t) :
    R s t := by
  simp only [execDefineTile, Host.Outcome.next.injEq] at e; subst e
  refine plainCommand_rel C fun u u' p hr e => ?_
  split at e
  · cases e
  · next h1 =>
    split at e
    · cases e
    · next h2 =>
      split at e
      · cases e
      · next h3 =>
        cases e
        simp only [not_or, Nat.not_lt] at h1 h2 h3
        exact C.define u _ ⟨w.toNat, h.toNat, b.toNat⟩ hr h1 (by simp only; omega) (by simp only; omega)
          (by simp only; omega) (by simp only; omega) h3

theorem execLoadTileData_rel (C : CommandUpdates R) {k : Byte} {o : Word} {d : List Byte}
    (h : execLoadTileData k o d s = .next t) : R s t := by
  unfold execLoadTileData at h
  split at h
  · simp only [Host.Outcome.next.injEq] at h; subst h
    refine plainCommand_rel C fun u u' p hr e => ?_
    split at e
    · cases e
    · next h1 =>
      split at e
      · cases e
      · next h2 =>
        split at e
        · cases e
        · next h3 => cases e; exact C.loadTile u _ _ _ _ hr (by omega) h2 (by omega)
  · cases h

theorem execReleaseTile_rel (C : CommandUpdates R) {k : Byte} (h : execReleaseTile k s = .next t) : R s t := by
  simp only [execReleaseTile, Host.Outcome.next.injEq] at h; subst h
  refine plainCommand_rel C fun u u' p hr e => ?_
  split at e
  · cases e
  · next h1 => cases e; exact C.release u _ hr (by omega)

theorem execPlaceTile_rel (C : CommandUpdates R) {k : Byte} {x y : Word} {o key : Byte}
    (h : execPlaceTile k x y o key s = .next t) : R s t := by
  simp only [execPlaceTile, Host.Outcome.next.injEq] at h; subst h
  refine plainCommand_rel C fun u u' p hr e => ?_
  split at e
  · cases e
  · split at e
    · split at e
      · cases e
      · next h2 => cases e; exact C.place u _ _ _ _ _ _ hr h2
    · cases e

theorem execLoadWaveformData_rel (C : CommandUpdates R) {o : Word} {d : List Byte}
    (h : execLoadWaveformData o d s = .next t) : R s t := by
  unfold execLoadWaveformData at h
  split at h
  · simp only [Host.Outcome.next.injEq] at h; subst h
    refine plainCommand_rel C fun u u' p hr e => ?_
    split at e
    · cases e
    · next h1 =>
      split at e
      · cases e
      · next h2 => cases e; exact C.loadRam u _ _ hr (by simpa using h1) (by omega)
  · cases h

theorem execSealWaveform_rel (C : CommandUpdates R) (h : execSealWaveform s = .next t) : R s t := by
  simp only [execSealWaveform, Host.Outcome.next.injEq] at h; subst h
  refine plainCommand_rel C fun u u' p hr e => ?_
  split at e
  · next h1 => cases e; exact C.sealTable u hr h1
  · cases e

theorem execUnsealWaveform_rel (C : CommandUpdates R) (h : execUnsealWaveform s = .next t) : R s t := by
  simp only [execUnsealWaveform, Host.Outcome.next.injEq] at h; subst h
  refine plainCommand_rel C fun u u' p hr e => ?_
  split at e
  · cases e
  · next h1 => cases e; exact C.unsealTable u hr (by simpa using h1)

theorem execSubmitJob_rel (C : CommandUpdates R) {xs ys xe ye : Word} {m o : Byte}
    (h : execSubmitJob xs ys xe ye m o s = .next t) : R s t := by
  simp only [execSubmitJob, Host.Outcome.next.injEq] at h; subst h
  refine plainCommand_rel C fun u u' p hr e => ?_
  split at e
  · cases e
  · next tb h1 =>
    split at e
    · cases e
    · next h2 =>
      split at e
      · cases e
      · next h3 =>
        split at e
        · cases e
        · next h4 =>
          cases e
          exact C.submit u tb _ hr h1 (by simpa using h2) (Nat.not_le.1 h3) rfl (Nat.not_le.1 h4)

theorem mem_of_findQueued {q : List Job} {t : Byte} {j : Job} (h : findQueued q t = some j) :
    j ∈ q ∧ j.ticket = t := by
  unfold findQueued at h
  exact ⟨List.mem_of_find?_eq_some h, by simpa using List.find?_some h⟩

theorem execCancelJob_rel (C : CommandUpdates R) {k : Byte} (h : execCancelJob k s = .next t) : R s t := by
  simp only [execCancelJob, Host.Outcome.next.injEq] at h; subst h
  refine plainCommand_rel C fun u u' p hr e => ?_
  split at e
  · next h1 => cases e; exact C.cancelOne u _ hr (mem_of_findQueued h1).1
  · split at e <;> cases e

theorem execAbortJob_rel (C : CommandUpdates R) {k : Byte} (h : execAbortJob k s = .next t) : R s t := by
  simp only [execAbortJob, Host.Outcome.next.injEq] at h; subst h
  refine plainCommand_rel C fun u u' p hr e => ?_
  split at e
  · cases e
    exact C.trans (C.cancelAll u _ hr) (C.pendAll _ hr)
  · split at e
    · next h1 => cases e; exact C.cancelOne u _ hr (mem_of_findQueued h1).1
    · split at e <;> cases e
      exact C.pendLane u _ hr

theorem execFlushQueue_rel (C : CommandUpdates R) (h : execFlushQueue s = .next t) : R s t := by
  simp only [execFlushQueue, Host.Outcome.next.injEq] at h; subst h
  refine plainCommand_rel C fun u u' p hr e => ?_
  cases e; exact C.cancelAll u _ hr

theorem execStartScheduler_rel (C : CommandUpdates R) (h : execStartScheduler s = .next t) : R s t := by
  simp only [execStartScheduler, Host.Outcome.next.injEq] at h; subst h
  refine plainCommand_rel C fun u u' p hr e => ?_
  split at e
  · next h1 => cases e; exact C.start u hr (.inl h1)
  · next h1 => cases e; exact C.start u hr (.inr h1)
  · cases e; exact C.refl _
  · cases e
  · cases e

theorem execHaltScheduler_rel (C : CommandUpdates R) (h : execHaltScheduler s = .next t) : R s t := by
  simp only [execHaltScheduler, Host.Outcome.next.injEq] at h; subst h
  refine plainCommand_rel C fun u u' p hr e => ?_
  split at e
  · next h1 =>
    cases e
    split
    · next h2 => exact C.quiesce u hr h1 h2
    · next h2 => exact C.halt u hr h1 (by simpa using h2)
  · cases e; exact C.refl _
  · cases e; exact C.refl _
  · cases e
  · cases e

theorem execClearHold_rel (C : CommandUpdates R) (h : execClearHold s = .next t) : R s t := by
  simp only [execClearHold, Host.Outcome.next.injEq] at h; subst h
  refine plainCommand_rel C fun u u' p hr e => ?_
  split at e
  · next h1 => cases e; exact C.clearHold u hr h1
  · cases e

theorem execQueryJob_rel (C : CommandUpdates R) {k : Byte} (h : execQueryJob k s = .next t) : R s t := by
  simp only [execQueryJob, Host.Outcome.next.injEq] at h; subst h
  refine plainCommand_rel C fun u u' p hr e => ?_
  split at e
  · cases e; exact C.refl _
  · split at e
    · split at e <;> cases e
      exact C.refl _
    · cases e

theorem execRailsOn_rel (C : CommandUpdates R) (h : execRailsOn s = .next t) : R s t := by
  simp only [execRailsOn, Host.Outcome.next.injEq] at h; subst h
  refine plainCommand_rel C fun u u' p hr e => ?_
  split at e
  · next h1 => cases e; exact C.railsOn u hr h1
  · cases e; exact C.refl _
  · cases e; exact C.refl _
  · cases e
  · cases e

theorem execRailsOff_rel (C : CommandUpdates R) (h : execRailsOff s = .next t) : R s t := by
  simp only [execRailsOff, Host.Outcome.next.injEq] at h; subst h
  refine plainCommand_rel C fun u u' p hr e => ?_
  split at e
  · next h1 =>
    split at e
    · cases e
    · next h2 => cases e; exact C.railsOff u hr (.inr ⟨h1, by simpa using h2⟩)
  · next h1 => cases e; exact C.railsOff u hr (.inl h1)
  · cases e; exact C.refl _
  · cases e; exact C.refl _
  · cases e; exact C.refl _

theorem execSampleTemperature_rel (C : CommandUpdates R) {x : SensorInput}
    (h : execSampleTemperature x s = .next t) : R s t := by
  simp only [execSampleTemperature, Host.Outcome.next.injEq] at h; subst h
  refine plainCommand_rel C fun u u' p hr e => ?_
  cases e; exact C.sample u x hr

theorem execArmWatchdog_rel (C : CommandUpdates R) {p : Word} {a : Byte} (h : execArmWatchdog p a s = .next t) :
    R s t := by
  simp only [execArmWatchdog, Host.Outcome.next.injEq] at h; subst h
  refine plainCommand_rel C fun u u' q hr e => ?_
  split at e
  · cases e
  · next h1 =>
    split at e
    · cases e
    · cases e
      exact C.armDog u p.toNat _ hr (by omega) (by have := p.isLt; omega)

theorem execFeedWatchdog_rel (C : CommandUpdates R) (h : execFeedWatchdog s = .next t) : R s t := by
  simp only [execFeedWatchdog, Host.Outcome.next.injEq] at h; subst h
  refine plainCommand_rel C fun u u' q hr e => ?_
  split at e
  · next h1 => cases e; exact C.feedDog u hr h1
  · cases e

theorem execDisarmWatchdog_rel (C : CommandUpdates R) (h : execDisarmWatchdog s = .next t) : R s t := by
  simp only [execDisarmWatchdog, Host.Outcome.next.injEq] at h; subst h
  refine commandStep_rel C fun l u u' q hr e => ?_
  split at e
  · cases e
  · split at e
    · cases e
    · cases e; exact C.disarmDog u hr

end

end Sys2Proof.Laws
end

