-- ==== Sys2Proof/Laws/Events.lean ====
section
/-! SUPPORT. Laws/Events.lean: the elementary updates of the steps and events that are not host commands, and the theorem that
a relation kept by every elementary update is kept by every command and by every step of the block. -/

namespace Sys2Proof.Laws
open Sys2Proof Sys2Proof.Machine

/-- `R` relates a state to what each elementary update of a link event, a supply step, a tick step, a boundary step or a
reset makes of it. -/
structure EventUpdates (R : State → State → Prop) : Prop where
  endStep : ∀ u, R u (endStep u)
  accept : ∀ u e, u.stepsRun = true → u.time.power = .run → u.link.intake.length < 4 → e.opcode ≠ fetchOpcode →
    allowedLength e.opcode e.payload.length = true → R u (acceptEntry e u)
  fail : ∀ u r, u.stepsRun = true → R u (recordFailure r u)
  woke : ∀ u out, u.stepsRun = true → R u (recordWoke out u)
  served : ∀ u (b : Bool) out, u.stepsRun = true → u.time.power = .run →
    R u { u with
      link := { u.link with
        lastResult := .ok, respNew := if b then false else u.link.respNew, openFetch := none, fetchOut := out } }
  openFetch : ∀ u f, u.stepsRun = true → u.link.forgotten = false → u.link.openFetch = none →
    R u { u with link := { u.link with openFetch := some f } }
  forgotten : ∀ u b, u.link.openFetch = none ∨ b = false ∨ u.stepsRun = false → R u (u.setForgotten b)
  hibernate : ∀ u clocked, u.stepsRun = true → u.sched.state = .halted ∨ u.sched.state = .holding → u.sched.queue = [] →
    u.sched.lanes.anyActive = false → u.supply.rail = .off ∨ u.supply.rail = .fault → u.link.intake = [] →
    u.sched.powerRequest = false → R u (hibernate clocked u)
  railGood : ∀ u, u.stepsRun = true → u.supply.rail = .ramping →
    R u { u with supply := u.supply.makeReady u.params, events := u.events.raise .railsReady }
  fault : ∀ u k, u.stepsRun = true → k ≠ .none →
    u.supply.rail = .ramping ∨ u.supply.rail = .ready ∨ u.supply.rail = .draining → R u (enterFault k u)
  countFault : ∀ u, u.stepsRun = true → u.supply.rail = .fault → R u (countFault u)
  endDrain : ∀ u, u.stepsRun = true → u.supply.rail = .draining → R u (endDrain u)
  slowDrain : ∀ u, u.stepsRun = true → drainExpires u = true → R u (slowDrain u)
  ramp : ∀ u, u.stepsRun = true → rampDue u = true → R u { u with supply := u.supply.ramp u.params }
  rampDown : ∀ u, u.stepsRun = true → u.supply.rail = .ramping → rampExpires u = false →
    R u { u with supply := { u.supply with rampCount := u.supply.rampCount - 1 } }
  drain : ∀ u, u.stepsRun = true → holdExpires u = true → R u { u with supply := u.supply.drain u.params }
  holdDown : ∀ u, u.stepsRun = true → holdIdle u = true → holdExpires u = false →
    R u { u with supply := { u.supply with holdCount := u.supply.holdCount - 1 } }
  drainDown : ∀ u, u.stepsRun = true → u.supply.rail = .draining → drainExpires u = false →
    R u { u with supply := { u.supply with drainCount := u.supply.drainCount - 1 } }
  sampleDown : ∀ u, u.inRun = true → u.temp.sampleCount ≠ 0 →
    R u { u with temp := { u.temp with sampleCount := u.temp.sampleCount - 1 } }
  edge : ∀ u, u.stepsRun = true → u.time.power = .hibernate → u.time.wakeEdge = true → R u (takeEdge u)
  wake : ∀ u, u.stepsRun = true → u.time.power = .hibernate → wakeDue u = true → R u (completeWake u)
  timerExpire : ∀ u, u.stepsRun = true → wakeTimerDue u = true → R u (expireWakeTimer u)
  timerDown : ∀ u, u.stepsRun = true → wakeTimerDue u = false →
    R u { u with time := { u.time with wakeCount := u.time.wakeCount.map fun n => n - 1 } }
  dogExpire : ∀ u, u.inRun = true → watchdogDue u = true → u.time.action ≠ .reset → R u (expireWatchdog u)
  dogReset : ∀ u, u.inRun = true → watchdogDue u = true → u.time.action = .reset →
    R u (beginReset .watchdog [] (Machine.endStep (expireWatchdog u)) (Machine.endStep (expireWatchdog u)))
  dogDown : ∀ u, u.inRun = true → u.time.armed = true → watchdogDue u = false →
    R u { u with time := { u.time with count := u.time.count - 1 } }
  wakeEdge : ∀ u, u.stepsRun = true → u.time.power = .hibernate → R u { u with time := { u.time with wakeEdge := true } }
  stable : ∀ u, R u { u with time := { u.time with oscStable := u.time.oscStable || u.time.oscRunning } }
  countFrame : ∀ u, u.inRun = true → R u (countFrame u)
  advanceLane : ∀ u t k, u.inRun = true → u.wave.table = some t → R u (advanceLane t k u)
  nextPhase : ∀ u t k a, u.inRun = true → u.wave.table = some t → u.sched.lanes.get k = some a → a.endsPhase = true →
    lastPhase u.wave.ram t a = false → R u (setLane k (a.count.nextPhase u.wave.ram t) u)
  complete : ∀ u t k a, u.inRun = true → u.wave.table = some t → u.sched.lanes.get k = some a → a.endsPhase = true →
    lastPhase u.wave.ram t a = true → R u (completeJob t k a.count u)
  abort : ∀ u c k, u.inRun = true → R u (abortLane c k u)
  halted : ∀ u, u.inRun = true → u.quiesced = true → R u (setSched .halted u)
  holding : ∀ u, u.inRun = true → u.parked = true → R u (setSched .holding u)
  idleFlag : ∀ u, u.inRun = true → R u (raiseFlag .schedIdle u)
  activate : ∀ u j k, Admissible u j k → R u (activate j k u)
  request : ∀ u, u.inRun = true → R u (raisePowerRequest u)
  markWork : ∀ u h, u.inRun = true → R u (markWork h u)
  beginFrame : ∀ u, u.inRun = true → R u (beginFrame u)
  cut : ∀ u c, R u (applyCut c u)
  begin_ : ∀ u kind extra judged, R u (beginReset kind extra judged u)
  pin : ∀ u b, R u { u with resetUnit := { u.resetUnit with resetPin := b } }
  complete_ : ∀ u a r, u.resetUnit.inProgress = some r → R u (completeReset a r u)
  free : ∀ u n, R u { u with freeTaken := n }
  started : ∀ u x c a, u.stepsRun = true → u.arbiter.next x = some (c, a) →
    R u { u with arbiter := a, freeTaken := u.freeTaken + 1 }
  queue : ∀ u p, R u { u with pending := p }

section
variable {R : State → State → Prop} {s t : State}

theorem otherStep_rel (C : CommandUpdates R) (E : EventUpdates R) {work : State → State}
    (h : s.stepsRun = true → R s (work s)) : R s (otherStep work s) := by
  refine otherStep_elim (R s) (fun _ => C.refl s) (fun hr => C.trans (h hr) (E.endStep _))

theorem runStep_rel (C : CommandUpdates R) (E : EventUpdates R) {work : State → State}
    (h : s.inRun = true → R s (work s)) : R s (runStep work s) := by
  refine runStep_elim (R s) (fun _ => C.refl s) (fun hr => C.trans (h hr) (E.endStep _))

/-! ### The link -/

theorem power_run {u : State} (h : ¬ u.time.power = .hibernate) : u.time.power = .run := by
  cases e : u.time.power <;> simp_all

theorem closeFetch_rel (E : EventUpdates R) {f : OpenFetch} {k : Nat} (hr : s.stepsRun = true) :
    R s (closeFetch f k s) := by
  unfold closeFetch
  split
  · exact E.woke s _ hr
  · next h =>
    simp only [Bool.or_eq_true, decide_eq_true_eq, not_or] at h
    split
    · exact E.woke s _ hr
    · exact E.served s _ _ hr (power_run h.2)
    · exact E.fail s _ hr

/-- What an OK link result says of the transaction (R6 to R10). -/
theorem linkResult_ok {q : Bool} {n : Nat} {a : Byte} {rest : List Byte} {stray : Bool}
    (h : linkResult q n a rest stray = .ok) : ∃ opcode len body, rest = opcode :: len :: body ∧ markerOk a = true ∧
      body.length = bodyLength a len ∧ stray = false ∧ len.toNat ≤ 250 ∧ allowedLength opcode len.toNat = true ∧
      (chkBit a = true → crc8 (a :: rest) = 0#8) ∧ policyFails q a opcode = false ∧ n < 4 := by
  unfold linkResult at h
  split at h
  · cases h
  · next h0 =>
    split at h
    · next opcode len body =>
      split at h
      · cases h
      · next h1 =>
        split at h
        · cases h
        · next h2 =>
          split at h
          · cases h
          · next h3 =>
            split at h
            · cases h
            · next h4 =>
              split at h
              · cases h
              · next h5 =>
                split at h
                · cases h
                · next h6 =>
                  simp only [Bool.or_eq_true, decide_eq_true_eq, not_or, Bool.not_eq_true] at h1
                  simp only [lengthFails, Bool.or_eq_true, decide_eq_true_eq, not_or, Bool.and_eq_true,
                    Bool.not_eq_true', not_and, Bool.not_eq_false] at h2
                  refine ⟨opcode, len, body, rfl, by simpa using h0, by omega, h1.2, by omega,
                    h2.1.2 (by simpa using h6), ?_, by simpa using h4, Nat.not_le.1 fun hle => h5 (decide_eq_true hle)⟩
                  intro hc
                  simpa [hc] using h3
    · cases h

theorem endTransaction_rel (C : CommandUpdates R) (E : EventUpdates R) {a : Byte} {rest : List Byte} {stray : Bool}
    (hr : s.stepsRun = true) (hf : rest.head? ≠ some fetchOpcode) : R s (endTransaction a rest stray s) := by
  unfold endTransaction
  split
  · exact E.woke s _ hr
  · next hp =>
    split
    · next e =>
      obtain ⟨opcode, len, body, rfl, -, hb, -, -, hl, -, -, hn⟩ := linkResult_ok e
      split
      · next en he =>
        simp only [entryOf, Option.some.injEq] at he
        subst he
        refine E.accept s _ hr (power_run hp) hn (by simpa using hf) ?_
        have : len.toNat ≤ body.length := by rw [hb]; unfold bodyLength; omega
        simpa [List.length_take, Nat.min_eq_left this] using hl
      · exact C.refl s
    · exact E.fail s _ hr

theorem wholeFetch_rel (E : EventUpdates R) {a : Byte} {bytes : List Byte} (hr : s.stepsRun = true) :
    R s (wholeFetch a bytes s) := by
  unfold wholeFetch
  split
  · exact E.woke s _ hr
  · split
    · exact E.fail s _ hr
    · exact closeFetch_rel E hr

theorem portTransaction_rel (C : CommandUpdates R) (E : EventUpdates R) {bytes : List Byte} {stray : Bool} :
    R s (portTransaction bytes stray s) := by
  unfold portTransaction
  split
  · exact E.forgotten s _ (Or.inr (Or.inl rfl))
  · split
    · next hr =>
      split
      · exact closeFetch_rel E hr
      · split
        · exact C.refl s
        · split
          · split
            · exact wholeFetch_rel E hr
            · next h => exact endTransaction_rel C E hr h
          · exact C.refl s
    · exact C.refl s

theorem execTransaction_rel (C : CommandUpdates R) (E : EventUpdates R) {bytes : List Byte} {edge : CsEdge}
    (h : execTransaction bytes edge s = .next t) : R s t := by
  simp only [execTransaction, Host.Outcome.next.injEq] at h; subst h
  split
  · exact E.forgotten s _ (Or.inr (Or.inl rfl))
  · exact portTransaction_rel C E

theorem portFetch_rel (C : CommandUpdates R) (E : EventUpdates R) {a l c : Byte} {k : Option Nat} :
    R s (portFetch a l c k s) := by
  unfold portFetch
  split
  · exact C.refl s
  · next hf =>
    split
    · next hr => exact E.forgotten s _ (Or.inr (Or.inr (by simpa using hr)))
    · next hr =>
      have hr : s.stepsRun = true := by simpa using hr
      split
      · next hc =>
        simp only [Bool.and_eq_true, Option.isNone_iff_eq_none] at hc
        split
        · exact wholeFetch_rel E hr
        · exact E.openFetch s _ hr (by simpa using hf) hc.1
      · exact C.refl s

theorem execFetch_rel (C : CommandUpdates R) (E : EventUpdates R) {a l c : Byte} {k : Option Nat}
    (h : execFetch a l c k s = .next t) : R s t := by
  simp only [execFetch, Host.Outcome.next.injEq] at h; subst h
  exact portFetch_rel C E

theorem portArrival_rel (C : CommandUpdates R) (E : EventUpdates R) {a : Arrival} : R s (portArrival a s) := by
  cases a with
  | transaction _ _ => exact portTransaction_rel C E
  | fetch _ _ _ _ => exact portFetch_rel C E

/-! ### Resets -/

theorem execSoftReset_rel (C : CommandUpdates R) (E : EventUpdates R) (h : execSoftReset s = .next t) : R s t := by
  simp only [execSoftReset, Host.Outcome.next.injEq] at h; subst h
  have h1 : R s (commandStep (ownsHead .softReset s) .softReset
      (fun latch t => if latch then .accept t [] else .refuse .guard []) s) := by
    refine commandStep_rel C fun l u u' p _ e => ?_
    split at e <;> cases e
    exact C.refl _
  split
  · exact C.trans h1 (E.begin_ _ _ _ _)
  · exact h1

theorem execPor_rel (E : EventUpdates R) (h : execPor s = .next t) : R s t := by
  simp only [execPor, Host.Outcome.next.injEq] at h; subst h
  exact E.begin_ _ _ _ _

theorem execPinReset_rel (C : CommandUpdates R) (E : EventUpdates R) {c : CutStep} (h : execPinReset c s = .next t) :
    R s t := by
  simp only [execPinReset, Host.Outcome.next.injEq] at h; subst h
  exact C.trans (C.trans (E.cut s c) (E.begin_ _ _ _ _)) (E.pin _ _)

theorem execResetDone_rel (C : CommandUpdates R) (E : EventUpdates R) {b : Bool} {a : BitVec 3}
    (h : execResetDone b a s = .next t) : R s t := by
  simp only [execResetDone, Host.Outcome.next.injEq] at h; subst h
  split
  · next r hr =>
    split
    · exact C.trans (E.pin s b) (E.complete_ _ a r hr)
    · exact E.pin s b
  · exact C.refl s

/-! ### Supply steps and supply events -/

theorem execRailGood_rel (C : CommandUpdates R) (E : EventUpdates R) (h : execRailGood s = .next t) : R s t := by
  simp only [execRailGood, Host.Outcome.next.injEq] at h; subst h
  refine otherStep_rel C E fun hr => ?_
  split
  · next h1 => exact E.railGood s hr h1
  all_goals exact C.refl s

theorem execRailLost_rel (C : CommandUpdates R) (E : EventUpdates R) (h : execRailLost s = .next t) : R s t := by
  simp only [execRailLost, Host.Outcome.next.injEq] at h; subst h
  refine otherStep_rel C E fun hr => ?_
  split
  · next h1 => exact E.fault s _ hr (by decide) (.inr (.inl h1))
  · next h1 => exact E.countFault s hr h1
  all_goals exact C.refl s

theorem execOvercurrent_rel (C : CommandUpdates R) (E : EventUpdates R) (h : execOvercurrent s = .next t) :
    R s t := by
  simp only [execOvercurrent, Host.Outcome.next.injEq] at h; subst h
  refine otherStep_rel C E fun hr => ?_
  split
  · next h1 => exact E.fault s _ hr (by decide) (.inl h1)
  · next h1 => exact E.fault s _ hr (by decide) (.inr (.inl h1))
  · next h1 => exact E.fault s _ hr (by decide) (.inr (.inr h1))
  · next h1 => exact E.countFault s hr h1
  · exact C.refl s

theorem execDrainDone_rel (C : CommandUpdates R) (E : EventUpdates R) (h : execDrainDone s = .next t) : R s t := by
  simp only [execDrainDone, Host.Outcome.next.injEq] at h; subst h
  refine otherStep_rel C E fun hr => ?_
  split
  · next h1 => exact E.endDrain s hr h1
  all_goals exact C.refl s

theorem rampExpires_rail {u : State} (h : rampExpires u = true) : u.supply.rail = .ramping := by
  simp only [rampExpires, Bool.and_eq_true, decide_eq_true_eq] at h
  exact h.1

theorem execPowerRequestRamp_rel (C : CommandUpdates R) (E : EventUpdates R) (h : execPowerRequestRamp s = .next t) :
    R s t := by
  simp only [execPowerRequestRamp, Host.Outcome.next.injEq] at h; subst h
  refine otherStep_rel C E fun hr => ?_
  split
  · next h1 => exact E.ramp s hr h1
  · exact C.refl s

theorem execRampTimeout_rel (C : CommandUpdates R) (E : EventUpdates R) (h : execRampTimeout s = .next t) :
    R s t := by
  simp only [execRampTimeout, Host.Outcome.next.injEq] at h; subst h
  refine otherStep_rel C E fun hr => ?_
  split
  · next h1 => exact E.fault s _ hr (by decide) (.inl (rampExpires_rail h1))
  · exact C.refl s

theorem execRailHoldExpiry_rel (C : CommandUpdates R) (E : EventUpdates R) (h : execRailHoldExpiry s = .next t) :
    R s t := by
  simp only [execRailHoldExpiry, Host.Outcome.next.injEq] at h; subst h
  refine otherStep_rel C E fun hr => ?_
  split
  · next h1 => exact E.drain s hr h1
  · exact C.refl s

theorem execDrainSlow_rel (C : CommandUpdates R) (E : EventUpdates R) (h : execDrainSlow s = .next t) : R s t := by
  simp only [execDrainSlow, Host.Outcome.next.injEq] at h; subst h
  refine otherStep_rel C E fun hr => ?_
  split
  · next h1 => exact E.slowDrain s hr h1
  · exact C.refl s

theorem supplyPart_rel (C : CommandUpdates R) (E : EventUpdates R) (hr : s.stepsRun = true) :
    R s (supplyPart s) := by
  unfold supplyPart
  split
  · next h1 =>
    split
    · next h2 => exact E.ramp s hr (by simp [rampDue, h1, h2])
    · exact C.refl s
  · next h1 =>
    split
    · exact E.fault s _ hr (by decide) (.inl h1)
    · next h2 => exact E.rampDown s hr h1 (by simpa using h2)
  · split
    · next h2 => exact E.drain s hr h2
    · next h2 =>
      split
      · next h3 => exact E.holdDown s hr h3 (by simpa using h2)
      · exact C.refl s
  · next h1 =>
    split
    · next h2 => exact E.slowDrain s hr h2
    · next h2 => exact E.drainDown s hr h1 (by simpa using h2)
  · exact C.refl s

/-! ### Tick steps and tick events -/

theorem inRun_iff {u : State} : u.inRun = true ↔ u.stepsRun = true ∧ u.time.power = .run := by
  simp [State.inRun]

theorem execPeriodicSample_rel (C : CommandUpdates R) (E : EventUpdates R) {x : SensorInput}
    (h : execPeriodicSample x s = .next t) : R s t := by
  simp only [execPeriodicSample, Host.Outcome.next.injEq] at h; subst h
  refine runStep_rel C E fun hr => ?_
  split
  · exact C.sample s x hr
  · exact C.refl s

theorem execWakeTimerExpiry_rel (C : CommandUpdates R) (E : EventUpdates R) (h : execWakeTimerExpiry s = .next t) :
    R s t := by
  simp only [execWakeTimerExpiry, Host.Outcome.next.injEq] at h; subst h
  refine otherStep_rel C E fun hr => ?_
  split
  · next h1 => exact E.timerExpire s hr h1
  · exact C.refl s

theorem execWatchdogExpiry_rel (C : CommandUpdates R) (E : EventUpdates R) (h : execWatchdogExpiry s = .next t) :
    R s t := by
  simp only [execWatchdogExpiry, Host.Outcome.next.injEq] at h; subst h
  split
  · next h1 =>
    simp only [Bool.and_eq_true, watchdogResets, decide_eq_true_eq] at h1
    have e : runStep (fun t => if watchdogDue t then expireWatchdog t else t) s = endStep (expireWatchdog s) := by
      simp [runStep, h1.1, h1.2.1]
    rw [e]
    exact E.dogReset s h1.1 h1.2.1 h1.2.2
  · next h1 =>
    refine runStep_rel C E fun hr => ?_
    split
    · next h2 =>
      refine E.dogExpire s hr h2 fun h3 => h1 ?_
      simp [watchdogResets, hr, h2, h3]
    · exact C.refl s

theorem takeEdge_power (u : State) : (takeEdge u).time.power = u.time.power := by
  unfold takeEdge; split <;> rfl

theorem takeEdge_rel (C : CommandUpdates R) (E : EventUpdates R) (hr : s.stepsRun = true)
    (hp : s.time.power = .hibernate) : R s (takeEdge s) := by
  by_cases he : s.time.wakeEdge = true
  · exact E.edge s hr hp he
  · have : takeEdge s = s := by unfold takeEdge; rw [if_neg he]
    rw [this]; exact C.refl s

theorem takeEdge_stepsRun (u : State) : (takeEdge u).stepsRun = u.stepsRun := by
  unfold takeEdge; split <;> rfl

theorem execWoke_rel (C : CommandUpdates R) (E : EventUpdates R) (h : execWoke s = .next t) : R s t := by
  simp only [execWoke, Host.Outcome.next.injEq] at h; subst h
  refine otherStep_rel C E fun hr => ?_
  split
  · next h1 =>
    refine C.trans (takeEdge_rel C E hr h1.1) (E.wake _ ?_ ?_ h1.2)
    · rw [takeEdge_stepsRun]; exact hr
    · rw [takeEdge_power]; exact h1.1
  · exact C.refl s

theorem execWakeEdge_rel (C : CommandUpdates R) (E : EventUpdates R) (h : execWakeEdge s = .next t) : R s t := by
  simp only [execWakeEdge, Host.Outcome.next.injEq] at h; subst h
  split
  · next h1 =>
    simp only [Bool.and_eq_true, decide_eq_true_eq] at h1
    exact E.wakeEdge s h1.1 h1.2
  · exact C.refl s

theorem execOscillatorStable_rel (E : EventUpdates R) (h : execOscillatorStable s = .next t) : R s t := by
  simp only [execOscillatorStable, Host.Outcome.next.injEq] at h; subst h
  exact E.stable s

theorem wakeOpening_rel (C : CommandUpdates R) (E : EventUpdates R) (hr : s.stepsRun = true) :
    R s (wakeOpening s) := by
  unfold wakeOpening
  split
  · next hp =>
    dsimp only
    split
    · next h1 =>
      refine C.trans (takeEdge_rel C E hr hp) (E.wake _ ?_ ?_ h1)
      · rw [takeEdge_stepsRun]; exact hr
      · rw [takeEdge_power]; exact hp
    · exact takeEdge_rel C E hr hp
  · exact C.refl s

theorem wakeOpening_stepsRun (u : State) : (wakeOpening u).stepsRun = u.stepsRun := by
  unfold State.stepsRun; rw [wakeOpening_resetUnit]

theorem abortAll_keeps {α : Type} (f : State → α) (h : ∀ c k u, f (abortLane c k u) = f u) (c : AbortCause)
    (u : State) : f (abortAll c u) = f u := by
  simp only [abortAll, laneOrder, List.foldl_cons, List.foldl_nil, h]

@[simp] theorem enterFault_resetUnit (k : FaultKind) (u : State) : (enterFault k u).resetUnit = u.resetUnit := by
  simp only [enterFault, setSched_resetUnit]
  rw [abortAll_keeps (fun s => s.resetUnit) (by simp)]

@[simp] theorem enterFault_time (k : FaultKind) (u : State) : (enterFault k u).time = u.time := by
  simp only [enterFault, setSched_time]
  rw [abortAll_keeps (fun s => s.time) (by simp)]

@[simp] theorem supplyPart_resetUnit (u : State) : (supplyPart u).resetUnit = u.resetUnit := by
  unfold supplyPart; (repeat' split) <;> simp

@[simp] theorem supplyPart_time (u : State) : (supplyPart u).time = u.time := by
  unfold supplyPart; (repeat' split) <;> simp

theorem temperaturePart_rel (C : CommandUpdates R) (E : EventUpdates R) {x : SensorInput} (hr : s.inRun = true) :
    R s (temperaturePart x s) := by
  unfold temperaturePart
  split
  · exact C.sample s x hr
  · next h => exact E.sampleDown s hr h

theorem wakeTimerPart_rel (E : EventUpdates R) (hr : s.stepsRun = true) : R s (wakeTimerPart s) := by
  unfold wakeTimerPart
  split
  · next h => exact E.timerExpire s hr h
  · next h => exact E.timerDown s hr (by simpa using h)

theorem watchdogPart_rel (C : CommandUpdates R) (E : EventUpdates R) (hr : s.inRun = true)
    (hn : watchdogResets s = false) : R s (watchdogPart s) := by
  unfold watchdogPart
  split
  · next h => exact E.dogExpire s hr h fun h3 => by simp [watchdogResets, h, h3] at hn
  · next h =>
    split
    · next h2 => exact E.dogDown s hr h2 (by simpa using h)
    · exact C.refl s

theorem tickParts_stepsRun (x : SensorInput) (u : State) : (tickParts x u).stepsRun = u.stepsRun := by
  unfold tickParts State.stepsRun
  dsimp only
  rw [wakeTimerPart_resetUnit]
  split <;> simp

theorem tickParts_rel (C : CommandUpdates R) (E : EventUpdates R) {x : SensorInput} (hr : s.stepsRun = true) :
    R s (tickParts x s) := by
  unfold tickParts
  dsimp only
  have h2 : (supplyPart (wakeOpening s)).stepsRun = true := by
    unfold State.stepsRun; rw [supplyPart_resetUnit, wakeOpening_resetUnit]; exact hr
  have r2 : R s (supplyPart (wakeOpening s)) :=
    C.trans (wakeOpening_rel C E hr) (supplyPart_rel C E (by rw [wakeOpening_stepsRun]; exact hr))
  split
  · next hp =>
    refine C.trans r2 (C.trans (temperaturePart_rel C E (inRun_iff.2 ⟨h2, hp⟩)) (wakeTimerPart_rel E ?_))
    unfold State.stepsRun; rw [temperaturePart_resetUnit]; exact h2
  · exact C.trans r2 (wakeTimerPart_rel E h2)

theorem execTick_rel (C : CommandUpdates R) (E : EventUpdates R) {x : SensorInput} (h : execTick x s = .next t) :
    R s t := by
  simp only [execTick, Host.Outcome.next.injEq] at h; subst h
  split
  · next hr =>
    have r1 : R s (tickParts x s) := tickParts_rel C E hr
    split
    · next hp =>
      have hr' : (tickParts x s).inRun = true := inRun_iff.2 ⟨by rw [tickParts_stepsRun]; exact hr, hp⟩
      split
      · next hw =>
        simp only [watchdogResets, Bool.and_eq_true, decide_eq_true_eq] at hw
        have e : watchdogPart (tickParts x s) = expireWatchdog (tickParts x s) := by simp [watchdogPart, hw.1]
        rw [e]
        exact C.trans r1 (E.dogReset _ hr' hw.1 hw.2)
      · next hw => exact C.trans r1 (C.trans (watchdogPart_rel C E hr' (by simpa using hw)) (E.endStep _))
    · exact C.trans r1 (E.endStep _)
  · exact C.refl s

/-! ### Boundary steps and boundary events -/

theorem laneEvent_rel (C : CommandUpdates R) (E : EventUpdates R) {k : Fin 4}
    {work : Snapshot → ActiveJob → State → State}
    (hw : ∀ tb a, s.inRun = true → s.wave.table = some tb → s.sched.lanes.get k = some a → R s (work tb a s))
    (h : laneEvent k work s = .next t) : R s t := by
  unfold laneEvent at h
  split at h
  · cases h
  · simp only [Host.Outcome.next.injEq] at h; subst h
    refine runStep_rel C E fun hr => ?_
    split
    · next h1 h2 => exact hw _ _ hr h1 h2
    · exact C.refl s

theorem execPhaseAdvance_rel (C : CommandUpdates R) (E : EventUpdates R) {k : Fin 4}
    (h : execPhaseAdvance k s = .next t) : R s t := by
  refine laneEvent_rel C E (fun tb a hr h1 h2 => ?_) h
  split
  · next h3 =>
    simp only [Bool.and_eq_true, Bool.not_eq_true'] at h3
    exact E.nextPhase s tb k a hr h1 h2 h3.1 h3.2
  · exact C.refl s

theorem execCompleted_rel (C : CommandUpdates R) (E : EventUpdates R) {k : Fin 4}
    (h : execCompleted k s = .next t) : R s t := by
  refine laneEvent_rel C E (fun tb a hr h1 h2 => ?_) h
  split
  · next h3 =>
    simp only [Bool.and_eq_true] at h3
    exact E.complete s tb k a hr h1 h2 h3.1 h3.2
  · exact C.refl s

theorem execAborted_rel (C : CommandUpdates R) (E : EventUpdates R) {k : Fin 4} {c : AbortCause}
    (h : execAborted k c s = .next t) : R s t := by
  simp only [execAborted, Host.Outcome.next.injEq] at h; subst h
  refine runStep_rel C E fun hr => ?_
  split
  · split
    · split
      · exact E.abort s _ _ hr
      · exact C.refl s
    · exact C.refl s
  · exact E.abort s _ _ hr
  · exact E.abort s _ _ hr

theorem execQuiesceToHalted_rel (C : CommandUpdates R) (E : EventUpdates R) (h : execQuiesceToHalted s = .next t) :
    R s t := by
  simp only [execQuiesceToHalted, Host.Outcome.next.injEq] at h; subst h
  refine runStep_rel C E fun hr => ?_
  split
  · next h1 => exact C.trans (E.halted s hr h1) (E.idleFlag _ hr)
  · exact C.refl s

theorem execParkingToHolding_rel (C : CommandUpdates R) (E : EventUpdates R) (h : execParkingToHolding s = .next t) :
    R s t := by
  simp only [execParkingToHolding, Host.Outcome.next.injEq] at h; subst h
  refine runStep_rel C E fun hr => ?_
  split
  · next h1 => exact E.holding s hr h1
  · exact C.refl s

theorem execActivated_rel (C : CommandUpdates R) (E : EventUpdates R) (h : execActivated s = .next t) : R s t := by
  simp only [execActivated, Host.Outcome.next.injEq] at h; subst h
  refine runStep_rel C E fun hr => ?_
  split
  · next h1 =>
    simp only [Bool.and_eq_true, decide_eq_true_eq] at h1
    split
    · next j k rest h2 => exact E.activate s j k (eligible_head hr h1.1 h1.2 h2)
    · exact C.refl s
  · exact C.refl s

theorem inRun_of_eq {u v : State} (h1 : v.resetUnit = u.resetUnit) (h2 : v.time = u.time) (h : u.inRun = true) :
    v.inRun = true := by
  simp only [State.inRun, State.stepsRun] at h ⊢
  rw [h1, h2]; exact h

theorem advanceLane_parts (t : Snapshot) (k : Fin 4) (u : State) :
    (advanceLane t k u).resetUnit = u.resetUnit ∧ (advanceLane t k u).time = u.time ∧
      (advanceLane t k u).wave = u.wave := by
  unfold advanceLane
  dsimp only
  (repeat' split) <;> simp

theorem advanceLanes_rel (C : CommandUpdates R) (E : EventUpdates R) (hr : s.inRun = true) :
    R s (advanceLanes s) ∧ (advanceLanes s).inRun = true := by
  unfold advanceLanes
  split
  · next tb htb =>
    have key : ∀ (ks : List (Fin 4)) (u : State), u.inRun = true → u.wave.table = some tb →
        R u (ks.foldl (fun u k => advanceLane tb k u) u) ∧
          (ks.foldl (fun u k => advanceLane tb k u) u).inRun = true := by
      intro ks
      induction ks with
      | nil => intro u h _; exact ⟨C.refl u, h⟩
      | cons k ks ih =>
        intro u h h'
        obtain ⟨e1, e2, e3⟩ := advanceLane_parts tb k u
        have := ih (advanceLane tb k u) (inRun_of_eq e1 e2 h) (by rw [e3]; exact h')
        exact ⟨C.trans (E.advanceLane u tb k h h') this.1, this.2⟩
    exact key _ s hr htb
  · exact ⟨C.refl s, hr⟩

theorem settleScheduler_rel (C : CommandUpdates R) (E : EventUpdates R) (hr : s.inRun = true) :
    R s (settleScheduler s) := by
  unfold settleScheduler
  split
  · next h => exact E.halted s hr h
  · split
    · next h => exact E.holding s hr h
    · exact C.refl s

theorem admitJobs_parts (u : State) : (admitJobs u).resetUnit = u.resetUnit ∧ (admitJobs u).time = u.time := by
  have key : ∀ (l : List (Job × Fin 4)) (v : State),
      (l.foldl (fun u jk => activate jk.1 jk.2 u) v).resetUnit = v.resetUnit ∧
        (l.foldl (fun u jk => activate jk.1 jk.2 u) v).time = v.time := by
    intro l
    induction l with
    | nil => intro v; exact ⟨rfl, rfl⟩
    | cons x l ih => intro v; have := ih (activate x.1 x.2 v); simpa using this
  unfold admitJobs
  split
  · exact key _ _
  · exact ⟨rfl, rfl⟩

theorem execFrameBoundary_rel (C : CommandUpdates R) (E : EventUpdates R) (h : execFrameBoundary s = .next t) :
    R s t := by
  unfold execFrameBoundary at h
  split at h
  · next hr =>
    split at h
    · cases h
    · simp only [Host.Outcome.next.injEq] at h; subst h
      have h0 : (countFrame s).inRun = true := hr
      obtain ⟨r1, h1⟩ := advanceLanes_rel C E h0
      have r2 := settleScheduler_rel C E h1
      have h2 : (settleScheduler (advanceLanes (countFrame s))).inRun = true := inRun_of_eq (by simp) (by simp) h1
      have r3 := admitJobs_rel C.refl C.trans E.activate h2
      obtain ⟨e1, e2⟩ := admitJobs_parts (settleScheduler (advanceLanes (countFrame s)))
      have h3 := inRun_of_eq e1 e2 h2
      have r4 := E.request _ h3
      have h4 : (raisePowerRequest (admitJobs (settleScheduler (advanceLanes (countFrame s))))).inRun = true :=
        inRun_of_eq (by simp) (by simp) h3
      have r5 := E.markWork _ (advanceLanes (countFrame s)).quiesced h4
      have h5 : (boundaryWork s).inRun = true := inRun_of_eq (u := raisePowerRequest _) rfl rfl h4
      have r6 := E.endStep (boundaryWork s)
      have h6 : (endStep (boundaryWork s)).inRun = true := h5
      exact C.trans (E.countFrame s hr) (C.trans r1 (C.trans r2 (C.trans r3 (C.trans r4 (C.trans r5
        (C.trans r6 (E.beginFrame _ h6)))))))
  · cases h; exact C.refl s

/-! ### Hibernate -/

/-- What no port update changes, no arrival changes. -/
theorem receive_keeps {α : Type} (f : State → α) (hf : ∀ a u, f (portArrival a u) = f u)
    (l : List Arrival) : ∀ u : State, f (u.receive l) = f u := by
  induction l with
  | nil => intro u; rfl
  | cons b l ih => intro u; exact (ih _).trans (hf _ _)

theorem receive_rel (C : CommandUpdates R) (E : EventUpdates R) (l : List Arrival) : ∀ u : State,
    R u (u.receive l) := by
  induction l with
  | nil => intro u; exact C.refl u
  | cons b l ih => intro u; exact C.trans (portArrival_rel C E) (ih _)

/-- A port update changes only the link, the LINK_ERR flag and the wake. -/
theorem portTransaction_frame (b : List Byte) (stray : Bool) (u : State) :
    (portTransaction b stray u).sched = u.sched ∧ (portTransaction b stray u).supply = u.supply ∧
      (portTransaction b stray u).resetUnit = u.resetUnit ∧ (portTransaction b stray u).executor = u.executor := by
  unfold portTransaction closeFetch wholeFetch endTransaction
  dsimp only
  (repeat' split) <;> simp [closeFetch] <;> (repeat' split) <;> simp

/-- A port update never ends the RUN power state. -/
theorem portTransaction_power (b : List Byte) (stray : Bool) {u : State} (h : u.time.power = .run) :
    (portTransaction b stray u).time.power = .run := by
  have hn : ¬ u.time.power = .hibernate := by rw [h]; decide
  unfold portTransaction closeFetch wholeFetch endTransaction
  dsimp only
  (repeat' split) <;> simp_all [closeFetch, recordWoke] <;> (repeat' split) <;> simp_all [recordWoke]

theorem portFetch_frame (a l c : Byte) (k : Option Nat) (u : State) :
    (portFetch a l c k u).sched = u.sched ∧ (portFetch a l c k u).supply = u.supply ∧
      (portFetch a l c k u).resetUnit = u.resetUnit ∧ (portFetch a l c k u).executor = u.executor := by
  unfold portFetch wholeFetch closeFetch
  dsimp only
  (repeat' split) <;> simp [closeFetch] <;> (repeat' split) <;> simp

theorem portFetch_power (a l c : Byte) (k : Option Nat) {u : State} (h : u.time.power = .run) :
    (portFetch a l c k u).time.power = .run := by
  have hn : ¬ u.time.power = .hibernate := by rw [h]; decide
  unfold portFetch wholeFetch closeFetch
  dsimp only
  (repeat' split) <;> simp_all [closeFetch, recordWoke] <;> (repeat' split) <;> simp_all [recordWoke]

/-- What reaches the port changes only the link, the LINK_ERR flag and the wake. -/
theorem portArrival_frame (a : Arrival) (u : State) :
    (portArrival a u).sched = u.sched ∧ (portArrival a u).supply = u.supply ∧
      (portArrival a u).resetUnit = u.resetUnit ∧ (portArrival a u).executor = u.executor := by
  cases a with
  | transaction b t => exact portTransaction_frame b t u
  | fetch a l c k => exact portFetch_frame a l c k u

theorem portArrival_power (a : Arrival) {u : State} (h : u.time.power = .run) :
    (portArrival a u).time.power = .run := by
  cases a with
  | transaction b t => exact portTransaction_power b t h
  | fetch a l c k => exact portFetch_power a l c k h

/-- Arrivals never end the RUN power state. -/
theorem receive_power (l : List Arrival) : ∀ u : State, u.time.power = .run → (u.receive l).time.power = .run := by
  induction l with
  | nil => intro u h; exact h
  | cons b l ih => intro u h; exact ih _ (portArrival_power _ h)

theorem commandAmid_rel (C : CommandUpdates R) (E : EventUpdates R) {l : List Arrival} {c : Instr}
    {work : State → Verdict} (h : ∀ u u' p, u.inRun = true → work u = .accept u' p → R u u') :
    R s (commandAmid l c work s) := by
  unfold commandAmid
  split
  · exact C.trans (receive_rel C E l s) (commandStep_rel C fun _ u u' p hr e => h u u' p hr e)
  · exact C.refl s

theorem execGetParameter_rel (C : CommandUpdates R) (E : EventUpdates R) {n : Amid Byte}
    (h : execGetParameter n s = .next t) : R s t := by
  simp only [execGetParameter, Host.Outcome.next.injEq] at h; subst h
  refine commandAmid_rel C E fun u u' p _ e => ?_
  split at e <;> cases e
  exact C.refl u

theorem execAcknowledgeEvents_rel (C : CommandUpdates R) (E : EventUpdates R) {m : Amid Word}
    (h : execAcknowledgeEvents m s = .next t) : R s t := by
  simp only [execAcknowledgeEvents, Host.Outcome.next.injEq] at h; subst h
  refine commandAmid_rel C E fun u u' p hr e => ?_
  cases e; exact C.acknowledge u _ hr

theorem execEnterHibernate_rel (C : CommandUpdates R) (E : EventUpdates R) {m : Meanwhile}
    (h : execEnterHibernate m s = .next t) : R s t := by
  simp only [execEnterHibernate, Host.Outcome.next.injEq] at h; subst h
  split
  · next hr =>
    have hf := portArrival_frame
    have e1 := receive_keeps (fun u => u.sched) (fun a u => (hf a u).1) m.arrived s
    have e2 := receive_keeps (fun u => u.supply) (fun a u => (hf a u).2.1) m.arrived s
    have e3 := receive_keeps (fun u => u.resetUnit) (fun a u => (hf a u).2.2.1) m.arrived s
    have r0 := receive_rel C E m.arrived s
    set p := s.receive m.arrived with hp
    generalize hw : (fun latch t => if !latch then Verdict.refuse OutcomeCode.guard [] else
      if !mayHibernate (ownsHead (.enterHibernate m) s) s then .refuse .hibBusy [] else .accept t []) = work
    have hwork : ∀ lt u u' q, work lt u = .accept u' q → u' = u := by
      intro lt u u' q e
      rw [← hw] at e
      dsimp only at e
      split at e
      · cases e
      · split at e
        · cases e
        · cases e; rfl
    have r1 : R p (commandStep (ownsHead (.enterHibernate m) s) (.enterHibernate m) work p) := by
      refine commandStep_rel C fun lt u u' q _ e => ?_
      rw [hwork _ _ _ _ e]; exact C.refl _
    split
    · next hc =>
      simp only [Bool.and_eq_true] at hc
      obtain ⟨⟨-, hm⟩, hi⟩ := hc
      simp only [mayHibernate, Bool.and_eq_true, Bool.or_eq_true, decide_eq_true_eq, Bool.not_eq_true',
        List.isEmpty_iff] at hm
      obtain ⟨⟨⟨⟨m1, m2⟩, m3⟩, m4⟩, -⟩ := hm
      refine C.trans r0 (C.trans r1 ?_)
      have k : (commandStep (ownsHead (.enterHibernate m) s) (.enterHibernate m) work p).sched.state = s.sched.state ∧
          (commandStep (ownsHead (.enterHibernate m) s) (.enterHibernate m) work p).sched.queue = s.sched.queue ∧
          (commandStep (ownsHead (.enterHibernate m) s) (.enterHibernate m) work p).sched.lanes = s.sched.lanes ∧
          (commandStep (ownsHead (.enterHibernate m) s) (.enterHibernate m) work p).supply.rail = s.supply.rail ∧
          (commandStep (ownsHead (.enterHibernate m) s) (.enterHibernate m) work p).resetUnit = s.resetUnit := by
        rw [← e1, ← e2, ← e3]
        apply commandStep_elim (fun v => v.sched.state = p.sched.state ∧ v.sched.queue = p.sched.queue ∧
          v.sched.lanes = p.sched.lanes ∧ v.supply.rail = p.supply.rail ∧ v.resetUnit = p.resetUnit)
        · intro _; exact ⟨rfl, rfl, rfl, rfl, rfl⟩
        · intro _ u q e
          have := hwork _ _ _ _ e
          subst this
          exact ⟨rfl, rfl, rfl, rfl, rfl⟩
        · intro _ o q _; exact ⟨rfl, rfl, rfl, rfl, rfl⟩
      obtain ⟨k1, k2, k3, k4, k5⟩ := k
      have hpc : ∀ u : State, u.sched.state = .halted ∨ u.sched.state = .holding → u.powerCondition = false := by
        intro u hu
        unfold State.powerCondition State.mayAdmit
        rcases hu with hu | hu <;> simp [hu]
      have hst : p.sched.state = .halted ∨ p.sched.state = .holding := by rw [e1]; exact m1
      have hpr : p.inRun = true := by
        refine inRun_iff.2 ⟨?_, receive_power m.arrived s (inRun_iff.1 hr).2⟩
        unfold State.stepsRun; rw [e3]; exact (inRun_iff.1 hr).1
      refine E.hibernate _ _ ?_ (by rw [k1]; exact m1) (by rw [k2]; exact m2) (by rw [k3]; exact m3)
        (by rw [k4]; exact m4) (by simpa using hi) ?_
      · unfold State.stepsRun; rw [k5]; exact (inRun_iff.1 hr).1
      · apply commandStep_elim (fun v => v.sched.powerRequest = false)
        · intro h0; rw [hpr] at h0; cases h0
        · intro _ u q e
          have := hwork _ _ _ _ e
          subst this
          simp only [finishCommand, endStep]
          rw [hpc _ (by exact hst), Bool.and_false]
        · intro _ o q _
          simp only [finishCommand, endStep]
          rw [hpc _ (by exact hst), Bool.and_false]
    · exact C.trans r0 r1
  · exact C.refl s

/-! ### Every command, every step -/

/-- A relation kept by every elementary update is kept by every command. -/
theorem exec_rel (C : CommandUpdates R) (E : EventUpdates R) (i : Instr) (h : exec i s = .next t) : R s t := by
  cases i with
  | transaction _ _ => exact execTransaction_rel C E h
  | fetch _ _ _ _ => exact execFetch_rel C E h
  | nop => exact execNop_rel C h
  | guard _ => exact execGuard_rel C h
  | softReset => exact execSoftReset_rel C E h
  | setParameter _ _ => exact execSetParameter_rel C h
  | getParameter _ => exact execGetParameter_rel C E h
  | acknowledgeEvents _ => exact execAcknowledgeEvents_rel C E h
  | readJournal _ => exact execReadJournal_rel C h
  | clearJournal => exact execClearJournal_rel C h
  | setGeometry _ _ => exact execSetGeometry_rel C h
  | setWindow _ _ _ _ => exact execSetWindow_rel C h
  | setCursor _ _ => exact execSetCursor_rel C h
  | setScan _ => exact execSetScan_rel C h
  | setPixelOp _ _ => exact execSetPixelOp_rel C h
  | writePixels _ => exact execWritePixels_rel C h
  | readPixels _ _ => exact execReadPixels_rel C h
  | fillWindow _ => exact execFillWindow_rel C h
  | readUncertainMap => exact execReadUncertainMap_rel C h
  | markUncertain _ _ _ _ => exact execMarkUncertain_rel C h
  | defineTile _ _ _ _ => exact execDefineTile_rel C h
  | loadTileData _ _ _ => exact execLoadTileData_rel C h
  | placeTile _ _ _ _ _ => exact execPlaceTile_rel C h
  | releaseTile _ => exact execReleaseTile_rel C h
  | loadWaveformData _ _ => exact execLoadWaveformData_rel C h
  | sealWaveform => exact execSealWaveform_rel C h
  | unsealWaveform => exact execUnsealWaveform_rel C h
  | submitJob _ _ _ _ _ _ => exact execSubmitJob_rel C h
  | cancelJob _ => exact execCancelJob_rel C h
  | abortJob _ => exact execAbortJob_rel C h
  | flushQueue => exact execFlushQueue_rel C h
  | startScheduler => exact execStartScheduler_rel C h
  | haltScheduler => exact execHaltScheduler_rel C h
  | clearHold => exact execClearHold_rel C h
  | queryJob _ => exact execQueryJob_rel C h
  | railsOn => exact execRailsOn_rel C h
  | railsOff => exact execRailsOff_rel C h
  | sampleTemperature _ => exact execSampleTemperature_rel C h
  | armWatchdog _ _ => exact execArmWatchdog_rel C h
  | feedWatchdog => exact execFeedWatchdog_rel C h
  | disarmWatchdog => exact execDisarmWatchdog_rel C h
  | enterHibernate _ => exact execEnterHibernate_rel C E h
  | railGood => exact execRailGood_rel C E h
  | railLost => exact execRailLost_rel C E h
  | overcurrent => exact execOvercurrent_rel C E h
  | drainDone => exact execDrainDone_rel C E h
  | tick _ => exact execTick_rel C E h
  | powerRequestRamp => exact execPowerRequestRamp_rel C E h
  | rampTimeout => exact execRampTimeout_rel C E h
  | railHoldExpiry => exact execRailHoldExpiry_rel C E h
  | drainSlow => exact execDrainSlow_rel C E h
  | periodicSample _ => exact execPeriodicSample_rel C E h
  | wakeTimerExpiry => exact execWakeTimerExpiry_rel C E h
  | watchdogExpiry => exact execWatchdogExpiry_rel C E h
  | wakeEdge => exact execWakeEdge_rel C E h
  | oscillatorStable => exact execOscillatorStable_rel E h
  | woke => exact execWoke_rel C E h
  | frameBoundary => exact execFrameBoundary_rel C E h
  | phaseAdvance _ => exact execPhaseAdvance_rel C E h
  | completed _ => exact execCompleted_rel C E h
  | aborted _ _ => exact execAborted_rel C E h
  | quiesceToHalted => exact execQuiesceToHalted_rel C E h
  | parkingToHolding => exact execParkingToHolding_rel C E h
  | activated => exact execActivated_rel C E h
  | por => exact execPor_rel E h
  | pinReset _ => exact execPinReset_rel C E h
  | resetDone _ _ => exact execResetDone_rel C E h

/-- A relation kept by every elementary update is kept by every step of the block. -/
theorem step_rel (C : CommandUpdates R) (E : EventUpdates R) (h : step s = .next t) : R s t := by
  unfold step at h
  split at h
  · exact C.trans (E.queue s _) (exec_rel C E _ h)
  · unfold idleStep at h
    split at h
    · next e =>
      refine C.trans ?_ (exec_rel C E _ h)
      exact arbiterStarts_elim (fun _ u => R s u) (fun a hr hn => E.started s _ _ a hr hn)
        (fun _ _ _ _ _ => E.free s _) e
    · cases h; exact C.refl s

end

end Sys2Proof.Laws
end

