-- ==== Sys2Proof/Laws/Lists.lean ====
section
/-! SUPPORT. Laws/Lists.lean: lists indexed from 0, the tile directory, the uncertain map, the journal. -/

namespace Sys2Proof.Laws
open Sys2Proof Sys2Proof.Machine

@[simp] theorem mapFrom_length {α β : Type} (f : Nat → α → β) (l : List α) : ∀ k, (mapFrom f k l).length = l.length := by
  induction l with
  | nil => intro k; rfl
  | cons x l ih => intro k; simp [mapFrom, ih]

theorem mapFrom_getElem? {α β : Type} (f : Nat → α → β) (l : List α) : ∀ k i,
    (mapFrom f k l)[i]? = l[i]?.map (f (k + i)) := by
  induction l with
  | nil => intro k i; simp [mapFrom]
  | cons x l ih =>
    intro k i
    cases i with
    | zero => simp [mapFrom]
    | succ i =>
      simp only [mapFrom, List.getElem?_cons_succ, ih]
      congr 2; omega

@[simp] theorem markTouched_length (cols : Nat) (r : Rect) (m : List Bool) : (markTouched cols r m).length = m.length :=
  mapFrom_length _ _ _

@[simp] theorem clearCovered_length (cols : Nat) (r : Rect) (m : List Bool) :
    (clearCovered cols r m).length = m.length := mapFrom_length _ _ _

/-- A cell's mark after a rectangle's cells are marked (R117). -/
theorem markTouched_get (cols : Nat) (r : Rect) (m : List Bool) (i : Nat) :
    (markTouched cols r m)[i]? = m[i]?.map fun b => b || r.touches (i % cols) (i / cols) := by
  simp [markTouched, mapFrom_getElem?]

/-- A cell's mark after a completion's covered cells are cleared (R109). -/
theorem clearCovered_get (cols : Nat) (r : Rect) (m : List Bool) (i : Nat) :
    (clearCovered cols r m)[i]? = m[i]?.map fun b => b && !r.covers (i % cols) (i / cols) := by
  simp [clearCovered, mapFrom_getElem?]

/-- A slot after Define Tile (R67). -/
theorem defineSlots_get (k : Nat) (new : Tile) (slots : List (Option Tile)) (i : Nat) :
    (defineSlots k new slots)[i]? =
      slots[i]?.map fun o => if i = k then some new else if evicted k new i o then none else o := by
  simp [defineSlots, mapFrom_getElem?]

/-- Two tiles share a byte exactly when their ranges meet (R64). -/
theorem shares_iff {a b : Tile} (ha : 0 < a.size) (hb : 0 < b.size) : a.shares b = true ↔
    ∃ n, (a.base ≤ n ∧ n < a.base + a.size) ∧ (b.base ≤ n ∧ n < b.base + b.size) := by
  simp only [Tile.shares, Bool.and_eq_true, decide_eq_true_eq]
  constructor
  · intro h
    by_cases hab : a.base ≤ b.base
    · exact ⟨b.base, by omega, by omega⟩
    · exact ⟨a.base, by omega, by omega⟩
  · rintro ⟨n, h1, h2⟩; omega

/-! ### The journal -/

/-- Everything a record can do: it joins the tail with the counter's number, or, with the journal full, it is discarded,
counted and flagged (R153, R155). -/
theorem record_cases (e : Events) (c : RecordCode) (k : Byte) (d : Word) :
    (e.journal.length < 16 ∧ e.record c k d =
        { e with journal := e.journal ++ [⟨e.nextSeq, c, k, d⟩], nextSeq := e.nextSeq + 1#8 }) ∨
      (16 ≤ e.journal.length ∧ e.record c k d =
        { e with lost := satInc e.lost, flags := e.flags ||| EventFlag.journalLost.mask }) := by
  unfold Events.record Config.journalSize
  split
  · next h => exact .inl ⟨h, rfl⟩
  · next h => exact .inr ⟨by omega, rfl⟩

@[simp] theorem raise_journal (e : Events) (f : EventFlag) : (e.raise f).journal = e.journal := rfl
@[simp] theorem raise_nextSeq (e : Events) (f : EventFlag) : (e.raise f).nextSeq = e.nextSeq := rfl
@[simp] theorem raise_lost (e : Events) (f : EventFlag) : (e.raise f).lost = e.lost := rfl
@[simp] theorem raise_flags (e : Events) (f : EventFlag) : (e.raise f).flags = e.flags ||| f.mask := rfl
@[simp] theorem raiseIf_journal (e : Events) (b : Bool) (f : EventFlag) : (e.raiseIf b f).journal = e.journal := by
  cases b <;> rfl
@[simp] theorem raiseIf_nextSeq (e : Events) (b : Bool) (f : EventFlag) : (e.raiseIf b f).nextSeq = e.nextSeq := by
  cases b <;> rfl
@[simp] theorem raiseIf_lost (e : Events) (b : Bool) (f : EventFlag) : (e.raiseIf b f).lost = e.lost := by
  cases b <;> rfl
@[simp] theorem acknowledge_journal (e : Events) (m : Word) : (e.acknowledge m).journal = e.journal := rfl
@[simp] theorem acknowledge_nextSeq (e : Events) (m : Word) : (e.acknowledge m).nextSeq = e.nextSeq := rfl
@[simp] theorem acknowledge_lost (e : Events) (m : Word) : (e.acknowledge m).lost = e.lost := rfl

/-- A relation on the event unit kept by every record and every raised flag is kept by every composite of them. -/
structure EventsRel (Q : Events → Events → Prop) : Prop where
  refl : ∀ e, Q e e
  trans : ∀ {a b c}, Q a b → Q b c → Q a c
  raise : ∀ e f, Q e (e.raise f)
  record : ∀ e c k d, Q e (e.record c k d)

section
variable {Q : Events → Events → Prop}

theorem EventsRel.raiseIf (H : EventsRel Q) (e : Events) (b : Bool) (f : EventFlag) : Q e (e.raiseIf b f) := by
  cases b
  · exact H.refl e
  · exact H.raise e f

theorem EventsRel.cancelled (H : EventsRel Q) (r : Word) (l : List Job) : ∀ e, Q e (recordCancelled r l e) := by
  induction l with
  | nil => intro e; exact H.refl e
  | cons j l ih => intro e; exact H.trans (H.record e _ _ _) (ih _)

theorem EventsRel.rejected (H : EventsRel Q) (l : List Job) : ∀ e,
    Q e (l.foldl (fun e j => (e.record .rejected j.ticket (wordOf j.mode)).raise .jobFail) e) := by
  induction l with
  | nil => intro e; exact H.refl e
  | cons j l ih => intro e; exact H.trans (H.record e _ _ _) (H.trans (H.raise _ _) (ih _))

theorem EventsRel.superseded (H : EventsRel Q) (w : Word) (l : List Job) : ∀ e,
    Q e (l.foldl (fun e j => e.record .superseded j.ticket w) e) := by
  induction l with
  | nil => intro e; exact H.refl e
  | cons j l ih => intro e; exact H.trans (H.record e _ _ _) (ih _)

theorem EventsRel.transitions (H : EventsRel Q) (a b : TempMonitor) (e : Events) : Q e (tempTransitions a b e) := by
  unfold tempTransitions
  dsimp only
  split
  · exact H.trans (H.raiseIf e _ _) (H.trans (H.raise _ _) (H.record _ _ _ _))
  · exact H.raiseIf e _ _

theorem EventsRel.aborted (H : EventsRel Q) (c : AbortCause) (k : Byte) (e : Events) : Q e (abortEvents c k e) := by
  cases c
  · exact H.trans (H.record e _ _ _) (H.raise _ _)
  · exact H.trans (H.record e _ _ _) (H.raise _ _)
  · exact H.refl e

theorem EventsRel.abortLane (H : EventsRel Q) (c : AbortCause) (k : Fin 4) (u : State) :
    Q u.events (abortLane c k u).events := by
  unfold Machine.abortLane
  split
  · exact H.refl _
  · exact H.aborted _ _ _

theorem EventsRel.abortAll (H : EventsRel Q) (c : AbortCause) (u : State) : Q u.events (abortAll c u).events := by
  simp only [Machine.abortAll, laneOrder, List.foldl_cons, List.foldl_nil]
  exact H.trans (H.abortLane _ _ _) (H.trans (H.abortLane _ _ _) (H.trans (H.abortLane _ _ _) (H.abortLane _ _ _)))

theorem EventsRel.enterFault (H : EventsRel Q) (f : FaultKind) (u : State) : Q u.events (enterFault f u).events := by
  unfold Machine.enterFault
  dsimp only
  rw [setSched_events]
  refine H.trans ?_ (H.abortAll .fault _)
  exact H.trans (H.record u.events _ _ _) (H.raise _ _)

theorem EventsRel.activate (H : EventsRel Q) (j : Job) (k : Fin 4) (u : State) : Q u.events (activate j k u).events := by
  unfold Machine.activate
  split
  · exact H.record _ _ _ _
  · exact H.refl _

theorem EventsRel.complete (H : EventsRel Q) (t : Snapshot) (k : Fin 4) (a : ActiveJob) (u : State) :
    Q u.events (completeJob t k a u).events := H.trans (H.record u.events _ _ _) (H.raiseIf _ _ _)

theorem EventsRel.advanceLane (H : EventsRel Q) (t : Snapshot) (k : Fin 4) (u : State) :
    Q u.events (advanceLane t k u).events := by
  unfold Machine.advanceLane
  dsimp only
  split
  · exact H.refl _
  · split
    · exact H.complete _ _ _ _
    · split
      · exact H.abortLane .host k (setLane k _ u)
      · exact H.refl _

theorem EventsRel.watchdog (H : EventsRel Q) (u : State) : Q u.events (expireWatchdog u).events := by
  unfold expireWatchdog
  split
  · exact H.trans (H.record u.events _ _ _) (H.raise _ _)
  · exact H.trans (H.trans (H.record u.events _ _ _) (H.raise _ _)) (H.cancelled _ _ _)
  · exact H.trans (H.record u.events _ _ _) (H.raise _ _)

end

end Sys2Proof.Laws
end

