-- ==== Sys2Proof/Laws/Memory.lean ====
section
/-! SUPPORT. Laws/Memory.lean: an addressed memory reads what was last written, every other address reads as before, and every
operation keeps the canonical form. -/

namespace Sys2Proof.Laws
open Sys2Proof.Machine

variable {w : Nat} {d : BitVec w}

@[simp] theorem read_nil (a : Nat) : Memory.read d ([] : Memory w) a = d := rfl

/-- Reading after writing the same address. -/
theorem read_write_self (m : Memory w) (a : Nat) (v : BitVec w) (hm : Memory.wf d m = true) :
    Memory.read d (Memory.write d m a v) a = v := by
  induction m with
  | nil => by_cases hv : v = d <;> simp [Memory.write, Memory.read, hv]
  | cons p m ih =>
    obtain ⟨b, u⟩ := p
    simp only [Memory.wf, Bool.and_eq_true, decide_eq_true_eq, List.all_eq_true] at hm
    obtain ⟨⟨-, hlt⟩, hm⟩ := hm
    have above : ∀ (m' : Memory w), (∀ p ∈ m', a < p.1) → Memory.read d m' a = d := by
      intro m'
      induction m' with
      | nil => intro _; rfl
      | cons q m' ih' =>
        intro h
        have h1 := h q (by simp)
        simp only [Memory.read]
        rw [if_neg (by omega)]
        exact ih' fun p hp => h p (by simp [hp])
    by_cases h1 : a < b
    · by_cases hv : v = d
      · simp only [Memory.write, h1, hv, if_true, Memory.read]
        rw [if_neg (by omega)]
        exact above m fun p hp => by have := hlt p hp; omega
      · simp [Memory.write, h1, hv, Memory.read]
    · by_cases h2 : a = b
      · subst h2
        by_cases hv : v = d
        · simp only [Memory.write, Nat.lt_irrefl, hv, if_true, if_false]
          exact above m hlt
        · simp [Memory.write, hv, Memory.read]
      · simp [Memory.write, h1, h2, Memory.read, ih hm]

/-- Reading any other address after a write. -/
theorem read_write_other (m : Memory w) (a c : Nat) (v : BitVec w) (hc : c ≠ a) (hm : Memory.wf d m = true) :
    Memory.read d (Memory.write d m a v) c = Memory.read d m c := by
  induction m with
  | nil => by_cases hv : v = d <;> simp [Memory.write, Memory.read, hv, hc]
  | cons p m ih =>
    obtain ⟨b, u⟩ := p
    simp only [Memory.wf, Bool.and_eq_true, decide_eq_true_eq, List.all_eq_true] at hm
    obtain ⟨⟨-, hlt⟩, hm⟩ := hm
    by_cases h1 : a < b
    · by_cases hv : v = d <;> simp [Memory.write, h1, hv, Memory.read, hc]
    · by_cases h2 : a = b
      · subst h2
        by_cases hv : v = d
        · simp [Memory.write, hv, Memory.read, hc]
        · simp [Memory.write, hv, Memory.read, hc]
      · simp [Memory.write, h1, h2, Memory.read, ih hm]

/-- The pairs of a written memory: the new one, or one that was there. -/
theorem mem_write {m : Memory w} {a : Nat} {v : BitVec w} {p : Nat × BitVec w} (h : p ∈ Memory.write d m a v) :
    p.1 = a ∨ p ∈ m := by
  induction m with
  | nil =>
    by_cases hv : v = d <;> simp_all [Memory.write]
  | cons q m ih =>
    obtain ⟨b, u⟩ := q
    simp only [Memory.write] at h
    split at h
    · split at h
      · exact .inr h
      · rcases List.mem_cons.1 h with h | h
        · exact .inl (by simp [h])
        · exact .inr h
    · split at h
      · split at h
        · exact .inr (by simp [h])
        · rcases List.mem_cons.1 h with h | h
          · exact .inl (by simp [h])
          · exact .inr (by simp [h])
      · rcases List.mem_cons.1 h with h | h
        · exact .inr (by simp [h])
        · rcases ih h with h | h
          · exact .inl h
          · exact .inr (by simp [h])

/-- A write keeps the canonical form. -/
theorem wf_write {m : Memory w} (a : Nat) (v : BitVec w) (hm : Memory.wf d m = true) :
    Memory.wf d (Memory.write d m a v) = true := by
  induction m with
  | nil => by_cases hv : v = d <;> simp [Memory.write, Memory.wf, hv]
  | cons p m ih =>
    obtain ⟨b, u⟩ := p
    have hm' := hm
    simp only [Memory.wf, Bool.and_eq_true, decide_eq_true_eq, List.all_eq_true] at hm
    obtain ⟨⟨hu, hlt⟩, hm⟩ := hm
    by_cases h1 : a < b
    · by_cases hv : v = d
      · simpa [Memory.write, h1, hv] using hm'
      · simp only [Memory.write, h1, hv, if_true, if_false]
        simp only [Memory.wf, Bool.and_eq_true, decide_eq_true_eq, List.all_eq_true]
        refine ⟨⟨hv, ?_⟩, ⟨hu, hlt⟩, hm⟩
        intro p hp
        rcases List.mem_cons.1 hp with rfl | hp
        · exact h1
        · exact Nat.lt_trans h1 (hlt p hp)
    · by_cases h2 : a = b
      · subst h2
        by_cases hv : v = d
        · simpa [Memory.write, hv] using hm
        · simp only [Memory.write, Nat.lt_irrefl, hv, if_true, if_false]
          simp only [Memory.wf, Bool.and_eq_true, decide_eq_true_eq, List.all_eq_true]
          exact ⟨⟨hv, hlt⟩, hm⟩
      · simp only [Memory.write, h1, h2, if_false]
        simp only [Memory.wf, Bool.and_eq_true, decide_eq_true_eq, List.all_eq_true]
        refine ⟨⟨hu, ?_⟩, ih hm⟩
        intro p hp
        rcases mem_write hp with h | h
        · omega
        · exact hlt p h

/-- A run of writes keeps the canonical form. -/
theorem wf_writeRun (data : List (BitVec w)) : ∀ (m : Memory w) (a : Nat), Memory.wf d m = true →
    Memory.wf d (Memory.writeRun d m a data) = true := by
  induction data with
  | nil => intro m a h; exact h
  | cons v vs ih => intro m a h; exact ih _ _ (wf_write a v h)

/-- What an address reads after a run of writes from address `a`. -/
theorem read_writeRun (data : List (BitVec w)) : ∀ (m : Memory w) (a c : Nat), Memory.wf d m = true →
    Memory.read d (Memory.writeRun d m a data) c =
      if a ≤ c ∧ c < a + data.length then data.getD (c - a) d else Memory.read d m c := by
  induction data with
  | nil => intro m a c _; simp only [Memory.writeRun, List.length_nil]; rw [if_neg (by omega)]
  | cons v vs ih =>
    intro m a c hm
    simp only [Memory.writeRun, List.length_cons]
    rw [ih _ _ _ (wf_write a v hm)]
    by_cases h1 : c = a
    · subst h1
      rw [if_neg (by omega), if_pos (by omega), read_write_self m _ _ hm]
      simp
    · by_cases h2 : a + 1 ≤ c ∧ c < a + 1 + vs.length
      · rw [if_pos h2, if_pos (by omega)]
        obtain ⟨k, rfl⟩ : ∃ k, c = a + 1 + k := ⟨c - (a + 1), by omega⟩
        have e1 : a + 1 + k - (a + 1) = k := by omega
        have e2 : a + 1 + k - a = k + 1 := by omega
        rw [e1, e2]; simp
      · rw [if_neg h2, if_neg (by omega), read_write_other m _ _ _ h1 hm]

/-- A pixel's write keeps the canonical form of its plane. -/
theorem wf_set {p : Plane} (x y : Nat) (v : Level) (h : Memory.wf Config.porLevel p = true) :
    Memory.wf Config.porLevel (Plane.set p x y v) = true := wf_write _ _ h

/-- A painted plane keeps the canonical form. -/
theorem wf_paint (f : Nat → Nat → Level) (l : List (Nat × Nat)) : ∀ (p : Plane),
    Memory.wf Config.porLevel p = true → Memory.wf Config.porLevel (Plane.paint f p l) = true := by
  induction l with
  | nil => intro p h; exact h
  | cons xy l ih => intro p h; exact ih _ (wf_set xy.1 xy.2 _ h)

/-- Distinct pixels stand at distinct addresses (R42). -/
theorem pixelAddr_inj {x y x' y' : Nat} (hx : x < 480) (hx' : x' < 480) (h : pixelAddr x y = pixelAddr x' y') :
    x = x' ∧ y = y' := by
  simp only [pixelAddr, Config.planeWidth] at h
  omega

/-- A pixel just written. -/
theorem get_set_self {p : Plane} (x y : Nat) (v : Level) (h : Memory.wf Config.porLevel p = true) :
    Plane.get (Plane.set p x y v) x y = v := read_write_self _ _ _ h

/-- Any other pixel. -/
theorem get_set_other {p : Plane} {x y x' y' : Nat} (v : Level) (hx : x < 480) (hx' : x' < 480)
    (hne : (x', y') ≠ (x, y)) (h : Memory.wf Config.porLevel p = true) :
    Plane.get (Plane.set p x y v) x' y' = Plane.get p x' y' := by
  refine read_write_other _ _ _ _ (fun e => hne ?_) h
  obtain ⟨rfl, rfl⟩ := pixelAddr_inj hx' hx e
  rfl

/-- A pixel of a painted plane. -/
theorem get_paint (f : Nat → Nat → Level) (l : List (Nat × Nat)) : ∀ (p : Plane) (x y : Nat),
    Memory.wf Config.porLevel p = true → (∀ q ∈ l, q.1 < 480) → x < 480 →
    Plane.get (Plane.paint f p l) x y = if (x, y) ∈ l then f x y else Plane.get p x y := by
  induction l with
  | nil => intro p x y _ _ _; simp [Plane.paint]
  | cons q l ih =>
    intro p x y hp hl hx
    obtain ⟨qx, qy⟩ := q
    have hq : qx < 480 := hl (qx, qy) (by simp)
    simp only [Plane.paint]
    rw [ih _ x y (wf_set _ _ _ hp) (fun r hr => hl r (by simp [hr])) hx]
    by_cases h1 : (x, y) ∈ l
    · simp [h1]
    · by_cases h2 : (x, y) = (qx, qy)
      · cases h2
        rw [if_neg h1, if_pos (by simp), get_set_self _ _ _ hp]
      · rw [if_neg h1, get_set_other _ hq hx h2 hp, if_neg]
        simp only [List.mem_cons, not_or]
        exact ⟨h2, h1⟩

end Sys2Proof.Laws
end

