-- ==== Sys2Proof/Laws/PerInstr.lean ====
section
/-! SUPPORT. Laws/PerInstr.lean: for each command, that the intake entry it travels in is one the link lets through. -/

namespace Sys2Proof.Laws.EntryAllowed

/-- If the command travels in an intake entry and is well formed, the entry is none of a Fetch, and its opcode is
known and allows its payload length (R8, R10, R30). -/
def Statement (i : Instr) : Prop :=
  i.wf = true → ∀ e, encodeEntry i = some e →
    e.opcode ≠ fetchOpcode ∧ allowedLength e.opcode e.payload.length = true

/-- Opcode 00H alone is Fetch (R17). -/
theorem notFetch {b : Byte} (h : Nat.ble 1 b.toNat = true) : b ≠ fetchOpcode := by
  rintro rfl; cases h

theorem transaction (bytes : List Byte) (edge : CsEdge) : Statement (.transaction bytes edge) :=
  fun _ e he => by cases he <;> exact ⟨notFetch rfl, rfl⟩

theorem fetch (addr len check : Byte) (readout : Option Nat) : Statement (.fetch addr len check readout) :=
  fun _ e he => by cases he <;> exact ⟨notFetch rfl, rfl⟩

theorem nop : Statement .nop :=
  fun _ e he => by cases he <;> exact ⟨notFetch rfl, rfl⟩

theorem guard (key : Byte) : Statement (.guard key) :=
  fun _ e he => by cases he <;> exact ⟨notFetch rfl, rfl⟩

theorem softReset : Statement .softReset :=
  fun _ e he => by cases he <;> exact ⟨notFetch rfl, rfl⟩

theorem setParameter (number : Byte) (value : Word) : Statement (.setParameter number value) :=
  fun _ e he => by cases he <;> exact ⟨notFetch rfl, rfl⟩

theorem getParameter (number : Amid Byte) : Statement (.getParameter number) :=
  fun _ e he => by cases he <;> exact ⟨notFetch rfl, rfl⟩

theorem acknowledgeEvents (mask : Amid Word) : Statement (.acknowledgeEvents mask) :=
  fun _ e he => by cases he <;> exact ⟨notFetch rfl, rfl⟩

theorem readJournal (count : Byte) : Statement (.readJournal count) :=
  fun _ e he => by cases he <;> exact ⟨notFetch rfl, rfl⟩

theorem clearJournal : Statement .clearJournal :=
  fun _ e he => by cases he <;> exact ⟨notFetch rfl, rfl⟩

theorem setGeometry (width height : Word) : Statement (.setGeometry width height) :=
  fun _ e he => by cases he <;> exact ⟨notFetch rfl, rfl⟩

theorem setWindow (xs ys xe ye : Word) : Statement (.setWindow xs ys xe ye) :=
  fun _ e he => by cases he <;> exact ⟨notFetch rfl, rfl⟩

theorem setCursor (x y : Word) : Statement (.setCursor x y) :=
  fun _ e he => by cases he <;> exact ⟨notFetch rfl, rfl⟩

theorem setScan (code : Byte) : Statement (.setScan code) :=
  fun _ e he => by cases he <;> exact ⟨notFetch rfl, rfl⟩

theorem setPixelOp (op key : Byte) : Statement (.setPixelOp op key) :=
  fun _ e he => by cases he <;> exact ⟨notFetch rfl, rfl⟩

theorem writePixels (data : List Byte) : Statement (.writePixels data) := by
  intro hw e he
  cases he
  simp only [Instr.wf, dataLengthOk, Bool.and_eq_true, decide_eq_true_eq] at hw
  refine ⟨notFetch rfl, ?_⟩
  simp [allowedLength, payloadLengths, wordBytes]
  omega

theorem readPixels (plane count : Byte) : Statement (.readPixels plane count) :=
  fun _ e he => by cases he <;> exact ⟨notFetch rfl, rfl⟩

theorem fillWindow (level : Byte) : Statement (.fillWindow level) :=
  fun _ e he => by cases he <;> exact ⟨notFetch rfl, rfl⟩

theorem readUncertainMap : Statement .readUncertainMap :=
  fun _ e he => by cases he <;> exact ⟨notFetch rfl, rfl⟩

theorem markUncertain (xs ys xe ye : Word) : Statement (.markUncertain xs ys xe ye) :=
  fun _ e he => by cases he <;> exact ⟨notFetch rfl, rfl⟩

theorem defineTile (slot width height : Byte) (base : Word) : Statement (.defineTile slot width height base) :=
  fun _ e he => by cases he <;> exact ⟨notFetch rfl, rfl⟩

theorem loadTileData (slot : Byte) (offset : Word) (data : List Byte) : Statement (.loadTileData slot offset data) := by
  intro hw e he
  cases he
  simp only [Instr.wf, dataLengthOk, Bool.and_eq_true, decide_eq_true_eq] at hw
  refine ⟨notFetch rfl, ?_⟩
  simp [allowedLength, payloadLengths, wordBytes]
  omega

theorem placeTile (slot : Byte) (x y : Word) (op key : Byte) : Statement (.placeTile slot x y op key) :=
  fun _ e he => by cases he <;> exact ⟨notFetch rfl, rfl⟩

theorem releaseTile (slot : Byte) : Statement (.releaseTile slot) :=
  fun _ e he => by cases he <;> exact ⟨notFetch rfl, rfl⟩

theorem loadWaveformData (offset : Word) (data : List Byte) : Statement (.loadWaveformData offset data) := by
  intro hw e he
  cases he
  simp only [Instr.wf, dataLengthOk, Bool.and_eq_true, decide_eq_true_eq] at hw
  refine ⟨notFetch rfl, ?_⟩
  simp [allowedLength, payloadLengths, wordBytes]
  omega

theorem sealWaveform : Statement .sealWaveform :=
  fun _ e he => by cases he <;> exact ⟨notFetch rfl, rfl⟩

theorem unsealWaveform : Statement .unsealWaveform :=
  fun _ e he => by cases he <;> exact ⟨notFetch rfl, rfl⟩

theorem submitJob (xs ys xe ye : Word) (mode options : Byte) : Statement (.submitJob xs ys xe ye mode options) :=
  fun _ e he => by cases he <;> exact ⟨notFetch rfl, rfl⟩

theorem cancelJob (ticket : Byte) : Statement (.cancelJob ticket) :=
  fun _ e he => by cases he <;> exact ⟨notFetch rfl, rfl⟩

theorem abortJob (ticket : Byte) : Statement (.abortJob ticket) :=
  fun _ e he => by cases he <;> exact ⟨notFetch rfl, rfl⟩

theorem flushQueue : Statement .flushQueue :=
  fun _ e he => by cases he <;> exact ⟨notFetch rfl, rfl⟩

theorem startScheduler : Statement .startScheduler :=
  fun _ e he => by cases he <;> exact ⟨notFetch rfl, rfl⟩

theorem haltScheduler : Statement .haltScheduler :=
  fun _ e he => by cases he <;> exact ⟨notFetch rfl, rfl⟩

theorem clearHold : Statement .clearHold :=
  fun _ e he => by cases he <;> exact ⟨notFetch rfl, rfl⟩

theorem queryJob (ticket : Byte) : Statement (.queryJob ticket) :=
  fun _ e he => by cases he <;> exact ⟨notFetch rfl, rfl⟩

theorem railsOn : Statement .railsOn :=
  fun _ e he => by cases he <;> exact ⟨notFetch rfl, rfl⟩

theorem railsOff : Statement .railsOff :=
  fun _ e he => by cases he <;> exact ⟨notFetch rfl, rfl⟩

theorem sampleTemperature (sensed : SensorInput) : Statement (.sampleTemperature sensed) :=
  fun _ e he => by cases he <;> exact ⟨notFetch rfl, rfl⟩

theorem armWatchdog (period : Word) (action : Byte) : Statement (.armWatchdog period action) :=
  fun _ e he => by cases he <;> exact ⟨notFetch rfl, rfl⟩

theorem feedWatchdog : Statement .feedWatchdog :=
  fun _ e he => by cases he <;> exact ⟨notFetch rfl, rfl⟩

theorem disarmWatchdog : Statement .disarmWatchdog :=
  fun _ e he => by cases he <;> exact ⟨notFetch rfl, rfl⟩

theorem enterHibernate (meanwhile : Meanwhile) : Statement (.enterHibernate meanwhile) :=
  fun _ e he => by cases he <;> exact ⟨notFetch rfl, rfl⟩

theorem railGood : Statement .railGood :=
  fun _ e he => by cases he <;> exact ⟨notFetch rfl, rfl⟩

theorem railLost : Statement .railLost :=
  fun _ e he => by cases he <;> exact ⟨notFetch rfl, rfl⟩

theorem overcurrent : Statement .overcurrent :=
  fun _ e he => by cases he <;> exact ⟨notFetch rfl, rfl⟩

theorem drainDone : Statement .drainDone :=
  fun _ e he => by cases he <;> exact ⟨notFetch rfl, rfl⟩

theorem tick (sensed : SensorInput) : Statement (.tick sensed) :=
  fun _ e he => by cases he <;> exact ⟨notFetch rfl, rfl⟩

theorem powerRequestRamp : Statement .powerRequestRamp :=
  fun _ e he => by cases he <;> exact ⟨notFetch rfl, rfl⟩

theorem rampTimeout : Statement .rampTimeout :=
  fun _ e he => by cases he <;> exact ⟨notFetch rfl, rfl⟩

theorem railHoldExpiry : Statement .railHoldExpiry :=
  fun _ e he => by cases he <;> exact ⟨notFetch rfl, rfl⟩

theorem drainSlow : Statement .drainSlow :=
  fun _ e he => by cases he <;> exact ⟨notFetch rfl, rfl⟩

theorem periodicSample (sensed : SensorInput) : Statement (.periodicSample sensed) :=
  fun _ e he => by cases he <;> exact ⟨notFetch rfl, rfl⟩

theorem wakeTimerExpiry : Statement .wakeTimerExpiry :=
  fun _ e he => by cases he <;> exact ⟨notFetch rfl, rfl⟩

theorem watchdogExpiry : Statement .watchdogExpiry :=
  fun _ e he => by cases he <;> exact ⟨notFetch rfl, rfl⟩

theorem wakeEdge : Statement .wakeEdge :=
  fun _ e he => by cases he <;> exact ⟨notFetch rfl, rfl⟩

theorem oscillatorStable : Statement .oscillatorStable :=
  fun _ e he => by cases he <;> exact ⟨notFetch rfl, rfl⟩

theorem woke : Statement .woke :=
  fun _ e he => by cases he <;> exact ⟨notFetch rfl, rfl⟩

theorem frameBoundary : Statement .frameBoundary :=
  fun _ e he => by cases he <;> exact ⟨notFetch rfl, rfl⟩

theorem phaseAdvance (lane : Fin 4) : Statement (.phaseAdvance lane) :=
  fun _ e he => by cases he <;> exact ⟨notFetch rfl, rfl⟩

theorem completed (lane : Fin 4) : Statement (.completed lane) :=
  fun _ e he => by cases he <;> exact ⟨notFetch rfl, rfl⟩

theorem aborted (lane : Fin 4) (cause : AbortCause) : Statement (.aborted lane cause) :=
  fun _ e he => by cases he <;> exact ⟨notFetch rfl, rfl⟩

theorem quiesceToHalted : Statement .quiesceToHalted :=
  fun _ e he => by cases he <;> exact ⟨notFetch rfl, rfl⟩

theorem parkingToHolding : Statement .parkingToHolding :=
  fun _ e he => by cases he <;> exact ⟨notFetch rfl, rfl⟩

theorem activated : Statement .activated :=
  fun _ e he => by cases he <;> exact ⟨notFetch rfl, rfl⟩

theorem por : Statement .por :=
  fun _ e he => by cases he <;> exact ⟨notFetch rfl, rfl⟩

theorem pinReset (cut : CutStep) : Statement (.pinReset cut) :=
  fun _ e he => by cases he <;> exact ⟨notFetch rfl, rfl⟩

theorem resetDone (resetHigh : Bool) (straps : BitVec 3) : Statement (.resetDone resetHigh straps) :=
  fun _ e he => by cases he <;> exact ⟨notFetch rfl, rfl⟩

end Sys2Proof.Laws.EntryAllowed
end

