-- ==== Sys2Proof/Laws/Planes.lean ====
section
/-! SUPPORT. Laws/Planes.lean: every operation over a plane keeps its canonical form, and what the window's cursor can do. -/

namespace Sys2Proof.Laws
open Sys2Proof Sys2Proof.Machine

theorem wf_streamPixels (l : List Level) : ∀ (w : Writer) (t : Plane) (b : Bool),
    Memory.wf Config.porLevel t = true → Memory.wf Config.porLevel (streamPixels w t b l).2.1 = true := by
  induction l with
  | nil => intro w t b h; exact h
  | cons p ps ih => intro w t b h; exact ih _ _ _ (wf_set _ _ _ h)

theorem wf_fillPixels (l : List (Nat × Nat)) : ∀ (w : Writer) (v : Level) (t : Plane),
    Memory.wf Config.porLevel t = true → Memory.wf Config.porLevel (fillPixels w v t l) = true := by
  induction l with
  | nil => intro w v t h; exact h
  | cons p ps ih => intro w v t h; exact ih _ _ _ (wf_set _ _ _ h)

theorem wf_stampPixels (o : PixelOp) (k : Level) (l : List ((Nat × Nat) × Level)) : ∀ (t : Plane),
    Memory.wf Config.porLevel t = true → Memory.wf Config.porLevel (stampPixels o k t l) = true := by
  induction l with
  | nil => intro t h; exact h
  | cons p ps ih => intro t h; exact ih _ (wf_set _ _ _ h)

theorem wf_boundaryWrites (ws : List BoundaryWrite) : ∀ im : Image,
    Memory.wf Config.porLevel im.latch = true → Memory.wf Config.porLevel im.shown = true →
    (ws.foldl applyBoundaryWrite im).target = im.target ∧
      Memory.wf Config.porLevel (ws.foldl applyBoundaryWrite im).latch = true ∧
      Memory.wf Config.porLevel (ws.foldl applyBoundaryWrite im).shown = true := by
  induction ws with
  | nil => intro im h1 h2; exact ⟨rfl, h1, h2⟩
  | cons w ws ih =>
    intro im h1 h2
    cases w with
    | shown x y v => exact ih { im with shown := Plane.set im.shown x y v } h1 (wf_set _ _ _ h2)
    | latch x y v => exact ih { im with latch := Plane.set im.latch x y v } (wf_set _ _ _ h1) h2
    | activation r => exact ih im h1 h2

/-- A window and a pixel inside it. -/
theorem origin_holds {r : Rect} {w h : Nat} (hr : r.Valid w h) (code : BitVec 3) :
    r.Holds (origin r code).1 (origin r code).2 := by
  obtain ⟨h1, h2, h3, h4⟩ := hr
  simp only [origin, startEdge, Rect.Holds]
  refine ⟨?_, ?_, ?_, ?_⟩ <;> split <;> omega

/-- The cursor never leaves the window (R49). -/
theorem advanceCursor_holds {r : Rect} {code : BitVec 3} {x y : Nat} (h : r.Holds x y) :
    r.Holds (advanceCursor r code x y).1.1 (advanceCursor r code x y).1.2 := by
  obtain ⟨h1, h2, h3, h4⟩ := h
  unfold advanceCursor moveAlong startEdge
  cases scanPrimaryY code <;> cases scanXDown code <;> cases scanYDown code <;>
    simp only [if_true, if_false, Bool.false_eq_true, Rect.Holds] <;> split <;> (try split at *) <;>
    simp_all <;> omega

theorem step_window (w : Writer) : w.step.window = w.window := rfl

/-- A stream of pixels keeps the window and leaves the cursor inside it (R57). -/
theorem streamPixels_writer (l : List Level) : ∀ (w : Writer) (t : Plane) (b : Bool),
    w.window.Holds w.cx w.cy →
    (streamPixels w t b l).1.window = w.window ∧
      w.window.Holds (streamPixels w t b l).1.cx (streamPixels w t b l).1.cy := by
  induction l with
  | nil => intro w t b h; exact ⟨rfl, h⟩
  | cons p ps ih =>
    intro w t b h
    exact ih w.step _ _ (advanceCursor_holds h)

/-- A stream read keeps the window and leaves the cursor inside it (R58). -/
theorem readStream_writer (p : Plane) (n : Nat) : ∀ (w : Writer) (b : Bool), w.window.Holds w.cx w.cy →
    (readStream p w b n).1.window = w.window ∧
      w.window.Holds (readStream p w b n).1.cx (readStream p w b n).1.cy := by
  induction n with
  | zero => intro w b h; exact ⟨rfl, h⟩
  | succ n ih =>
    intro w b h
    exact ih w.step _ (advanceCursor_holds h)

end Sys2Proof.Laws
end

