-- ==== Sys2Proof/Tests/Slice0.lean ====
section
/-! SUPPORT. Tests/Slice0.lean: the model's own tests: what WellFormed refuses, the spec's worked examples, small one-step
tests, and for every statement of Certificates/Slice0/Obligations.lean that has hypotheses a state and operands that meet
them. -/

namespace Sys2Proof.Tests
open Sys2Proof Sys2Proof.Machine Sys2Proof.Safety Sys2Proof.Claims

set_option Elab.async false

/-! ### Small states -/

/-- The state a command leaves; the state itself when it stops. -/
def after (c : Instr) (s : State) : State :=
  match exec c s with
  | .next t => t
  | .fault _ => s
  | .refused _ => s

/-- The machine after a POR with a 16 × 16 area and one cell. -/
def small : State :=
  { State.reset with
    image := { State.reset.image with width := 16, height := 16 }
    writer := { State.reset.writer with window := ⟨0, 0, 15, 15⟩ }
    sched := { State.reset.sched with marks := [true] } }

/-- The image of Table 5-6 in the RAM, bytes of 00H unlisted; its CRC, 7411H, was computed outside Lean. -/
def table56 : List Host.Cell :=
  [(0, 0x51#8), (1, 0x02#8), (2, 0x02#8), (3, 0x01#8), (5, 0x37#8), (6, 0x01#8), (7, 0x07#8), (9, 0x14#8), (10, 0x32#8),
    (12, 0x17#8), (13, 0x02#8), (15, 0x21#8), (16, 0x01#8), (18, 0x26#8), (19, 0x03#8), (21, 0x2B#8), (22, 0x02#8),
    (23, 0x0A#8), (24, 0x2A#8), (25, 0x4A#8), (26, 0x52#8), (27, 0x54#8)]
  ++ [(28, 0x02#8), (33, 0x06#8), (34, 0x2A#8), (35, 0x4A#8), (36, 0x52#8), (37, 0x54#8), (38, 0x14#8), (39, 0x55#8),
    (40, 0x55#8), (41, 0x55#8), (42, 0x55#8), (43, 0x14#8), (44, 0xAA#8), (45, 0xAA#8), (46, 0xAA#8), (47, 0xAA#8),
    (48, 0x08#8), (49, 0x54#8), (50, 0x54#8), (51, 0x54#8), (52, 0x54#8), (53, 0x74#8), (54, 0x11#8)]

/-- The snapshot of Table 5-6: two modes, two bands, recovery mode 1, bounds 0, 20, 50. -/
def snapshot56 : Snapshot := ⟨2, 2, 1, [0x01#8, 0x07#8], [0, 20, 50]⟩

/-- The small machine with Table 5-6 in its RAM, UNSEALED. -/
def loaded : State := { small with wave := ⟨table56, none⟩ }

/-- A job over the whole small area in a mode, NOTIFY set. -/
def wholeJob (ticket : Byte) (mode : Nat) : Job := ⟨ticket, ⟨0, 0, 15, 15⟩, mode, true, false⟩

/-- SEALED, RUNNING, 12 °C (band 0), rails READY, one mode 1 job queued. -/
def ready : State :=
  { small with
    wave := ⟨table56, some snapshot56⟩
    temp := ⟨some 12, some 0, false, 32⟩
    supply := { State.reset.supply with rail := .ready, holdCount := 64 }
    sched :=
      { small.sched with queue := [wholeJob 5#8 1], nextTicket := 6#8, state := .running, workMark := true } }

/-- The job of `ready` in lane 0, in a phase with so many frames remaining. -/
def laneJob (phase remaining total : Nat) : ActiveJob := ⟨wholeJob 5#8 1, 1, 0, false, phase, remaining, total, false⟩

/-- `ready` with the job ACTIVE in lane 0 instead of queued. -/
def drivingAt (a : ActiveJob) : State :=
  { ready with sched := { ready.sched with queue := [], lanes := ⟨some a, none, none, none⟩ } }

/-- In the first frame of the job (section 7.5, boundary k). -/
def driving : State := drivingAt (laneJob 0 20 0)

/-- In Hibernate, no wake in progress. -/
def asleep : State :=
  { small with
    time := { State.reset.time with power := .hibernate, oscRunning := false, oscStable := false } }

/-! ### WellFormed -/

theorem test_wf_refuses_empty_write : (Instr.writePixels []).wf = false := by decide +kernel
theorem test_wf_refuses_long_write : (Instr.writePixels (List.replicate 251 0#8)).wf = false := by decide +kernel
theorem test_wf_refuses_empty_tile_data : (Instr.loadTileData 0#8 0#16 []).wf = false := by decide +kernel
theorem test_wf_refuses_long_tile_data : (Instr.loadTileData 0#8 0#16 (List.replicate 248 0#8)).wf = false := by decide +kernel
theorem test_wf_refuses_empty_table_data : (Instr.loadWaveformData 0#16 []).wf = false := by decide +kernel
theorem test_wf_refuses_long_table_data : (Instr.loadWaveformData 0#16 (List.replicate 248 0#8)).wf = false := by decide +kernel
theorem test_wf_refuses_cut_of_empty_write : (Instr.pinReset (.writePixels [] 0)).wf = false := by decide +kernel
theorem test_refused_length :
    exec (.writePixels []) small = .refused .payloadLength ∧ exec (.loadTileData 0#8 0#16 []) small = .refused .payloadLength ∧
      exec (.loadWaveformData 0#16 []) small = .refused .payloadLength := ⟨rfl, rfl, rfl⟩

/-! ### Worked examples of the spec -/

/-- Table 1-5: the register after each byte of the checked Write Pixels. -/
theorem test_table_1_5 :
    (List.range 7).map (fun n => crc8 ([0x2D#8, 0x15#8, 0x02#8, 0xFF#8, 0x00#8, 0xB8#8].take n)) =
      [0x00#8, 0xC3#8, 0x2C#8, 0xCA#8, 0x8B#8, 0xB8#8, 0x00#8] := by decide +kernel

/-- Section 5.9.1: CRC-16 over "123456789". -/
theorem test_crc16_check_value :
    crc16 [0x31#8, 0x32#8, 0x33#8, 0x34#8, 0x35#8, 0x36#8, 0x37#8, 0x38#8, 0x39#8] = 0x29B1#16 := by decide +kernel

/-- Section 1.9.1: the transaction is accepted, and with one bit of byte 4 corrupted it is discarded with CHECK. -/
theorem test_checked_write_pixels :
    (after (.transaction [0x2D#8, 0x15#8, 0x02#8, 0xFF#8, 0x00#8, 0xB8#8] ⟨false, false⟩) small).link.intake =
        [⟨0x15#8, [0xFF#8, 0x00#8]⟩] ∧
      (after (.transaction [0x2D#8, 0x15#8, 0x02#8, 0xFE#8, 0x00#8, 0xB8#8] ⟨false, false⟩) small).link.lastResult =
        .check := by
  decide +kernel

/-- R19: the first Fetch after a reset reads C0H. -/
theorem test_first_fetch : (after (.fetch 0x25#8 0x00#8 0x00#8 (some 1)) small).link.fetchOut = [0xC0#8] := by decide +kernel

/-- Section 3.10.2, Table 3-4: KEY_SKIP with key 2 over levels 1, 1, 3, 3. -/
theorem test_table_3_4 :
    [(0#2, 1#2), (2#2, 1#2), (2#2, 3#2), (0#2, 3#2)].map (fun pt => applyOp .keySkip pt.1 pt.2 2#2) =
      [0#2, 1#2, 3#2, 0#2] := by decide +kernel

/-- R57: the single-pixel window, MATCH_ONLY, key 1: the pixel ends at 0 and WINDOW_WRAP is set. -/
theorem test_revisited_pixel :
    let s :=
      after (.writePixels [0x22#8])
        { small with
          image := { small.image with target := Plane.set [] 5 5 1#2 }
          writer := { small.writer with window := ⟨5, 5, 5, 5⟩, cx := 5, cy := 5, op := .matchOnly, key := 1#2 } }
    Plane.get s.image.target 5 5 = 0#2 ∧ s.events.has .windowWrap = true := by decide +kernel

/-- Section 3.10.1: the origins of the text column's window under codes 4 and 6. -/
theorem test_scan_origins :
    origin ⟨100, 40, 115, 71⟩ 4#3 = (100, 40) ∧ origin ⟨100, 40, 115, 71⟩ 6#3 = (115, 40) := by decide +kernel

/-- Section 3.10.1: (100, 71) is followed by (101, 40), and the advance from (115, 71) is a wrap to (100, 40). -/
theorem test_column_major :
    advanceCursor ⟨100, 40, 115, 71⟩ 4#3 100 71 = ((101, 40), false) ∧
      advanceCursor ⟨100, 40, 115, 71⟩ 4#3 115 71 = ((100, 40), true) := by decide +kernel

/-- Section 4.8.2: slot 4 at bytes 48..111 evicts slots 1 and 2, leaves slot 3 and sets TILE_EVICT. -/
theorem test_eviction :
    let old : List (Option Tile) := none :: some ⟨16, 16, 0⟩ :: some ⟨16, 16, 64⟩ :: some ⟨16, 16, 128⟩ :: List.replicate 12 none
    let s := after (.defineTile 4#8 32#8 8#8 48#16) { small with tiles := { small.tiles with slots := old } }
    (s.tiles.slots.take 5).map (fun o => o.map (fun t => t.base)) = [none, none, none, some 128, some 48] ∧
      s.events.has .tileEvict = true := by decide +kernel

/-- Section 4.8.1: at (−4, 310) a 12 × 20 tile has 80 placed pixels. -/
theorem test_clipped_tile : (placedPixels [] ⟨12, 20, 0⟩ (-4) 310 480 320).length = 80 := by decide +kernel

/-- Section 5.9.1: Table 5-6 passes every test, and with byte 44 mistyped as 0AH the reason is 7. -/
theorem test_table_5_6 : sealReason table56 = 0 := by decide +kernel
theorem test_table_5_6_mistyped : sealReason (Memory.write 0#8 table56 44 0x0A#8) = 7 := by decide +kernel

/-- Section 5.9.1: TABLE_STATE reads 8202H. -/
theorem test_table_state : readParam 0x24#8 (after .sealWaveform loaded) = 0x8202#16 := by decide +kernel

/-- Section 5.9.1: to-level 1 from level 3 in mode 0, band 1 is DARKEN; in mode 1, band 1 it is LIGHTEN, then DARKEN. -/
theorem test_drive_lookups :
    driveCode table56 snapshot56 0 1 0 1#2 3#2 = 1#2 ∧ driveCode table56 snapshot56 1 1 0 1#2 3#2 = 2#2 ∧
      driveCode table56 snapshot56 1 1 1 1#2 3#2 = 1#2 := by decide +kernel

/-- Table 7-3: the boundaries k + 1, k + 20 and k + 40 for lane 0. -/
theorem test_table_7_3 :
    ((after .frameBoundary driving).sched.lanes.l0.map fun a => (a.phase, a.remaining, a.total)) = some (0, 19, 1) ∧
      ((after .frameBoundary (drivingAt (laneJob 0 1 19))).sched.lanes.l0.map fun a => (a.phase, a.remaining, a.total)) =
        some (1, 20, 20) ∧
      ((after .frameBoundary (drivingAt (laneJob 1 1 39))).sched.lanes.l0.map fun a => (a.phase, a.remaining, a.total)) =
        some (2, 8, 40) := by decide +kernel

/-! ### Legal states for the witnesses -/

/-- Proves a fact about closed data by evaluation. -/
theorem small_run : small.inRun = true ∧ ready.inRun = true ∧ driving.inRun = true ∧ loaded.inRun = true := by
  decide +kernel

theorem small_memories : MemoriesCanonical small := ⟨rfl, rfl, rfl, rfl, rfl⟩
theorem ready_memories : MemoriesCanonical ready := ⟨rfl, rfl, rfl, rfl, by decide +kernel⟩
theorem driving_memories (a : ActiveJob) : MemoriesCanonical (drivingAt a) := ⟨rfl, rfl, rfl, rfl, ready_memories.ram⟩

theorem small_writer : WriterLegal small := ⟨rfl, by decide, rfl, by decide, by decide, by decide⟩
theorem ready_writer : WriterLegal ready := ⟨rfl, by decide, rfl, by decide, by decide, by decide⟩
theorem driving_writer (a : ActiveJob) : WriterLegal (drivingAt a) :=
  ⟨ready_writer.widthMultiple, ready_writer.widthRange, ready_writer.heightMultiple, ready_writer.heightRange,
    ready_writer.window, ready_writer.cursor⟩

theorem ready_table : TableSealedRight ready :=
  ⟨(fun t h => by cases h; decide +kernel), (fun _ => by decide +kernel)⟩
theorem driving_table (a : ActiveJob) : TableSealedRight (drivingAt a) := ⟨ready_table.snapshot, ready_table.valid⟩

theorem ready_jobs : JobsLegal ready :=
  ⟨by decide, by decide, (fun t h => by cases h; decide), rfl⟩
theorem driving_jobs : JobsLegal driving :=
  ⟨by decide, by decide, (fun t h => by cases h; decide), rfl⟩

theorem ready_free : ∀ k, ready.sched.lanes.get k = none := by decide

theorem ready_lanes : LanesLegal ready :=
  ⟨fun j _ _ _ _ hj => (by rw [ready_free j] at hj; cases hj), (fun h => by cases h), (fun h => by cases h),
    (fun h => by cases h)⟩

/-- Two jobs side by side, in lanes 0 and 3. -/
def twoDriving : State :=
  { driving with
    sched :=
      { driving.sched with
        lanes :=
          ⟨some { laneJob 0 20 0 with job := { wholeJob 5#8 1 with region := ⟨0, 0, 7, 15⟩ } }, none, none,
            some { laneJob 0 20 0 with job := { wholeJob 7#8 1 with region := ⟨8, 0, 15, 15⟩ } }⟩ } }

theorem twoDriving_held : ∀ k, (twoDriving.sched.lanes.get k).map (fun a => a.job.region) =
    if k = 0 then some ⟨0, 0, 7, 15⟩ else if k = 3 then some ⟨8, 0, 15, 15⟩ else none := by decide

theorem twoDriving_lanes : LanesLegal twoDriving := by
  refine ⟨fun j k a b hjk hj hk x y h => ?_, fun _ => Or.inl rfl, fun _ => ⟨rfl, rfl⟩, fun h => by cases h⟩
  have h1 := twoDriving_held j
  have h2 := twoDriving_held k
  rw [hj, Option.map_some] at h1
  rw [hk, Option.map_some] at h2
  split at h1 <;> split at h2 <;> (try split at h1) <;> (try split at h2) <;> simp_all <;>
    (simp only [Rect.Holds, h1, h2] at h; omega)

theorem ready_tickets : TicketsLegal ready := ⟨by decide, by decide, by decide, by decide⟩
theorem twoDriving_tickets : TicketsLegal twoDriving := ⟨by decide, by decide, by decide, by decide⟩

theorem ready_monitor : MonitorLegal ready :=
  ⟨(fun t h => by cases h; decide), (fun h => by cases h), rfl⟩

theorem driving_course : JobsOnCourse driving := by
  intro t k a ht hk
  cases ht
  have h : ∀ k, driving.sched.lanes.get k = if k = 0 then some (laneJob 0 20 0) else none := by decide
  rw [h k] at hk
  split at hk <;> cases hk
  exact ⟨by decide, by decide, by decide +kernel, by decide, by decide, by decide +kernel⟩

theorem asleep_hibernate : HibernateLegal asleep :=
  ⟨fun _ => ⟨Or.inl rfl, rfl, rfl, Or.inl rfl, rfl, rfl⟩, fun _ => rfl, (fun h => by cases h), (fun h => by cases h),
    fun _ => rfl, fun _ => ⟨rfl, rfl, rfl⟩⟩

theorem small_directory : DirectoryLegal small := by
  have e : small.tiles.slots = List.replicate 16 none := rfl
  refine ⟨rfl, fun t h => ?_, fun i j a b _ hi _ => ?_⟩
  · rw [e] at h
    cases List.eq_of_mem_replicate h
  · rw [e, List.getElem?_replicate] at hi
    split at hi <;> cases hi

/-! ### Witnesses: the queue and the link -/

/-- One entry of each kind the clauses need. -/
def waiting (l : List Entry) : State := { small with link := { small.link with intake := l } }

/-- A state with pending steps in the arbiter and calls that fall while the next step runs. -/
def pendingSteps (reports : List RailReport) (ticks : Nat) (boundary : Bool) (calls : List StepCall) (s : State) : State :=
  { s with arbiter := ⟨reports, ticks, boundary, [calls]⟩ }

/-- Section 2.7.1, steps 2 to 4: a tick, a frame boundary and an overcurrent report fall during a Write Pixels. -/
theorem test_calls_during_a_step :
    let calls : List StepCall := [.tick, .boundary, .reports true false false false]
    (after (.writePixels [0x00#8]) (pendingSteps [] 0 false calls driving)).arbiter = ⟨[.overcurrent], 1, true, []⟩ := by
  decide +kernel

/-- Section 2.7.1, steps 5 to 7: supply step, tick step, frame boundary step, and only then the Submit Job. -/
theorem test_arbiter_order :
    let s := waiting [⟨0x30#8, [0#8, 0#8, 0#8, 0#8, 0#8, 1#8, 0#8, 1#8, 0#8, 0#8]⟩]
    let x : SensorInput := ⟨0, none⟩
    (pendingSteps [.overcurrent] 1 true [] s).arbiter.next x = some (.overcurrent, ⟨[], 1, true, [[]]⟩) ∧
      (pendingSteps [] 1 true [] s).arbiter.next x = some (.tick x, ⟨[], 0, true, [[]]⟩) ∧
      (pendingSteps [] 0 true [] s).arbiterStarts.map (fun p => p.1) = some .frameBoundary ∧
      (pendingSteps [] 0 false [] s).arbiterStarts.map (fun p => opcodeOf p.1) = some 0x30#8 := by
  decide +kernel

/-- R27, R29: two ticks stay two, of two boundaries one step is pending, reports of one instant are ordered; in Hibernate no
boundary step is; a reset discards all. -/
theorem test_calls_and_discards :
    let calls : List StepCall := [.tick, .boundary, .reports true true true true, .tick, .boundary]
    let all : List RailReport := [.overcurrent, .railLost, .drainDone, .railGood]
    (after .nop (pendingSteps [.railGood] 0 false calls small)).arbiter = ⟨.railGood :: all, 2, true, []⟩ ∧
      (after .railLost (pendingSteps [] 0 false calls asleep)).arbiter = ⟨all, 2, false, []⟩ ∧
      (after (.pinReset .nothing) (pendingSteps all 2 true calls small)).arbiter = ⟨[], 0, false, [calls]⟩ := by
  decide +kernel

theorem test_wit_arbiter :
    (pendingSteps [.railLost] 0 true [.tick] small).pending = [] ∧ small.resetUnit.inProgress = none ∧
      NothingWaits small ∧ small.time.power = .run ∧ NothingWaits asleep ∧ asleep.time.power = .hibernate ∧
      NothingWaits (waiting [⟨0x01#8, []⟩]) ∧ (after .por small).pending = [] ∧ (after .por small).resetUnit.inProgress ≠ none :=
  ⟨rfl, rfl, ⟨rfl, rfl, rfl⟩, rfl, ⟨rfl, rfl, rfl⟩, rfl, ⟨rfl, rfl, rfl⟩, rfl, by decide +kernel⟩

theorem test_wit_empty_queue :
    small.pending = [] ∧ small.link.intake = [] ∧ asleep.pending = [] ∧ asleep.inRun = false ∧
      (waiting [⟨0x01#8, []⟩]).pending = [] ∧ (waiting [⟨0x01#8, []⟩]).inRun = true ∧
      decodeEntry (Config.freeReading 0) ⟨0x01#8, []⟩ = some .nop := by decide +kernel

theorem test_wit_intake_head :
    let s := waiting [⟨0x15#8, [0xFF#8]⟩, ⟨0x01#8, []⟩, ⟨0x01#8, []⟩, ⟨0x43#8, []⟩]
    s.pending = [] ∧ NothingWaits s ∧ s.inRun = true ∧ LinkLegal s ∧ s.link.intake.length = 4 :=
  ⟨rfl, ⟨rfl, rfl, rfl⟩, by decide +kernel, ⟨by decide, by decide +kernel, by decide, by decide, by decide, by decide⟩, rfl⟩

theorem test_wit_entries :
    (Instr.writePixels (List.replicate 250 0#8)).wf = true ∧
      encodeEntry (.writePixels [0xFF#8]) = some ⟨0x15#8, [0xFF#8]⟩ ∧
      decodeEntry ⟨0, none⟩ ⟨0x12#8, [0x01#8, 0xDF#8, 0x00#8, 0x02#8]⟩ = some (.setCursor 0x01DF#16 0x0002#16) ∧
      allowedLength 0x28#8 249 = true ∧ allowedLength 0x28#8 250 = false ∧ allowedLength 0x28#8 2 = false := by
  decide +kernel

/-- Payload layouts of Table 2-4 and of sections 1.9.2, 3.10.1, 4.8.1 and 11.6, byte by byte. -/
theorem test_entries_of_worked_sequences :
    [ (0x30#8, [0x00#8, 0x00#8, 0x00#8, 0x00#8, 0x01#8, 0xDF#8, 0x01#8, 0x3F#8, 0x01#8, 0x00#8]),
      (0x11#8, [0x00#8, 0x64#8, 0x00#8, 0x28#8, 0x00#8, 0x73#8, 0x00#8, 0x47#8]),
      (0x20#8, [0x00#8, 0x0C#8, 0x14#8, 0x00#8, 0x00#8]),
      (0x22#8, [0x00#8, 0xFF#8, 0xFC#8, 0x01#8, 0x36#8, 0x01#8, 0x03#8]),
      (0x10#8, [0x01#8, 0x90#8, 0x00#8, 0xF0#8]) ].map (fun e => decodeEntry ⟨0, none⟩ ⟨e.1, e.2⟩) =
    [ some (.submitJob 0#16 0#16 479#16 319#16 1#8 0#8), some (.setWindow 100#16 40#16 115#16 71#16),
      some (.defineTile 0#8 12#8 20#8 0#16), some (.placeTile 0#8 (-4#16) 310#16 1#8 3#8),
      some (.setGeometry 400#16 240#16) ] := by decide +kernel

/-- Each of the seven tests, and acceptance, decides for some transaction (address byte and the rest). -/
theorem test_wit_seven_tests :
    small.inRun = true ∧ small.link.openFetch = none ∧
      concerns small 0x25#8 ∧ concerns small 0xF5#8 ∧ ¬ concerns small 0x35#8 ∧
      [ (0x24#8, [0x01#8, 0x00#8]), (0x25#8, [0x01#8]), (0x25#8, [0x01#8, 0x01#8, 0x00#8]),
        (0x2D#8, [0x01#8, 0x00#8, 0x00#8]), (0xF5#8, [0x05#8, 0x01#8, 0x20#8]), (0x25#8, [0x0F#8, 0x00#8]),
        (0x25#8, [0x01#8, 0x00#8]) ].map (fun t => firstOf (linkTests small t.1 t.2 false)) =
      [some .framing, some .truncated, some .length, some .check, some .policy, some .opcode, none] ∧
      firstOf (linkTests (waiting (List.replicate 4 ⟨0x01#8, []⟩)) 0x25#8 [0x01#8, 0x00#8] false) = some .overrun ∧
      firstOf (linkTests (waiting (List.replicate 3 ⟨0x01#8, []⟩)) 0x25#8 [0x01#8, 0x00#8] false) = none :=
  ⟨by decide +kernel, rfl, Or.inl rfl, Or.inr rfl, (by unfold concerns; decide), by decide +kernel, by decide +kernel,
    by decide +kernel⟩

/-- A reset in progress. -/
def resetting : State := after (.pinReset .nothing) driving

theorem test_wit_unjudged :
    resetting.resetUnit.inProgress ≠ none ∧ small.link.openFetch = none ∧ ¬ concerns small 0x35#8 ∧
      asleep.resetUnit.inProgress = none ∧ asleep.time.power = .hibernate ∧ asleep.link.openFetch = none ∧
      concerns asleep 0x25#8 ∧ asleep.link.forgotten = false ∧ (small.setForgotten true).link.forgotten = true :=
  ⟨by decide +kernel, rfl, (by unfold concerns; decide), rfl, rfl, rfl, Or.inl rfl, rfl, rfl⟩

/-- The four header tests and a served Fetch of 4 and of 5 bytes. -/
theorem test_wit_fetch :
    small.inRun = true ∧ concerns small 0x25#8 ∧
      [ (0x24#8, 0x00#8, 0x00#8), (0x25#8, 0x01#8, 0x00#8), (0x2D#8, 0x00#8, 0x00#8), (0xF5#8, 0x00#8, 0x00#8),
        (0x25#8, 0x00#8, 0x00#8) ].map (fun t => firstOf (fetchTests small t.1 t.2.1 t.2.2)) =
      [some .framing, some .length, some .check, some .policy, none] ∧
      decide (5 + small.link.resp.payload.length ≤ 4) = false ∧ decide (5 + small.link.resp.payload.length ≤ 5) = true :=
  ⟨by decide +kernel, Or.inl rfl, by decide +kernel, by decide, by decide⟩

/-- A Fetch given as bytes, whole and with its header cut short. -/
theorem test_wit_fetch_bytes :
    small.link.forgotten = false ∧ [0x00#8, 0x00#8, 0xFF#8].head? = some 0x00#8 ∧
      (after (.transaction [0x25#8, 0x00#8, 0x00#8, 0xFF#8] ⟨false, false⟩) small).link.fetchOut = [0xC0#8] ∧
      (after (.transaction [0x25#8, 0x00#8] ⟨false, false⟩) small).link.lastResult = .truncated := by decide +kernel

/-- A Fetch in flight with each decision, and cut by Hibernate. -/
def fetching (d : Option LinkResult) (cut : Option (List Byte)) : State :=
  { small with link := { small.link with openFetch := some ⟨3, d, [0xC0#8], 5, true, cut⟩ } }

theorem test_wit_fetch_in_flight :
    (fetching (some .ok) none).inRun = true ∧ (fetching (some .length) none).inRun = true ∧
      (fetching none none).inRun = true ∧ (fetching (some .ok) (some [0xC0#8])).inRun = true ∧
      (fetching none none).link.forgotten = false := by decide +kernel

/-- R22, R25: of a served Fetch that Hibernate cuts, SDO has driven the bytes clocked by then, and the result is WOKE. -/
theorem test_fetch_cut_by_hibernate :
    let s := hibernate 1 (fetching (some .ok) none)
    let t := after (.transaction [0x25#8, 0x00#8, 0x00#8, 0x00#8, 0x00#8] ⟨false, false⟩) s
    s.sdoDriven = false ∧ t.link.fetchOut = [0xC0#8] ∧ t.link.lastResult = .woke := by decide +kernel

/-- R2, R176: the rest of a Fetch in flight when a reset began leaves no record after the reset; the next transaction is
evaluated. -/
theorem test_fetch_over_a_reset :
    let nop : List Byte := [0x25#8, 0x01#8, 0x00#8]
    let s := after (.resetDone true 2#3) (after .oscillatorStable (after (.pinReset .nothing) (fetching (some .ok) none)))
    s.link.forgotten = true ∧ (after (.transaction nop ⟨false, false⟩) s).link.intake = [] ∧
      (after (.transaction nop ⟨false, false⟩) (after (.transaction nop ⟨false, false⟩) s)).link.intake = [⟨0x01#8, []⟩] := by
  decide +kernel

/-- R15, R18, R21: a Fetch header in a Get Parameter step, after a failure that landed there, takes its snapshot from before
the step, but with the failure: ATTN set by the flag of the reset, INTAKE_EMPTY clear, LAST_LINK_RESULT OPCODE, and the old
response. The step's new response makes that Fetch outdated. -/
theorem test_fetch_header_in_a_step :
    let s := waiting [⟨0x05#8, [0x20#8]⟩]
    let t := after (.getParameter ⟨0x20#8, [.transaction [0x25#8, 0x0F#8, 0x00#8] false, .fetch 0x25#8 0#8 0#8 none]⟩) s
    t.link.openFetch.map (fun f => (f.snapshot, f.current)) =
        some ([0x80#8 ||| BitVec.ofNat 8 LinkResult.opcode.code, 0#8, 0#8, 0#8, 0#8], false) ∧
      t.link.resp.payload.length = 2 ∧ t.link.intake = [] := by decide +kernel

/-- R15: with the intake full a transaction that lands in a Get Parameter or Acknowledge Events step receives OVERRUN;
LINK_ERRORS is read from before it, and LINK_ERR stays set. -/
theorem test_landing_in_a_step :
    let nop : Arrival := .transaction [0x25#8, 0x01#8, 0x00#8] false
    let full := fun e => waiting (e :: List.replicate 3 ⟨0x01#8, []⟩)
    let g := after (.getParameter ⟨0x2D#8, [nop]⟩) (full ⟨0x05#8, [0x2D#8]⟩)
    let a := after (.acknowledgeEvents ⟨0xFFFF#16, [nop]⟩) (full ⟨0x06#8, [0xFF#8, 0xFF#8]⟩)
    g.link.resp.payload = [0x00#8, 0x00#8] ∧ g.link.linkErrors = 1 ∧ g.link.intake.length = 3 ∧
      a.events.flags = 0x0200#16 ∧ a.link.lastResult = .overrun := by decide +kernel

/-! ### Witnesses: commands, parameters, planes, tiles -/

theorem test_wit_parameter_numbers :
    ¬ Writable 0x00#8 ∧ ¬ ReadOnly 0x00#8 ∧ ¬ Writable 0x35#8 ∧ ¬ ReadOnly 0x35#8 ∧ ReadOnly 0x01#8 ∧ ReadOnly 0x34#8 ∧
      Writable 0x03#8 ∧ Writable 0x11#8 ∧ Writable 0x14#8 := by
  unfold Writable ReadOnly; decide

theorem test_wit_parameter_values :
    (¬ AllowedValue 0x03#8 19#16 ∧ AllowedValue 0x03#8 20#16) ∧ (AllowedValue 0x03#8 85#16 ∧ ¬ AllowedValue 0x03#8 86#16) ∧
      (AllowedValue 0x14#8 6#16 ∧ ¬ AllowedValue 0x14#8 7#16) ∧ AllowedValue 0x11#8 0#16 := by
  refine ⟨⟨?_, ?_⟩, ⟨?_, ?_⟩, ⟨?_, ?_⟩, ?_⟩ <;> unfold AllowedValue <;> decide

/-- The guarded case: REQUIRE_CHECK is set and the write clears it, with the latch disarmed and armed. -/
theorem test_wit_guarded :
    let s := { small with params := { small.params with linkPolicy := 1#16 } }
    s.inRun = true ∧ s.params.linkPolicy.getLsbD 0 = true ∧ (0#16).getLsbD 0 = false ∧ s.executor.guardLatch = false ∧
      (after (.guard 0xC3#8) s).executor.guardLatch = true := by decide +kernel

theorem test_wit_parameters_read :
    ready.wave.table = some snapshot56 ∧ snapshot56.modes ≤ 6 ∧ snapshot56.bands ≤ 8 ∧ small.wave.table = none ∧
      small.temp.temperature = none ∧ ready.temp.temperature = some 12 ∧ small.temp.band = none ∧
      ready.temp.band = some 0 ∧ small.time.armed = false ∧
      (after (.armWatchdog 8#16 1#8) small).time.armed = true := by decide +kernel

/-- A refused command, an accepted one and a query. -/
theorem test_wit_get_parameter :
    let s := waiting [⟨0x05#8, [0x20#8]⟩]
    let u := s.receive [.transaction [0x25#8, 0x0F#8, 0x00#8] false]
    s.inRun = true ∧ ReadOnly 0x20#8 ∧ ¬ Writable 0x00#8 ∧ ¬ ReadOnly 0x00#8 ∧ u.link.openFetch = none ∧
      u.link.forgotten = false ∧ concerns s 0x25#8 ∧ concerns s 0x2D#8 := by
  unfold Writable ReadOnly concerns; decide +kernel

theorem test_wit_command_step :
    (encodeEntry .nop).isSome = true ∧ (after .nop small).resetUnit.inProgress = none ∧
      (after .nop small).executor.refused = false ∧ (after (.guard 0x00#8) small).executor.refused = true ∧
      isQuery (opcodeOf (.getParameter ⟨0x20#8, []⟩)) = true ∧ isQuery (opcodeOf .nop) = false := by decide +kernel

theorem test_wit_geometry :
    GeometryAllowed 16 16 ∧ GeometryAllowed 480 320 ∧ ¬ GeometryAllowed 0 16 ∧ ¬ GeometryAllowed 496 320 ∧
      ¬ GeometryAllowed 16 24 ∧ NoJobs small ∧ ¬ NoJobs ready ∧ ¬ NoJobs driving := by
  unfold GeometryAllowed NoJobs; decide +kernel

theorem test_wit_cursor :
    (∃ x y, (scanOrder ⟨5, 5, 5, 5⟩ 0#3)[0]? = some (x, y)) ∧ (scanOrder ⟨0, 0, 1, 1⟩ 4#3)[1]? = some (0, 1) :=
  ⟨⟨5, 5, by decide⟩, by decide⟩

theorem test_wit_pixels :
    MemoriesCanonical small ∧ WriterLegal small ∧ (List.replicate 250 0x1B#8).length ≤ 250 ∧ 1 ≤ [0x1B#8].length :=
  ⟨small_memories, small_writer, by decide +kernel, by decide⟩

theorem test_wit_read_pixels :
    1 < (2#8).toNat ∧ (0#8).toNat = 0 ∧ 250 < (251#8).toNat ∧ 1 ≤ (1#8).toNat ∧ (250#8).toNat ≤ 250 := by decide

/-- Define Tile: the refusals at their boundaries, and a new tile that shares bytes with one slot and not with another. -/
theorem test_wit_define_tile :
    DirectoryLegal small ∧ 15 < (16#8).toNat ∧ 64 < (65#8).toNat ∧
      4096 < (4033#16).toNat + ((16#8).toNat * (16#8).toNat + 3) / 4 ∧
      (4032#16).toNat + ((16#8).toNat * (16#8).toNat + 3) / 4 ≤ 4096 ∧
      ShareByte ⟨16, 16, 0⟩ ⟨32, 8, 48⟩ ∧ ¬ ShareByte ⟨16, 16, 128⟩ ⟨32, 8, 48⟩ := by
  refine ⟨small_directory, by decide, by decide, by decide, by decide, ⟨48, ⟨by decide, by decide⟩, by decide, by decide⟩, ?_⟩
  rintro ⟨n, ⟨h1, _⟩, _, h2⟩
  simp [Tile.size, tileSize] at h1 h2
  omega

/-- Slot 0 holds a 12 × 20 tile of 60 bytes at base 0. -/
def tiled : State :=
  { small with tiles := { small.tiles with slots := some ⟨12, 20, 0⟩ :: List.replicate 15 none } }

theorem test_wit_tile_data :
    tiled.inRun = true ∧ slotAt tiled.tiles.slots 0 = some ⟨12, 20, 0⟩ ∧ slotAt tiled.tiles.slots 15 = none ∧
      (Tile.mk 12 20 0).size < (14#16).toNat + 47 ∧ (13#16).toNat + 47 ≤ (Tile.mk 12 20 0).size ∧
      [PixelOp.replace, .keySkip, .matchOnly, .invert][(3#8).toNat]? = some .invert ∧ 3 < (4#8).toNat := by
  decide +kernel

/-! ### Witnesses: the waveform table and the scheduler -/

theorem test_wit_load_waveform :
    ready.wave.table ≠ none ∧ loaded.wave.table = none ∧ 8192 < (8190#16).toNat + 3 ∧ (8189#16).toNat + 3 ≤ 8192 := by
  decide +kernel

/-- RAM contents that fail the tests 1 to 6 in turn; the seventh and none stand above. -/
theorem test_wit_seal_reasons :
    [ Memory.write 0#8 table56 0 0x50#8, Memory.write 0#8 table56 2 0x00#8, Memory.write 0#8 table56 9 0x32#8,
      Memory.write 0#8 table56 13 0x19#8, Memory.write 0#8 table56 28 0x00#8, Memory.write 0#8 table56 3 0x00#8 ].map
      sealReason = [1, 2, 3, 4, 5, 6] := by decide +kernel

theorem test_wit_band :
    strictlyAscending snapshot56.bounds = true ∧ bandOf (some snapshot56) (some 0) = some 0 ∧
      bandOf (some snapshot56) (some 19) = some 0 ∧ bandOf (some snapshot56) (some 20) = some 1 ∧
      bandOf (some snapshot56) (some 50) = none := by decide +kernel

theorem test_wit_uncertain :
    JobsLegal ready ∧ WriterLegal ready ∧ (rectOf 0#16 0#16 15#16 15#16).Valid ready.image.width ready.image.height ∧
      ¬ (rectOf 0#16 0#16 16#16 15#16).Valid ready.image.width ready.image.height :=
  ⟨ready_jobs, ready_writer, by decide, by decide⟩

/-- Submit Job: no table; an invalid rectangle; mode 2 of two modes; a full queue; a free place. -/
theorem test_wit_submit :
    small.wave.table = none ∧ ready.wave.table = some snapshot56 ∧ snapshot56.modes ≤ (2#8).toNat ∧
      (1#8).toNat < snapshot56.modes ∧ ready.sched.queue.length < 8 ∧
      8 ≤ (List.replicate 8 (wholeJob 5#8 1)).length := by decide

theorem test_wit_ticket : ready.sched.nextTicket ≠ 0#8 ∧ ready.sched.queue.length ≤ 8 := by decide

theorem test_wit_tickets :
    TicketsLegal ready ∧ Unheld ready 6#8 ∧ ready.sched.queue = [] ++ wholeJob 5#8 1 :: [] ∧
      TicketsLegal twoDriving ∧ (twoDriving.sched.lanes.get 3).map (fun a => a.job.ticket) = some 7#8 :=
  ⟨ready_tickets, ⟨by decide, fun k a h => by rw [ready_free k] at h; cases h⟩, rfl, twoDriving_tickets, rfl⟩

/-- Each scheduler state. -/
theorem test_wit_scheduler :
    ([.halted, .running, .quiescing, .parking, .holding] : List SchedState).all
      (fun x => ({ small with sched := { small.sched with state := x } } : State).inRun) = true := by decide +kernel

theorem test_wit_examination :
    LanesLegal ready ∧ ready.supply.rail = .ready ∧
      LanesLegal { ready with supply := State.reset.supply } ∧ State.reset.supply.rail ≠ .ready :=
  ⟨ready_lanes, rfl,
    ⟨ready_lanes.disjoint, ready_lanes.states, (fun h => by cases h), (fun h => by cases h)⟩, by decide⟩

theorem test_wit_activated :
    ready.inRun = true ∧ MemoriesCanonical ready ∧ JobsLegal ready ∧ WriterLegal ready ∧ small.sched.state ≠ .running ∧
      ready.sched.state = .running ∧ ready.wave.table = some snapshot56 ∧ ready.supply.rail = .ready ∧
      ready.temp.temperature = some 12 ∧ ready.temp.band = some 0 ∧
      ready.sched.eligible = [(wholeJob 5#8 1, 0)] :=
  ⟨small_run.2.1, ready_memories, ready_jobs, ready_writer, by decide, rfl, rfl, rfl, rfl, rfl, by decide +kernel⟩

/-- The job in lane 0 at the end of a phase, at the end of its last phase, and before; abort-pending or not. -/
theorem test_wit_lane_events :
    driving.inRun = true ∧ driving.wave.table = some snapshot56 ∧ MemoriesCanonical driving ∧ JobsLegal driving ∧
      WriterLegal driving ∧ driving.sched.lanes.get 3 = none ∧ driving.sched.lanes.get 0 = some (laneJob 0 20 0) ∧
      finishes driving snapshot56 (laneJob 2 1 47) ∧ ¬ finishes driving snapshot56 (laneJob 1 1 39) ∧
      ¬ finishes driving snapshot56 (laneJob 2 2 46) :=
  ⟨small_run.2.2.1, rfl, driving_memories _, driving_jobs, driving_writer _, rfl, rfl,
    (by unfold finishes; decide +kernel), (by unfold finishes; decide +kernel), (by unfold finishes; decide +kernel)⟩

/-! ### Witnesses: frames, temperature, supply, events -/

theorem test_wit_boundary : LanesLegal twoDriving ∧ twoDriving.inRun = true ∧ twoDriving.wave.table = some snapshot56 :=
  ⟨twoDriving_lanes, by decide +kernel, rfl⟩

/-- A driving frame begins, and an idle frame after it. -/
theorem test_wit_frame :
    (after .frameBoundary driving).seq.frame = .driving ∧ (after .frameBoundary small).seq.frame = .idle ∧
      (after .frameBoundary driving).seq.driveCodes.length = 256 := by decide +kernel

theorem test_wit_rails :
    ([.off, .ramping, .ready, .draining, .fault] : List RailState).all
      (fun r => ({ small with supply := { small.supply with rail := r } } : State).inRun) = true ∧
      small.resetUnit.inProgress = none ∧ asleep.resetUnit.inProgress = none := by decide +kernel

theorem test_wit_journal_counts : (0#8).toNat = 0 ∧ 4 < (5#8).toNat ∧ 1 ≤ (1#8).toNat ∧ (4#8).toNat ≤ 4 := by decide

theorem test_wit_flags :
    (after .nop small).resetUnit.inProgress = none ∧ small.events.has .resetDone = true ∧
      (0xFFFE#16).getLsbD EventFlag.resetDone.bit = false ∧
      (after (.acknowledgeEvents ⟨0xFFFE#16, []⟩) small).resetUnit.inProgress = none := by decide +kernel

theorem test_wit_journal :
    (after (.cancelJob 5#8) ready).events.journal.length = 2 ∧
      (after (.cancelJob 5#8) ready).resetUnit.inProgress = none := by decide +kernel

/-! ### Witnesses: time, Hibernate, reset -/

/-- An armed watchdog with a count and an action. -/
def watched (count : Nat) (action : WatchdogAction) : State :=
  { driving with time := { driving.time with armed := true, period := 8, action := action, count := count } }

theorem test_wit_watchdog :
    (7#16).toNat < 8 ∧ 8 ≤ (8#16).toNat ∧ 2 < (3#8).toNat ∧
      [WatchdogAction.notify, .park, .reset][(2#8).toNat]? = some .reset ∧ (watched 1 .park).inRun = true ∧
      (watched 2 .park).time.armed = true ∧ 1 < (watched 2 .park).time.count ∧ (watched 1 .reset).inRun = true := by
  decide +kernel

/-- In Hibernate with a latched edge and a stable oscillator, and with a running wake count. -/
def waking : State :=
  { asleep with
    time :=
      { asleep.time with
        causes := ⟨false, true, false⟩, wakeEdge := true, oscRunning := true, oscStable := true, wakeCount := some 1 } }

theorem test_wit_wake :
    waking.resetUnit.inProgress = none ∧ waking.time.wakeCount = some 1 ∧ waking.time.power = .hibernate ∧
      (edgeTaken waking).time.causes.any = true ∧ (edgeTaken waking).time.oscStable = true ∧
      (edgeTaken asleep).time.causes.any = false ∧ small.time.power = .run ∧ small.time.wakeCount = none := by
  decide +kernel

theorem test_wit_tick :
    resetting.resetUnit.inProgress ≠ none ∧ small.temp.sampleCount = 0 ∧ ready.temp.sampleCount ≠ 0 ∧
      small.time.armed = false ∧ (watched 1 .notify).time.armed = true := by decide +kernel

/-- Enter Hibernate may be accepted with its own entry alone in the intake; a busy scheduler refuses it. -/
theorem test_wit_hibernate :
    (waiting [⟨0x43#8, []⟩]).inRun = true ∧
      ((waiting [⟨0x43#8, []⟩]).sched.state = .halted ∧ (waiting [⟨0x43#8, []⟩]).sched.queue = [] ∧
        (waiting [⟨0x43#8, []⟩]).sched.lanes.anyActive = false ∧ (waiting [⟨0x43#8, []⟩]).supply.rail = .off) ∧
      ready.sched.state = .running := by decide +kernel

/-- While Enter Hibernate runs arrive: two NOPs, the part staying in RUN; an unknown opcode, which the port discards, the
part entering Hibernate. -/
theorem test_wit_hibernate_arrivals :
    let s := { waiting [⟨0x43#8, []⟩] with executor := ⟨true, false, 0#16⟩ }
    let nop : Arrival := .transaction [0x25#8, 0x01#8, 0x00#8] false
    let unknown : Arrival := .transaction [0x25#8, 0x0F#8, 0x00#8] false
    s.inRun = true ∧ s.executor.guardLatch = true ∧
      (s.receive [nop, nop]).link.intake = [⟨0x43#8, []⟩] ++ [⟨0x01#8, []⟩, ⟨0x01#8, []⟩] ∧
      (after (.enterHibernate ⟨[nop, nop], 0⟩) s).time.power = .run ∧
      (after (.enterHibernate ⟨[unknown], 0⟩) s).time.power = .hibernate := by
  decide +kernel

theorem test_wit_resets :
    driving.resetUnit.inProgress = none ∧ driving.time.power = .run ∧ driving.executor.guardLatch = false ∧
      (after (.guard 0xC3#8) driving).executor.guardLatch = true ∧
      (after (.guard 0xC3#8) driving).resetUnit.inProgress = none := by decide +kernel

/-- A reset in progress and the kinds that merge into it; the watchdog's RESET action due. -/
theorem test_wit_merged_resets :
    resetting.resetUnit.inProgress = some ⟨.pin, 1⟩ ∧
      (after .por resetting).resetUnit.inProgress = some ⟨.por, 1⟩ ∧
      (after (.pinReset .nothing) (after .por resetting)).resetUnit.inProgress = some ⟨.por, 1⟩ ∧
      (watched 1 .reset).time.power = .run ∧ (watched 1 .reset).time.count ≤ 1 := by decide +kernel

theorem test_wit_cut_steps :
    loaded.inRun = true ∧ MemoriesCanonical loaded ∧ WriterLegal loaded ∧ loaded.wave.table = none ∧
      slotAt tiled.tiles.slots 0 = some ⟨12, 20, 0⟩ ∧ WriterLegal tiled ∧ driving.inRun = true ∧
      driving.wave.table = some snapshot56 ∧ MemoriesCanonical driving ∧ WriterLegal driving ∧ JobsLegal driving ∧
      JobsLegal loaded ∧ JobsLegal tiled :=
  ⟨small_run.2.2.2, ⟨rfl, rfl, rfl, rfl, ready_memories.ram⟩,
    ⟨small_writer.widthMultiple, small_writer.widthRange, small_writer.heightMultiple, small_writer.heightRange,
      small_writer.window, small_writer.cursor⟩, rfl, by decide +kernel,
    ⟨small_writer.widthMultiple, small_writer.widthRange, small_writer.heightMultiple, small_writer.heightRange,
      small_writer.window, small_writer.cursor⟩, small_run.2.2.1, rfl, driving_memories _, driving_writer _, driving_jobs,
    ⟨by decide, by decide, (fun t h => by cases h), rfl⟩, ⟨by decide, by decide, (fun t h => by cases h), rfl⟩⟩

theorem test_wit_writers : ∃ t, exec .frameBoundary driving = .next t :=
  ⟨after .frameBoundary driving, by rw [after, exec, execFrameBoundary, if_pos small_run.2.2.1]; rfl⟩

/-! ### Witnesses: what every step keeps -/

/-- The state with NOP waiting: its step answers a next state. -/
def withNop (s : State) : State := { s with pending := [.nop] }

theorem nop_steps (s : State) : ∃ t, step (withNop s) = .next t := ⟨_, rfl⟩

theorem test_wit_stores :
    (∃ t, step (withNop driving) = .next t) ∧ MemoriesCanonical (withNop driving) ∧ WriterLegal (withNop driving) ∧
      TableSealedRight (withNop driving) ∧ DirectoryLegal (withNop small) :=
  ⟨nop_steps _, ⟨rfl, rfl, rfl, rfl, ready_memories.ram⟩,
    ⟨ready_writer.widthMultiple, ready_writer.widthRange, ready_writer.heightMultiple, ready_writer.heightRange,
      ready_writer.window, ready_writer.cursor⟩, ⟨ready_table.snapshot, ready_table.valid⟩,
    ⟨small_directory.slots, small_directory.records, small_directory.disjoint⟩⟩

theorem test_wit_registers :
    (∃ t, step (withNop driving) = .next t) ∧ JournalLegal (withNop driving) ∧ LinkLegal (withNop driving) ∧
      SupplyLegal (withNop driving) ∧ WatchdogLegal (withNop (watched 8 .park)) ∧
      ParametersLegal (withNop driving) ∧ MonitorLegal (withNop driving) :=
  ⟨nop_steps _, ⟨by decide, ⟨by decide, trivial⟩, by decide⟩,
    ⟨by decide, by decide, by decide, by decide, by decide, by decide⟩,
    ⟨by decide, by decide, by decide, by decide, by decide⟩, fun _ => by decide,
    ⟨by decide, by decide, by decide, by decide, by decide, by decide, by decide, by decide, by decide, by decide,
      (fun n h => by cases h)⟩, ⟨ready_monitor.range, ready_monitor.fault, ready_monitor.band⟩⟩

theorem test_wit_lanes :
    (∃ t, step (withNop twoDriving) = .next t) ∧ LanesLegal (withNop twoDriving) ∧ TicketsLegal (withNop twoDriving) :=
  ⟨nop_steps _,
    ⟨twoDriving_lanes.disjoint, twoDriving_lanes.states, twoDriving_lanes.driven, twoDriving_lanes.fault⟩,
    ⟨twoDriving_tickets.depth, twoDriving_tickets.next, twoDriving_tickets.distinct, twoDriving_tickets.nonzero⟩⟩

/-- `driving` meets every hypothesis of the jobs' statement at once. -/
theorem test_wit_jobs :
    (∃ t, step (withNop driving) = .next t) ∧ TableSealedRight (withNop driving) ∧ MonitorLegal (withNop driving) ∧
      JobsLegal (withNop driving) ∧ LanesLegal (withNop driving) ∧ JobsOnCourse (withNop driving) :=
  ⟨nop_steps _, ⟨ready_table.snapshot, ready_table.valid⟩,
    ⟨ready_monitor.range, ready_monitor.fault, ready_monitor.band⟩,
    ⟨driving_jobs.queued, driving_jobs.active, driving_jobs.modes, driving_jobs.marks⟩,
    ⟨(fun j k a b hjk hj hk => by
        have h : ∀ k, k ≠ 0 → driving.sched.lanes.get k = none := by decide
        by_cases j0 : j = 0
        · rw [show (withNop driving).sched = driving.sched from rfl, h k (fun k0 => hjk (j0.trans k0.symm))] at hk
          cases hk
        · rw [show (withNop driving).sched = driving.sched from rfl, h j j0] at hj
          cases hj), (fun _ => Or.inl rfl), (fun _ => ⟨rfl, rfl⟩), (fun h => by cases h)⟩,
    driving_course⟩

/-- A well-formed command with no lane active; data lengths that the link refuses; a lane active without a table. -/
theorem test_wit_stops :
    Instr.nop.wf = true ∧ small.sched.lanes.anyActive = false ∧ ([] : List Byte).length = 0 ∧
      (let s : State := { driving with wave := ⟨[], none⟩ }
      s.inRun = true ∧ s.sched.lanes.anyActive = true ∧ s.wave.table = none) := by decide

/-- A power request that its condition justifies, and a tick step in Hibernate. -/
theorem test_wit_hibernate_kept :
    HibernateLegal asleep ∧ RequestJustified asleep ∧
      RequestJustified
        { ready with supply := State.reset.supply, sched := { ready.sched with powerRequest := true } } ∧
      (∃ t, step { asleep with pending := [.tick ⟨0, none⟩] } = .next t) ∧
      HibernateLegal { asleep with pending := [.tick ⟨0, none⟩] } :=
  ⟨asleep_hibernate, (fun h => by cases h), (fun _ => by decide +kernel), ⟨_, rfl⟩,
    ⟨asleep_hibernate.quiet, asleep_hibernate.noReset, asleep_hibernate.causes, asleep_hibernate.edge,
      asleep_hibernate.boundary, asleep_hibernate.discarded⟩⟩

end Sys2Proof.Tests
end

section
/-! What a reset's beginning, a cut step and a fault leave, said once for the proofs that follow. -/

namespace Sys2Proof.PortProofs
open Sys2Proof Sys2Proof.Machine Sys2Proof.Safety Sys2Proof.Claims Sys2Proof.Laws

theorem foldl_applyBoundaryWrite_size (ws : List BoundaryWrite) (im : Image) :
    (ws.foldl applyBoundaryWrite im).width = im.width ∧ (ws.foldl applyBoundaryWrite im).height = im.height := by
  induction ws generalizing im with
  | nil => exact ⟨rfl, rfl⟩
  | cons w ws ih => cases w <;> exact ih _

/-- A cut step changes nothing but planes, pattern memory and RAM (R61, R74, R84, R133). -/
theorem applyCut_eq (cut : CutStep) (s : State) : ∃ (im : Image) (pattern ram : List Host.Cell),
    applyCut cut s =
        { s with image := im, tiles := { s.tiles with pattern := pattern }, wave := { s.wave with ram := ram } } ∧
      im.width = s.image.width ∧ im.height = s.image.height := by
  have same : ∃ (im : Image) (pattern ram : List Host.Cell),
      s = { s with image := im, tiles := { s.tiles with pattern := pattern }, wave := { s.wave with ram := ram } } ∧
        im.width = s.image.width ∧ im.height = s.image.height := ⟨_, _, _, rfl, rfl, rfl⟩
  unfold applyCut
  split
  · cases cut with
    | nothing => exact same
    | writePixels data done => exact ⟨_, _, _, rfl, rfl, rfl⟩
    | fillWindow level done =>
      dsimp only [cutFillWindow]
      split
      · exact same
      · exact ⟨_, _, _, rfl, rfl, rfl⟩
    | placeTile slot x y op key done =>
      dsimp only [cutPlaceTile]
      split
      · split
        · exact same
        · exact ⟨_, _, _, rfl, rfl, rfl⟩
      · exact same
    | loadTileData slot offset data done =>
      dsimp only [cutLoadTileData]
      split
      · exact same
      · split
        · exact same
        · exact ⟨_, _, _, rfl, rfl, rfl⟩
    | loadWaveformData offset data done =>
      dsimp only [cutLoadWaveformData]
      split
      · exact same
      · exact ⟨_, _, _, rfl, rfl, rfl⟩
    | frameBoundary done =>
      exact ⟨_, _, _, rfl, (foldl_applyBoundaryWrite_size _ _).1, (foldl_applyBoundaryWrite_size _ _).2⟩
  · exact same

/-- What every initialisation leaves of the registers, whatever its kind (Table 11-2). -/
structure Initialised (s t : State) : Prop where
  link : t.link = s.link.reset
  supply : t.supply = State.reset.supply
  temp : t.temp = State.reset.temp
  table : t.wave.table = none
  events : t.events = { flags := 0#16, journal := [], nextSeq := 0#8, lost := 0 }
  time : t.time = { State.reset.time with oscStable := false }
  params : t.params = State.resetParams ∨ t.params = s.params.sessionReset
  arbiter : t.arbiter = s.arbiter.discard
  underway : t.resetUnit.inProgress.isSome = true

/-- A reset begins with an initialisation, or merges into one in progress and then notes no more than that (R171, R173). -/
theorem beginReset_cases (kind : ResetKind) (extra : List Rect) (judged s : State) :
    Initialised s (beginReset kind extra judged s) ∨
      (s.resetUnit.inProgress.isSome = true ∧
        ∃ r, beginReset kind extra judged s = { s with resetUnit := { s.resetUnit with inProgress := some r } }) := by
  unfold beginReset initFor
  split
  · left
    dsimp only
    split
    · exact ⟨rfl, rfl, rfl, rfl, rfl, rfl, .inl rfl, rfl, rfl⟩
    · exact ⟨rfl, rfl, rfl, rfl, rfl, rfl, .inr rfl, rfl, rfl⟩
  · next r hr =>
    dsimp only
    split
    · exact .inl ⟨rfl, rfl, rfl, rfl, rfl, rfl, .inl rfl, rfl, rfl⟩
    · exact .inr ⟨by rw [hr]; rfl, _, rfl⟩

@[simp] theorem enterFault_link (k : FaultKind) (u : State) : (enterFault k u).link = u.link := by
  simp only [enterFault, setSched_link]
  rw [abortAll_keeps (fun s => s.link) (by simp)]

@[simp] theorem enterFault_params (k : FaultKind) (u : State) : (enterFault k u).params = u.params := by
  simp only [enterFault, setSched_params]
  rw [abortAll_keeps (fun s => s.params) (by simp)]

@[simp] theorem enterFault_wave (k : FaultKind) (u : State) : (enterFault k u).wave = u.wave := by
  simp only [enterFault, setSched_wave]
  rw [abortAll_keeps (fun s => s.wave) (by simp)]

@[simp] theorem enterFault_temp (k : FaultKind) (u : State) : (enterFault k u).temp = u.temp := by
  simp only [enterFault, setSched_temp]
  rw [abortAll_keeps (fun s => s.temp) (by simp)]

@[simp] theorem enterFault_supply (k : FaultKind) (u : State) : (enterFault k u).supply = u.supply.fail k := by
  simp only [enterFault, setSched_supply]
  rw [abortAll_keeps (fun s => s.supply) (by simp)]

/-- The boundary's work on one lane touches neither port nor supply nor monitor nor parameters. -/
theorem advanceLane_registers (t : Snapshot) (k : Fin 4) (u : State) :
    (advanceLane t k u).link = u.link ∧ (advanceLane t k u).supply = u.supply ∧
      (advanceLane t k u).temp = u.temp ∧ (advanceLane t k u).params = u.params := by
  unfold advanceLane
  dsimp only
  (repeat' split) <;> simp

end Sys2Proof.PortProofs
end

section
/-! The journal's invariant (R153, R155) over every step. -/

namespace Sys2Proof.PortProofs
open Sys2Proof Sys2Proof.Machine Sys2Proof.Safety Sys2Proof.Claims Sys2Proof.Laws

/-- `JournalLegal` as a condition on the event unit alone. -/
def JournalOk (e : Events) : Prop :=
  e.journal.length ≤ 16 ∧ seqsFrom (e.nextSeq - BitVec.ofNat 8 e.journal.length) e.journal ∧ e.lost ≤ 255

theorem journalLegal_iff {s : State} : JournalLegal s ↔ JournalOk s.events :=
  ⟨fun ⟨size, seqs, lost⟩ => ⟨size, seqs, lost⟩, fun ⟨size, seqs, lost⟩ => ⟨size, seqs, lost⟩⟩

theorem seqsFrom_append {n : Byte} {l : List JournalRecord} {r : JournalRecord} (hl : seqsFrom n l)
    (hr : r.seq = n + BitVec.ofNat 8 l.length) : seqsFrom n (l ++ [r]) := by
  induction l generalizing n with
  | nil => exact ⟨by simpa using hr, trivial⟩
  | cons x l ih =>
    refine ⟨hl.1, ih hl.2 ?_⟩
    rw [hr, List.length_cons, BitVec.ofNat_add, BitVec.add_assoc, BitVec.add_comm (BitVec.ofNat 8 l.length)]

theorem seqsFrom_drop {n : Byte} {l : List JournalRecord} (k : Nat) (hl : seqsFrom n l) (hk : k ≤ l.length) :
    seqsFrom (n + BitVec.ofNat 8 k) (l.drop k) := by
  induction k generalizing n l with
  | zero => simpa using hl
  | succ k ih =>
    cases l with
    | nil => simp at hk
    | cons x l =>
      have := ih hl.2 (by simpa using hk)
      rwa [BitVec.add_assoc, BitVec.add_comm 1#8, ← BitVec.ofNat_add] at this

/-- A saturating count stays within a byte (R23, R144, R155). -/
theorem satInc_le {n : Nat} (h : n ≤ 255) : satInc n ≤ 255 := by
  unfold satInc; split <;> omega

theorem journalOk_record {e : Events} (c : RecordCode) (k : Byte) (d : Word) (h : JournalOk e) :
    JournalOk (e.record c k d) := by
  obtain ⟨size, seqs, lost⟩ := h
  rcases record_cases e c k d with ⟨hlt, eq⟩ | ⟨-, eq⟩ <;> rw [eq]
  · have base : e.nextSeq + 1#8 - BitVec.ofNat 8 (e.journal.length + 1) =
        e.nextSeq - BitVec.ofNat 8 e.journal.length := by
      rw [BitVec.ofNat_add]; bv_omega
    refine ⟨by simpa using hlt, ?_, lost⟩
    rw [List.length_append, List.length_singleton, base]
    exact seqsFrom_append seqs (by simp)
  · exact ⟨size, seqs, satInc_le lost⟩

theorem journalOk_drop {e : Events} (k : Nat) (h : JournalOk e) : JournalOk { e with journal := e.journal.drop k } := by
  obtain ⟨size, seqs, lost⟩ := h
  refine ⟨by simp only [List.length_drop]; omega, ?_, lost⟩
  by_cases hk : k ≤ e.journal.length
  · have base : e.nextSeq - BitVec.ofNat 8 (e.journal.length - k) =
        e.nextSeq - BitVec.ofNat 8 e.journal.length + BitVec.ofNat 8 k := by
      obtain ⟨m, hm⟩ := Nat.exists_eq_add_of_le hk
      rw [hm, Nat.add_sub_cancel_left, BitVec.ofNat_add]; bv_omega
    rw [List.length_drop, base]
    exact seqsFrom_drop k seqs hk
  · rw [List.drop_eq_nil_of_le (by omega)]; trivial

theorem journalOk_nil (w : Word) (n : Byte) : JournalOk { flags := w, journal := [], nextSeq := n, lost := 0 } :=
  ⟨by simp, trivial, by simp⟩

/-- Keeping the journal legal, as a relation between states. -/
def KeepsJournal (s t : State) : Prop := JournalOk s.events → JournalOk t.events

theorem journal_eventsRel : EventsRel fun a b => JournalOk a → JournalOk b where
  refl _ := id
  trans h g := g ∘ h
  raise _ _ := id
  record _ _ _ _ := journalOk_record _ _ _

theorem keepsJournal_beginReset (kind : ResetKind) (extra : List Rect) (judged s : State) :
    KeepsJournal s (beginReset kind extra judged s) := by
  intro h
  rcases beginReset_cases kind extra judged s with i | ⟨-, r, e⟩
  · rw [i.events]; exact journalOk_nil _ _
  · rw [e]; exact h

theorem keepsJournal_commands : CommandUpdates KeepsJournal := by
  have H := journal_eventsRel
  constructor
  case trans => exact fun h g => g ∘ h
  case readRecords => exact fun u n _ => journalOk_drop n
  case clearRecords => exact fun u _ _ => journalOk_nil _ _
  case writePixels => exact fun u l _ => H.raiseIf _ _ _
  case readPixels => exact fun u p n _ => H.raiseIf _ _ _
  case define => exact fun u k t _ _ _ _ _ _ _ => H.raiseIf _ _ _
  case sealTable => exact fun u _ _ => H.trans (H.rejected _ _) (H.transitions _ _ _)
  case unsealTable => exact fun u _ _ => H.transitions _ _ _
  case submit => exact fun u t j _ _ _ _ _ _ => H.superseded _ _ _
  case cancelOne => exact fun u j _ _ => H.cancelled _ _ _
  case cancelAll => exact fun u r _ => H.cancelled _ _ _
  case sample => exact fun u x _ => H.transitions _ _ _
  -- every other update leaves journal, counter and lost count alone
  all_goals intros; exact id

theorem keepsJournal_events : EventUpdates KeepsJournal := by
  have H := journal_eventsRel
  constructor
  case fault => exact fun u k _ _ _ => H.enterFault k u
  case slowDrain => exact fun u _ _ h => journalOk_record _ _ _ h
  case edge => intro u _ _ _ h; simpa using h
  case wake => exact fun u _ _ _ h => journalOk_record _ _ _ h
  case dogExpire => exact fun u _ _ _ => H.watchdog u
  case dogReset =>
    exact fun u _ _ _ h => keepsJournal_beginReset _ _ _ _ (H.watchdog u h)
  case advanceLane => exact fun u t k _ _ => H.advanceLane t k u
  case complete => exact fun u t k a _ _ _ _ _ => H.complete t k a.count u
  case abort => exact fun u c k _ => H.abortLane c k u
  case activate => exact fun u j k _ => H.activate j k u
  case markWork => exact fun u h _ => H.raiseIf _ _ _
  case beginFrame => intro u _ h; simpa using h
  case cut =>
    intro u c h
    obtain ⟨im, p, r, e, -⟩ := applyCut_eq c u
    rw [e]; exact h
  case begin_ => exact fun u kind extra judged => keepsJournal_beginReset kind extra judged u
  case complete_ => exact fun u a r _ h => journalOk_record _ _ _ h
  -- every other update leaves journal, counter and lost count alone
  all_goals intros; exact id

/-- Every step keeps the journal legal. -/
theorem step_keeps_journal {s t : State} (h : step s = .next t) : JournalLegal s → JournalLegal t := by
  simp only [journalLegal_iff]
  exact step_rel keepsJournal_commands keepsJournal_events h

end Sys2Proof.PortProofs
end

section
/-! The invariants of supply (R139, R144) and watchdog (R163, R165) over every step. -/

namespace Sys2Proof.PortProofs
open Sys2Proof Sys2Proof.Machine Sys2Proof.Safety Sys2Proof.Claims Sys2Proof.Laws

/-! ### Supply -/

/-- `SupplyLegal` as a condition on the supply alone. -/
def SupplyOk (u : Supply) : Prop :=
  (u.rail ≠ .ramping → u.rampCount = 0) ∧ (u.rail ≠ .ready → u.holdCount = 0) ∧
    (u.rail ≠ .draining → u.drainCount = 0) ∧ (u.rail = .fault ↔ u.faultKind ≠ .none) ∧ u.faultCount ≤ 255

theorem supplyLegal_iff {s : State} : SupplyLegal s ↔ SupplyOk s.supply :=
  ⟨fun ⟨a, b, c, d, e⟩ => ⟨a, b, c, d, e⟩, fun ⟨a, b, c, d, e⟩ => ⟨a, b, c, d, e⟩⟩

/-- Keeping the supply legal. -/
def KeepsSupply (s t : State) : Prop := SupplyOk s.supply → SupplyOk t.supply

theorem keepsSupply_of_eq {s t : State} (h : t.supply = s.supply) : KeepsSupply s t := by
  unfold KeepsSupply; rw [h]; exact id

/-- A legal supply with FAULT left or entered as R144 says has the fault kind that goes with its rail state. -/
theorem supplyOk_of_kind {u : Supply} (h : SupplyOk u) (hf : u.rail ≠ .fault) : u.faultKind = .none := by
  obtain ⟨-, -, -, kind, -⟩ := h
  by_contra hk
  exact hf (kind.2 hk)

/-- The rails take a state other than FAULT, coming from one, with only that state's count running. -/
theorem supplyOk_move {u v : Supply} (h : SupplyOk u) (hu : u.rail ≠ .fault) (hv : v.rail ≠ .fault)
    (ramp : v.rail ≠ .ramping → v.rampCount = 0) (hold : v.rail ≠ .ready → v.holdCount = 0)
    (drain : v.rail ≠ .draining → v.drainCount = 0) (kind : v.faultKind = u.faultKind)
    (count : v.faultCount = u.faultCount) : SupplyOk v := by
  have cleared := supplyOk_of_kind h hu
  obtain ⟨-, -, -, -, bound⟩ := h
  refine ⟨ramp, hold, drain, ?_, by rw [count]; exact bound⟩
  rw [kind, cleared]
  simpa using hv

theorem supplyOk_ramp {u : Supply} (p : Params) (h : SupplyOk u) (hu : u.rail ≠ .fault) : SupplyOk (u.ramp p) :=
  supplyOk_move h hu (by simp [Supply.ramp]) (by simp [Supply.ramp]) (by simp [Supply.ramp]) (by simp [Supply.ramp])
    rfl rfl

theorem supplyOk_drain {u : Supply} (p : Params) (h : SupplyOk u) (hu : u.rail ≠ .fault) : SupplyOk (u.drain p) :=
  supplyOk_move h hu (by simp [Supply.drain]) (by simp [Supply.drain]) (by simp [Supply.drain])
    (by simp [Supply.drain]) rfl rfl

theorem supplyOk_turnOff {u : Supply} (h : SupplyOk u) (hu : u.rail ≠ .fault) : SupplyOk u.turnOff :=
  supplyOk_move h hu (by simp [Supply.turnOff]) (by simp [Supply.turnOff]) (by simp [Supply.turnOff])
    (by simp [Supply.turnOff]) rfl rfl

theorem supplyOk_fail {u : Supply} {k : FaultKind} (h : SupplyOk u) (hk : k ≠ .none) : SupplyOk (u.fail k) := by
  obtain ⟨-, -, -, -, bound⟩ := h
  exact ⟨by simp [Supply.fail], by simp [Supply.fail], by simp [Supply.fail], by simpa [Supply.fail] using hk,
    satInc_le bound⟩

theorem supplyOk_reset : SupplyOk State.reset.supply :=
  ⟨fun _ => rfl, fun _ => rfl, fun _ => rfl, by decide, Nat.zero_le _⟩

theorem keepsSupply_endStep (s : State) : KeepsSupply s (endStep s) := by
  rintro ⟨ramp, hold, drain, kind, count⟩
  refine ⟨ramp, fun hr => ?_, drain, kind, count⟩
  simp only [endStep] at hr ⊢
  rw [if_neg fun h => hr h.1]
  exact hold hr

theorem keepsSupply_clearHold (s : State) : KeepsSupply s (clearHold s) := by
  rintro ⟨ramp, hold, drain, kind, count⟩
  simp only [clearHold]
  by_cases hf : s.supply.rail = .fault
  · have hr := ramp (by simp [hf])
    have hh := hold (by simp [hf])
    have hd := drain (by simp [hf])
    simp [SupplyOk, hf, hr, hh, hd, count]
  · simp only [hf, if_false]
    exact ⟨ramp, hold, drain, by simpa using hf, count⟩

theorem keepsSupply_beginReset (kind : ResetKind) (extra : List Rect) (judged s : State) :
    KeepsSupply s (beginReset kind extra judged s) := by
  intro h
  rcases beginReset_cases kind extra judged s with i | ⟨-, r, e⟩
  · rw [i.supply]; exact supplyOk_reset
  · rw [e]; exact h

theorem keepsSupply_commands : CommandUpdates KeepsSupply := by
  constructor
  case trans => exact fun h g => g ∘ h
  case finish => exact fun own op o p u h => keepsSupply_endStep { u with link := _, executor := _ } h
  case clearHold => exact fun u _ _ => keepsSupply_clearHold u
  case railsOn => exact fun u _ hr h => supplyOk_ramp _ h (by simp [hr])
  case railsOff =>
    intro u _ hr h
    exact supplyOk_drain _ h (by rcases hr with hr | ⟨hr, -⟩ <;> simp [hr])
  -- every other update leaves the supply alone
  all_goals intros; exact id

theorem keepsSupply_events : EventUpdates KeepsSupply := by
  constructor
  case endStep => exact keepsSupply_endStep
  case railGood =>
    exact fun u _ hr h => supplyOk_move h (by simp [hr]) (by simp [Supply.makeReady]) (by simp [Supply.makeReady])
      (by simp [Supply.makeReady]) (by simp [Supply.makeReady]) rfl rfl
  case fault =>
    intro u k _ hk _ h
    rw [enterFault_supply]; exact supplyOk_fail h hk
  case countFault => exact fun u _ _ ⟨ramp, hold, drain, kind, count⟩ => ⟨ramp, hold, drain, kind, satInc_le count⟩
  case endDrain => exact fun u _ hr h => supplyOk_turnOff h (by simp [hr])
  case slowDrain =>
    intro u _ hd h
    simp only [drainExpires, Bool.and_eq_true, decide_eq_true_eq] at hd
    exact supplyOk_turnOff h (by simp [hd.1])
  case ramp =>
    intro u _ hd h
    simp only [rampDue, Bool.and_eq_true, decide_eq_true_eq] at hd
    exact supplyOk_ramp _ h (by simp [hd.1])
  case rampDown =>
    exact fun u _ hr _ ⟨_, hold, drain, kind, count⟩ => ⟨fun h => absurd hr h, hold, drain, kind, count⟩
  case drain =>
    intro u _ hd h
    simp only [holdExpires, holdIdle, Bool.and_eq_true, decide_eq_true_eq] at hd
    exact supplyOk_drain _ h (by simp [hd.1.1.1])
  case holdDown =>
    intro u _ hi _ ⟨ramp, _, drain, kind, count⟩
    simp only [holdIdle, Bool.and_eq_true, decide_eq_true_eq] at hi
    exact ⟨ramp, fun h => absurd hi.1.1 h, drain, kind, count⟩
  case drainDown =>
    exact fun u _ hr _ ⟨ramp, hold, _, kind, count⟩ => ⟨ramp, hold, fun h => absurd hr h, kind, count⟩
  case edge => exact fun u _ _ _ => keepsSupply_of_eq (takeEdge_supply u)
  case dogExpire => exact fun u _ _ _ => keepsSupply_of_eq (expireWatchdog_supply u)
  case dogReset =>
    exact fun u _ _ _ h => keepsSupply_beginReset _ _ _ _
      (keepsSupply_endStep _ (keepsSupply_of_eq (expireWatchdog_supply u) h))
  case advanceLane => exact fun u t k _ _ => keepsSupply_of_eq (advanceLane_registers t k u).2.1
  case abort => exact fun u c k _ => keepsSupply_of_eq (abortLane_supply c k u)
  case activate => exact fun u j k _ => keepsSupply_of_eq (activate_supply j k u)
  case beginFrame => exact fun u _ => keepsSupply_of_eq (beginFrame_supply u)
  case cut =>
    intro u c h
    obtain ⟨im, p, r, e, -⟩ := applyCut_eq c u
    rw [e]; exact h
  case begin_ => exact fun u kind extra judged => keepsSupply_beginReset kind extra judged u
  -- every other update leaves the supply alone
  all_goals intros; exact id

/-- Every step keeps the supply legal. -/
theorem step_keeps_supply {s t : State} (h : step s = .next t) : SupplyLegal s → SupplyLegal t := by
  simp only [supplyLegal_iff]
  exact step_rel keepsSupply_commands keepsSupply_events h

/-! ### Watchdog -/

/-- Keeping the watchdog's period and count in range. -/
def KeepsWatchdog (s t : State) : Prop := WatchdogLegal s → WatchdogLegal t

theorem watchdogLegal_of_disarmed {s : State} (h : s.time.armed = false) : WatchdogLegal s := by
  intro ha; rw [h] at ha; cases ha

/-- An update that leaves the watchdog's four registers alone keeps it legal. -/
theorem keepsWatchdog_of_eq {s t : State} (armed : t.time.armed = s.time.armed) (period : t.time.period = s.time.period)
    (count : t.time.count = s.time.count) : KeepsWatchdog s t := by
  unfold KeepsWatchdog WatchdogLegal
  rw [armed, period, count]; exact id

theorem keepsWatchdog_of_time {s t : State} (h : t.time = s.time) : KeepsWatchdog s t :=
  keepsWatchdog_of_eq (by rw [h]) (by rw [h]) (by rw [h])

/-- Expiry reloads the count or disarms; RESET leaves a watchdog that the reset's beginning disarms (R165). -/
theorem keepsWatchdog_expire {s : State} (ha : s.time.action ≠ .reset) : KeepsWatchdog s (expireWatchdog s) := by
  unfold expireWatchdog
  cases e : s.time.action with
  | notify =>
    intro h h'
    obtain ⟨lo, hi, -, -⟩ := h h'
    exact ⟨lo, hi, Nat.le_trans (by decide) lo, Nat.le_refl _⟩
  | park => exact fun _ => watchdogLegal_of_disarmed rfl
  | reset => exact absurd e ha

theorem keepsWatchdog_beginReset (kind : ResetKind) (extra : List Rect) (judged s : State) :
    KeepsWatchdog s (beginReset kind extra judged s) := by
  intro h
  rcases beginReset_cases kind extra judged s with i | ⟨-, r, e⟩
  · exact watchdogLegal_of_disarmed (by rw [i.time]; rfl)
  · rw [e]; exact h

theorem keepsWatchdog_commands : CommandUpdates KeepsWatchdog := by
  constructor
  case trans => exact fun h g => g ∘ h
  case armDog => exact fun u p a _ lo hi _ _ => ⟨lo, hi, Nat.le_trans (by decide) lo, Nat.le_refl _⟩
  case feedDog =>
    intro u _ ha h _
    obtain ⟨lo, hi, -, -⟩ := h ha
    exact ⟨lo, hi, Nat.le_trans (by decide) lo, Nat.le_refl _⟩
  case disarmDog => exact fun u _ _ => watchdogLegal_of_disarmed rfl
  -- every other update leaves the watchdog alone
  all_goals intros; exact id

theorem keepsWatchdog_events : EventUpdates KeepsWatchdog := by
  constructor
  case woke =>
    intro u out _
    unfold recordWoke
    exact keepsWatchdog_of_eq (by dsimp only; split <;> rfl) (by dsimp only; split <;> rfl)
      (by dsimp only; split <;> rfl)
  case fault => exact fun u k _ _ _ => keepsWatchdog_of_time (enterFault_time k u)
  case edge =>
    intro u _ _ _
    exact keepsWatchdog_of_eq (by unfold takeEdge; split <;> rfl) (by unfold takeEdge; split <;> rfl)
      (by unfold takeEdge; split <;> rfl)
  case timerExpire =>
    intro u _ _
    exact keepsWatchdog_of_eq (by unfold expireWakeTimer; dsimp only; split <;> rfl)
      (by unfold expireWakeTimer; dsimp only; split <;> rfl) (by unfold expireWakeTimer; dsimp only; split <;> rfl)
  case dogExpire => exact fun u _ _ ha => keepsWatchdog_expire ha
  case dogReset =>
    intro u hr _ _ _
    have hn : (endStep (expireWatchdog u)).resetUnit.inProgress.isSome = false := by
      simpa [State.stepsRun] using (inRun_iff.1 hr).1
    rcases beginReset_cases .watchdog [] (endStep (expireWatchdog u)) (endStep (expireWatchdog u)) with i | ⟨e, -⟩
    · exact watchdogLegal_of_disarmed (by rw [i.time]; rfl)
    · rw [hn] at e; cases e
  case dogDown =>
    intro u _ ha hd h _
    obtain ⟨lo, hi, hc, hp⟩ := h ha
    simp only [watchdogDue, ha, Bool.true_and, decide_eq_false_iff_not, Nat.not_le] at hd
    exact ⟨lo, hi, by simp only; omega, by simp only; omega⟩
  case advanceLane => exact fun u t k _ _ => keepsWatchdog_of_time (advanceLane_parts t k u).2.1
  case abort => exact fun u c k _ => keepsWatchdog_of_time (abortLane_time c k u)
  case activate => exact fun u j k _ => keepsWatchdog_of_time (activate_time j k u)
  case beginFrame => exact fun u _ => keepsWatchdog_of_time (beginFrame_time u)
  case cut =>
    intro u c h
    obtain ⟨im, p, r, e, -⟩ := applyCut_eq c u
    rw [e]; exact h
  case begin_ => exact fun u kind extra judged => keepsWatchdog_beginReset kind extra judged u
  -- every other update leaves the watchdog alone
  all_goals intros; exact id

/-- Every step keeps the watchdog legal. -/
theorem step_keeps_watchdog {s t : State} (h : step s = .next t) : WatchdogLegal s → WatchdogLegal t :=
  step_rel keepsWatchdog_commands keepsWatchdog_events h

end Sys2Proof.PortProofs
end

section
/-! The invariants of the parameter store (R38, R39, R161, R162) and the temperature monitor (R134, R136, R137) over every
step. -/

namespace Sys2Proof.PortProofs
open Sys2Proof Sys2Proof.Machine Sys2Proof.Safety Sys2Proof.Claims Sys2Proof.Laws

/-- `ParametersLegal` as a condition on the stored values and the wake count. -/
structure ParamsOk (p : Params) (wake : Option Nat) : Prop where
  frameRate : paramValueOk 0x03#8 p.frameRate = true
  rampLimit : paramValueOk 0x04#8 p.rampLimit = true
  drainLimit : paramValueOk 0x05#8 p.drainLimit = true
  sensorSelect : paramValueOk 0x07#8 p.sensorSelect = true
  samplePeriod : paramValueOk 0x08#8 p.samplePeriod = true
  linkPolicy : paramValueOk 0x11#8 p.linkPolicy = true
  tempOverride : paramValueOk 0x12#8 p.tempOverride = true
  wakeInterval : paramValueOk 0x13#8 p.wakeInterval = true
  wakeMode : paramValueOk 0x14#8 p.wakeMode = true
  wakeRuns : wake.isSome = true ↔ p.wakeModeBits ≠ 0#2
  wakeCount : ∀ n, wake = some n → 1 ≤ n ∧ n ≤ 65535

theorem parametersLegal_iff {s : State} : ParametersLegal s ↔ ParamsOk s.params s.time.wakeCount :=
  ⟨fun ⟨a, b, c, d, e, f, g, h, i, j, k⟩ => ⟨a, b, c, d, e, f, g, h, i, j, k⟩,
    fun ⟨a, b, c, d, e, f, g, h, i, j, k⟩ => ⟨a, b, c, d, e, f, g, h, i, j, k⟩⟩

/-- `MonitorLegal` as a condition on the table and the monitor. -/
structure MonitorOk (table : Option Snapshot) (m : TempMonitor) : Prop where
  range : ∀ t, m.temperature = some t → -40 ≤ t ∧ t ≤ 100
  fault : m.sensorFault = true → m.temperature = none
  band : m.band = bandOf table m.temperature

theorem monitorLegal_iff {s : State} : MonitorLegal s ↔ MonitorOk s.wave.table s.temp :=
  ⟨fun ⟨a, b, c⟩ => ⟨a, b, c⟩, fun ⟨a, b, c⟩ => ⟨a, b, c⟩⟩

/-- Parameters and monitor legal: the monitor's range rests on the override's (R136). -/
def RegistersOk (s : State) : Prop := ParamsOk s.params s.time.wakeCount ∧ MonitorOk s.wave.table s.temp

def KeepsRegisters (s t : State) : Prop := RegistersOk s → RegistersOk t

theorem keepsRegisters_of_eq {s t : State} (params : t.params = s.params) (wake : t.time.wakeCount = s.time.wakeCount)
    (wave : t.wave = s.wave) (temp : t.temp = s.temp) : KeepsRegisters s t := by
  unfold KeepsRegisters RegistersOk
  rw [params, wake, wave, temp]; exact id

/-! ### The parameter store -/

theorem wakeMode_ok_iff {v : Word} :
    paramValueOk 0x14#8 v = true ↔ v.toNat ≤ 7 ∧ v &&& 3#16 ≠ 3#16 := by
  change (decide (v.toNat ≤ 7) && decide (v &&& 3#16 ≠ 3#16)) = true ↔ _
  rw [Bool.and_eq_true, decide_eq_true_eq, decide_eq_true_eq]

theorem tempOverride_range {v : Word} (h : paramValueOk 0x12#8 v = true) : TempRange (lowSigned v) := by
  change (decide (v &&& 0x7F00#16 = 0#16) && decide (TempRange (lowSigned v))) = true at h
  rw [Bool.and_eq_true, decide_eq_true_eq, decide_eq_true_eq] at h
  exact h.2

/-- The wake count that a write to WAKE_MODE or a reload leaves is one the invariant allows (R161, R162). -/
theorem wakeInterval_range {p : Params} (h : paramValueOk 0x13#8 p.wakeInterval = true) :
    1 ≤ p.wakeInterval.toNat ∧ p.wakeInterval.toNat ≤ 65535 := by
  have h1 : 1 ≤ p.wakeInterval.toNat := by simpa [paramValueOk] using h
  have := p.wakeInterval.isLt
  omega

theorem restartWakeCount_ok {p : Params} (h : paramValueOk 0x13#8 p.wakeInterval = true) :
    ((restartWakeCount p).isSome = true ↔ p.wakeModeBits ≠ 0#2) ∧
      ∀ n, restartWakeCount p = some n → 1 ≤ n ∧ n ≤ 65535 := by
  unfold restartWakeCount
  split
  · next hz => simp [hz]
  · next hz =>
    refine ⟨by simpa using hz, fun n hn => ?_⟩
    cases hn; exact wakeInterval_range h

/-- A stored value within Table 2-3 keeps the store legal (R39). -/
theorem paramsOk_store {s : State} {n : Byte} {v : Word} (hw : isWritable n = true) (hv : paramValueOk n v = true)
    (h : ParamsOk s.params s.time.wakeCount) :
    ParamsOk (storeParam n v s).params (storeParam n v s).time.wakeCount := by
  simp only [isWritable, List.contains_eq_mem, List.mem_cons, List.not_mem_nil, or_false, decide_eq_true_eq] at hw
  rcases hw with rfl | rfl | rfl | rfl | rfl | rfl | rfl | rfl | rfl | rfl | rfl
  · exact { h with frameRate := hv }
  · exact { h with rampLimit := hv }
  · exact { h with drainLimit := hv }
  · exact { h with }
  · exact { h with sensorSelect := hv }
  · exact { h with samplePeriod := hv }
  · exact { h with }
  · exact { h with linkPolicy := hv }
  · exact { h with tempOverride := hv }
  · exact { h with wakeInterval := hv }
  · obtain ⟨runs, count⟩ := restartWakeCount_ok (p := s.params.write 0x14#8 v) h.wakeInterval
    exact { h with wakeMode := hv, wakeRuns := runs, wakeCount := count }

/-- Clearing bits 1:0 of a legal WAKE_MODE leaves a legal one, in mode 0 (R161). -/
theorem wakeMode_clear {v : Word} (h : paramValueOk 0x14#8 v = true) :
    paramValueOk 0x14#8 (v &&& 0xFFFC#16) = true ∧ (v &&& 0xFFFC#16).extractLsb' 0 2 = 0#2 := by
  have h7 : v.toNat ≤ 7 := (wakeMode_ok_iff.1 h).1
  have key : ∀ k : Nat, k ≤ 7 → paramValueOk 0x14#8 (BitVec.ofNat 16 k &&& 0xFFFC#16) = true ∧
      (BitVec.ofNat 16 k &&& 0xFFFC#16).extractLsb' 0 2 = 0#2 := by decide
  have := key v.toNat h7
  rwa [BitVec.ofNat_toNat, BitVec.setWidth_eq] at this

theorem keepsRegisters_expireWakeTimer (s : State) : KeepsRegisters s (expireWakeTimer s) := by
  rintro ⟨h, m⟩
  refine ⟨?_, m⟩
  have hc := wakeMode_clear h.wakeMode
  unfold expireWakeTimer
  by_cases hp : s.params.wakeModeBits = 2#2
  · simp only [hp, if_true]
    refine { h with wakeRuns := ?_, wakeCount := fun n hn => ?_ }
    · simp [Params.wakeModeBits] at hp ⊢; simp [hp]
    · cases hn; exact wakeInterval_range h.wakeInterval
  · simp only [hp, if_false]
    refine { h with wakeMode := hc.1, wakeRuns := ?_, wakeCount := fun n hn => by cases hn }
    simpa [Params.wakeModeBits] using hc.2

theorem keepsRegisters_timerDown {s : State} (hd : wakeTimerDue s = false) :
    KeepsRegisters s { s with time := { s.time with wakeCount := s.time.wakeCount.map fun n => n - 1 } } := by
  rintro ⟨h, m⟩
  refine ⟨{ h with wakeRuns := by simpa using h.wakeRuns, wakeCount := fun n hn => ?_ }, m⟩
  cases hw : s.time.wakeCount with
  | none => simp [hw] at hn
  | some k =>
    have hk := h.wakeCount k hw
    simp only [wakeTimerDue, hw, decide_eq_false_iff_not] at hd
    simp only [hw, Option.map_some, Option.some.injEq] at hn
    omega

/-! ### The temperature monitor -/

/-- BAND is derived afresh: it is the one R137 asks for, whatever it was. -/
theorem keepsRegisters_reviseBand {s t : State} (b : TempMonitor) (params : t.params = s.params)
    (time : t.time = s.time)
    (temp : RegistersOk s → (∀ c, t.temp.temperature = some c → -40 ≤ c ∧ c ≤ 100) ∧
      (t.temp.sensorFault = true → t.temp.temperature = none)) : KeepsRegisters s (reviseBand b t) := by
  intro h
  obtain ⟨range, fault⟩ := temp h
  refine ⟨?_, ⟨range, fault, rfl⟩⟩
  rw [reviseBand_params, reviseBand_time, params, time]
  exact h.1

theorem wholeDegrees_range {r t : Int} (h : wholeDegrees r = some t) : -40 ≤ t ∧ t ≤ 100 := by
  unfold wholeDegrees at h
  split at h
  · next hr => cases h; exact hr
  · cases h

/-- A sample obtains a temperature in range, and none with a sensor fault (R134, R136). -/
theorem sampled_ok {p : Params} (ho : paramValueOk 0x12#8 p.tempOverride = true) (x : SensorInput) :
    (∀ t, (sampled p x).1 = some t → -40 ≤ t ∧ t ≤ 100) ∧ ((sampled p x).2 = true → (sampled p x).1 = none) := by
  unfold sampled
  split
  · refine ⟨fun t ht => ?_, nofun⟩
    cases ht
    exact tempOverride_range ho
  · split
    · exact ⟨fun t ht => wholeDegrees_range ht, nofun⟩
    · split
      · exact ⟨nofun, fun _ => rfl⟩
      · exact ⟨fun t ht => wholeDegrees_range ht, nofun⟩

theorem keepsRegisters_takeSample (x : SensorInput) (s : State) : KeepsRegisters s (takeSample x s) :=
  keepsRegisters_reviseBand s.temp rfl rfl fun h => sampled_ok h.1.tempOverride x

theorem keepsRegisters_rebanded {s t : State} (params : t.params = s.params) (time : t.time = s.time)
    (temp : t.temp = s.temp) : KeepsRegisters s (reviseBand s.temp t) :=
  keepsRegisters_reviseBand s.temp params time fun h => by rw [temp]; exact ⟨h.2.range, h.2.fault⟩

/-! ### Resets -/

theorem paramsOk_reset : ParamsOk State.resetParams none :=
  ⟨by decide, by decide, by decide, by decide, by decide, by decide, by decide, by decide, by decide, by decide, nofun⟩

/-- A retaining reset keeps the panel configuration and sets the rest to defaults (R38). -/
theorem paramsOk_sessionReset {p : Params} {w : Option Nat} (h : ParamsOk p w) : ParamsOk p.sessionReset none :=
  { paramsOk_reset with
    frameRate := h.frameRate
    rampLimit := h.rampLimit
    drainLimit := h.drainLimit
    sensorSelect := h.sensorSelect
    samplePeriod := h.samplePeriod }

theorem monitorOk_reset : MonitorOk none State.reset.temp := ⟨nofun, fun _ => rfl, rfl⟩

theorem keepsRegisters_beginReset (kind : ResetKind) (extra : List Rect) (judged s : State) :
    KeepsRegisters s (beginReset kind extra judged s) := by
  intro h
  rcases beginReset_cases kind extra judged s with i | ⟨-, r, e⟩
  · refine ⟨?_, by rw [i.table, i.temp]; exact monitorOk_reset⟩
    rw [i.time]
    rcases i.params with hp | hp <;> rw [hp]
    · exact paramsOk_reset
    · exact paramsOk_sessionReset h.1
  · rw [e]; exact h

theorem keepsRegisters_expireWatchdog (s : State) : KeepsRegisters s (expireWatchdog s) :=
  keepsRegisters_of_eq (expireWatchdog_params s) (by unfold expireWatchdog; split <;> rfl) (expireWatchdog_wave s)
    (expireWatchdog_temp s)

/-! ### Every step -/

theorem keepsRegisters_commands : CommandUpdates KeepsRegisters := by
  constructor
  case trans => exact fun h g => g ∘ h
  case store => exact fun u n v _ hw hv h => ⟨paramsOk_store hw hv h.1, h.2⟩
  case sealTable => exact fun u _ _ => keepsRegisters_rebanded rfl rfl rfl
  case unsealTable => exact fun u _ _ => keepsRegisters_rebanded rfl rfl rfl
  case sample => exact fun u x _ => keepsRegisters_takeSample x u
  -- every other update leaves parameters, wake count, table and monitor alone
  all_goals intros; exact id

theorem keepsRegisters_events : EventUpdates KeepsRegisters := by
  constructor
  case woke =>
    intro u out _
    exact keepsRegisters_of_eq rfl (by unfold recordWoke; dsimp only; split <;> rfl) rfl rfl
  case fault =>
    exact fun u k _ _ _ => keepsRegisters_of_eq (by simp) (by simp) (by simp) (by simp)
  case sampleDown => exact fun u _ _ h => ⟨h.1, ⟨h.2.range, h.2.fault, h.2.band⟩⟩
  case edge =>
    exact fun u _ _ _ => keepsRegisters_of_eq (by simp) (by unfold takeEdge; split <;> rfl) (by simp) (by simp)
  case wake => exact fun u _ _ _ h => ⟨h.1, ⟨h.2.range, h.2.fault, h.2.band⟩⟩
  case timerExpire => exact fun u _ _ => keepsRegisters_expireWakeTimer u
  case timerDown => exact fun u _ hd => keepsRegisters_timerDown hd
  case dogExpire => exact fun u _ _ _ => keepsRegisters_expireWatchdog u
  case dogReset =>
    exact fun u _ _ _ h => keepsRegisters_beginReset _ _ _ _ (keepsRegisters_expireWatchdog u h)
  case advanceLane =>
    intro u t k _ _
    obtain ⟨-, time, wave⟩ := advanceLane_parts t k u
    obtain ⟨-, -, temp, params⟩ := advanceLane_registers t k u
    exact keepsRegisters_of_eq params (by rw [time]) wave temp
  case abort => exact fun u c k _ => keepsRegisters_of_eq (by simp) (by simp) (by simp) (by simp)
  case activate => exact fun u j k _ => keepsRegisters_of_eq (by simp) (by simp) (by simp) (by simp)
  case beginFrame => exact fun u _ => keepsRegisters_of_eq (by simp) (by simp) (by simp) (by simp)
  case cut =>
    intro u c h
    obtain ⟨im, p, r, e, -⟩ := applyCut_eq c u
    rw [e]; exact h
  case begin_ => exact fun u kind extra judged => keepsRegisters_beginReset kind extra judged u
  -- every other update leaves parameters, wake count, table and monitor alone
  all_goals intros; exact id

/-- Every step keeps parameters and monitor legal together. -/
theorem step_keeps_registers {s t : State} (h : step s = .next t) (hp : ParametersLegal s) (hm : MonitorLegal s) :
    ParametersLegal t ∧ MonitorLegal t := by
  obtain ⟨params, monitor⟩ := step_rel keepsRegisters_commands keepsRegisters_events h
    ⟨parametersLegal_iff.1 hp, monitorLegal_iff.1 hm⟩
  exact ⟨parametersLegal_iff.2 params, monitorLegal_iff.2 monitor⟩

end Sys2Proof.PortProofs
end

section
/-! What every host command's step leaves at the port, said once for all of them: `exec_commandEnd`. -/

namespace Sys2Proof.PortProofs
open Sys2Proof Sys2Proof.Machine Sys2Proof.Safety Sys2Proof.Claims Sys2Proof.Laws

/-! ### What lands in a step leaves the executor, the supply and the Run power state -/

theorem receive_executor (l : List Arrival) (s : State) : (s.receive l).executor = s.executor :=
  receive_keeps (fun u => u.executor) (fun a u => (portArrival_frame a u).2.2.2) l s

theorem receive_resetUnit (l : List Arrival) (s : State) : (s.receive l).resetUnit = s.resetUnit :=
  receive_keeps (fun u => u.resetUnit) (fun a u => (portArrival_frame a u).2.2.1) l s

theorem receive_inRun (l : List Arrival) {s : State} (h : s.inRun = true) : (s.receive l).inRun = true := by
  obtain ⟨steps, power⟩ := inRun_iff.1 h
  exact inRun_iff.2 ⟨by unfold State.stepsRun; rw [receive_resetUnit]; exact steps, receive_power l s power⟩

/-! ### The end of a command step -/

/-- A command's own work leaves the port, the power state and, but for the latch, the executor alone; a refusal has an
outcome other than OK and arms nothing. -/
def Orderly (armed : Bool) (s : State) : Verdict → Prop
  | .accept u _ =>
    u.link = s.link ∧ u.executor = { s.executor with guardLatch := armed } ∧ u.time.power = s.time.power
  | .refuse o _ => o ≠ .ok ∧ armed = false

/-- The same of work that does not arm the latch, found disarmed. -/
def Neat (s : State) : Verdict → Prop
  | .accept u _ => u.link = s.link ∧ u.executor = s.executor ∧ u.time.power = s.time.power
  | .refuse o _ => o ≠ .ok

theorem orderly_of_neat {s : State} {v : Verdict} (h : Neat (disarmGuard s) v) : Orderly false s v := by
  cases v with
  | accept u p => exact h
  | refuse o p => exact ⟨h, rfl⟩

/-- How the step of a host command ends: not run; refused; accepted; accepted with the part entering Hibernate; or with a
Soft Reset begun. -/
inductive CommandEnd (c : Instr) (s : State) : State → Prop
  | idle : s.inRun = false → CommandEnd c s s
  | refused (o : OutcomeCode) (p : List Byte) : s.inRun = true → o ≠ .ok → c ≠ .guard 0xC3#8 →
      CommandEnd c s
        (finishCommand (ownsHead c s) (opcodeOf c) o p (disarmGuard (s.receive (arrivedIn c))))
  | accepted (u : State) (p : List Byte) : s.inRun = true → Orderly (decide (c = .guard 0xC3#8))
      (s.receive (arrivedIn c)) (.accept u p) → CommandEnd c s (finishCommand (ownsHead c s) (opcodeOf c) .ok p u)
  | slept (k : Nat) (u : State) (p : List Byte) : s.inRun = true → c ≠ .guard 0xC3#8 → isQuery (opcodeOf c) = false →
      Orderly false (s.receive (arrivedIn c)) (.accept u p) →
      CommandEnd c s (hibernate k (finishCommand (ownsHead c s) (opcodeOf c) .ok p u))
  | reset (u : State) : s.inRun = true → c = .softReset → u.resetUnit = s.resetUnit →
      CommandEnd c s (beginReset .soft [] u u)

section
variable {c : Instr} {s t : State}

/-- A command step in which transactions may land, of a command with orderly work. -/
theorem commandStep_end {work : Bool → State → Verdict}
    (h : ∀ latch, Orderly (decide (c = .guard 0xC3#8)) (s.receive (arrivedIn c))
      (work latch (disarmGuard (s.receive (arrivedIn c))))) (hr : s.inRun = true) :
    CommandEnd c s (commandStep (ownsHead c s) c work (s.receive (arrivedIn c))) := by
  refine commandStep_elim (CommandEnd c s) (fun hn => ?_) (fun _ u p e => ?_) (fun _ o p e => ?_)
  · rw [receive_inRun _ hr] at hn; cases hn
  · have hu := h (s.receive (arrivedIn c)).executor.guardLatch
    rw [e] at hu
    exact .accepted u p hr hu
  · have ho := h (s.receive (arrivedIn c)).executor.guardLatch
    rw [e] at ho
    exact .refused o p hr ho.1 (of_decide_eq_false ho.2)

/-- The step of a command with orderly work in which nothing lands. -/
theorem guardedCommand_end {work : Bool → State → Verdict} (ha : arrivedIn c = []) (hg : c ≠ .guard 0xC3#8)
    (h : Host.Outcome.next (commandStep (ownsHead c s) c work s) = (.next t : Host.Outcome State Fault Refusal))
    (hw : ∀ latch, Neat (disarmGuard s) (work latch (disarmGuard s))) : CommandEnd c s t := by
  cases h
  cases hr : s.inRun with
  | false => rw [commandStep, hr]; exact .idle hr
  | true =>
    have := commandStep_end (c := c) (s := s) (work := work)
    rw [ha, decide_eq_false hg] at this
    exact this (fun latch => orderly_of_neat (hw latch)) hr

/-- The step of a command with orderly work that does not look at the Guard latch. -/
theorem plainCommand_end {work : State → Verdict} (ha : arrivedIn c = []) (hg : c ≠ .guard 0xC3#8)
    (h : Host.Outcome.next (plainCommand c work s) = (.next t : Host.Outcome State Fault Refusal))
    (hw : Neat (disarmGuard s) (work (disarmGuard s))) : CommandEnd c s t :=
  guardedCommand_end (work := fun _ t => work t) ha hg h fun _ => hw

/-- The step of a command with orderly work in which transactions and Fetches land. -/
theorem commandAmid_end {l : List Arrival} {work : State → Verdict} (ha : arrivedIn c = l) (hg : c ≠ .guard 0xC3#8)
    (h : Host.Outcome.next (commandAmid l c work s) = (.next t : Host.Outcome State Fault Refusal))
    (hw : ∀ r, Neat r (work r)) : CommandEnd c s t := by
  cases h
  subst ha
  cases hr : s.inRun with
  | false => rw [commandAmid, hr]; exact .idle hr
  | true =>
    rw [commandAmid, hr]
    exact commandStep_end (fun _ => by rw [decide_eq_false hg]; exact orderly_of_neat (hw _)) hr

end
end Sys2Proof.PortProofs
end

section
/-! The step of each host command, one by one (chapters 2 to 10), and the theorem over all of them. -/

namespace Sys2Proof.PortProofs
open Sys2Proof Sys2Proof.Machine Sys2Proof.Safety Sys2Proof.Claims Sys2Proof.Laws

section
variable {s t : State}

@[simp] theorem storeParam_power (n : Byte) (v : Word) (s : State) :
    (storeParam n v s).time.power = s.time.power := rfl

theorem execGuard_end {k : Byte} (h : execGuard k s = .next t) : CommandEnd (.guard k) s t := by
  simp only [execGuard, Host.Outcome.next.injEq] at h; subst h
  cases hr : s.inRun with
  | false => rw [plainCommand, commandStep, hr]; exact .idle hr
  | true =>
    refine commandStep_end (c := .guard k) (fun _ => ?_) hr
    dsimp only
    split
    · next hk => subst hk; exact ⟨rfl, rfl, rfl⟩
    · next hk => simp [Orderly, hk]

theorem execSoftReset_end (h : execSoftReset s = .next t) : CommandEnd .softReset s t := by
  simp only [execSoftReset, Host.Outcome.next.injEq] at h; subst h
  split
  · next hc =>
    simp only [Bool.and_eq_true] at hc
    refine .reset _ hc.1 rfl ?_
    apply commandStep_elim (fun u => u.resetUnit = s.resetUnit)
    · exact fun _ => rfl
    · intro _ u p e
      split at e <;> cases e
      rfl
    · exact fun _ o p _ => rfl
  · refine guardedCommand_end rfl nofun rfl fun latch => ?_
    cases latch <;> simp [Neat]

/-- Enter Hibernate's own work: GUARD, HIB_BUSY, or nothing. -/
def hibernateWork (met latch : Bool) (t : State) : Verdict :=
  if !latch then .refuse .guard [] else if !met then .refuse .hibBusy [] else .accept t []

theorem neat_hibernateWork (met latch : Bool) (s : State) : Neat s (hibernateWork met latch s) := by
  unfold hibernateWork
  cases latch <;> cases met <;> simp [Neat]

theorem execEnterHibernate_eq (m : Meanwhile) (s : State) :
    execEnterHibernate m s =
      .next
        (if s.inRun then
          let own := ownsHead (.enterHibernate m) s
          let met := mayHibernate own s
          let t := commandStep own (.enterHibernate m) (hibernateWork met) (s.receive m.arrived)
          if s.executor.guardLatch && met && t.link.intake.isEmpty then hibernate m.clocked t else t
        else s) := rfl

theorem execEnterHibernate_end {m : Meanwhile} (h : execEnterHibernate m s = .next t) :
    CommandEnd (.enterHibernate m) s t := by
  simp only [execEnterHibernate_eq, Host.Outcome.next.injEq] at h; subst h
  split
  · next hr =>
    split
    · next hc =>
      simp only [Bool.and_eq_true] at hc
      have run := receive_inRun m.arrived hr
      have latch : (s.receive m.arrived).executor.guardLatch = true := by rw [receive_executor]; exact hc.1.1
      simp only [commandStep, hibernateWork, run, latch, hc.1.2, if_true]
      exact .slept m.clocked _ [] hr nofun rfl ⟨rfl, rfl, rfl⟩
    · exact commandStep_end (c := .enterHibernate m)
        (fun latch => orderly_of_neat (neat_hibernateWork _ latch _)) hr
  · next hr => exact .idle (by simpa using hr)

/-- Every host command's step ends in one of five ways. -/
theorem exec_commandEnd {c : Instr} (hc : (encodeEntry c).isSome = true) (h : exec c s = .next t) :
    CommandEnd c s t := by
  cases c with
  | nop => exact plainCommand_end rfl nofun h (by simp [Neat])
  | guard k => exact execGuard_end h
  | softReset => exact execSoftReset_end h
  | setParameter n v =>
    refine guardedCommand_end rfl nofun h fun _ => ?_
    (repeat' split) <;> simp [Neat]
  | getParameter n =>
    refine commandAmid_end rfl nofun h fun r => ?_
    split <;> simp [Neat]
  | acknowledgeEvents m => exact commandAmid_end rfl nofun h fun r => by simp [Neat]
  | readJournal n => exact plainCommand_end rfl nofun h (by split <;> simp [Neat])
  | clearJournal => exact plainCommand_end rfl nofun h (by simp [Neat])
  | setGeometry width height => exact plainCommand_end rfl nofun h (by (repeat' split) <;> simp [Neat])
  | setWindow xs ys xe ye => exact plainCommand_end rfl nofun h (by split <;> simp [Neat])
  | setCursor x y => exact plainCommand_end rfl nofun h (by split <;> simp [Neat])
  | setScan code => exact plainCommand_end rfl nofun h (by split <;> simp [Neat])
  | setPixelOp op key => exact plainCommand_end rfl nofun h (by split <;> simp [Neat])
  | writePixels data =>
    simp only [exec, execWritePixels] at h
    split at h
    · exact plainCommand_end rfl nofun h (by simp [Neat])
    · cases h
  | readPixels plane count =>
    exact plainCommand_end rfl nofun h (by (repeat' split) <;> simp [Neat])
  | fillWindow level => exact plainCommand_end rfl nofun h (by split <;> simp [Neat])
  | readUncertainMap => exact plainCommand_end rfl nofun h (by simp [Neat])
  | markUncertain xs ys xe ye => exact plainCommand_end rfl nofun h (by split <;> simp [Neat])
  | defineTile slot width height base =>
    exact plainCommand_end rfl nofun h (by dsimp only; (repeat' split) <;> simp [Neat])
  | loadTileData slot offset data =>
    simp only [exec, execLoadTileData] at h
    split at h
    · exact plainCommand_end rfl nofun h (by (repeat' split) <;> simp [Neat])
    · cases h
  | placeTile slot x y op key =>
    exact plainCommand_end rfl nofun h (by (repeat' split) <;> simp [Neat])
  | releaseTile slot => exact plainCommand_end rfl nofun h (by split <;> simp [Neat])
  | loadWaveformData offset data =>
    simp only [exec, execLoadWaveformData] at h
    split at h
    · exact plainCommand_end rfl nofun h (by (repeat' split) <;> simp [Neat])
    · cases h
  | sealWaveform => exact plainCommand_end rfl nofun h (by split <;> simp [Neat])
  | unsealWaveform => exact plainCommand_end rfl nofun h (by split <;> simp [Neat])
  | submitJob xs ys xe ye mode options =>
    exact plainCommand_end rfl nofun h (by dsimp only; (repeat' split) <;> simp [Neat])
  | cancelJob ticket => exact plainCommand_end rfl nofun h (by (repeat' split) <;> simp [Neat])
  | abortJob ticket => exact plainCommand_end rfl nofun h (by (repeat' split) <;> simp [Neat])
  | flushQueue => exact plainCommand_end rfl nofun h (by simp [Neat])
  | startScheduler => exact plainCommand_end rfl nofun h (by split <;> simp [Neat])
  | haltScheduler => exact plainCommand_end rfl nofun h (by split <;> simp [Neat])
  | clearHold => exact plainCommand_end rfl nofun h (by split <;> simp [Neat])
  | queryJob ticket => exact plainCommand_end rfl nofun h (by (repeat' split) <;> simp [Neat])
  | railsOn => exact plainCommand_end rfl nofun h (by split <;> simp [Neat])
  | railsOff => exact plainCommand_end rfl nofun h (by (repeat' split) <;> simp [Neat])
  | sampleTemperature x => exact plainCommand_end rfl nofun h (by simp [Neat])
  | armWatchdog period action =>
    exact plainCommand_end rfl nofun h (by (repeat' split) <;> simp [Neat])
  | feedWatchdog => exact plainCommand_end rfl nofun h (by split <;> simp [Neat])
  | disarmWatchdog =>
    refine guardedCommand_end rfl nofun h fun _ => ?_
    (repeat' split) <;> simp [Neat]
  | enterHibernate m => exact execEnterHibernate_end h
  | _ => cases hc

end
end Sys2Proof.PortProofs
end

section
/-! The link's invariant (R2, R13, R22, R23, R24, R30) over every step, and the legality of every register kept. -/

namespace Sys2Proof.PortProofs
open Sys2Proof Sys2Proof.Machine Sys2Proof.Safety Sys2Proof.Claims Sys2Proof.Laws

/-! ### Everything but SDO in Hibernate -/

/-- `LinkLegal` without its last condition, on the link and whether steps run. -/
structure LinkBounds (l : Link) (run : Bool) : Prop where
  size : l.intake.length ≤ 4
  entries : ∀ e ∈ l.intake, e.opcode ≠ fetchOpcode ∧ allowedLength e.opcode e.payload.length = true
  errors : l.linkErrors ≤ 255
  forgotten : l.forgotten = true → l.openFetch = none
  held : run = false → l.openFetch = none

def KeepsLink (s t : State) : Prop := LinkBounds s.link s.stepsRun → LinkBounds t.link t.stepsRun

theorem keepsLink_of_eq {s t : State} (link : t.link = s.link) (reset : t.resetUnit = s.resetUnit) : KeepsLink s t := by
  unfold KeepsLink State.stepsRun
  rw [link, reset]; exact id

/-- No Fetch in flight: what concerns one holds. -/
theorem linkBounds_closed {l m : Link} {r q : Bool} (h : LinkBounds l r) (intake : m.intake = l.intake)
    (errors : m.linkErrors ≤ 255) (closed : m.openFetch = none) : LinkBounds m q :=
  ⟨by rw [intake]; exact h.size, by rw [intake]; exact h.entries, errors, fun _ => closed, fun _ => closed⟩

theorem keepsLink_finish (own : Bool) (op : Byte) (o : OutcomeCode) (p : List Byte) (s : State) :
    KeepsLink s (finishCommand own op o p s) := by
  intro h
  have fetch : s.link.openFetch = none → ((s.link.respondIf op o p).leave own).openFetch = none := by
    intro hn
    unfold Link.respondIf Link.leave Link.respond
    split <;> simp [hn]
  have intake : ((s.link.respondIf op o p).leave own).intake = if own then s.link.intake.drop 1 else s.link.intake := by
    unfold Link.respondIf Link.leave Link.respond
    split <;> rfl
  have part : ((s.link.respondIf op o p).leave own).intake.Sublist s.link.intake := by
    rw [intake]; split
    · exact List.drop_sublist _ _
    · exact List.Sublist.refl _
  have rest : ((s.link.respondIf op o p).leave own).linkErrors = s.link.linkErrors ∧
      ((s.link.respondIf op o p).leave own).forgotten = s.link.forgotten := by
    unfold Link.respondIf Link.leave Link.respond
    split <;> exact ⟨rfl, rfl⟩
  exact
    { size := Nat.le_trans part.length_le h.size
      entries := fun e he => h.entries e (part.subset he)
      errors := by rw [show (finishCommand own op o p s).link.linkErrors = _ from rest.1]; exact h.errors
      forgotten := fun hf => fetch (h.forgotten (rest.2.symm.trans hf))
      held := fun hr => fetch (h.held hr) }

theorem keepsLink_beginReset (kind : ResetKind) (extra : List Rect) (judged s : State) :
    KeepsLink s (beginReset kind extra judged s) := by
  intro h
  rcases beginReset_cases kind extra judged s with i | ⟨u, r, e⟩
  · rw [i.link]
    exact ⟨Nat.zero_le _, fun _ he => absurd he List.not_mem_nil, Nat.zero_le _, fun _ => rfl, fun _ => rfl⟩
  · rw [e]
    exact { h with held := fun _ => h.held (by simpa [State.stepsRun, Option.isSome_iff_ne_none] using u) }

theorem keepsLink_commands : CommandUpdates KeepsLink := by
  constructor
  case trans => exact fun h g => g ∘ h
  case finish => exact keepsLink_finish
  -- no command's own work reaches the link
  all_goals intros; exact id

theorem keepsLink_events : EventUpdates KeepsLink := by
  constructor
  case accept =>
    intro u e hr _ hn hf ha h
    refine
      { h with
        size := by simp only [acceptEntry, List.length_append, List.length_singleton]; omega
        entries := fun x hx => ?_ }
    rcases List.mem_append.1 hx with hx | hx
    · exact h.entries x hx
    · rw [List.mem_singleton.1 hx]; exact ⟨hf, ha⟩
  case fail => exact fun u r _ h => linkBounds_closed h rfl (satInc_le h.errors) rfl
  case woke => exact fun u out _ h => linkBounds_closed h rfl h.errors rfl
  case served => exact fun u b out _ _ h => linkBounds_closed h rfl h.errors rfl
  case openFetch =>
    intro u f hr hf _ h
    exact
      { h with
        forgotten := fun he => by rw [show u.link.forgotten = true from he] at hf; cases hf
        held := fun he => by rw [show u.stepsRun = false from he] at hr; cases hr }
  case forgotten =>
    rintro u b hb h
    refine { h with forgotten := fun ht => ?_ }
    rcases hb with hn | hb | hr
    · exact hn
    · rw [show b = true from ht] at hb; cases hb
    · exact h.held hr
  case hibernate =>
    intro u k _ _ _ _ _ _ _ h
    exact
      { h with
        forgotten := fun hf => by simp only [hibernate]; rw [h.forgotten hf]; rfl
        held := fun hr => by simp only [hibernate]; rw [h.held hr]; rfl }
  case fault => exact fun u k _ _ _ => keepsLink_of_eq (by simp) (by simp)
  case edge => exact fun u _ _ _ => keepsLink_of_eq (by simp) (by simp)
  case dogExpire => exact fun u _ _ _ => keepsLink_of_eq (by simp) (by simp)
  case dogReset =>
    exact fun u _ _ _ h => keepsLink_beginReset _ _ _ (endStep (expireWatchdog u))
      (keepsLink_of_eq (t := endStep (expireWatchdog u)) (by simp) (by simp) h)
  case advanceLane =>
    exact fun u t k _ _ => keepsLink_of_eq (advanceLane_registers t k u).1 (advanceLane_parts t k u).1
  case abort => exact fun u c k _ => keepsLink_of_eq (by simp) (by simp)
  case activate => exact fun u j k _ => keepsLink_of_eq (by simp) (by simp)
  case beginFrame => exact fun u _ => keepsLink_of_eq (by simp) (by simp)
  case cut =>
    intro u c h
    obtain ⟨im, p, r, e, -⟩ := applyCut_eq c u
    rw [e]; exact h
  case begin_ => exact fun u kind extra judged => keepsLink_beginReset kind extra judged u
  case complete_ => exact fun u a r _ h => { h with held := nofun }
  -- every other update leaves the link and the reset in progress alone
  all_goals intros; exact id

/-! ### SDO in Hibernate -/

/-- SDO is undriven in Hibernate and during a wake (R22). -/
def SdoAsleep (s : State) : Prop := s.time.power = .hibernate → s.sdoDriven = false

theorem sdoDriven_of_none {s : State} (h : s.link.openFetch = none) : s.sdoDriven = false := by
  unfold State.sdoDriven; rw [h]; rfl

theorem sdoAsleep_of_run {s : State} (h : s.time.power = .run) : SdoAsleep s := by
  intro hp; rw [h] at hp; cases hp

/-- A step that does not end Run keeps SDO undriven in Hibernate, if it leaves the Fetch in flight as it was. -/
theorem sdoAsleep_of_eq {s t : State} (power : s.time.power = .run → t.time.power = .run)
    (fetch : t.link.openFetch = s.link.openFetch) (h : SdoAsleep s) : SdoAsleep t := by
  intro hp
  unfold State.sdoDriven
  rw [fetch]
  refine h ?_
  cases e : s.time.power with
  | hibernate => rfl
  | run => rw [power e] at hp; cases hp

theorem sdoAsleep_otherStep {work : State → State} {s : State} (h : SdoAsleep s) (link : (work s).link = s.link)
    (power : s.time.power = .run → (work s).time.power = .run) : SdoAsleep (otherStep work s) :=
  otherStep_elim SdoAsleep (fun _ => h)
    (fun _ => sdoAsleep_of_eq (t := endStep (work s)) power (congrArg Link.openFetch link) h)

theorem sdoAsleep_runStep {work : State → State} {s : State} (h : SdoAsleep s)
    (time : (work s).time.power = s.time.power) : SdoAsleep (runStep work s) :=
  runStep_elim SdoAsleep (fun _ => h)
    (fun hr => sdoAsleep_of_run (s := endStep (work s)) (time.trans (inRun_iff.1 hr).2))

theorem sdoAsleep_beginReset {kind : ResetKind} {extra : List Rect} {judged s : State} (h : SdoAsleep s) :
    SdoAsleep (beginReset kind extra judged s) := by
  rcases beginReset_cases kind extra judged s with i | ⟨-, r, e⟩
  · exact fun _ => sdoDriven_of_none (by rw [i.link]; rfl)
  · rw [e]; exact h

/-- A Fetch that Hibernate has cut drives SDO no further (R22, R25). -/
theorem sdoDriven_hibernate (k : Nat) (s : State) : (hibernate k s).sdoDriven = false := by
  unfold State.sdoDriven hibernate
  cases s.link.openFetch with
  | none => rfl
  | some f => simp [OpenFetch.serving, OpenFetch.cutAt]

theorem commandEnd_sdoAsleep {c : Instr} {s t : State} (e : CommandEnd c s t) (h : SdoAsleep s) : SdoAsleep t := by
  cases e with
  | idle _ => exact h
  | refused o p hr _ _ => exact sdoAsleep_of_run (receive_power _ s (inRun_iff.1 hr).2)
  | accepted u p hr hu =>
    obtain ⟨-, -, power⟩ := hu
    exact sdoAsleep_of_run (power.trans (receive_power _ s (inRun_iff.1 hr).2))
  | slept k u p _ _ _ _ => exact fun _ => sdoDriven_hibernate _ _
  | reset u hr _ hu =>
    rcases beginReset_cases .soft [] u u with i | ⟨hn, -⟩
    · exact fun _ => sdoDriven_of_none (by rw [i.link]; rfl)
    · have := (inRun_iff.1 hr).1
      unfold State.stepsRun at this
      rw [hu] at hn
      rw [Option.isNone_iff_eq_none.1 this] at hn; cases hn

/-- The end of a Fetch leaves none in flight. -/
theorem closeFetch_openFetch (f : OpenFetch) (k : Nat) (s : State) : (closeFetch f k s).link.openFetch = none := by
  unfold closeFetch
  split
  · rfl
  · split <;> rfl

theorem wholeFetch_openFetch (a : Byte) (bytes : List Byte) (s : State) :
    (wholeFetch a bytes s).link.openFetch = none := by
  unfold wholeFetch
  split
  · rfl
  · split
    · rfl
    · exact closeFetch_openFetch _ _ _

theorem endTransaction_openFetch (a : Byte) (rest : List Byte) (stray : Bool) {s : State}
    (h : s.link.openFetch = none) : (endTransaction a rest stray s).link.openFetch = none := by
  unfold endTransaction
  split
  · rfl
  · split
    · split
      · exact h
      · exact h
    · rfl

/-- A rising edge of CS# leaves no Fetch in flight, unless the port does not look at it (R2). -/
theorem portTransaction_openFetch (bytes : List Byte) (stray : Bool) (s : State) :
    (portTransaction bytes stray s).link.openFetch =
      if s.link.forgotten = false ∧ s.stepsRun = true then none else s.link.openFetch := by
  unfold portTransaction
  cases hf : s.link.forgotten with
  | true => rfl
  | false =>
    cases hr : s.stepsRun with
    | false => rfl
    | true =>
      simp only [and_self, if_true, Bool.false_eq_true, if_false]
      split
      · exact closeFetch_openFetch _ _ _
      · next hn =>
        split
        · exact hn
        · split
          · split
            · exact wholeFetch_openFetch _ _ _
            · exact endTransaction_openFetch _ _ _ hn
          · exact hn

theorem execTransaction_sdoAsleep {bytes : List Byte} {edge : CsEdge} {s t : State}
    (e : execTransaction bytes edge s = .next t) (h : SdoAsleep s) : SdoAsleep t := by
  simp only [execTransaction, Host.Outcome.next.injEq] at e; subst e
  split
  · exact h
  · have fetch := portTransaction_openFetch bytes edge.stray s
    split at fetch
    · exact fun _ => sdoDriven_of_none fetch
    · exact sdoAsleep_of_eq (portTransaction_power bytes edge.stray) fetch h

/-- A Fetch whose header ends in Hibernate or a wake has no decision point: SDO stays undriven (R22, R25). -/
theorem execFetch_sdoAsleep {a l c : Byte} {k : Option Nat} {s t : State} (e : execFetch a l c k s = .next t)
    (h : SdoAsleep s) : SdoAsleep t := by
  simp only [execFetch, Host.Outcome.next.injEq] at e; subst e
  unfold portFetch
  split
  · exact h
  · split
    · exact h
    · split
      · split
        · exact fun _ => sdoDriven_of_none (wholeFetch_openFetch _ _ _)
        · intro hp
          simp [State.sdoDriven, OpenFetch.serving, openFetchOf, show s.time.power = .hibernate from hp]
      · exact h

@[simp] theorem supplyPart_link (s : State) : (supplyPart s).link = s.link := by
  unfold supplyPart
  (repeat' split) <;> simp

theorem tickParts_link (x : SensorInput) (s : State) : (tickParts x s).link = s.link := by
  unfold tickParts
  dsimp only
  split <;> simp

theorem completeWake_power (s : State) : (completeWake s).time.power = .run := rfl

theorem wakeOpening_power {s : State} (h : s.time.power = .run) : (wakeOpening s).time.power = .run := by
  unfold wakeOpening; rw [if_neg (by simp [h])]; exact h

theorem wakeTimerPart_power (s : State) : (wakeTimerPart s).time.power = s.time.power := by
  unfold wakeTimerPart expireWakeTimer Timebase.addCause
  split
  · dsimp only
    split <;> rfl
  · rfl

theorem tickParts_power (x : SensorInput) {s : State} (h : s.time.power = .run) : (tickParts x s).time.power = .run := by
  unfold tickParts
  dsimp only
  rw [wakeTimerPart_power]
  split <;> simpa using wakeOpening_power h

theorem expireWatchdog_power (s : State) : (expireWatchdog s).time.power = s.time.power := by
  unfold expireWatchdog; split <;> rfl

theorem watchdogPart_power (s : State) : (watchdogPart s).time.power = s.time.power := by
  unfold watchdogPart
  split
  · exact expireWatchdog_power s
  · split <;> rfl

theorem execTick_sdoAsleep {x : SensorInput} {s t : State} (e : execTick x s = .next t) (h : SdoAsleep s) :
    SdoAsleep t := by
  simp only [execTick, Host.Outcome.next.injEq] at e; subst e
  split
  · split
    · next hp =>
      have run : (endStep (watchdogPart (tickParts x s))).time.power = .run := (watchdogPart_power _).trans hp
      split
      · exact sdoAsleep_beginReset (sdoAsleep_of_run run)
      · exact sdoAsleep_of_run run
    · exact sdoAsleep_of_eq (tickParts_power x) (congrArg Link.openFetch (tickParts_link x s)) h
  · exact h

theorem execWatchdogExpiry_sdoAsleep {s t : State} (e : execWatchdogExpiry s = .next t) (h : SdoAsleep s) :
    SdoAsleep t := by
  simp only [execWatchdogExpiry, Host.Outcome.next.injEq] at e; subst e
  have key : SdoAsleep (runStep (fun t => if watchdogDue t then expireWatchdog t else t) s) := by
    refine sdoAsleep_runStep h ?_
    split
    · exact expireWatchdog_power s
    · rfl
  split
  · exact sdoAsleep_beginReset key
  · exact key

theorem execFrameBoundary_sdoAsleep {s t : State} (e : execFrameBoundary s = .next t) (h : SdoAsleep s) :
    SdoAsleep t := by
  unfold execFrameBoundary at e
  split at e
  · next hr =>
    split at e
    · cases e
    · cases e
      refine sdoAsleep_of_run ?_
      have time : (advanceLanes (countFrame s)).time = s.time := by
        unfold advanceLanes
        split
        · simp only [laneOrder, List.foldl_cons, List.foldl_nil, (advanceLane_parts _ _ _).2.1]; rfl
        · rfl
      rw [beginFrame_time, endStep_time, boundaryWork, markWork_time, raisePowerRequest_time, (admitJobs_parts _).2,
        settleScheduler_time, time]
      exact (inRun_iff.1 hr).2
  · cases e; exact h

theorem laneEvent_sdoAsleep {k : Fin 4} {work : Snapshot → ActiveJob → State → State} {s t : State}
    (hw : ∀ tb a, (work tb a s).time = s.time) (e : laneEvent k work s = .next t) (h : SdoAsleep s) : SdoAsleep t := by
  unfold laneEvent at e
  split at e
  · cases e
  · cases e
    refine sdoAsleep_runStep h ?_
    split
    · rw [hw]
    · rfl

theorem execResetDone_sdoAsleep {b : Bool} {a : BitVec 3} {s t : State} (e : execResetDone b a s = .next t)
    (h : SdoAsleep s) : SdoAsleep t := by
  simp only [execResetDone, Host.Outcome.next.injEq] at e; subst e
  split
  · split
    · exact sdoAsleep_of_run rfl
    · exact h
  · exact h

theorem exec_sdoAsleep {i : Instr} {s t : State} (e : exec i s = .next t) (h : SdoAsleep s) : SdoAsleep t := by
  by_cases hc : (encodeEntry i).isSome = true
  · exact commandEnd_sdoAsleep (exec_commandEnd hc e) h
  cases i with
  | transaction _ _ => exact execTransaction_sdoAsleep e h
  | fetch _ _ _ _ => exact execFetch_sdoAsleep e h
  | tick x => exact execTick_sdoAsleep e h
  | watchdogExpiry => exact execWatchdogExpiry_sdoAsleep e h
  | frameBoundary => exact execFrameBoundary_sdoAsleep e h
  | resetDone _ _ => exact execResetDone_sdoAsleep e h
  | railGood => cases e; exact sdoAsleep_otherStep h (by split <;> rfl) (by split <;> exact id)
  | railLost => cases e; exact sdoAsleep_otherStep h (by split <;> simp) (by split <;> simp)
  | overcurrent => cases e; exact sdoAsleep_otherStep h (by split <;> simp) (by split <;> simp)
  | drainDone => cases e; exact sdoAsleep_otherStep h (by split <;> rfl) (by split <;> exact id)
  | powerRequestRamp => cases e; exact sdoAsleep_otherStep h (by split <;> rfl) (by split <;> exact id)
  | rampTimeout => cases e; exact sdoAsleep_otherStep h (by split <;> simp) (by split <;> simp)
  | railHoldExpiry => cases e; exact sdoAsleep_otherStep h (by split <;> rfl) (by split <;> exact id)
  | drainSlow => cases e; exact sdoAsleep_otherStep h (by split <;> rfl) (by split <;> exact id)
  | wakeTimerExpiry =>
    cases e
    refine sdoAsleep_otherStep h (by split <;> simp) fun hp => ?_
    split
    · next hd =>
      have := wakeTimerPart_power s
      rw [wakeTimerPart, if_pos hd] at this
      exact this.trans hp
    · exact hp
  | woke => cases e; exact sdoAsleep_otherStep h (by split <;> simp) (by split <;> simp [completeWake_power])
  | wakeEdge =>
    simp only [exec, execWakeEdge, Host.Outcome.next.injEq] at e
    subst e
    split <;> exact h
  | oscillatorStable => cases e; exact h
  | periodicSample x => cases e; exact sdoAsleep_runStep h (by split <;> rfl)
  | phaseAdvance k => exact laneEvent_sdoAsleep (fun _ _ => by split <;> rfl) e h
  | completed k => exact laneEvent_sdoAsleep (fun _ _ => by split <;> rfl) e h
  | aborted k c =>
    cases e
    refine sdoAsleep_runStep h ?_
    (repeat' split) <;> simp
  | quiesceToHalted => cases e; exact sdoAsleep_runStep h (by split <;> rfl)
  | parkingToHolding => cases e; exact sdoAsleep_runStep h (by split <;> rfl)
  | activated => cases e; exact sdoAsleep_runStep h (by (repeat' split) <;> simp)
  | por => cases e; exact sdoAsleep_beginReset h
  | pinReset c =>
    cases e
    obtain ⟨im, p, r, eq, -⟩ := applyCut_eq c s
    exact sdoAsleep_beginReset (kind := .pin) (s := applyCut c s) (by rw [eq]; exact h)
  | _ => exact absurd rfl hc

/-- What holds of every command's step holds of every step, if it does not look at the arbiter and the queue. -/
theorem step_of_exec {P Q : State → Prop} (hq : ∀ u p, P u → P { u with pending := p })
    (ha : ∀ u a n, P u → P { u with arbiter := a, freeTaken := n }) (idle : ∀ u, P u → Q u)
    (he : ∀ c u t, P u → exec c u = .next t → Q t) {s t : State} (h : step s = .next t) (hs : P s) : Q t := by
  unfold step at h
  split at h
  · exact he _ _ _ (hq s _ hs) h
  · unfold idleStep at h
    split at h
    · next e =>
      exact he _ _ _ (arbiterStarts_elim (fun _ u => P u) (fun a _ _ => ha s a _ hs)
        (fun _ _ _ _ _ => ha s s.arbiter _ hs) e) h
    · cases h; exact idle s hs

/-- Every step keeps the link legal. -/
theorem step_keeps_link {s t : State} (h : step s = .next t) (hs : LinkLegal s) : LinkLegal t := by
  obtain ⟨size, entries, errors, forgotten, held, asleep⟩ := hs
  have bounds := step_rel keepsLink_commands keepsLink_events h ⟨size, entries, errors, forgotten, held⟩
  have sdo : SdoAsleep t :=
    step_of_exec (P := SdoAsleep) (fun _ _ => id) (fun _ _ _ => id) (fun _ => id)
      (fun _ _ _ hu e => exec_sdoAsleep e hu) h asleep
  exact ⟨bounds.size, bounds.entries, bounds.errors, bounds.forgotten, bounds.held, sdo⟩

/-- Settles O57: each invariant is kept by every elementary update of a step; SDO in Hibernate, which rests on what a
Fetch decides, by every command. -/
theorem stepsKeepTheRegistersLegal : Obligations.StepsKeepTheRegistersLegal := fun _ _ h =>
  ⟨step_keeps_journal h, step_keeps_link h, step_keeps_supply h, step_keeps_watchdog h, step_keeps_registers h⟩

end Sys2Proof.PortProofs
end

section
/-! O55, O10 and O4: the state after a POR is legal; the CRC-8 as a check byte; which commands stop. -/

namespace Sys2Proof.PortProofs
open Sys2Proof Sys2Proof.Machine Sys2Proof.Safety Sys2Proof.Claims Sys2Proof.Laws

/-! ### The state after a POR -/

theorem lanes_get_reset (k : Fin 4) : State.reset.sched.lanes.get k = none := by
  match k with
  | 0 | 1 | 2 | 3 => rfl

theorem directoryLegal_reset : DirectoryLegal State.reset where
  slots := rfl
  records t ht := by cases List.eq_of_mem_replicate ht
  disjoint i j a b _ hi _ := by cases List.eq_of_mem_replicate (List.mem_of_getElem? hi)

theorem writerLegal_reset : WriterLegal State.reset := by
  constructor <;> decide

theorem lanesLegal_reset : LanesLegal State.reset where
  disjoint j k a b _ hj _ := by rw [lanes_get_reset] at hj; cases hj
  states h := by cases h
  driven h := by cases h
  fault h := by cases h

theorem hibernateLegal_reset : HibernateLegal State.reset where
  quiet h := by cases h
  noReset h := by cases h
  causes h := by cases h
  edge h := by cases h
  boundary h := by cases h
  discarded h := absurd rfl h

theorem linkLegal_reset : LinkLegal State.reset :=
  ⟨Nat.zero_le _, fun _ he => absurd he List.not_mem_nil, Nat.zero_le _, fun _ => rfl, fun _ => rfl, fun _ => rfl⟩

/-- Settles O55: condition by condition, on the literal state. -/
theorem resetStateIsLegal : Obligations.ResetStateIsLegal :=
  ⟨⟨rfl, rfl, rfl, rfl, rfl⟩, writerLegal_reset, directoryLegal_reset, ⟨nofun, fun h => by cases h⟩, lanesLegal_reset,
    ⟨Nat.zero_le _, by decide, List.nodup_nil, List.not_mem_nil⟩,
    ⟨nofun, fun _ h => absurd h List.not_mem_nil, nofun, List.length_replicate⟩,
    (fun _ _ _ h => by cases h), (fun h => by cases h),
    monitorLegal_iff.2 monitorOk_reset, supplyLegal_iff.2 supplyOk_reset,
    journalLegal_iff.2 ⟨by decide, ⟨by decide, trivial⟩, Nat.zero_le _⟩, parametersLegal_iff.2 paramsOk_reset,
    watchdogLegal_of_disarmed rfl, hibernateLegal_reset, linkLegal_reset⟩

/-! ### The CRC-8 -/

/-- With an odd polynomial only the zero register shifts to zero: a 1 shifted out sets bit 0. -/
theorem crcShift_eq_zero {poly r : Byte} (hp : poly.getLsbD 0 = true) : crcShift poly r = 0#8 ↔ r = 0#8 := by
  unfold crcShift
  cases hm : r.msb with
  | true =>
    simp only [if_true]
    constructor
    · intro h
      have : ((r <<< 1) ^^^ poly).getLsbD 0 = false := by rw [h]; rfl
      rw [BitVec.getLsbD_xor, hp] at this
      simp at this
    · rintro rfl; cases hm
  | false =>
    simp only [Bool.false_eq_true, if_false]
    have hlt : r.toNat < 128 := by rw [BitVec.msb_eq_decide] at hm; simpa using hm
    constructor
    · intro h; bv_omega
    · rintro rfl; rfl

theorem crcShift8_eq_zero {poly r : Byte} (hp : poly.getLsbD 0 = true) : crcShift8 poly r = 0#8 ↔ r = 0#8 := by
  simp only [crcShift8, crcShift_eq_zero hp]

theorem crc8From_append (r : Byte) (l m : List Byte) : crc8From r (l ++ m) = crc8From (crc8From r l) m := by
  induction l generalizing r with
  | nil => rfl
  | cons b l ih => exact ih _

/-- The register is 00H after a check byte exactly when it is the register before it (R5). -/
theorem crc8_append_eq_zero (bytes : List Byte) (b : Byte) : crc8 (bytes ++ [b]) = 0#8 ↔ b = crc8 bytes := by
  unfold crc8
  rw [crc8From_append]
  change crcShift8 0x07#8 (crc8From 0#8 bytes ^^^ b) = 0#8 ↔ _
  rw [crcShift8_eq_zero rfl, BitVec.xor_eq_zero_iff]
  exact eq_comm

/-- Settles O10. -/
theorem checkByteLeavesRegisterZero : Obligations.CheckByteLeavesRegisterZero := crc8_append_eq_zero

/-! ### Which commands stop -/

theorem dataLengthOk_iff {lo hi : Nat} {data : List Byte} :
    dataLengthOk lo hi data = true ↔ lo ≤ data.length ∧ data.length ≤ hi := by
  simp [dataLengthOk]

theorem dataLengthOk_false {hi : Nat} {data : List Byte} (h : data.length = 0 ∨ hi < data.length) :
    dataLengthOk 1 hi data = false := by
  rw [Bool.eq_false_iff, Ne, dataLengthOk_iff]; omega

theorem tableMissing_eq_false {s : State} (h : s.sched.lanes.anyActive = true → s.wave.table.isSome = true) :
    s.tableMissing = false := by
  unfold State.tableMissing
  cases ha : s.sched.lanes.anyActive with
  | false => rfl
  | true => simpa [Option.isSome_iff_ne_none] using h ha

theorem laneEvent_next {s : State} (h : s.tableMissing = false) (k : Fin 4)
    (work : Snapshot → ActiveJob → State → State) : ∃ t, laneEvent k work s = .next t := by
  unfold laneEvent
  rw [h, Bool.and_false]
  exact ⟨_, rfl⟩

/-- Every well-formed host command completes. -/
theorem exec_host_next {c : Instr} (s : State) (hc : (encodeEntry c).isSome = true) (hw : c.wf = true) :
    ∃ t, exec c s = .next t := by
  cases c with
  | writePixels data =>
    have hd : dataLengthOk 1 250 data = true := hw
    simp only [exec, execWritePixels, hd, if_true]
    exact ⟨_, rfl⟩
  | loadTileData slot offset data =>
    have hd : dataLengthOk 1 247 data = true := hw
    simp only [exec, execLoadTileData, hd, if_true]
    exact ⟨_, rfl⟩
  | loadWaveformData offset data =>
    have hd : dataLengthOk 1 247 data = true := hw
    simp only [exec, execLoadWaveformData, hd, if_true]
    exact ⟨_, rfl⟩
  | frameBoundary | phaseAdvance | completed => cases hc
  | _ => exact ⟨_, rfl⟩

/-- Every well-formed command completes under R76's condition. -/
theorem exec_next {c : Instr} {s : State} (hw : c.wf = true)
    (ht : s.sched.lanes.anyActive = true → s.wave.table.isSome = true) : ∃ t, exec c s = .next t := by
  have hm := tableMissing_eq_false ht
  by_cases hc : (encodeEntry c).isSome = true
  · exact exec_host_next s hc hw
  cases c with
  | frameBoundary =>
    simp only [exec, execFrameBoundary, hm, Bool.false_eq_true, if_false]
    split <;> exact ⟨_, rfl⟩
  | phaseAdvance k => exact laneEvent_next hm _ _
  | completed k => exact laneEvent_next hm _ _
  | writePixels | loadTileData | loadWaveformData => exact absurd rfl hc
  | _ => exact ⟨_, rfl⟩

/-- Settles O4. -/
theorem commandsStopOnlyAsNamed : Obligations.CommandsStopOnlyAsNamed := by
  refine ⟨fun c s hw ht => exec_next hw ht, fun slot offset data s => ⟨fun h => ?_, fun h => ?_⟩, ?_⟩
  · simp [exec, execWritePixels, dataLengthOk_false h]
  · simp [exec, execLoadTileData, execLoadWaveformData, dataLengthOk_false h]
  · intro k s hr ha ht
    have hm : s.tableMissing = true := by simp [State.tableMissing, ha, ht]
    simp [exec, execFrameBoundary, execPhaseAdvance, execCompleted, laneEvent, hr, hm]

end Sys2Proof.PortProofs
end

section
/-! O5: intake entries and commands (Table 2-4, R1, R12, R30). -/

namespace Sys2Proof.PortProofs
open Sys2Proof Sys2Proof.Machine Sys2Proof.Safety Sys2Proof.Claims Sys2Proof.Laws

/-! ### The two bytes of a 16-bit field (R1) -/

@[simp] theorem joinBytes_hi_lo (w : Word) : joinBytes (hiByte w) (loByte w) = w := by
  unfold joinBytes hiByte loByte
  ext i hi
  simp only [BitVec.getElem_append, BitVec.getElem_extractLsb']
  split
  · simp [BitVec.getLsbD_eq_getElem hi]
  · rw [show 8 + (i - 8) = i by omega, BitVec.getLsbD_eq_getElem hi]

theorem joinBytes_getLsbD (a b : Byte) (i : Nat) :
    (joinBytes a b).getLsbD i = if i < 8 then b.getLsbD i else a.getLsbD (i - 8) := BitVec.getLsbD_append

@[simp] theorem hiByte_joinBytes (a b : Byte) : hiByte (joinBytes a b) = a := by
  unfold hiByte
  ext i hi
  rw [BitVec.getElem_extractLsb', joinBytes_getLsbD, if_neg (by omega), Nat.add_sub_cancel_left,
    BitVec.getLsbD_eq_getElem hi]

@[simp] theorem loByte_joinBytes (a b : Byte) : loByte (joinBytes a b) = b := by
  unfold loByte
  ext i hi
  rw [BitVec.getElem_extractLsb', joinBytes_getLsbD, Nat.zero_add, if_pos hi, BitVec.getLsbD_eq_getElem hi]

@[simp] theorem wordBytes_joinBytes (a b : Byte) : wordBytes (joinBytes a b) = [a, b] := by
  rw [wordBytes, hiByte_joinBytes, loByte_joinBytes]

/-! ### Every entry of a host opcode -/

/-- What an intake entry is: the entry of the command it decodes to, or one whose length the link never lets through. -/
inductive Decodes (x : SensorInput) (e : Entry) : Prop
  | command (c : Instr) : decodeEntry x e = some c → encodeEntry c = some e → asDecoded x c = c → Decodes x e
  | nothing : decodeEntry x e = none → allowedLength e.opcode e.payload.length = false → Decodes x e

theorem not_allowed_of_long {op : Byte} {lo hi n : Nat} (len : payloadLengths op = some (lo, hi)) (long : hi < n) :
    allowedLength op n = false := by
  unfold allowedLength
  rw [len]
  exact Bool.and_eq_false_iff.2 (.inr (decide_eq_false (Nat.not_le.2 long)))

/-- An entry that decodes to a command whose payload is spelt in 16-bit fields. -/
theorem Decodes.words {x : SensorInput} {op : Byte} {p q : List Byte} {c : Instr}
    (good : decodeEntry x ⟨op, p⟩ = some c) (entry : encodeEntry c = some ⟨op, q⟩) (spelt : q = p)
    (plain : asDecoded x c = c) : Decodes x ⟨op, p⟩ := by
  subst spelt
  exact .command c good entry plain

section
variable (x : SensorInput)

theorem decodes_empty {op : Byte} {c : Instr} (good : decodeEntry x ⟨op, []⟩ = some c)
    (entry : encodeEntry c = some ⟨op, []⟩) (plain : asDecoded x c = c)
    (bad : ∀ a l, decodeEntry x ⟨op, a :: l⟩ = none) (len : payloadLengths op = some (0, 0)) :
    ∀ p, Decodes x ⟨op, p⟩
  | [] => .command c good entry plain
  | a :: l => .nothing (bad a l) (not_allowed_of_long len (by simp))

theorem decodes_byte {op : Byte} {c : Byte → Instr} (good : ∀ a, decodeEntry x ⟨op, [a]⟩ = some (c a))
    (entry : ∀ a, encodeEntry (c a) = some ⟨op, [a]⟩) (plain : ∀ a, asDecoded x (c a) = c a)
    (bad₀ : decodeEntry x ⟨op, []⟩ = none) (bad : ∀ a b l, decodeEntry x ⟨op, a :: b :: l⟩ = none)
    (len : payloadLengths op = some (1, 1)) : ∀ p, Decodes x ⟨op, p⟩
  | [] => .nothing bad₀ (by unfold allowedLength; rw [len]; rfl)
  | [a] => .command (c a) (good a) (entry a) (plain a)
  | a :: b :: l => .nothing (bad a b l) (not_allowed_of_long len (by simp))

theorem decodes_setParameter : ∀ p, Decodes x ⟨0x04#8, p⟩
  | [n, vh, vl] => .words (c := .setParameter n (joinBytes vh vl)) rfl rfl (by simp) rfl
  | [] | [_] | [_, _] => .nothing rfl rfl
  | _ :: _ :: _ :: _ :: _ => .nothing rfl (not_allowed_of_long rfl (by simp))

theorem decodes_acknowledgeEvents : ∀ p, Decodes x ⟨0x06#8, p⟩
  | [mh, ml] => .words (c := .acknowledgeEvents ⟨joinBytes mh ml, []⟩) rfl rfl (by simp) rfl
  | [] | [_] => .nothing rfl rfl
  | _ :: _ :: _ :: _ => .nothing rfl (not_allowed_of_long rfl (by simp))

theorem decodes_setGeometry : ∀ p, Decodes x ⟨0x10#8, p⟩
  | [a, b, c, d] => .words (c := .setGeometry (joinBytes a b) (joinBytes c d)) rfl rfl (by simp) rfl
  | [] | [_] | [_, _] | [_, _, _] => .nothing rfl rfl
  | _ :: _ :: _ :: _ :: _ :: _ => .nothing rfl (not_allowed_of_long rfl (by simp))

theorem decodes_setWindow : ∀ p, Decodes x ⟨0x11#8, p⟩
  | [a, b, c, d, e, f, g, h] =>
    .words (c := .setWindow (joinBytes a b) (joinBytes c d) (joinBytes e f) (joinBytes g h)) rfl rfl (by simp) rfl
  | [] | [_] | [_, _] | [_, _, _] | [_, _, _, _] | [_, _, _, _, _] | [_, _, _, _, _, _] | [_, _, _, _, _, _, _] =>
    .nothing rfl rfl
  | _ :: _ :: _ :: _ :: _ :: _ :: _ :: _ :: _ :: _ => .nothing rfl (not_allowed_of_long rfl (by simp))

theorem decodes_setCursor : ∀ p, Decodes x ⟨0x12#8, p⟩
  | [a, b, c, d] => .words (c := .setCursor (joinBytes a b) (joinBytes c d)) rfl rfl (by simp) rfl
  | [] | [_] | [_, _] | [_, _, _] => .nothing rfl rfl
  | _ :: _ :: _ :: _ :: _ :: _ => .nothing rfl (not_allowed_of_long rfl (by simp))

theorem decodes_setPixelOp : ∀ p, Decodes x ⟨0x14#8, p⟩
  | [o, k] => .command (.setPixelOp o k) rfl rfl rfl
  | [] | [_] => .nothing rfl rfl
  | _ :: _ :: _ :: _ => .nothing rfl (not_allowed_of_long rfl (by simp))

theorem decodes_readPixels : ∀ p, Decodes x ⟨0x16#8, p⟩
  | [q, n] => .command (.readPixels q n) rfl rfl rfl
  | [] | [_] => .nothing rfl rfl
  | _ :: _ :: _ :: _ => .nothing rfl (not_allowed_of_long rfl (by simp))

theorem decodes_markUncertain : ∀ p, Decodes x ⟨0x19#8, p⟩
  | [a, b, c, d, e, f, g, h] =>
    .words (c := .markUncertain (joinBytes a b) (joinBytes c d) (joinBytes e f) (joinBytes g h)) rfl rfl (by simp) rfl
  | [] | [_] | [_, _] | [_, _, _] | [_, _, _, _] | [_, _, _, _, _] | [_, _, _, _, _, _] | [_, _, _, _, _, _, _] =>
    .nothing rfl rfl
  | _ :: _ :: _ :: _ :: _ :: _ :: _ :: _ :: _ :: _ => .nothing rfl (not_allowed_of_long rfl (by simp))

theorem decodes_defineTile : ∀ p, Decodes x ⟨0x20#8, p⟩
  | [s, w, h, bh, bl] => .words (c := .defineTile s w h (joinBytes bh bl)) rfl rfl (by simp) rfl
  | [] | [_] | [_, _] | [_, _, _] | [_, _, _, _] => .nothing rfl rfl
  | _ :: _ :: _ :: _ :: _ :: _ :: _ => .nothing rfl (not_allowed_of_long rfl (by simp))

theorem decodes_loadTileData : ∀ p, Decodes x ⟨0x21#8, p⟩
  | s :: oh :: ol :: data =>
    .words (c := .loadTileData s (joinBytes oh ol) data) rfl rfl (by simp) rfl
  | [] | [_] | [_, _] => .nothing rfl rfl

theorem decodes_placeTile : ∀ p, Decodes x ⟨0x22#8, p⟩
  | [s, xh, xl, yh, yl, o, k] =>
    .words (c := .placeTile s (joinBytes xh xl) (joinBytes yh yl) o k) rfl rfl (by simp) rfl
  | [] | [_] | [_, _] | [_, _, _] | [_, _, _, _] | [_, _, _, _, _] | [_, _, _, _, _, _] => .nothing rfl rfl
  | _ :: _ :: _ :: _ :: _ :: _ :: _ :: _ :: _ => .nothing rfl (not_allowed_of_long rfl (by simp))

theorem decodes_loadWaveformData : ∀ p, Decodes x ⟨0x28#8, p⟩
  | oh :: ol :: data => .words (c := .loadWaveformData (joinBytes oh ol) data) rfl rfl (by simp) rfl
  | [] | [_] => .nothing rfl rfl

theorem decodes_submitJob : ∀ p, Decodes x ⟨0x30#8, p⟩
  | [a, b, c, d, e, f, g, h, m, o] =>
    .words (c := .submitJob (joinBytes a b) (joinBytes c d) (joinBytes e f) (joinBytes g h) m o) rfl rfl (by simp) rfl
  | [] | [_] | [_, _] | [_, _, _] | [_, _, _, _] | [_, _, _, _, _] | [_, _, _, _, _, _] | [_, _, _, _, _, _, _]
  | [_, _, _, _, _, _, _, _] | [_, _, _, _, _, _, _, _, _] => .nothing rfl rfl
  | _ :: _ :: _ :: _ :: _ :: _ :: _ :: _ :: _ :: _ :: _ :: _ =>
    .nothing rfl (not_allowed_of_long rfl (by simp))

theorem decodes_armWatchdog : ∀ p, Decodes x ⟨0x40#8, p⟩
  | [ph, pl, a] => .words (c := .armWatchdog (joinBytes ph pl) a) rfl rfl (by simp) rfl
  | [] | [_] | [_, _] => .nothing rfl rfl
  | _ :: _ :: _ :: _ :: _ => .nothing rfl (not_allowed_of_long rfl (by simp))

end

/-- The opcodes of Table 2-4 that travel in the intake. -/
def hostOpcodes : List Byte :=
  [0x01#8, 0x02#8, 0x03#8, 0x04#8, 0x05#8, 0x06#8, 0x07#8, 0x08#8, 0x10#8, 0x11#8, 0x12#8, 0x13#8, 0x14#8, 0x15#8,
    0x16#8, 0x17#8, 0x18#8, 0x19#8, 0x20#8, 0x21#8, 0x22#8, 0x23#8, 0x28#8, 0x29#8, 0x2A#8, 0x30#8, 0x31#8, 0x32#8,
    0x33#8, 0x34#8, 0x35#8, 0x36#8, 0x37#8, 0x3A#8, 0x3B#8, 0x3C#8, 0x40#8, 0x41#8, 0x42#8, 0x43#8]

theorem decodes_of_hostOpcode (x : SensorInput) {op : Byte} (p : List Byte) (h : op ∈ hostOpcodes) :
    Decodes x ⟨op, p⟩ := by
  simp only [hostOpcodes, List.mem_cons, List.not_mem_nil, or_false] at h
  rcases h with rfl | rfl | rfl | rfl | rfl | rfl | rfl | rfl | rfl | rfl | rfl | rfl | rfl | rfl | rfl | rfl | rfl |
    rfl | rfl | rfl | rfl | rfl | rfl | rfl | rfl | rfl | rfl | rfl | rfl | rfl | rfl | rfl | rfl | rfl | rfl | rfl |
    rfl | rfl | rfl | rfl
  · exact decodes_empty x (c := .nop) rfl rfl rfl (fun _ _ => rfl) rfl p
  · exact decodes_byte x (c := .guard) (fun _ => rfl) (fun _ => rfl) (fun _ => rfl) rfl (fun _ _ _ => rfl) rfl p
  · exact decodes_empty x (c := .softReset) rfl rfl rfl (fun _ _ => rfl) rfl p
  · exact decodes_setParameter x p
  · exact decodes_byte x (c := fun n => .getParameter ⟨n, []⟩) (fun _ => rfl) (fun _ => rfl) (fun _ => rfl) rfl
      (fun _ _ _ => rfl) rfl p
  · exact decodes_acknowledgeEvents x p
  · exact decodes_byte x (c := .readJournal) (fun _ => rfl) (fun _ => rfl) (fun _ => rfl) rfl (fun _ _ _ => rfl) rfl p
  · exact decodes_empty x (c := .clearJournal) rfl rfl rfl (fun _ _ => rfl) rfl p
  · exact decodes_setGeometry x p
  · exact decodes_setWindow x p
  · exact decodes_setCursor x p
  · exact decodes_byte x (c := .setScan) (fun _ => rfl) (fun _ => rfl) (fun _ => rfl) rfl (fun _ _ _ => rfl) rfl p
  · exact decodes_setPixelOp x p
  · exact .command (.writePixels p) rfl rfl rfl
  · exact decodes_readPixels x p
  · exact decodes_byte x (c := .fillWindow) (fun _ => rfl) (fun _ => rfl) (fun _ => rfl) rfl (fun _ _ _ => rfl) rfl p
  · exact decodes_empty x (c := .readUncertainMap) rfl rfl rfl (fun _ _ => rfl) rfl p
  · exact decodes_markUncertain x p
  · exact decodes_defineTile x p
  · exact decodes_loadTileData x p
  · exact decodes_placeTile x p
  · exact decodes_byte x (c := .releaseTile) (fun _ => rfl) (fun _ => rfl) (fun _ => rfl) rfl (fun _ _ _ => rfl) rfl p
  · exact decodes_loadWaveformData x p
  · exact decodes_empty x (c := .sealWaveform) rfl rfl rfl (fun _ _ => rfl) rfl p
  · exact decodes_empty x (c := .unsealWaveform) rfl rfl rfl (fun _ _ => rfl) rfl p
  · exact decodes_submitJob x p
  · exact decodes_byte x (c := .cancelJob) (fun _ => rfl) (fun _ => rfl) (fun _ => rfl) rfl (fun _ _ _ => rfl) rfl p
  · exact decodes_byte x (c := .abortJob) (fun _ => rfl) (fun _ => rfl) (fun _ => rfl) rfl (fun _ _ _ => rfl) rfl p
  · exact decodes_empty x (c := .flushQueue) rfl rfl rfl (fun _ _ => rfl) rfl p
  · exact decodes_empty x (c := .startScheduler) rfl rfl rfl (fun _ _ => rfl) rfl p
  · exact decodes_empty x (c := .haltScheduler) rfl rfl rfl (fun _ _ => rfl) rfl p
  · exact decodes_empty x (c := .clearHold) rfl rfl rfl (fun _ _ => rfl) rfl p
  · exact decodes_byte x (c := .queryJob) (fun _ => rfl) (fun _ => rfl) (fun _ => rfl) rfl (fun _ _ _ => rfl) rfl p
  · exact decodes_empty x (c := .railsOn) rfl rfl rfl (fun _ _ => rfl) rfl p
  · exact decodes_empty x (c := .railsOff) rfl rfl rfl (fun _ _ => rfl) rfl p
  · exact decodes_empty x (c := .sampleTemperature x) rfl rfl rfl (fun _ _ => rfl) rfl p
  · exact decodes_armWatchdog x p
  · exact decodes_empty x (c := .feedWatchdog) rfl rfl rfl (fun _ _ => rfl) rfl p
  · exact decodes_empty x (c := .disarmWatchdog) rfl rfl rfl (fun _ _ => rfl) rfl p
  · exact decodes_empty x (c := .enterHibernate ⟨[], 0⟩) rfl rfl rfl (fun _ _ => rfl) rfl p

/-! ### No other opcode -/

/-- Entries of opcode `n` decode only if it is a host opcode. -/
def decodesOnlyHost (x : SensorInput) (p : List Byte) (n : Nat) : Bool :=
  hostOpcodes.contains (BitVec.ofNat 8 n) || (decodeEntry x ⟨BitVec.ofNat 8 n, p⟩).isNone

/-- The 256 opcodes, a quarter at a time, for any payload. -/
theorem decodesOnlyHost_quarter (x : SensorInput) (p : List Byte) (q : Fin 4) :
    (List.range' (64 * q) 64).all (decodesOnlyHost x p) = true := by
  match q with
  | 0 | 1 | 2 | 3 => rfl

theorem mem_hostOpcodes_of_decodes {x : SensorInput} {e : Entry} {c : Instr} (h : decodeEntry x e = some c) :
    e.opcode ∈ hostOpcodes := by
  obtain ⟨op, p⟩ := e
  have lt := op.isLt
  have all := List.all_eq_true.1 (decodesOnlyHost_quarter x p ⟨op.toNat / 64, by omega⟩) op.toNat
    (List.mem_range'_1.2 ⟨by simp only; omega, by simp only; omega⟩)
  simp only [decodesOnlyHost, BitVec.ofNat_toNat, BitVec.setWidth_eq, h, Option.isNone_some, Bool.or_false,
    List.contains_iff_mem] at all
  exact all

theorem mem_hostOpcodes_of_known {op : Byte} (h : knownOpcode op = true) (hf : op ≠ fetchOpcode) :
    op ∈ hostOpcodes := by
  have table : ∀ op : Byte, knownOpcode op = true → op ≠ fetchOpcode → op ∈ hostOpcodes := by decide
  exact table op h hf

theorem knownOpcode_of_allowedLength {op : Byte} {n : Nat} (h : allowedLength op n = true) : knownOpcode op = true := by
  unfold allowedLength at h
  unfold knownOpcode
  cases e : payloadLengths op with
  | none => rw [e] at h; cases h
  | some r => rfl

/-! ### The three parts -/

/-- The entry of a command decodes to it, but for what is no part of the entry. -/
theorem decodeEntry_encodeEntry {c : Instr} {e : Entry} (x : SensorInput) (h : encodeEntry c = some e) :
    decodeEntry x e = some (asDecoded x c) := by
  cases c
  -- the payload is read back word by word
  case setParameter | acknowledgeEvents | setGeometry | setWindow | setCursor | markUncertain | defineTile |
      loadTileData | placeTile | loadWaveformData | submitJob | armWatchdog =>
    cases h
    exact congrArg some (by simp [asDecoded])
  -- the payload is read back byte by byte, or there is no entry
  all_goals cases h <;> rfl

/-- Settles O5: the entries of Table 2-4 one by one, and no others. -/
theorem intakeEntriesDecodeToTheirCommands : Obligations.IntakeEntriesDecodeToTheirCommands := by
  refine ⟨fun x c e _ h => decodeEntry_encodeEntry x h, fun x c e h => ?_, fun x e hf ha => ?_⟩
  · cases decodes_of_hostOpcode x e.payload (mem_hostOpcodes_of_decodes h) with
    | command d hd he hp =>
      obtain rfl : c = d := Option.some.inj (h.symm.trans hd)
      exact ⟨he, hp⟩
    | nothing hn _ => rw [show decodeEntry x e = none from hn] at h; cases h
  · cases decodes_of_hostOpcode x e.payload (mem_hostOpcodes_of_known (knownOpcode_of_allowedLength ha) hf) with
    | command d hd _ _ => rw [show decodeEntry x e = some d from hd]; rfl
    | nothing _ hn => rw [show allowedLength e.opcode e.payload.length = false from hn] at ha; cases ha

end Sys2Proof.PortProofs
end

section
/-! What the port does with one arrival, said once: `portArrival_update`; and that its judgement reads no event flag and no
snapshot. -/

namespace Sys2Proof.PortProofs
open Sys2Proof Sys2Proof.Machine Sys2Proof.Safety Sys2Proof.Claims Sys2Proof.Laws

/-! ### One arrival is one update -/

/-- Everything one arrival can do to the machine. -/
inductive PortUpdate (u : State) : State → Prop
  | none : PortUpdate u u
  | forgotten (b : Bool) : PortUpdate u (u.setForgotten b)
  | failed (r : LinkResult) : PortUpdate u (recordFailure r u)
  | woke (out : List Byte) : PortUpdate u (recordWoke out u)
  | served (new : Bool) (out : List Byte) :
      PortUpdate u
        { u with link := { u.link with lastResult := .ok, respNew := new, openFetch := none, fetchOut := out } }
  | accepted (e : Entry) : PortUpdate u (acceptEntry e u)
  | opened (f : OpenFetch) : PortUpdate u { u with link := { u.link with openFetch := some f } }

theorem closeFetch_update (f : OpenFetch) (k : Nat) (u : State) : PortUpdate u (closeFetch f k u) := by
  unfold closeFetch
  split
  · exact .woke _
  · split
    · exact .woke _
    · exact .served _ _
    · exact .failed _

theorem wholeFetch_update (a : Byte) (bytes : List Byte) (u : State) : PortUpdate u (wholeFetch a bytes u) := by
  unfold wholeFetch
  split
  · exact .woke _
  · split
    · exact .failed _
    · exact closeFetch_update _ _ _

theorem endTransaction_update (a : Byte) (rest : List Byte) (stray : Bool) (u : State) :
    PortUpdate u (endTransaction a rest stray u) := by
  unfold endTransaction
  split
  · exact .woke _
  · split
    · split
      · exact .accepted _
      · exact .none
    · exact .failed _

theorem portTransaction_update (bytes : List Byte) (stray : Bool) (u : State) :
    PortUpdate u (portTransaction bytes stray u) := by
  unfold portTransaction
  split
  · exact .forgotten _
  · split
    · split
      · exact closeFetch_update _ _ _
      · split
        · exact .none
        · split
          · split
            · exact wholeFetch_update _ _ _
            · exact endTransaction_update _ _ _ _
          · exact .none
    · exact .none

theorem portFetch_update (a l c : Byte) (k : Option Nat) (u : State) : PortUpdate u (portFetch a l c k u) := by
  unfold portFetch
  split
  · exact .none
  · split
    · exact .forgotten _
    · split
      · split
        · exact wholeFetch_update _ _ _
        · exact .opened _
      · exact .none

theorem portArrival_update (a : Arrival) (u : State) : PortUpdate u (portArrival a u) := by
  cases a with
  | transaction bytes stray => exact portTransaction_update bytes stray u
  | fetch addr len check readout => exact portFetch_update addr len check readout u

theorem PortUpdate.resp {u v : State} (h : PortUpdate u v) : v.link.resp = u.link.resp := by cases h <;> rfl

theorem PortUpdate.unitAddr {u v : State} (h : PortUpdate u v) : v.link.unitAddr = u.link.unitAddr := by
  cases h <;> rfl

/-- Only an accepted transaction joins the intake (R12). -/
theorem PortUpdate.intake {u v : State} (h : PortUpdate u v) : ∃ e, v.link.intake = u.link.intake ++ e := by
  cases h with
  | accepted e => exact ⟨[e], rfl⟩
  | _ => exact ⟨[], (List.append_nil _).symm⟩

/-- No arrival touches the response buffer or the unit address. -/
theorem receive_resp (l : List Arrival) (u : State) : (u.receive l).link.resp = u.link.resp :=
  receive_keeps (fun u => u.link.resp) (fun a u => (portArrival_update a u).resp) l u

theorem receive_unitAddr (l : List Arrival) (u : State) : (u.receive l).link.unitAddr = u.link.unitAddr :=
  receive_keeps (fun u => u.link.unitAddr) (fun a u => (portArrival_update a u).unitAddr) l u

/-- Arrivals only ever join the intake at its tail (R12, R13). -/
theorem receive_intake (l : List Arrival) : ∀ u : State, ∃ accepted,
    (u.receive l).link.intake = u.link.intake ++ accepted := by
  induction l with
  | nil => exact fun u => ⟨[], (List.append_nil _).symm⟩
  | cons a l ih =>
    intro u
    obtain ⟨e, he⟩ := (portArrival_update a u).intake
    obtain ⟨m, hm⟩ := ih (portArrival a u)
    exact ⟨e ++ m, by rw [← List.append_assoc, ← he]; exact hm⟩

/-! ### The port reads no flag and no snapshot -/

/-- All that the port's judgement reads of a Fetch in flight. -/
def fetchKey (f : OpenFetch) : Option LinkResult × Bool := (f.decision, f.cut.isSome)

/-- Two states that the port judges alike. -/
structure Alike (u v : State) : Prop where
  params : v.params = u.params
  time : v.time = u.time
  reset : v.resetUnit = u.resetUnit
  unitAddr : v.link.unitAddr = u.link.unitAddr
  intake : v.link.intake = u.link.intake
  forgotten : v.link.forgotten = u.link.forgotten
  fetch : v.link.openFetch.map fetchKey = u.link.openFetch.map fetchKey

/-- The event unit with the flags of a mask added. -/
def addFlags (m : Word) (e : Events) : Events := { e with flags := e.flags ||| m }

theorem addFlags_zero (e : Events) : addFlags 0#16 e = e := by simp [addFlags]

theorem addFlags_addFlags (m n : Word) (e : Events) : addFlags n (addFlags m e) = addFlags (m ||| n) e := by
  simp [addFlags, BitVec.or_assoc]

/-- Two like states stay alike and gain the same flags: none, or LINK_ERR. -/
def Together (u v u' v' : State) : Prop :=
  Alike u' v' ∧ ∃ m, (m = 0#16 ∨ m = 0x0200#16) ∧ u'.events = addFlags m u.events ∧ v'.events = addFlags m v.events

section
variable {u v : State}

theorem together_of_events {u' v' : State} (h : Alike u' v') (hu : u'.events = u.events) (hv : v'.events = v.events) :
    Together u v u' v' :=
  ⟨h, 0#16, .inl rfl, by rw [hu, addFlags_zero], by rw [hv, addFlags_zero]⟩

theorem together_failed (h : Alike u v) (r : LinkResult) : Together u v (recordFailure r u) (recordFailure r v) :=
  ⟨⟨h.params, h.time, h.reset, h.unitAddr, h.intake, h.forgotten, rfl⟩, 0x0200#16, .inr rfl, rfl, rfl⟩

theorem together_woke (h : Alike u v) (o p : List Byte) : Together u v (recordWoke o u) (recordWoke p v) :=
  together_of_events
    ⟨h.params, by simp only [recordWoke, h.time], h.reset, h.unitAddr, h.intake, h.forgotten, rfl⟩ rfl rfl

theorem together_closeFetch (h : Alike u v) {f g : OpenFetch} (hf : fetchKey g = fetchKey f) (k n : Nat) :
    Together u v (closeFetch f k u) (closeFetch g n v) := by
  simp only [fetchKey, Prod.mk.injEq] at hf
  unfold closeFetch
  rw [hf.1, hf.2, h.time]
  split
  · exact together_woke h _ _
  · split
    · exact together_woke h _ _
    · exact together_of_events ⟨h.params, rfl, h.reset, h.unitAddr, h.intake, h.forgotten, rfl⟩ rfl rfl
    · exact together_failed h _

theorem fetchKey_openFetchOf (h : Alike u v) (a len : Byte) (header : List Byte) :
    fetchKey (openFetchOf a len header v) = fetchKey (openFetchOf a len header u) := by
  simp only [fetchKey, openFetchOf, h.time, h.params]

theorem together_wholeFetch (h : Alike u v) (a : Byte) (bytes : List Byte) :
    Together u v (wholeFetch a bytes u) (wholeFetch a bytes v) := by
  unfold wholeFetch
  rw [h.time]
  split
  · exact together_woke h _ _
  · split
    · exact together_failed h _
    · exact together_closeFetch h (fetchKey_openFetchOf h _ _ _) _ _

theorem together_endTransaction (h : Alike u v) (a : Byte) (rest : List Byte) (stray : Bool) :
    Together u v (endTransaction a rest stray u) (endTransaction a rest stray v) := by
  unfold endTransaction
  rw [h.time, h.params, h.intake]
  split
  · exact together_woke h _ _
  · split
    · split
      · exact together_of_events
          ⟨h.params, h.time, h.reset, h.unitAddr, by simp only [acceptEntry, h.intake], h.forgotten, h.fetch⟩ rfl rfl
      · exact together_of_events h rfl rfl
    · exact together_failed h _

theorem together_setForgotten (h : Alike u v) (b : Bool) : Together u v (u.setForgotten b) (v.setForgotten b) :=
  together_of_events ⟨h.params, h.time, h.reset, h.unitAddr, h.intake, rfl, h.fetch⟩ rfl rfl

theorem together_portTransaction (h : Alike u v) (bytes : List Byte) (stray : Bool) :
    Together u v (portTransaction bytes stray u) (portTransaction bytes stray v) := by
  unfold portTransaction State.stepsRun
  rw [h.forgotten, h.reset, h.unitAddr]
  split
  · exact together_setForgotten h _
  · split
    · have key := h.fetch
      cases hu : u.link.openFetch with
      | some f =>
        rw [hu] at key
        obtain ⟨g, hg, hk⟩ := Option.map_eq_some_iff.1 key
        rw [hg]
        dsimp only
        exact together_closeFetch h hk _ _
      | none =>
        rw [hu] at key
        rw [Option.map_eq_none_iff.1 key]
        dsimp only
        split
        · exact together_of_events h rfl rfl
        · split
          · split
            · exact together_wholeFetch h _ _
            · exact together_endTransaction h _ _ _
          · exact together_of_events h rfl rfl
    · exact together_of_events h rfl rfl

theorem together_portFetch (h : Alike u v) (a l c : Byte) (k : Option Nat) :
    Together u v (portFetch a l c k u) (portFetch a l c k v) := by
  have closed : v.link.openFetch.isNone = u.link.openFetch.isNone := by
    have := congrArg Option.isNone h.fetch
    simpa only [Option.isNone_map] using this
  unfold portFetch State.stepsRun
  rw [h.forgotten, h.reset, h.unitAddr, closed]
  split
  · exact together_of_events h rfl rfl
  · split
    · exact together_setForgotten h _
    · split
      · split
        · exact together_wholeFetch h _ _
        · refine together_of_events
            ⟨h.params, h.time, rfl, h.unitAddr, h.intake, h.forgotten, ?_⟩ rfl rfl
          simp only [Option.map_some, fetchKey_openFetchOf h]
      · exact together_of_events h rfl rfl

theorem together_receive (l : List Arrival) : ∀ {u v : State}, Alike u v → Together u v (u.receive l) (v.receive l) := by
  induction l with
  | nil => exact fun h => together_of_events h rfl rfl
  | cons a l ih =>
    intro u v h
    have one : Together u v (portArrival a u) (portArrival a v) := by
      cases a with
      | transaction bytes stray => exact together_portTransaction h bytes stray
      | fetch addr len check readout => exact together_portFetch h addr len check readout
    obtain ⟨alike, m, hm, mu, mv⟩ := one
    obtain ⟨alike', n, hn, nu, nv⟩ := ih alike
    refine ⟨alike', m ||| n, ?_, ?_, ?_⟩
    · rcases hm with rfl | rfl <;> rcases hn with rfl | rfl <;> decide
    · rw [← addFlags_addFlags, ← mu]; exact nu
    · rw [← addFlags_addFlags, ← mv]; exact nv

end

/-- What lands in a step adds to the event flags those that it would set with all flags clear: none, or LINK_ERR. -/
theorem receive_events (l : List Arrival) (s : State) :
    (s.portSets l = 0#16 ∨ s.portSets l = 0x0200#16) ∧ (s.receive l).events = addFlags (s.portSets l) s.events := by
  obtain ⟨-, m, hm, hs, h0⟩ := together_receive l (u := s) (v := { s with events := { s.events with flags := 0#16 } })
    ⟨rfl, rfl, rfl, rfl, rfl, rfl, rfl⟩
  have e : s.portSets l = m := by
    unfold State.portSets
    rw [h0]
    simp [addFlags]
  rw [e]
  exact ⟨hm, hs⟩

end Sys2Proof.PortProofs
end

section
/-! O3, O16, O15, O44 and O50: what a command's step reports, and the three commands that notice what lands in it. -/

namespace Sys2Proof.PortProofs
open Sys2Proof Sys2Proof.Machine Sys2Proof.Safety Sys2Proof.Claims Sys2Proof.Laws

/-! ### The end of a command step -/

/-- The model's end of a command step is the one the statements speak of. -/
theorem finishCommand_eq_commandEndOf {c : Instr} (hg : c ≠ .guard 0xC3#8) (own : Bool) (o : OutcomeCode)
    (p : List Byte) (s : State) : finishCommand own (opcodeOf c) o p (disarmGuard s) = commandEndOf own c o p s := by
  unfold finishCommand commandEndOf Link.respondIf
  rw [decide_eq_false hg]
  cases isQuery (opcodeOf c) <;> rfl

theorem finishCommand_intake (own : Bool) (op : Byte) (o : OutcomeCode) (p : List Byte) (s : State) :
    (finishCommand own op o p s).link.intake = if own then s.link.intake.drop 1 else s.link.intake := by
  unfold finishCommand Link.respondIf
  cases isQuery op <;> rfl

theorem finishCommand_resp (own : Bool) (op : Byte) (o : OutcomeCode) (p : List Byte) (s : State) :
    (finishCommand own op o p s).link.resp =
      if isQuery op then ⟨s.link.resp.seq + 1#8, op, o.code, p⟩ else s.link.resp := by
  unfold finishCommand Link.respondIf
  cases isQuery op <;> rfl

theorem finishCommand_respNew (own : Bool) (op : Byte) (o : OutcomeCode) (p : List Byte) (s : State) :
    (finishCommand own op o p s).link.respNew = (isQuery op || s.link.respNew) := by
  unfold finishCommand Link.respondIf
  cases isQuery op <;> rfl

theorem finishCommand_executor (own : Bool) (op : Byte) (o : OutcomeCode) (p : List Byte) (s : State) :
    (finishCommand own op o p s).executor = s.executor.finish op o := rfl

theorem commandEndOf_intake (own : Bool) (c : Instr) (o : OutcomeCode) (p : List Byte) (s : State) :
    (commandEndOf own c o p s).link.intake = if own then s.link.intake.drop 1 else s.link.intake := rfl

section
variable {c : Instr} {s t : State}

/-- The command's own entry leaves the intake, whatever the outcome (R13). -/
theorem CommandEnd.intake (h : CommandEnd c s t) (hr : s.inRun = true) (hc : c ≠ .softReset) :
    t.link.intake =
      if ownsHead c s then (s.receive (arrivedIn c)).link.intake.drop 1 else (s.receive (arrivedIn c)).link.intake := by
  cases h with
  | idle hn => rw [hr] at hn; cases hn
  | refused o p => exact finishCommand_intake _ _ _ _ _
  | accepted u p _ hu => rw [finishCommand_intake, hu.1]
  | slept k u p _ _ _ hu =>
    have left := finishCommand_intake (ownsHead c s) (opcodeOf c) .ok p u
    rw [hu.1] at left
    exact left
  | reset u _ e => exact absurd e hc

end

/-! ### O3 -/

theorem arrivedIn_asDecoded (x : SensorInput) (c : Instr) : arrivedIn (asDecoded x c) = [] := by
  cases c <;> rfl

/-- The lengths that the link lets through are those of a well-formed command (R8, R30). -/
theorem wf_of_allowedLength {c : Instr} {e : Entry} (h : encodeEntry c = some e)
    (ha : allowedLength e.opcode e.payload.length = true) : c.wf = true := by
  cases c with
  | writePixels data => cases h; exact ha
  | loadTileData slot offset data =>
    cases h
    simp [allowedLength, payloadLengths, wordBytes] at ha
    exact dataLengthOk_iff.2 (by omega)
  | loadWaveformData offset data =>
    cases h
    simp [allowedLength, payloadLengths, wordBytes] at ha
    exact dataLengthOk_iff.2 (by omega)
  | pinReset => cases h
  | _ => rfl

/-- With nothing pending in the arbiter the head of the intake is what it starts (R27, R30). -/
theorem arbiterStarts_head {s : State} {e : Entry} {rest : List Entry} {c : Instr} (hw : NothingWaits s)
    (hr : s.inRun = true) (hi : s.link.intake = e :: rest)
    (hd : decodeEntry (Config.freeReading s.freeTaken) e = some c) :
    s.arbiterStarts = some (c, { s with freeTaken := s.freeTaken + 1 }) := by
  obtain ⟨reports, ticks, boundary⟩ := hw
  simp [State.arbiterStarts, Arbiter.next, reports, ticks, boundary, (inRun_iff.1 hr).1, hr, hi, hd]

/-- Settles O3: the head decodes, its command completes, and the end of its step takes the entry off. -/
theorem intakeHeadExecutesAndLeaves : Obligations.IntakeHeadExecutesAndLeaves := by
  intro s e rest hp hw hr hl hi ho
  obtain ⟨hf, ha⟩ := hl.entries e (by rw [hi]; exact List.mem_cons_self)
  obtain ⟨entry, decoded, total⟩ := intakeEntriesDecodeToTheirCommands
  obtain ⟨c, hd⟩ := Option.isSome_iff_exists.1 (total (Config.freeReading s.freeTaken) e hf ha)
  obtain ⟨he, hx⟩ := decoded _ c e hd
  have host : (encodeEntry c).isSome = true := by rw [he]; rfl
  obtain ⟨t, ht⟩ := exec_host_next { s with freeTaken := s.freeTaken + 1 } host (wf_of_allowedLength he ha)
  have quiet : arrivedIn c = [] := by rw [← hx]; exact arrivedIn_asDecoded _ c
  have notReset : c ≠ .softReset := by rintro rfl; cases he; exact ho rfl
  have own : ownsHead c { s with freeTaken := s.freeTaken + 1 } = true := by simp [ownsHead, hi, he]
  have left := (exec_commandEnd host ht).intake hr notReset
  rw [own, quiet] at left
  refine ⟨t, ?_, left.trans (by simp [State.receive, hi])⟩
  rw [step, hp]
  dsimp only
  rw [idleStep, arbiterStarts_head hw hr hi hd]
  exact ht

/-! ### O16 -/

theorem outcome_low_byte (op b : Byte) : (op ++ b : Word).extractLsb' 0 8 = b := loByte_joinBytes op b

/-- A reset is in progress once one has begun. -/
theorem beginReset_inProgress (kind : ResetKind) (extra : List Rect) (judged s : State) :
    (beginReset kind extra judged s).resetUnit.inProgress.isSome = true := by
  rcases beginReset_cases kind extra judged s with i | ⟨-, r, e⟩
  · exact i.underway
  · rw [e]; rfl

/-- Settles O16: by the five ways in which a command's step ends. -/
theorem everyCommandStepReportsItsOutcome : Obligations.EveryCommandStepReportsItsOutcome := by
  intro c s t hc hr ht hn
  have rx := receive_executor (arrivedIn c) s
  have rr := receive_resp (arrivedIn c) s
  cases exec_commandEnd hc ht with
  | idle h => rw [hr] at h; cases h
  | reset u =>
    have := beginReset_inProgress .soft [] u u
    rw [hn] at this; cases this
  | refused o p _ ho hg =>
    have low : ((opcodeOf c ++ o.code : Word)).extractLsb' 0 8 = o.code := outcome_low_byte _ _
    simp only [finishCommand_executor, finishCommand_resp, finishCommand_respNew, Executor.finish, disarmGuard, ho, hg,
      rr, decide_true, decide_false, ne_eq, not_false_eq_true, if_true, if_false]
    refine ⟨trivial, fun _ => ⟨o, p, ho, finishCommand_eq_commandEndOf hg _ _ _ _⟩, nofun, fun hq => ?_, fun hq => ?_⟩
    · simp [hq, low]
    · simp [hq]
  | accepted u p _ hu =>
    obtain ⟨link, executor, -⟩ := hu
    simp only [finishCommand_executor, finishCommand_resp, finishCommand_respNew, Executor.finish, link, executor, rx,
      rr, ne_eq, not_true_eq_false, decide_false, if_true]
    refine ⟨trivial, nofun, fun _ => trivial, fun hq => ?_, fun hq => ?_⟩
    · simp [hq, OutcomeCode.code]
    · simp [hq]
  | slept k u p _ hg hq hu =>
    obtain ⟨link, executor, -⟩ := hu
    have fin := finishCommand_executor (ownsHead c s) (opcodeOf c) .ok p u
    have resp := finishCommand_resp (ownsHead c s) (opcodeOf c) .ok p u
    have new := finishCommand_respNew (ownsHead c s) (opcodeOf c) .ok p u
    simp only [hq, Bool.false_or, Bool.false_eq_true, if_false, link] at resp new
    rw [hibernate_executor, fin, executor]
    refine ⟨by simp [Executor.finish, hg], by simp [Executor.finish], by simp [Executor.finish, rx], ?_, fun _ => ?_⟩
    · rw [hq]; nofun
    · exact ⟨resp.trans rr, new⟩

/-! ### Commands in whose step transactions land -/

/-- A command with arrivals in its step that is refused. -/
theorem commandAmid_refuse {l : List Arrival} {c : Instr} {work : State → Verdict} {s : State} {o : OutcomeCode}
    {p : List Byte} (hr : s.inRun = true) (hg : c ≠ .guard 0xC3#8)
    (hw : work (disarmGuard (s.receive l)) = .refuse o p) :
    commandAmid l c work s = commandEndOf (ownsHead c s) c o p (s.receive l) := by
  simp only [commandAmid, hr, commandStep, receive_inRun l hr, if_true, hw]
  exact finishCommand_eq_commandEndOf hg _ _ _ _

/-- One that is accepted, `u` being what its work leaves, but for the Guard latch. -/
theorem commandAmid_accept {l : List Arrival} {c : Instr} {work : State → Verdict} {s u : State} {p : List Byte}
    (hr : s.inRun = true) (hg : c ≠ .guard 0xC3#8)
    (hw : work (disarmGuard (s.receive l)) = .accept (disarmGuard u) p) :
    commandAmid l c work s = commandEndOf (ownsHead c s) c .ok p u := by
  simp only [commandAmid, hr, commandStep, receive_inRun l hr, if_true, hw]
  exact finishCommand_eq_commandEndOf hg _ _ _ _

theorem plainCommand_refuse {c : Instr} {work : State → Verdict} {s : State} {o : OutcomeCode} {p : List Byte}
    (hr : s.inRun = true) (hg : c ≠ .guard 0xC3#8) (hw : work (disarmGuard s) = .refuse o p) :
    plainCommand c work s = commandEnd c o p s := by
  simp only [plainCommand, commandStep, hr, if_true, hw]
  exact finishCommand_eq_commandEndOf hg _ _ _ _

theorem plainCommand_accept {c : Instr} {work : State → Verdict} {s u : State} {p : List Byte}
    (hr : s.inRun = true) (hg : c ≠ .guard 0xC3#8) (hw : work (disarmGuard s) = .accept (disarmGuard u) p) :
    plainCommand c work s = commandEndOf (ownsHead c s) c .ok p u := by
  simp only [plainCommand, commandStep, hr, if_true, hw]
  exact finishCommand_eq_commandEndOf hg _ _ _ _

/-! ### O15 -/

/-- Table 2-3 defines exactly the numbers of its RW and RO rows. -/
theorem isParam_iff (n : Byte) : isParam n = true ↔ Writable n ∨ ReadOnly n := by
  have table : ∀ n : Byte, isParam n = true ↔ Writable n ∨ ReadOnly n := by
    unfold Writable ReadOnly; decide
  exact table n

theorem execGetParameter_defined {s : State} {n : Byte} (l : List Arrival) (hr : s.inRun = true)
    (hn : isParam n = true) :
    exec (.getParameter ⟨n, l⟩) s =
      .next
        (commandEndOf (ownsHead (.getParameter ⟨n, l⟩) s) (.getParameter ⟨n, l⟩) .ok (wordBytes (readParam n s))
          (s.receive l)) :=
  congrArg Host.Outcome.next (commandAmid_accept hr nofun (by simp only [hn, if_true]))

theorem execGetParameter_undefined {s : State} {n : Byte} (l : List Arrival) (hr : s.inRun = true)
    (hn : isParam n = false) :
    exec (.getParameter ⟨n, l⟩) s =
      .next
        (commandEndOf (ownsHead (.getParameter ⟨n, l⟩) s) (.getParameter ⟨n, l⟩) .noParam [] (s.receive l)) :=
  congrArg Host.Outcome.next (commandAmid_refuse hr nofun (by simp only [hn, Bool.false_eq_true, if_false]))

theorem broadcastBit_append_toNat (a : BitVec 3) : (0#1 ++ a : BitVec 4).toNat = a.toNat := by
  revert a; decide

/-- The link takes a transaction as its own exactly when the statements say it concerns the part (R3). -/
theorem addressed_iff (s : State) (a : Byte) : addressed s.link.unitAddr a = true ↔ concerns s a := by
  unfold addressed addrField concerns
  simp only [Bool.or_eq_true, beq_iff_eq]
  refine or_congr ⟨fun h => ?_, fun h => ?_⟩ ⟨fun h => ?_, fun h => ?_⟩
  · exact BitVec.eq_of_toNat_eq (h.trans (broadcastBit_append_toNat _).symm)
  · rw [h]; exact broadcastBit_append_toNat _
  · exact BitVec.eq_of_toNat_eq h
  · rw [h]; rfl

theorem snapshotBytes_eq (checked : Bool) (s : State) : snapshotBytes checked s = fetchBytes checked s := rfl

theorem portFetch_open {s : State} {addr len check : Byte} (hr : s.stepsRun = true) (ho : s.link.openFetch = none)
    (hf : s.link.forgotten = false) (ha : addressed s.link.unitAddr addr = true) :
    portFetch addr len check none s =
      { s with
        link := { s.link with openFetch := some (openFetchOf addr len (fetchHeader addr len check) s) } } := by
  simp [portFetch, hr, ho, hf, ha]

/-- Settles O15. -/
theorem getParameterAnswers : Obligations.GetParameterAnswers := by
  refine ⟨fun s n l hr => ⟨fun hn => ?_, fun hw ho => ?_⟩, fun s a rest bytes stray addr len check readout => ?_, ?_⟩
  · exact execGetParameter_defined l hr ((isParam_iff n).2 hn)
  · refine execGetParameter_undefined l hr ?_
    rw [Bool.eq_false_iff, Ne, isParam_iff]
    exact not_or.2 ⟨hw, ho⟩
  · exact ⟨rfl, rfl, rfl, rfl⟩
  · intro s n addr len check l hr ho hf hc
    have addr' : addressed (s.receive l).link.unitAddr addr = true := by
      rw [receive_unitAddr]; exact (addressed_iff s addr).2 hc
    have last : s.receive (l ++ [.fetch addr len check none]) = portFetch addr len check none (s.receive l) :=
      List.foldl_append
    rw [portFetch_open (inRun_iff.1 (receive_inRun l hr)).1 ho hf addr'] at last
    cases hn : isParam n with
    | true => exact ⟨_, _, execGetParameter_defined _ hr hn, by rw [last]; rfl, rfl, rfl⟩
    | false => exact ⟨_, _, execGetParameter_undefined _ hr hn, by rw [last]; rfl, rfl, rfl⟩

/-! ### O44 -/

/-- The flags that the port sets meanwhile survive the acknowledgement (R15, R152). -/
theorem acknowledge_amid (f w m : Word) : (f ||| w) &&& ~~~(m &&& ~~~w) = (f &&& ~~~m) ||| w := by
  ext i hi
  simp only [BitVec.getElem_and, BitVec.getElem_or, BitVec.getElem_not]
  cases f[i] <;> cases w[i] <;> cases m[i] <;> rfl

theorem execAcknowledgeEvents_eq {s : State} (mask : Word) (l : List Arrival) (hr : s.inRun = true) :
    exec (.acknowledgeEvents ⟨mask, l⟩) s =
      .next
        (commandEndOf (ownsHead (.acknowledgeEvents ⟨mask, l⟩) s) (.acknowledgeEvents ⟨mask, l⟩) .ok []
          { s.receive l with
            events := { s.events with flags := (s.events.flags &&& ~~~mask) ||| s.portSets l } }) := by
  refine congrArg Host.Outcome.next (commandAmid_accept hr nofun ?_)
  simp only [disarmGuard, Events.acknowledge, (receive_events l s).2, addFlags, acknowledge_amid]

theorem journalPayload_eq (k : Nat) (e : Events) :
    journalPayload k e =
      [BitVec.ofNat 8 (min k e.journal.length), BitVec.ofNat 8 (e.journal.length - min k e.journal.length),
          BitVec.ofNat 8 e.lost]
        ++ (e.journal.take (min k e.journal.length)).flatMap fun r =>
          [r.seq, r.code.code, r.ticket, r.detail.extractLsb' 8 8, r.detail.extractLsb' 0 8] := by
  have rest : e.journal.length - k = e.journal.length - min k e.journal.length := by omega
  have part : e.journal.take k = e.journal.take (min k e.journal.length) := by
    rw [← List.take_eq_take_min]
  simp only [journalPayload, List.length_take, List.length_drop, rest, byteOf]
  rw [part]
  rfl

/-- Settles O44. -/
theorem acknowledgeReadAndClear : Obligations.AcknowledgeReadAndClear := by
  intro s mask l count hr
  refine ⟨⟨(receive_events l s).1, ?_, execAcknowledgeEvents_eq mask l hr⟩, ?_, fun hk => ?_, fun h1 h4 => ?_⟩
  · rw [(receive_events l s).2]; rfl
  · exact congrArg Host.Outcome.next (plainCommand_accept hr nofun rfl)
  · exact congrArg Host.Outcome.next (plainCommand_refuse hr nofun (by simp only [hk, if_true]))
  · have ok : ¬ (count.toNat = 0 ∨ 4 < count.toNat) := by omega
    have drop : s.events.journal.drop count.toNat = s.events.journal.drop (min count.toNat s.events.journal.length) := by
      rw [← List.drop_eq_drop_min]
    refine congrArg Host.Outcome.next (plainCommand_accept hr nofun ?_)
    simp only [ok, if_false, journalPayload_eq]
    rw [← drop]
    rfl

/-! ### O50 -/

/-- The model's entry into Hibernate is the one the statements speak of. -/
theorem hibernate_eq_fallenAsleep (k : Nat) (s : State) : hibernate k s = fallenAsleep k s := rfl

section
variable {s : State} {m : Meanwhile}

/-- What stays of the intake when a command's own entry leaves is empty exactly when it held nothing else. -/
theorem leave_isEmpty_iff :
    (s.link.leave (ownsHead (.enterHibernate m) s)).intake.isEmpty = true ↔
      s.link.intake = [] ∨ s.link.intake = [⟨0x43#8, []⟩] := by
  unfold Link.leave ownsHead
  cases hi : s.link.intake with
  | nil => simp
  | cons e rest =>
    by_cases he : e = ⟨0x43#8, []⟩
    · subst he; simp [encodeEntry]
    · simp [encodeEntry, he]

/-- The entry conditions of Hibernate (R166). -/
def Quiet (s : State) : Prop :=
  (s.sched.state = .halted ∨ s.sched.state = .holding) ∧ s.sched.queue = [] ∧ s.sched.lanes.anyActive = false ∧
    (s.supply.rail = .off ∨ s.supply.rail = .fault) ∧ (s.link.intake = [] ∨ s.link.intake = [⟨0x43#8, []⟩])

theorem mayHibernate_iff : mayHibernate (ownsHead (.enterHibernate m) s) s = true ↔ Quiet s := by
  unfold mayHibernate Quiet
  rw [Bool.and_eq_true, leave_isEmpty_iff]
  simp only [Bool.and_eq_true, Bool.or_eq_true, decide_eq_true_eq, List.isEmpty_iff, Bool.not_eq_true', and_assoc]

/-- In Hibernate's entry conditions the intake holds nothing but the command's own entry, so what it holds at the end
of the step is what was accepted meanwhile. -/
theorem intake_leave_of_quiet {accepted : List Entry} (hq : Quiet s) :
    (if ownsHead (.enterHibernate m) s then (s.link.intake ++ accepted).drop 1 else s.link.intake ++ accepted) =
      accepted := by
  obtain ⟨-, -, -, -, hi | hi⟩ := hq <;> simp [ownsHead, encodeEntry, hi]

/-- A command step of Enter Hibernate, the checks done. -/
theorem enterHibernate_step {t : State} {met : Bool} (hr : t.inRun = true) (own : Bool) :
    commandStep own (.enterHibernate m) (hibernateWork met) t =
      commandEndOf own (.enterHibernate m)
        (if t.executor.guardLatch then if met then .ok else .hibBusy else .guard) [] t := by
  have e := fun o => finishCommand_eq_commandEndOf (c := .enterHibernate m) nofun own o [] t
  unfold commandStep hibernateWork
  rw [hr]
  cases t.executor.guardLatch with
  | false => exact e .guard
  | true =>
    cases met with
    | false => exact e .hibBusy
    | true => exact e .ok

/-- Enter Hibernate in Run: its checks look at the state before the step, its step leaves what landed meanwhile. -/
theorem execEnterHibernate_inRun (hr : s.inRun = true) {met : Bool}
    (hm : mayHibernate (ownsHead (.enterHibernate m) s) s = met) :
    execEnterHibernate m s =
      .next
        (let t :=
          commandEndOf (ownsHead (.enterHibernate m) s) (.enterHibernate m)
            (if s.executor.guardLatch then if met then .ok else .hibBusy else .guard) [] (s.receive m.arrived)
        if s.executor.guardLatch && met && t.link.intake.isEmpty then fallenAsleep m.clocked t else t) := by
  simp only [execEnterHibernate_eq, hr, hm, if_true, enterHibernate_step (receive_inRun m.arrived hr),
    receive_executor, hibernate_eq_fallenAsleep]

end

/-- Settles O50. -/
theorem enterHibernateChecksThenSleeps : Obligations.EnterHibernateChecksThenSleeps := by
  intro s l k hr
  refine ⟨fun hg => ?_, fun hg hq => ?_, fun hg hq => ?_⟩
  · have e := execEnterHibernate_inRun (m := ⟨l, k⟩) hr rfl
    rw [hg] at e
    exact e
  · have e := execEnterHibernate_inRun (m := ⟨l, k⟩) hr (Bool.eq_false_iff.2 (mt mayHibernate_iff.1 hq))
    rw [hg] at e
    exact e
  · obtain ⟨accepted, ha⟩ := receive_intake l s
    have e := execEnterHibernate_inRun (m := ⟨l, k⟩) hr (mayHibernate_iff.2 hq)
    have left :
        (commandEndOf (ownsHead (.enterHibernate ⟨l, k⟩) s) (.enterHibernate ⟨l, k⟩) .ok [] (s.receive l)).link.intake =
          accepted := by
      rw [commandEndOf_intake, ha]
      exact intake_leave_of_quiet hq
    refine ⟨accepted, ha, left, e.trans ?_⟩
    simp only [hg, Bool.and_self, Bool.true_and, if_true, left, List.isEmpty_iff]

end Sys2Proof.PortProofs
end

section
/-! O6 to O9 and O11: the port's judgement of transactions and Fetches, and what the outside reads of the port. -/

namespace Sys2Proof.PortProofs
open Sys2Proof Sys2Proof.Machine Sys2Proof.Safety Sys2Proof.Claims Sys2Proof.Laws

/-! ### The model's link updates are the statements' -/

theorem recordFailure_eq_linkFailure (r : LinkResult) (s : State) : recordFailure r s = linkFailure r s := rfl

theorem recordWoke_eq_linkWoke (out : List Byte) (s : State) : recordWoke out s = linkWoke out s := by
  have stable : (if s.time.causes.any then s.time.oscStable else false) = (s.time.causes.any && s.time.oscStable) := by
    cases s.time.causes.any <;> rfl
  unfold recordWoke linkWoke Timebase.addCause
  rw [stable]
  rfl

theorem stepsRun_iff {s : State} : s.stepsRun = true ↔ s.resetUnit.inProgress = none := Option.isNone_iff_eq_none

theorem stepsRun_eq_false_iff {s : State} : s.stepsRun = false ↔ s.resetUnit.inProgress ≠ none := by
  rw [← Bool.not_eq_true, stepsRun_iff]

theorem setForgotten_false_of_not {s : State} (h : s.link.forgotten = false) : s.setForgotten false = s := by
  unfold State.setForgotten
  rw [← h]

/-! ### Ordered tests -/

/-- A test matters only when those before it have not failed. -/
theorem firstOf_cons_congr {α : Type} {b c : Bool} {x : α} {l m : List (Bool × α)} (hb : b = c)
    (h : c = false → firstOf l = firstOf m) : firstOf ((b, x) :: l) = firstOf ((c, x) :: m) := by
  subst hb
  cases b with
  | true => rfl
  | false => exact h rfl

theorem firstOf_mem {α : Type} {x : α} : ∀ {l : List (Bool × α)}, firstOf l = some x → x ∈ l.map Prod.snd
  | (true, y) :: l, h => by cases h; exact List.mem_cons_self
  | (false, y) :: l, h => List.mem_cons_of_mem _ (firstOf_mem h)

theorem isBroadcast_eq (a : Byte) : isBroadcast a = decide (a.extractLsb' 4 4 = 15#4) := by
  have table : ∀ x : BitVec 4, (x.toNat == 15) = decide (x = 15#4) := by decide
  exact table _

theorem not_markerOk_eq (a : Byte) : (!markerOk a) = decide (a.extractLsb' 0 3 ≠ 5#3) := (decide_not).symm

/-- The address byte, the bytes before the check byte, and the check byte. -/
theorem take_append_getD {α : Type} {l : List α} {n : Nat} (d : α) (h : l.length = n + 1) :
    l.take n ++ [l.getD n d] = l := by
  have hn : n < l.length := by omega
  rw [List.getD_eq_getElem _ _ hn, ← List.take_succ_eq_append_getElem hn, List.take_of_length_le (by omega)]

/-! ### The seven tests (R6 to R10) -/

/-- The model's tests of a transaction whose opcode and length byte are complete, in its own words. -/
def portTests (s : State) (a opcode len : Byte) (body : List Byte) (stray : Bool) : List (Bool × LinkResult) :=
  [ (!markerOk a, .framing),
    (decide (body.length < bodyLength a len) || stray, .truncated),
    (lengthFails a opcode len body.length, .length),
    (chkBit a && decide (crc8 (a :: opcode :: len :: body) ≠ 0#8), .check),
    (policyFails s.params.requireCheck a opcode, .policy),
    (decide (Config.intakeSize ≤ s.link.intake.length), .overrun),
    (!knownOpcode opcode, .opcode) ]

theorem linkResult_eq_portTests (s : State) (a opcode len : Byte) (body : List Byte) (stray : Bool) :
    linkResult s.params.requireCheck s.link.intake.length a (opcode :: len :: body) stray =
      (firstOf (portTests s a opcode len body stray)).getD .ok := by
  simp only [linkResult, portTests, firstOf, apply_ite (fun r => Option.getD r LinkResult.ok), Option.getD_some,
    Option.getD_none]

/-- The model's tests and the statements' fail together, each in its place. -/
theorem firstOf_linkTests (s : State) {a opcode : Byte} (len : Byte) (body : List Byte) (stray : Bool)
    (ho : opcode ≠ 0x00#8) :
    firstOf (linkTests s a (opcode :: len :: body) stray) = firstOf (portTests s a opcode len body stray) := by
  unfold linkTests portTests
  simp only [List.getD_cons_zero, List.getD_cons_succ, List.length_cons]
  refine firstOf_cons_congr (not_markerOk_eq a).symm fun _ => firstOf_cons_congr ?_ fun short => ?_
  · have : decide (body.length + 1 + 1 + 1 < 3) = false := decide_eq_false (by omega)
    rw [this, Bool.false_or]
    congr 1
    refine decide_eq_decide.2 ?_
    unfold bodyLength chkBit
    omega
  refine firstOf_cons_congr ?_ fun long => firstOf_cons_congr ?_ fun _ => ?_
  · unfold lengthFails
    congr 1
    refine decide_eq_decide.2 ?_
    unfold bodyLength chkBit
    omega
  · simp only [Bool.or_eq_false_iff, decide_eq_false_iff_not, lengthFails] at short long
    unfold chkBit
    cases hc : a.getLsbD 3 with
    | false => rfl
    | true =>
      have size : (a :: opcode :: len :: body).length = 3 + len.toNat + 1 := by
        simp only [bodyLength, chkBit, hc, if_true] at short long
        simp only [List.length_cons]
        omega
      have whole := take_append_getD 0#8 size
      have crc := crc8_append_eq_zero ((a :: opcode :: len :: body).take (3 + len.toNat))
        ((a :: opcode :: len :: body).getD (3 + len.toNat) 0#8)
      rw [whole] at crc
      rw [Bool.true_and, Bool.true_and]
      refine decide_eq_decide.2 (not_congr (Iff.trans ?_ crc.symm))
      rw [show 3 + len.toNat = 2 + len.toNat + 1 by omega]
      rfl
  · refine firstOf_cons_congr ?_ fun _ => rfl
    have hf : (opcode == fetchOpcode) = false := beq_eq_false_iff_ne.2 ho
    unfold policyFails Params.requireCheck chkBit
    rw [hf, isBroadcast_eq, Bool.or_false]

/-- The model's result of a transaction that is not a Fetch: the first of the seven tests that fails, else OK. -/
theorem linkResult_eq (s : State) {a : Byte} {rest : List Byte} (stray : Bool) (hf : rest.head? ≠ some 0x00#8) :
    linkResult s.params.requireCheck s.link.intake.length a rest stray =
      (firstOf (linkTests s a rest stray)).getD .ok := by
  match rest with
  | opcode :: len :: body =>
    rw [firstOf_linkTests s len body stray (by simpa using hf)]
    exact linkResult_eq_portTests s a opcode len body stray
  | [] | [_] =>
    simp only [linkResult, linkTests, firstOf, not_markerOk_eq]
    split <;> rfl

theorem firstOf_linkTests_ne_ok {s : State} {a : Byte} {rest : List Byte} {stray : Bool} :
    firstOf (linkTests s a rest stray) ≠ some .ok := by
  intro h
  have := firstOf_mem h
  simp [linkTests] at this

theorem endTransaction_failed {s : State} {a : Byte} {rest : List Byte} {stray : Bool} {r : LinkResult}
    (hp : s.time.power = .run) (hl : linkResult s.params.requireCheck s.link.intake.length a rest stray = r)
    (hr : r ≠ .ok) : endTransaction a rest stray s = linkFailure r s := by
  unfold endTransaction
  rw [if_neg (by rw [hp]; nofun), hl]
  split
  · exact absurd rfl hr
  · rfl

theorem endTransaction_accepted {s : State} {a opcode len : Byte} {body : List Byte} {stray : Bool}
    (hp : s.time.power = .run)
    (hl : linkResult s.params.requireCheck s.link.intake.length a (opcode :: len :: body) stray = .ok) :
    endTransaction a (opcode :: len :: body) stray s = acceptEntry ⟨opcode, body.take len.toNat⟩ s := by
  unfold endTransaction
  rw [if_neg (by rw [hp]; nofun), hl]
  rfl

/-! ### Which way a rising edge of CS# takes -/

section
variable {s : State}

theorem portTransaction_of_open {f : OpenFetch} (hr : s.stepsRun = true) (hf : s.link.forgotten = false)
    (ho : s.link.openFetch = some f) (bytes : List Byte) (stray : Bool) :
    portTransaction bytes stray s = closeFetch f (bytes.length - f.headerLen) s := by
  simp only [portTransaction, hr, hf, ho, Bool.false_eq_true, if_false, if_true]

theorem portTransaction_of_closed {a : Byte} (hr : s.stepsRun = true) (hf : s.link.forgotten = false)
    (ho : s.link.openFetch = none) (hc : concerns s a) (rest : List Byte) (stray : Bool) :
    portTransaction (a :: rest) stray s =
      if rest.head? = some 0x00#8 then wholeFetch a (a :: rest) s else endTransaction a rest stray s := by
  simp only [portTransaction, hr, hf, ho, (addressed_iff s a).2 hc, Bool.false_eq_true, if_false, if_true]
  rfl

theorem portFetch_whole {a : Byte} (hr : s.stepsRun = true) (hf : s.link.forgotten = false)
    (ho : s.link.openFetch = none) (hc : concerns s a) (len check : Byte) (k : Nat) :
    portFetch a len check (some k) s = wholeFetch a (fetchHeader a len check ++ List.replicate k 0#8) s := by
  simp [portFetch, hr, hf, ho, (addressed_iff s a).2 hc]

end

/-- Settles O6. -/
theorem transactionIsJudgedBySevenTests : Obligations.TransactionIsJudgedBySevenTests := by
  intro s a rest stray hr ho hf hc hh
  obtain ⟨steps, power⟩ := inRun_iff.1 hr
  have judged := linkResult_eq s (a := a) stray hh
  refine congrArg Host.Outcome.next ((portTransaction_of_closed steps hf ho hc rest stray).trans ?_)
  rw [if_neg hh]
  cases e : firstOf (linkTests s a rest stray) with
  | some r =>
    refine endTransaction_failed power (by rw [judged, e]; rfl) ?_
    rintro rfl
    exact firstOf_linkTests_ne_ok e
  | none =>
    rw [e] at judged
    obtain ⟨opcode, len, body, rfl, -⟩ := linkResult_ok judged
    exact endTransaction_accepted power judged

/-! ### Traffic that is not judged -/

section
variable {s : State}

theorem portTransaction_ended (h : s.resetUnit.inProgress ≠ none ∨ s.link.forgotten = true) (bytes : List Byte)
    (stray : Bool) : portTransaction bytes stray s = s.setForgotten false := by
  unfold portTransaction
  cases hf : s.link.forgotten with
  | true => rfl
  | false =>
    rw [hf] at h
    have hr := stepsRun_eq_false_iff.2 (h.resolve_right nofun)
    simp only [hr, Bool.false_eq_true, if_false, setForgotten_false_of_not hf]

theorem portFetch_forgotten (h : s.link.forgotten = true) (a len check : Byte) (k : Option Nat) :
    portFetch a len check k s = s := by
  unfold portFetch
  rw [h]
  rfl

theorem portFetch_of_reset (hr : s.resetUnit.inProgress ≠ none) (a len check : Byte) (k : Option Nat) :
    portFetch a len check k s = if s.link.forgotten then s else s.setForgotten k.isNone := by
  unfold portFetch
  rw [stepsRun_eq_false_iff.2 hr]
  rfl

theorem portTransaction_empty (hf : s.link.forgotten = false) (ho : s.link.openFetch = none) (stray : Bool) :
    portTransaction [] stray s = s := by
  simp [portTransaction, hf, ho]

theorem portTransaction_not_addressed {a : Byte} (hf : s.link.forgotten = false) (ho : s.link.openFetch = none)
    (hc : ¬ concerns s a) (rest : List Byte) (stray : Bool) : portTransaction (a :: rest) stray s = s := by
  simp [portTransaction, hf, ho, mt (addressed_iff s a).1 hc]

theorem portFetch_not_addressed {a : Byte} (hr : s.stepsRun = true) (hf : s.link.forgotten = false)
    (hc : ¬ concerns s a) (len check : Byte) (k : Option Nat) : portFetch a len check k s = s := by
  simp [portFetch, hr, hf, mt (addressed_iff s a).1 hc]

theorem wholeFetch_asleep (hp : s.time.power = .hibernate) (a : Byte) (bytes : List Byte) :
    wholeFetch a bytes s = linkWoke [] s := by
  rw [wholeFetch, if_pos hp, recordWoke_eq_linkWoke]

theorem endTransaction_asleep (hp : s.time.power = .hibernate) (a : Byte) (rest : List Byte) (stray : Bool) :
    endTransaction a rest stray s = linkWoke [] s := by
  rw [endTransaction, if_pos hp, recordWoke_eq_linkWoke]

end

/-- Settles O7. -/
theorem unjudgedTrafficLeavesNoTraceOrWakes : Obligations.UnjudgedTrafficLeavesNoTraceOrWakes := by
  intro s bytes stray addr len check readout k
  have answers : ∀ {u v : State}, u = v → (.next u : Host.Outcome State Fault Refusal) = .next v :=
    congrArg Host.Outcome.next
  refine ⟨⟨rfl, fun h => answers (portTransaction_ended h bytes stray)⟩,
    fun h => answers (portFetch_forgotten h addr len check readout), fun hr => ⟨answers ?_, answers ?_⟩,
    fun hf ho => ⟨answers (portTransaction_empty hf ho stray),
      fun hc => ⟨answers (portTransaction_not_addressed hf ho hc bytes stray),
        fun hr => answers (portFetch_not_addressed (stepsRun_iff.2 hr) hf hc len check readout)⟩,
      fun hr hp hc => ⟨answers ?_, answers ?_⟩⟩⟩
  · rw [portFetch_of_reset hr]
    cases hf : s.link.forgotten with
    | true => rfl
    | false => exact setForgotten_false_of_not hf
  · rw [portFetch_of_reset hr]
    cases hf : s.link.forgotten with
    | true => simp only [if_true, ← hf]
    | false => rfl
  · refine (portTransaction_of_closed (stepsRun_iff.2 hr) hf ho hc bytes stray).trans ?_
    split
    · exact wholeFetch_asleep hp _ _
    · exact endTransaction_asleep hp _ _ _
  · rw [portFetch_whole (stepsRun_iff.2 hr) hf ho hc]
    exact wholeFetch_asleep hp _ _

/-! ### Fetch -/

theorem fetchHeader_length (a len check : Byte) : (fetchHeader a len check).length = fetchHeaderLen a := by
  unfold fetchHeader fetchHeaderLen
  split <;> rfl

/-- The model's decision at the end of a Fetch's header: the first of the four tests that fails, else OK (R17). -/
theorem fetchResult_eq (s : State) (a len check : Byte) :
    fetchResult s.params.requireCheck a len (fetchHeader a len check) =
      (firstOf (fetchTests s a len check)).getD .ok := by
  have crc : (chkBit a && decide (crc8 (fetchHeader a len check) ≠ 0#8)) =
      (a.getLsbD 3 && decide (check ≠ crc8 [a, 0#8, len])) := by
    unfold fetchHeader chkBit
    cases a.getLsbD 3 with
    | false => rfl
    | true => exact decide_eq_decide.2 (not_congr (crc8_append_eq_zero [a, 0#8, len] check))
  have policy : policyFails s.params.requireCheck a fetchOpcode =
      ((!a.getLsbD 3 && s.params.linkPolicy.getLsbD 0) || decide (a.extractLsb' 4 4 = 15#4)) := by
    unfold policyFails
    rw [isBroadcast_eq, beq_self_eq_true, Bool.or_true, Bool.and_true]
    rfl
  simp only [fetchResult, fetchTests, firstOf, crc, policy, not_markerOk_eq,
    apply_ite (fun r => Option.getD r LinkResult.ok), Option.getD_some, Option.getD_none]

theorem firstOf_fetchTests_ne_ok {s : State} {a len check : Byte} : firstOf (fetchTests s a len check) ≠ some .ok := by
  intro h
  have := firstOf_mem h
  simp [fetchTests] at this

/-- The header of a Fetch leaves in flight what the statements say (R17, R18, R25). -/
theorem openFetchOf_eq (s : State) (a len check : Byte) :
    some (openFetchOf a len (fetchHeader a len check) s) = (fetchOpened s a len check).link.openFetch := by
  simp only [openFetchOf, fetchOpened, fetchHeader_length, fetchResult_eq, snapshotBytes_eq]
  rfl

theorem execFetch_opened {s : State} {a : Byte} (len check : Byte) (hr : s.resetUnit.inProgress = none)
    (ho : s.link.openFetch = none) (hf : s.link.forgotten = false) (hc : concerns s a) :
    exec (.fetch a len check none) s = .next (fetchOpened s a len check) := by
  refine congrArg Host.Outcome.next
    ((portFetch_open (stepsRun_iff.2 hr) ho hf ((addressed_iff s a).2 hc)).trans ?_)
  rw [openFetchOf_eq]
  rfl

/-- The rising edge of CS# that ends a Fetch, in the statements' words (R17, R18, R21, R25). -/
theorem closeFetch_eq (f : OpenFetch) (k : Nat) (s : State) :
    closeFetch f k s =
      if s.time.power = .hibernate ∨ f.cut ≠ none then linkWoke (f.cut.getD []) s
      else
        match f.decision with
        | none => linkWoke [] s
        | some .ok => fetchServed f.snapshot k (decide (f.wholeLen ≤ k)) f.current s
        | some r => linkFailure r s := by
  have awake : (f.cut.isSome || decide (s.time.power = .hibernate)) = true ↔
      s.time.power = .hibernate ∨ f.cut ≠ none := by
    rw [Bool.or_eq_true, decide_eq_true_eq, Option.isSome_iff_ne_none, or_comm]
  have new : ∀ b, (if b then false else s.link.respNew) = (s.link.respNew && !b) := by
    intro b; cases b <;> cases s.link.respNew <;> rfl
  unfold closeFetch
  simp only [awake, recordWoke_eq_linkWoke, recordFailure_eq_linkFailure, new]
  rfl

/-- A whole Fetch in Run whose header is complete: a failing test has its effects, else the response is delivered. -/
def fetchJudged (s : State) (a len check : Byte) (k : Nat) : State :=
  match firstOf (fetchTests s a len check) with
  | some r => linkFailure r s
  | none => fetchServed (fetchBytes (a.getLsbD 3) s) k (decide (5 + s.link.resp.payload.length ≤ k)) true s

theorem wholeFetch_of_header {s : State} {a len check : Byte} (hp : s.time.power = .run) (more : List Byte) :
    wholeFetch a (fetchHeader a len check ++ more) s = fetchJudged s a len check more.length := by
  have size := fetchHeader_length a len check
  have third : (fetchHeader a len check).getD 2 0#8 = len := rfl
  have awake : ¬ s.time.power = .hibernate := by rw [hp]; nofun
  have enough : ¬ (fetchHeader a len check ++ more).length < fetchHeaderLen a := by
    rw [List.length_append, size]; omega
  rw [wholeFetch, if_neg awake, if_neg enough, ← size, List.take_left, List.length_append, Nat.add_sub_cancel_left]
  dsimp only
  rw [third, closeFetch_eq]
  simp only [openFetchOf, awake, fetchResult_eq, fetchJudged, if_false, ne_eq, not_true_eq_false, or_self]
  cases e : firstOf (fetchTests s a len check) with
  | none => rfl
  | some r =>
    cases r with
    | ok => exact absurd e firstOf_fetchTests_ne_ok
    | _ => rfl

/-- The bytes of a Fetch whose header is complete are that header and the read-out's. -/
theorem eq_fetchHeader_append {a : Byte} {rest : List Byte} (hh : rest.head? = some 0x00#8)
    (enough : fetchHeaderLen a ≤ rest.length + 1) :
    ∃ more, a :: rest = fetchHeader a (rest.getD 1 0#8) (rest.getD 2 0#8) ++ more := by
  unfold fetchHeaderLen at enough
  unfold fetchHeader
  cases hc : chkBit a with
  | false =>
    rw [hc] at enough
    match rest, hh with
    | _ :: len :: more, rfl => exact ⟨more, rfl⟩
    | [_], rfl => simp at enough
  | true =>
    rw [hc] at enough
    match rest, hh with
    | _ :: len :: check :: more, rfl => exact ⟨more, rfl⟩
    | [_], rfl | [_, _], rfl => simp at enough

theorem wholeFetch_short {s : State} {a : Byte} {bytes : List Byte} (hp : s.time.power = .run)
    (short : bytes.length < fetchHeaderLen a) :
    wholeFetch a bytes s = linkFailure (if a.extractLsb' 0 3 = 5#3 then .truncated else .framing) s := by
  rw [wholeFetch, if_neg (by rw [hp]; nofun), if_pos short, recordFailure_eq_linkFailure]
  simp only [markerOk, decide_eq_true_eq]

/-- A Fetch in Run as the bytes of a transaction (R17). -/
theorem wholeFetch_of_bytes {s : State} {a : Byte} {rest : List Byte} (hp : s.time.power = .run)
    (hh : rest.head? = some 0x00#8) :
    wholeFetch a (a :: rest) s =
      if rest.length + 1 < fetchHeaderLen a then
        linkFailure (if a.extractLsb' 0 3 = 5#3 then .truncated else .framing) s
      else fetchJudged s a (rest.getD 1 0#8) (rest.getD 2 0#8) (rest.length + 1 - fetchHeaderLen a) := by
  split
  · next short => exact wholeFetch_short hp short
  · next enough =>
    obtain ⟨more, e⟩ := eq_fetchHeader_append hh (Nat.not_lt.1 enough)
    have size : more.length = rest.length + 1 - fetchHeaderLen a := by
      rw [← List.length_cons (a := a), e, List.length_append, fetchHeader_length, Nat.add_sub_cancel_left]
    rw [e, wholeFetch_of_header hp, size]

/-- Settles O8. -/
theorem fetchDeliversTheResponse : Obligations.FetchDeliversTheResponse := by
  intro s a hr ho hf hc
  obtain ⟨steps, power⟩ := inRun_iff.1 hr
  refine ⟨fun len check k => ?_, fun rest stray hh => ?_⟩
  · refine congrArg Host.Outcome.next ((portFetch_whole steps hf ho hc len check k).trans ?_)
    rw [wholeFetch_of_header power, List.length_replicate]
    rfl
  · refine congrArg Host.Outcome.next ((portTransaction_of_closed steps hf ho hc rest stray).trans ?_)
    rw [if_pos hh]
    exact wholeFetch_of_bytes power hh

/-- Settles O9. -/
theorem fetchSpansSteps : Obligations.FetchSpansSteps :=
  ⟨fun _ _ len check hr ho hf hc => execFetch_opened len check hr ho hf hc, fun s f bytes stray hr hf ho =>
    congrArg Host.Outcome.next
      ((portTransaction_of_open (stepsRun_iff.2 hr) hf ho bytes stray).trans (closeFetch_eq f _ s))⟩

/-! ### What the outside reads -/

/-- The status byte of four bits and a code below 16. -/
theorem statusBits : ∀ (attn empty new refused : Bool) (code : Fin 16),
    let b := byteOf ((if attn then 128 else 0) + (if empty then 64 else 0) + (if new then 32 else 0)
      + (if refused then 16 else 0) + code.val)
    b.getLsbD 7 = attn ∧ b.getLsbD 6 = empty ∧ b.getLsbD 5 = new ∧ b.getLsbD 4 = refused ∧
      (b.extractLsb' 0 4).toNat = code.val := by
  decide

theorem linkResult_code_le (r : LinkResult) : r.code ≤ 8 := by
  cases r <;> decide

theorem ready_iff {s : State} :
    s.ready = true ↔ s.link.intake.length < 4 ∧ s.resetUnit.inProgress = none ∧ s.time.power = .run := by
  unfold State.ready
  rw [Bool.and_eq_true, Bool.and_eq_true, decide_eq_true_eq, decide_eq_true_eq, stepsRun_iff, and_assoc]
  rfl

theorem sdoDriven_iff {s : State} :
    s.sdoDriven = true ↔ ∃ f, s.link.openFetch = some f ∧ f.decision = some .ok ∧ f.cut = none := by
  unfold State.sdoDriven
  simp only [Option.any_eq_true, OpenFetch.serving, Bool.and_eq_true, decide_eq_true_eq, Option.isNone_iff_eq_none]

/-- SDO is driven after a header exactly when it passes in Run (R18, R22, R25). -/
theorem sdoDriven_fetchOpened {s : State} {a len check : Byte} :
    (fetchOpened s a len check).sdoDriven = true ↔
      s.time.power = .run ∧ firstOf (fetchTests s a len check) = none := by
  have decided : (firstOf (fetchTests s a len check)).getD .ok = .ok ↔ firstOf (fetchTests s a len check) = none := by
    cases e : firstOf (fetchTests s a len check) with
    | none => simp
    | some r =>
      have : r ≠ .ok := by rintro rfl; exact firstOf_fetchTests_ne_ok e
      simp [this]
  rw [sdoDriven_iff]
  simp only [fetchOpened, Option.some.injEq, exists_eq_left', and_true]
  cases hp : s.time.power with
  | run => simp [decided]
  | hibernate => simp

/-- Settles O11. -/
theorem statusByteReadyAndSdo : Obligations.StatusByteReadyAndSdo := by
  refine ⟨fun s => ?_, fun s a len check hr ho hf hc => ?_, fun s t bytes stray hr hf e => ?_⟩
  · have code := linkResult_code_le s.link.lastResult
    obtain ⟨attn, empty, new, refused, low⟩ :=
      statusBits s.attn s.link.intake.isEmpty s.link.respNew s.executor.refused ⟨s.link.lastResult.code, by omega⟩
    have isEmpty : s.link.intake.isEmpty = decide (s.link.intake = []) := by cases s.link.intake <;> rfl
    exact ⟨attn, empty.trans isEmpty, new, refused, low, code, ready_iff, sdoDriven_iff⟩
  · exact ⟨_, execFetch_opened len check hr ho hf hc, sdoDriven_fetchOpened⟩
  · cases e
    refine sdoDriven_of_none ?_
    have closed := portTransaction_openFetch bytes stray s
    rwa [if_pos ⟨hf, stepsRun_iff.2 hr⟩] at closed

end Sys2Proof.PortProofs
end

section
/-! O51: what a reset leaves the moment it begins, and how one merges into another. -/

namespace Sys2Proof.PortProofs
open Sys2Proof Sys2Proof.Machine Sys2Proof.Safety Sys2Proof.Claims Sys2Proof.Laws

/-- What every reset has cleared the moment it has begun, `s` being the state before it (R171, R172, R173). -/
def Cleared (s t : State) : Prop :=
  t.events.flags = 0#16 ∧ t.events.journal = [] ∧ t.supply = State.reset.supply ∧ t.sched.queue = [] ∧
    t.sched.lanes.anyActive = false ∧ t.sched.state = .halted ∧ t.link.intake = [] ∧
    t.link.openFetch = none ∧ t.link.forgotten = (s.link.forgotten || s.link.openFetch.isSome) ∧
    t.time.power = .run ∧ t.wave.table = none ∧ t.ready = false ∧ t.attn = false ∧ t.sdoDriven = false ∧
    t.seq.frame = .idle ∧ t.seq.driveCodes = [] ∧ t.seq.endOfDrives = s.seq.endOfDrives + 1 ∧ NothingWaits t

section
variable {s : State}

/-! ### A reset begins -/

/-- Without a reset in progress the initialisation is made, the end-of-drive indication sent, kind and count noted. -/
theorem beginReset_fresh (h : s.resetUnit.inProgress = none) (kind : ResetKind) (extra : List Rect) (judged : State) :
    beginReset kind extra judged s =
      { initFor kind (activeRegions judged ++ extra) s with
        seq := (initFor kind (activeRegions judged ++ extra) s).seq.endDrive
        resetUnit := { s.resetUnit with inProgress := some ⟨kind, judged.sched.jobCount⟩ } } := by
  unfold beginReset
  rw [h]

theorem attn_eq_false_of_flags (h : s.events.flags = 0#16) : s.attn = false := by
  simp [State.attn, h]

theorem ready_eq_false_of_reset (h : s.resetUnit.inProgress ≠ none) : s.ready = false := by
  rw [Bool.eq_false_iff, Ne, ready_iff]
  exact fun ⟨_, run, _⟩ => h run

/-- Either initialisation, with the reset noted in progress, has cleared it all. -/
theorem cleared_initFor (kind : ResetKind) (regions : List Rect) {u : ResetUnit} (hu : u.inProgress ≠ none) :
    Cleared s { initFor kind regions s with seq := (initFor kind regions s).seq.endDrive, resetUnit := u } := by
  unfold initFor
  split
  · exact ⟨rfl, rfl, rfl, rfl, rfl, rfl, rfl, rfl, rfl, rfl, rfl, ready_eq_false_of_reset hu,
      attn_eq_false_of_flags rfl, rfl, rfl, rfl, rfl, rfl, rfl, rfl⟩
  · exact ⟨rfl, rfl, rfl, rfl, rfl, rfl, rfl, rfl, rfl, rfl, rfl, ready_eq_false_of_reset hu,
      attn_eq_false_of_flags rfl, rfl, rfl, rfl, rfl, rfl, rfl, rfl⟩

theorem cleared_beginReset (h : s.resetUnit.inProgress = none) (kind : ResetKind) (extra : List Rect) (judged : State) :
    Cleared s (beginReset kind extra judged s) := by
  rw [beginReset_fresh h]
  exact cleared_initFor kind _ nofun

theorem execPor_begins (h : s.resetUnit.inProgress = none) :
    ∃ t, exec .por s = .next t ∧ t.resetUnit.inProgress = some ⟨.por, s.sched.jobCount⟩ ∧ Cleared s t :=
  ⟨_, rfl, by rw [beginReset_fresh h], cleared_beginReset h .por [] s⟩

/-- Nothing is cut where no step is in progress, nor in Hibernate, in which none of the steps that can be cut runs. -/
theorem applyCut_of_nothing {cut : CutStep} (h : cut = .nothing ∨ s.inRun = false) : applyCut cut s = s := by
  unfold applyCut
  split
  · next hr =>
    rcases h with rfl | hn
    · rfl
    · rw [hn] at hr; cases hr
  · rfl

theorem execPinReset_begins (h : s.resetUnit.inProgress = none) (cut : CutStep) :
    ∃ t, exec (.pinReset cut) s = .next t ∧ t.resetUnit.inProgress = some ⟨.pin, s.sched.jobCount⟩ ∧
      t.resetUnit.resetPin = false ∧ Cleared s t ∧ t.image.width = s.image.width ∧
      t.image.height = s.image.height ∧ t.tiles.slots = s.tiles.slots ∧
      (cut = .nothing ∨ s.time.power = .hibernate →
        t.image = s.image ∧ t.tiles = s.tiles ∧ t.wave.ram = s.wave.ram) := by
  obtain ⟨im, pattern, ram, e, width, height⟩ := applyCut_eq cut s
  have fresh : (applyCut cut s).resetUnit.inProgress = none := by rw [e]; exact h
  have eq := beginReset_fresh fresh .pin (cutActivations cut s) s
  have clear : Cleared s (beginReset .pin (cutActivations cut s) s (applyCut cut s)) := by
    have := cleared_beginReset fresh .pin (cutActivations cut s) s
    rw [e] at this ⊢
    exact this
  refine ⟨_, rfl, by rw [eq], rfl, clear, ?_, ?_, ?_, fun hc => ?_⟩
  · rw [eq, e]; exact width
  · rw [eq, e]; exact height
  · rw [eq, e]; rfl
  · have uncut : applyCut cut s = s := by
      refine applyCut_of_nothing (hc.imp_right fun hp => ?_)
      rw [Bool.eq_false_iff, Ne, inRun_iff, hp]
      exact fun ⟨_, power⟩ => nomatch power
    rw [eq, uncut]
    exact ⟨rfl, rfl, rfl⟩

theorem execSoftReset_refused (hr : s.inRun = true) (hg : s.executor.guardLatch = false) :
    exec .softReset s = .next (commandEnd .softReset .guard [] s) := by
  simp only [exec, execSoftReset, commandStep, hr, hg, Bool.and_false, Bool.false_eq_true, if_false, if_true]
  exact congrArg Host.Outcome.next (finishCommand_eq_commandEndOf (c := .softReset) nofun _ _ _ _)

theorem execSoftReset_accepted (hr : s.inRun = true) (hg : s.executor.guardLatch = true) :
    exec .softReset s =
      .next (beginReset .soft [] (commandEnd .softReset .ok [] s) (commandEnd .softReset .ok [] s)) := by
  have e := finishCommand_eq_commandEndOf (c := .softReset) nofun (ownsHead .softReset s) .ok [] s
  simp only [exec, execSoftReset, commandStep, hr, hg, Bool.and_self, if_true, e]
  rfl

theorem execSoftReset_begins (h : s.resetUnit.inProgress = none) (hr : s.inRun = true)
    (hg : s.executor.guardLatch = true) :
    ∃ t, exec .softReset s = .next t ∧ t.resetUnit.inProgress = some ⟨.soft, s.sched.jobCount⟩ ∧ Cleared s t ∧
      t.image = s.image ∧ t.tiles = s.tiles ∧ t.wave.ram = s.wave.ram := by
  have fresh : (commandEnd .softReset .ok [] s).resetUnit.inProgress = none := h
  have eq := beginReset_fresh fresh .soft [] (commandEnd .softReset .ok [] s)
  exact ⟨_, execSoftReset_accepted hr hg, by rw [eq]; rfl, cleared_beginReset fresh .soft [] _, by rw [eq]; rfl,
    by rw [eq]; rfl, by rw [eq]; rfl⟩

/-! ### A reset merges into the one in progress -/

theorem beginReset_merges_por {r : Resetting} (h : s.resetUnit.inProgress = some r) (extra : List Rect) (judged : State) :
    beginReset .por extra judged s =
      { initFull s with resetUnit := { s.resetUnit with inProgress := some ⟨.por, r.discarded⟩ } } := by
  unfold beginReset
  rw [h]
  simp [mergedKind]

theorem beginReset_merges_pin {r : Resetting} (h : s.resetUnit.inProgress = some r) (extra : List Rect) (judged : State) :
    beginReset .pin extra judged s =
      { s with
        resetUnit :=
          { s.resetUnit with inProgress := some ⟨if r.kind = .por then .por else .pin, r.discarded⟩ } } := by
  unfold beginReset
  rw [h]
  simp [mergedKind]

theorem inRun_eq_false_of_reset {r : Resetting} (h : s.resetUnit.inProgress = some r) : s.inRun = false := by
  rw [Bool.eq_false_iff, Ne, inRun_iff, stepsRun_iff, h]
  exact fun ⟨run, _⟩ => nomatch run

theorem execPor_merges {r : Resetting} (h : s.resetUnit.inProgress = some r) :
    exec .por s =
      .next { initFull s with resetUnit := { s.resetUnit with inProgress := some ⟨.por, r.discarded⟩ } } :=
  congrArg Host.Outcome.next (beginReset_merges_por h [] s)

theorem execPinReset_merges {r : Resetting} (h : s.resetUnit.inProgress = some r) (cut : CutStep) :
    exec (.pinReset cut) s =
      .next
        { s with
          resetUnit :=
            { s.resetUnit with
              inProgress := some ⟨if r.kind = .por then .por else .pin, r.discarded⟩
              resetPin := false } } := by
  simp only [exec, execPinReset, applyCut_of_nothing (.inr (inRun_eq_false_of_reset h)), beginReset_merges_pin h]

theorem execSoftReset_idle (h : s.inRun = false) : exec .softReset s = .next s := by
  simp only [exec, execSoftReset, commandStep, h, Bool.false_and, Bool.false_eq_true, if_false]

theorem execWatchdogExpiry_idle (h : s.inRun = false) : exec .watchdogExpiry s = .next s := by
  simp only [exec, execWatchdogExpiry, runStep, h, Bool.false_and, Bool.false_eq_true, if_false]

end

/-- Settles O51. -/
theorem resetsBegin : Obligations.ResetsBegin := by
  refine ⟨fun s cut h => ?_, fun s r cut h => ?_⟩
  · have inRun : s.time.power = .run → s.inRun = true := fun hp => inRun_iff.2 ⟨stepsRun_iff.2 h, hp⟩
    exact ⟨execPor_begins h, execPinReset_begins h cut, fun hp hg => execSoftReset_refused (inRun hp) hg,
      fun hp hg => execSoftReset_begins h (inRun hp) hg⟩
  · have idle := inRun_eq_false_of_reset h
    exact ⟨⟨_, execPor_merges h, rfl, rfl, rfl, rfl, rfl, rfl⟩, execPinReset_merges h cut, execSoftReset_idle idle,
      execWatchdogExpiry_idle idle⟩

end Sys2Proof.PortProofs
end

section
/-! O60: what holds in Hibernate (R166 to R169), that nothing is pending during a reset (R29, R171), and the power request
(R106), kept by every step. -/

namespace Sys2Proof.PortProofs
open Sys2Proof Sys2Proof.Machine Sys2Proof.Safety Sys2Proof.Claims Sys2Proof.Laws

/-! ### Everything but the WAKE edge latch -/

/-- `HibernateLegal` without the WAKE edge latch: what each elementary update keeps. -/
structure Dormant (s : State) : Prop where
  quiet : s.time.power = .hibernate →
    (s.sched.state = .halted ∨ s.sched.state = .holding) ∧ s.sched.queue = [] ∧ s.sched.lanes.anyActive = false ∧
      (s.supply.rail = .off ∨ s.supply.rail = .fault) ∧ s.link.intake = [] ∧ s.sched.powerRequest = false
  noReset : s.time.power = .hibernate → s.resetUnit.inProgress = none
  causes : s.time.causes.any = true → s.time.power = .hibernate
  boundary : s.time.power = .hibernate → s.arbiter.boundary = false
  discarded : s.resetUnit.inProgress ≠ none →
    s.arbiter.reports = [] ∧ s.arbiter.ticks = 0 ∧ s.arbiter.boundary = false

def KeepsDormant (s t : State) : Prop := Dormant s → Dormant t

/-- In Run nothing of what concerns Hibernate is asked. -/
theorem dormant_of_run {s : State} (power : s.time.power = .run) (causes : s.time.causes.any = false)
    (discarded : s.resetUnit.inProgress ≠ none →
      s.arbiter.reports = [] ∧ s.arbiter.ticks = 0 ∧ s.arbiter.boundary = false) : Dormant s where
  quiet h := by rw [power] at h; cases h
  noReset h := by rw [power] at h; cases h
  causes h := by rw [causes] at h; cases h
  boundary h := by rw [power] at h; cases h
  discarded := discarded

section
variable {s t : State}

/-- An update in Run that leaves power state, cause set and reset unit alone. -/
theorem keepsDormant_inRun (hr : s.inRun = true) (power : t.time.power = s.time.power)
    (causes : t.time.causes = s.time.causes) (reset : t.resetUnit = s.resetUnit) : KeepsDormant s t := by
  intro h
  obtain ⟨steps, run⟩ := inRun_iff.1 hr
  refine dormant_of_run (power.trans run) ?_ fun hn => absurd (stepsRun_iff.1 steps) (by rwa [reset] at hn)
  rw [causes, Bool.eq_false_iff]
  intro hc
  have := h.causes hc
  rw [run] at this; cases this

/-- An update that a part in Hibernate cannot meet, since the rails or the power request are busy. -/
theorem keepsDormant_busy (hr : s.stepsRun = true)
    (busy : (s.supply.rail ≠ .off ∧ s.supply.rail ≠ .fault) ∨ s.sched.powerRequest = true)
    (time : t.time = s.time) (reset : t.resetUnit = s.resetUnit) : KeepsDormant s t := by
  intro h
  have awake : ¬ s.time.power = .hibernate := by
    intro hp
    obtain ⟨-, -, -, rail, -, request⟩ := h.quiet hp
    rcases busy with ⟨off, fault⟩ | hreq
    · exact rail.elim off fault
    · rw [request] at hreq; cases hreq
  exact keepsDormant_inRun (inRun_iff.2 ⟨hr, power_run awake⟩) (by rw [time]) (by rw [time]) reset h

/-- An update that leaves all of it alone, but for causes added in Hibernate. -/
theorem keepsDormant_of_eq (sched : t.sched = s.sched) (rail : t.supply.rail = s.supply.rail)
    (intake : t.link.intake = s.link.intake) (power : t.time.power = s.time.power)
    (causes : t.time.causes.any = true → s.time.causes.any = true ∨ s.time.power = .hibernate)
    (reset : t.resetUnit = s.resetUnit) (arbiter : t.arbiter = s.arbiter) : KeepsDormant s t := by
  intro h
  constructor
  · rw [sched, rail, intake, power]; exact h.quiet
  · rw [power, reset]; exact h.noReset
  · rw [power]; exact fun hc => (causes hc).elim h.causes id
  · rw [power, arbiter]; exact h.boundary
  · rw [reset, arbiter]; exact h.discarded

end

theorem post_boundary_of_stopped (a : Arbiter) (c : StepCall) : (a.post false c).boundary = a.boundary := by
  cases c <;> simp [Arbiter.post]

/-- While the frame clock stands still no boundary step becomes pending (R29, R121). -/
theorem stepEnds_boundary_of_stopped (a : Arbiter) : (a.stepEnds false).boundary = a.boundary := by
  have posted : ∀ (l : List StepCall) (b : Arbiter), (l.foldl (Arbiter.post false) b).boundary = b.boundary := by
    intro l
    induction l with
    | nil => exact fun _ => rfl
    | cons c l ih => exact fun b => (ih _).trans (post_boundary_of_stopped b c)
  exact posted _ a

theorem inRun_of_hibernate {s : State} (h : s.time.power = .hibernate) : s.inRun = false := by
  simp [State.inRun, h]

theorem keepsDormant_endStep (s : State) : KeepsDormant s (endStep s) := by
  intro h
  constructor
  · intro hp
    obtain ⟨state, queue, lanes, rail, intake, request⟩ := h.quiet hp
    exact ⟨state, queue, lanes, rail, intake, by simp [endStep, request]⟩
  · exact h.noReset
  · exact h.causes
  · intro hp
    rw [endStep_arbiter, inRun_of_hibernate (s := s) hp]
    split
    · rw [stepEnds_boundary_of_stopped]; exact h.boundary hp
    · exact h.boundary hp
  · intro hn
    rw [endStep_arbiter, (stepsRun_eq_false_iff (s := s)).2 hn]
    exact h.discarded hn

theorem keepsDormant_finish (own : Bool) (op : Byte) (o : OutcomeCode) (p : List Byte) (s : State) :
    KeepsDormant s (finishCommand own op o p s) := by
  intro h
  refine keepsDormant_endStep _ { h with quiet := fun hp => ?_ }
  obtain ⟨state, queue, lanes, rail, intake, request⟩ := h.quiet hp
  refine ⟨state, queue, lanes, rail, ?_, request⟩
  have left := finishCommand_intake own op o p s
  rw [intake, List.drop_nil, ite_self] at left
  exact left

theorem keepsDormant_beginReset (kind : ResetKind) (extra : List Rect) (judged s : State) :
    KeepsDormant s (beginReset kind extra judged s) := by
  intro h
  rcases beginReset_cases kind extra judged s with i | ⟨underway, r, e⟩
  · refine dormant_of_run (by rw [i.time]; rfl) (by rw [i.time]; rfl) fun _ => ?_
    rw [i.arbiter]; exact ⟨rfl, rfl, rfl⟩
  · rw [e]
    have hn : s.resetUnit.inProgress ≠ none := Option.isSome_iff_ne_none.1 underway
    exact { h with noReset := fun hp => absurd (h.noReset hp) hn, discarded := fun _ => h.discarded hn }

theorem expireWatchdog_causes (s : State) : (expireWatchdog s).time.causes = s.time.causes := by
  unfold expireWatchdog; split <;> rfl

theorem keepsDormant_commands : CommandUpdates KeepsDormant := by
  constructor
  case refl => exact fun _ => id
  case trans => exact fun h g => g ∘ h
  case finish => exact keepsDormant_finish
  -- every other update happens in Run and leaves power state, cause set and reset unit alone
  all_goals intro u; intros; exact keepsDormant_inRun ‹u.inRun = true› rfl rfl rfl

theorem keepsDormant_events : EventUpdates KeepsDormant := by
  constructor
  case endStep => exact keepsDormant_endStep
  case accept =>
    exact fun u e hr hp _ _ _ => keepsDormant_inRun (inRun_iff.2 ⟨hr, hp⟩) rfl rfl rfl
  case fail => exact fun u r _ => keepsDormant_of_eq rfl rfl rfl rfl .inl rfl rfl
  case woke =>
    intro u out _
    by_cases hp : u.time.power = .hibernate
    · exact keepsDormant_of_eq rfl rfl rfl (by simp [recordWoke, hp, Timebase.addCause]) (fun _ => .inr hp) rfl rfl
    · exact keepsDormant_of_eq rfl rfl rfl (by simp [recordWoke, hp]) (by simp [recordWoke, hp]) rfl rfl
  case served => exact fun u b out _ _ => keepsDormant_of_eq rfl rfl rfl rfl .inl rfl rfl
  case openFetch => exact fun u f _ _ _ => keepsDormant_of_eq rfl rfl rfl rfl .inl rfl rfl
  case forgotten => exact fun u b _ => keepsDormant_of_eq rfl rfl rfl rfl .inl rfl rfl
  case hibernate =>
    intro u k hr state queue lanes rail intake request _
    have hn := stepsRun_iff.1 hr
    exact
      { quiet := fun _ => ⟨state, queue, lanes, rail, intake, request⟩
        noReset := fun _ => hn
        causes := nofun
        boundary := fun _ => rfl
        discarded := fun h => absurd hn h }
  case railGood => exact fun u hr hl => keepsDormant_busy hr (.inl (by simp [hl])) rfl rfl
  case fault =>
    intro u k hr _ hl
    exact keepsDormant_busy hr (.inl (by rcases hl with hl | hl | hl <;> simp [hl])) (by simp) (by simp)
  case countFault => exact fun u _ _ => keepsDormant_of_eq rfl rfl rfl rfl .inl rfl rfl
  case endDrain => exact fun u hr hl => keepsDormant_busy hr (.inl (by simp [hl])) rfl rfl
  case slowDrain =>
    intro u hr hd
    simp only [drainExpires, Bool.and_eq_true, decide_eq_true_eq] at hd
    exact keepsDormant_busy hr (.inl (by simp [hd.1])) rfl rfl
  case ramp =>
    intro u hr hd
    simp only [rampDue, Bool.and_eq_true] at hd
    exact keepsDormant_busy hr (.inr hd.2) rfl rfl
  case rampDown => exact fun u _ _ _ => keepsDormant_of_eq rfl rfl rfl rfl .inl rfl rfl
  case drain =>
    intro u hr hd
    simp only [holdExpires, holdIdle, Bool.and_eq_true, decide_eq_true_eq] at hd
    obtain ⟨⟨⟨ready, -⟩, -⟩, -⟩ := hd
    exact keepsDormant_busy hr (.inl (by simp [ready])) rfl rfl
  case holdDown => exact fun u _ _ _ => keepsDormant_of_eq rfl rfl rfl rfl .inl rfl rfl
  case drainDown => exact fun u _ _ _ => keepsDormant_of_eq rfl rfl rfl rfl .inl rfl rfl
  case edge =>
    exact fun u _ hp _ => keepsDormant_of_eq (by simp) (by simp) (by simp) (takeEdge_power u) (fun _ => .inr hp) (by simp)
      (by simp)
  case wake =>
    exact fun u hr _ _ _ => dormant_of_run rfl rfl fun hn => absurd (stepsRun_iff.1 hr) hn
  case timerExpire =>
    intro u _ _
    refine keepsDormant_of_eq rfl rfl rfl ?_ ?_ rfl rfl
    · unfold expireWakeTimer; dsimp only; split <;> rfl
    · unfold expireWakeTimer
      dsimp only
      split
      · next hc => exact fun _ => .inr hc.1
      · exact .inl
  case timerDown => exact fun u _ _ => keepsDormant_of_eq rfl rfl rfl rfl .inl rfl rfl
  case dogExpire =>
    exact fun u hr _ _ => keepsDormant_inRun hr (expireWatchdog_power u) (expireWatchdog_causes u) (by simp)
  case dogReset =>
    intro u hr _ _ h
    exact keepsDormant_beginReset _ _ _ _ (keepsDormant_endStep _
      (keepsDormant_inRun hr (expireWatchdog_power u) (expireWatchdog_causes u) (by simp) h))
  case wakeEdge => exact fun u _ _ => keepsDormant_of_eq rfl rfl rfl rfl .inl rfl rfl
  case stable => exact fun u => keepsDormant_of_eq rfl rfl rfl rfl .inl rfl rfl
  case advanceLane =>
    intro u t k hr _
    obtain ⟨reset, time, -⟩ := advanceLane_parts t k u
    exact keepsDormant_inRun hr (by rw [time]) (by rw [time]) reset
  case abort => exact fun u c k hr => keepsDormant_inRun hr (by simp) (by simp) (by simp)
  case activate => exact fun u j k ha => keepsDormant_inRun ha.run (by simp) (by simp) (by simp)
  case beginFrame => exact fun u hr => keepsDormant_inRun hr (by simp) (by simp) (by simp)
  case cut =>
    intro u c h
    obtain ⟨im, p, r, e, -⟩ := applyCut_eq c u
    rw [e]; exact { h with }
  case begin_ => exact fun u kind extra judged => keepsDormant_beginReset kind extra judged u
  case pin => exact fun u b h => { h with }
  case complete_ =>
    intro u a r hn h
    refine dormant_of_run rfl ?_ fun hc => absurd rfl hc
    rw [Bool.eq_false_iff]
    intro hc
    have := h.noReset (h.causes hc)
    rw [hn] at this; cases this
  case free => exact fun u n h => { h with }
  case started =>
    intro u x c a hr hn h
    refine { h with boundary := fun hp => ?_, discarded := fun hd => absurd (stepsRun_iff.1 hr) hd }
    have idle := h.boundary hp
    unfold Arbiter.next at hn
    split at hn <;> cases hn
    · exact idle
    · exact idle
    · rfl
  case queue => exact fun u p h => { h with }
  -- every other update happens in Run and leaves power state, cause set and reset unit alone
  all_goals intro u; intros; exact keepsDormant_inRun ‹u.inRun = true› rfl rfl rfl

/-! ### Host commands -/

section
variable {R : State → State → Prop} {s t : State}

theorem receive_rel_of_port (refl : ∀ u, R u u) (trans : ∀ {u v w}, R u v → R v w → R u w)
    (port : ∀ a u, R u (portArrival a u)) (l : List Arrival) : ∀ u : State, R u (u.receive l) := by
  induction l with
  | nil => exact refl
  | cons a l ih => exact fun u => trans (port a u) (ih _)

/-- A relation kept by every elementary update of a command step, by what lands in one, by the entry into Hibernate and by
the beginning of a Soft Reset is kept by every host command. -/
theorem exec_host_rel (C : CommandUpdates R) (port : ∀ a u, R u (portArrival a u)) (sleep : ∀ k u, R u (hibernate k u))
    (reset : ∀ u, R u (beginReset .soft [] u u)) {i : Instr} (hi : (encodeEntry i).isSome = true)
    (h : exec i s = .next t) : R s t := by
  have lands : ∀ l, R s (s.receive l) := fun l => receive_rel_of_port C.refl C.trans port l s
  cases i with
  | nop => exact execNop_rel C h
  | guard _ => exact execGuard_rel C h
  | softReset =>
    simp only [exec, execSoftReset, Host.Outcome.next.injEq] at h; subst h
    have worked : R s (commandStep (ownsHead .softReset s) .softReset
        (fun latch t => if latch then .accept t [] else .refuse .guard []) s) :=
      commandStep_rel C fun l u u' p _ e => by split at e <;> cases e; exact C.refl _
    split
    · exact C.trans worked (reset _)
    · exact worked
  | setParameter _ _ => exact execSetParameter_rel C h
  | getParameter n =>
    simp only [exec, execGetParameter, commandAmid, Host.Outcome.next.injEq] at h; subst h
    split
    · refine C.trans (lands n.arrived) (commandStep_rel C fun l u u' p _ e => ?_)
      split at e <;> cases e
      exact C.refl u
    · exact C.refl s
  | acknowledgeEvents m =>
    simp only [exec, execAcknowledgeEvents, commandAmid, Host.Outcome.next.injEq] at h; subst h
    split
    · refine C.trans (lands m.arrived) (commandStep_rel C fun l u u' p hr e => ?_)
      cases e; exact C.acknowledge u _ hr
    · exact C.refl s
  | readJournal _ => exact execReadJournal_rel C h
  | clearJournal => exact execClearJournal_rel C h
  | setGeometry _ _ => exact execSetGeometry_rel C h
  | setWindow _ _ _ _ => exact execSetWindow_rel C h
  | setCursor _ _ => exact execSetCursor_rel C h
  | setScan _ => exact execSetScan_rel C h
  | setPixelOp _ _ => exact execSetPixelOp_rel C h
  | writePixels _ => exact execWritePixels_rel C h
  | readPixels _ _ => exact execReadPixels_rel C h
  | fillWindow _ => exact execFillWindow_rel C h
  | readUncertainMap => exact execReadUncertainMap_rel C h
  | markUncertain _ _ _ _ => exact execMarkUncertain_rel C h
  | defineTile _ _ _ _ => exact execDefineTile_rel C h
  | loadTileData _ _ _ => exact execLoadTileData_rel C h
  | placeTile _ _ _ _ _ => exact execPlaceTile_rel C h
  | releaseTile _ => exact execReleaseTile_rel C h
  | loadWaveformData _ _ => exact execLoadWaveformData_rel C h
  | sealWaveform => exact execSealWaveform_rel C h
  | unsealWaveform => exact execUnsealWaveform_rel C h
  | submitJob _ _ _ _ _ _ => exact execSubmitJob_rel C h
  | cancelJob _ => exact execCancelJob_rel C h
  | abortJob _ => exact execAbortJob_rel C h
  | flushQueue => exact execFlushQueue_rel C h
  | startScheduler => exact execStartScheduler_rel C h
  | haltScheduler => exact execHaltScheduler_rel C h
  | clearHold => exact execClearHold_rel C h
  | queryJob _ => exact execQueryJob_rel C h
  | railsOn => exact execRailsOn_rel C h
  | railsOff => exact execRailsOff_rel C h
  | sampleTemperature _ => exact execSampleTemperature_rel C h
  | armWatchdog _ _ => exact execArmWatchdog_rel C h
  | feedWatchdog => exact execFeedWatchdog_rel C h
  | disarmWatchdog => exact execDisarmWatchdog_rel C h
  | enterHibernate m =>
    simp only [exec, execEnterHibernate_eq, Host.Outcome.next.injEq] at h; subst h
    split
    · have worked := C.trans (lands m.arrived) (commandStep_rel C (own := ownsHead (.enterHibernate m) s)
        (c := .enterHibernate m) (work := hibernateWork (mayHibernate (ownsHead (.enterHibernate m) s) s))
        fun l u u' p _ e => by unfold hibernateWork at e; (repeat' split at e) <;> cases e; exact C.refl u)
      split
      · exact C.trans worked (sleep _ _)
      · exact worked
    · exact C.refl s
  | _ => cases hi

end

/-! ### The WAKE edge latch and the power request -/

/-- The WAKE edge latch belongs to Hibernate outside a reset (R169, R171). -/
def EdgeLatched (s : State) : Prop :=
  s.time.wakeEdge = true → s.time.power = .hibernate ∧ s.resetUnit.inProgress = none

/-- An update that keeps the latch to Hibernate and the power request to its condition. -/
structure Settles (s t : State) : Prop where
  request : RequestJustified s → RequestJustified t
  edge : EdgeLatched s → EdgeLatched t

section
variable {s t : State}

/-- The end of a step clears a power request whose condition fails (R106). -/
theorem requestJustified_endStep (s : State) : RequestJustified (endStep s) :=
  fun h => (Bool.and_eq_true_iff.1 h).2

theorem requestJustified_of_eq (sched : t.sched = s.sched) (rail : t.supply.rail = s.supply.rail)
    (table : t.wave.table = s.wave.table) (temp : t.temp = s.temp) : RequestJustified s → RequestJustified t := by
  unfold RequestJustified State.powerCondition State.mayAdmit
  rw [sched, rail, table, temp]; exact id

theorem edgeLatched_of_clear (h : s.time.wakeEdge = false) : EdgeLatched s := by
  intro he; rw [h] at he; cases he

theorem edgeLatched_of_eq (wakeEdge : t.time.wakeEdge = s.time.wakeEdge) (power : t.time.power = s.time.power)
    (reset : t.resetUnit = s.resetUnit) : EdgeLatched s → EdgeLatched t := by
  unfold EdgeLatched
  rw [wakeEdge, power, reset]; exact id

theorem edgeLatched_of_time (h : t.time = s.time ∧ t.resetUnit = s.resetUnit) : EdgeLatched s → EdgeLatched t :=
  edgeLatched_of_eq (by rw [h.1]) (by rw [h.1]) h.2

theorem Settles.refl (s : State) : Settles s s := ⟨id, id⟩

theorem Settles.trans {u : State} (h : Settles s t) (g : Settles t u) : Settles s u :=
  ⟨g.request ∘ h.request, g.edge ∘ h.edge⟩

theorem settles_otherStep {work : State → State} (edge : EdgeLatched s → EdgeLatched (work s)) :
    Settles s (otherStep work s) :=
  otherStep_elim (Settles s) (fun _ => .refl s) (fun _ => ⟨fun _ => requestJustified_endStep _, edge⟩)

theorem settles_runStep {work : State → State} (edge : EdgeLatched s → EdgeLatched (work s)) :
    Settles s (runStep work s) :=
  runStep_elim (Settles s) (fun _ => .refl s) (fun _ => ⟨fun _ => requestJustified_endStep _, edge⟩)

theorem PortUpdate.wakeEdge (h : PortUpdate s t) : t.time.wakeEdge = s.time.wakeEdge := by
  cases h with
  | woke out => unfold recordWoke; dsimp only; split <;> rfl
  | _ => rfl

theorem PortUpdate.power (h : PortUpdate s t) : t.time.power = s.time.power := by
  cases h with
  | woke out => unfold recordWoke; dsimp only; split <;> rfl
  | _ => rfl

theorem PortUpdate.resetUnit (h : PortUpdate s t) : t.resetUnit = s.resetUnit := by cases h <;> rfl

theorem PortUpdate.settles (h : PortUpdate s t) : Settles s t :=
  ⟨by cases h <;> exact requestJustified_of_eq rfl rfl rfl rfl, edgeLatched_of_eq h.wakeEdge h.power h.resetUnit⟩

/-- A reset that begins anew clears the power request (R120). -/
theorem requestJustified_beginReset (h : s.resetUnit.inProgress = none) (kind : ResetKind) (extra : List Rect)
    (judged : State) : RequestJustified (beginReset kind extra judged s) := by
  rw [beginReset_fresh h]
  unfold initFor
  split <;> exact nofun

theorem settles_beginReset (kind : ResetKind) (extra : List Rect) (judged s : State) :
    Settles s (beginReset kind extra judged s) := by
  constructor
  · intro h
    cases hn : s.resetUnit.inProgress with
    | none => exact requestJustified_beginReset hn _ _ _
    | some r =>
      unfold beginReset
      rw [hn]
      dsimp only
      split
      · exact nofun
      · exact h
  · intro h
    rcases beginReset_cases kind extra judged s with i | ⟨underway, r, e⟩
    · exact edgeLatched_of_clear (by rw [i.time]; rfl)
    · rw [e]
      exact fun he => absurd (h he).2 (Option.isSome_iff_ne_none.1 underway)

/-- No command, nothing that lands in one and no reset sets the latch. -/
theorem host_wakeEdge {i : Instr} (hi : (encodeEntry i).isSome = true) (h : exec i s = .next t) :
    t.time.wakeEdge = true → s.time.wakeEdge = true := by
  have C : CommandUpdates fun u v => v.time.wakeEdge = true → u.time.wakeEdge = true := by
    constructor
    case trans => exact fun h g => h ∘ g
    -- no command's own work reaches the latch
    all_goals intros; assumption
  refine exec_host_rel C (fun a u h => by rwa [← (portArrival_update a u).wakeEdge]) (fun _ _ => nofun)
    (fun u h => ?_) hi h
  rcases beginReset_cases .soft [] u u with i | ⟨-, r, e⟩
  · rw [i.time] at h; cases h
  · rw [e] at h; exact h

/-- A host command's step, wherever it runs. -/
theorem commandEnd_settles {i : Instr} (hi : (encodeEntry i).isSome = true) (h : exec i s = .next t) : Settles s t := by
  have idle : s.inRun = false → t = s := by
    intro hn
    cases exec_commandEnd hi h with
    | idle _ => rfl
    | refused _ _ hr | accepted _ _ hr | slept _ _ _ hr | reset _ hr => rw [hn] at hr; cases hr
  constructor
  · intro hs
    cases exec_commandEnd hi h with
    | idle _ => exact hs
    | refused o p => exact requestJustified_endStep _
    | accepted u p => exact requestJustified_endStep _
    | slept k u p => exact requestJustified_of_eq rfl rfl rfl rfl (requestJustified_endStep _)
    | reset u hr _ hu =>
      exact requestJustified_beginReset (by rw [hu]; exact stepsRun_iff.1 (inRun_iff.1 hr).1) _ _ _
  · intro hs
    cases hr : s.inRun with
    | false => rw [idle hr]; exact hs
    | true =>
      intro he
      have := (hs (host_wakeEdge hi h he)).1
      rw [(inRun_iff.1 hr).2] at this; cases this

/-! ### Tick steps -/

theorem takeEdge_wakeEdge (s : State) : (takeEdge s).time.wakeEdge = false := by
  unfold takeEdge
  split
  · rfl
  · next h => simpa using h

/-- A completed wake has taken a latched edge before (R169, R170). -/
theorem edgeLatched_wakeOpening : EdgeLatched s → EdgeLatched (wakeOpening s) := by
  unfold wakeOpening
  split
  · intro _
    dsimp only
    split
    · exact edgeLatched_of_clear (takeEdge_wakeEdge s)
    · exact edgeLatched_of_clear (takeEdge_wakeEdge s)
  · exact id

theorem expireWakeTimer_wakeEdge (s : State) : (expireWakeTimer s).time.wakeEdge = s.time.wakeEdge := by
  unfold expireWakeTimer; dsimp only; split <;> rfl

theorem wakeTimerPart_wakeEdge (s : State) : (wakeTimerPart s).time.wakeEdge = s.time.wakeEdge := by
  unfold wakeTimerPart
  split
  · exact expireWakeTimer_wakeEdge s
  · rfl

theorem edgeLatched_tickParts (x : SensorInput) (h : EdgeLatched s) : EdgeLatched (tickParts x s) := by
  unfold tickParts
  refine edgeLatched_of_eq (wakeTimerPart_wakeEdge _) (wakeTimerPart_power _) (by simp) (edgeLatched_of_time ?_
    (edgeLatched_wakeOpening h))
  split <;> simp

theorem expireWatchdog_wakeEdge (s : State) : (expireWatchdog s).time.wakeEdge = s.time.wakeEdge := by
  unfold expireWatchdog; split <;> rfl

theorem edgeLatched_expireWatchdog : EdgeLatched s → EdgeLatched (expireWatchdog s) :=
  edgeLatched_of_eq (expireWatchdog_wakeEdge s) (expireWatchdog_power s) (by simp)

theorem edgeLatched_watchdogPart : EdgeLatched s → EdgeLatched (watchdogPart s) := by
  unfold watchdogPart
  split
  · exact edgeLatched_expireWatchdog
  · split <;> exact id

theorem execTick_settles {x : SensorInput} (h : execTick x s = .next t) : Settles s t := by
  simp only [execTick, Host.Outcome.next.injEq] at h; subst h
  split
  · have parts := edgeLatched_tickParts (s := s) x
    split
    · have ended : Settles s (endStep (watchdogPart (tickParts x s))) :=
        ⟨fun _ => requestJustified_endStep _, fun h => edgeLatched_watchdogPart (parts h)⟩
      split
      · exact ended.trans (settles_beginReset _ _ _ _)
      · exact ended
    · exact ⟨fun _ => requestJustified_endStep _, parts⟩
  · exact .refl s

theorem execWatchdogExpiry_settles (h : execWatchdogExpiry s = .next t) : Settles s t := by
  simp only [execWatchdogExpiry, Host.Outcome.next.injEq] at h; subst h
  have ended : Settles s (runStep (fun t => if watchdogDue t then expireWatchdog t else t) s) := by
    refine settles_runStep ?_
    split
    · exact edgeLatched_expireWatchdog
    · exact id
  split
  · exact ended.trans (settles_beginReset _ _ _ _)
  · exact ended

/-! ### Boundary steps and resets -/

theorem advanceLanes_frame (s : State) : (advanceLanes s).time = s.time ∧ (advanceLanes s).resetUnit = s.resetUnit := by
  unfold advanceLanes
  split
  · simp only [laneOrder, List.foldl_cons, List.foldl_nil, (advanceLane_parts _ _ _).2.1, (advanceLane_parts _ _ _).1,
      and_self]
  · exact ⟨rfl, rfl⟩

theorem boundaryWork_frame (s : State) :
    (boundaryWork s).time = s.time ∧ (boundaryWork s).resetUnit = s.resetUnit := by
  obtain ⟨time, reset⟩ := advanceLanes_frame (countFrame s)
  constructor
  · rw [boundaryWork, markWork_time, raisePowerRequest_time, (admitJobs_parts _).2, settleScheduler_time, time]; rfl
  · rw [boundaryWork, markWork_resetUnit, raisePowerRequest_resetUnit, (admitJobs_parts _).1, settleScheduler_resetUnit,
      reset]; rfl

theorem execFrameBoundary_settles (h : execFrameBoundary s = .next t) : Settles s t := by
  unfold execFrameBoundary at h
  split at h
  · split at h <;> cases h
    exact
      ⟨fun _ =>
          requestJustified_of_eq (by simp) (by simp) (by simp) (by simp) (requestJustified_endStep (boundaryWork s)),
        edgeLatched_of_time (by simpa using boundaryWork_frame s)⟩
  · cases h; exact .refl s

theorem laneEvent_settles {k : Fin 4} {work : Snapshot → ActiveJob → State → State}
    (hw : ∀ tb a, (work tb a s).time = s.time ∧ (work tb a s).resetUnit = s.resetUnit)
    (h : laneEvent k work s = .next t) : Settles s t := by
  unfold laneEvent at h
  split at h <;> cases h
  refine settles_runStep ?_
  split
  · exact edgeLatched_of_time (hw _ _)
  · exact id

theorem execResetDone_settles {b : Bool} {a : BitVec 3} (h : execResetDone b a s = .next t) : Settles s t := by
  simp only [execResetDone, Host.Outcome.next.injEq] at h; subst h
  split
  · next r hr =>
    split
    · refine ⟨requestJustified_of_eq rfl rfl rfl rfl, fun he hw => ?_⟩
      have := (he hw).2
      rw [hr] at this; cases this
    · exact ⟨id, id⟩
  · exact .refl s

/-! ### Every command, every step -/

theorem exec_settles {i : Instr} (h : exec i s = .next t) : Settles s t := by
  by_cases hi : (encodeEntry i).isSome = true
  · exact commandEnd_settles hi h
  cases i with
  | transaction bytes edge =>
    cases h
    split
    · exact (PortUpdate.forgotten false).settles
    · exact (portTransaction_update _ _ _).settles
  | fetch a l c k => cases h; exact (portFetch_update _ _ _ _ _).settles
  | tick x => exact execTick_settles h
  | watchdogExpiry => exact execWatchdogExpiry_settles h
  | frameBoundary => exact execFrameBoundary_settles h
  | resetDone b a => exact execResetDone_settles h
  | railGood => cases h; exact settles_otherStep (edgeLatched_of_time (by split <;> exact ⟨rfl, rfl⟩))
  | railLost => cases h; exact settles_otherStep (edgeLatched_of_time (by split <;> simp))
  | overcurrent => cases h; exact settles_otherStep (edgeLatched_of_time (by split <;> simp))
  | drainDone => cases h; exact settles_otherStep (edgeLatched_of_time (by split <;> exact ⟨rfl, rfl⟩))
  | powerRequestRamp => cases h; exact settles_otherStep (edgeLatched_of_time (by split <;> exact ⟨rfl, rfl⟩))
  | rampTimeout => cases h; exact settles_otherStep (edgeLatched_of_time (by split <;> simp))
  | railHoldExpiry => cases h; exact settles_otherStep (edgeLatched_of_time (by split <;> exact ⟨rfl, rfl⟩))
  | drainSlow => cases h; exact settles_otherStep (edgeLatched_of_time (by split <;> exact ⟨rfl, rfl⟩))
  | wakeTimerExpiry =>
    cases h
    refine settles_otherStep ?_
    split
    · next hd =>
      have power := wakeTimerPart_power s
      rw [wakeTimerPart, if_pos hd] at power
      exact edgeLatched_of_eq (expireWakeTimer_wakeEdge s) power rfl
    · exact id
  | woke =>
    cases h
    refine settles_otherStep ?_
    split
    · exact fun _ => edgeLatched_of_clear (takeEdge_wakeEdge s)
    · exact id
  | wakeEdge =>
    simp only [exec, execWakeEdge, Host.Outcome.next.injEq] at h; subst h
    split
    · next hc =>
      simp only [Bool.and_eq_true, decide_eq_true_eq] at hc
      exact ⟨requestJustified_of_eq rfl rfl rfl rfl, fun _ _ => ⟨hc.2, stepsRun_iff.1 hc.1⟩⟩
    · exact .refl s
  | oscillatorStable => cases h; exact ⟨id, id⟩
  | periodicSample x => cases h; exact settles_runStep (edgeLatched_of_time (by split <;> exact ⟨rfl, rfl⟩))
  | phaseAdvance k => exact laneEvent_settles (fun _ _ => by split <;> exact ⟨rfl, rfl⟩) h
  | completed k => exact laneEvent_settles (fun _ _ => by split <;> exact ⟨rfl, rfl⟩) h
  | aborted k c => cases h; exact settles_runStep (edgeLatched_of_time (by (repeat' split) <;> simp))
  | quiesceToHalted => cases h; exact settles_runStep (edgeLatched_of_time (by split <;> exact ⟨rfl, rfl⟩))
  | parkingToHolding => cases h; exact settles_runStep (edgeLatched_of_time (by split <;> exact ⟨rfl, rfl⟩))
  | activated => cases h; exact settles_runStep (edgeLatched_of_time (by (repeat' split) <;> simp))
  | por => cases h; exact settles_beginReset _ _ _ _
  | pinReset c =>
    cases h
    obtain ⟨im, p, r, e, -⟩ := applyCut_eq c s
    have cut : Settles s (applyCut c s) := by rw [e]; exact ⟨id, id⟩
    exact (cut.trans (settles_beginReset .pin (cutActivations c s) s _)).trans ⟨id, id⟩
  | _ => exact absurd rfl hi

end

theorem step_settles {s t : State} (h : step s = .next t) : Settles s t :=
  step_of_exec (P := Settles s) (Q := Settles s) (fun _ _ hu => hu.trans ⟨id, id⟩) (fun _ _ _ hu => hu.trans ⟨id, id⟩)
    (fun _ => id) (fun _ _ _ hu e => hu.trans (exec_settles e)) h (.refl s)

theorem hibernateLegal_iff {s : State} : HibernateLegal s ↔ Dormant s ∧ EdgeLatched s :=
  ⟨fun ⟨quiet, noReset, causes, edge, boundary, discarded⟩ =>
      ⟨⟨quiet, noReset, causes, boundary, discarded⟩, fun he => ⟨edge he, noReset (edge he)⟩⟩,
    fun ⟨⟨quiet, noReset, causes, boundary, discarded⟩, edge⟩ =>
      ⟨quiet, noReset, causes, fun he => (edge he).1, boundary, discarded⟩⟩

/-- Settles O60: what holds in Hibernate but for the WAKE edge latch is kept by every elementary update of a step; the latch,
which a wake takes before it completes, and the power request, which the end of a step settles, by every command. -/
theorem stepsKeepHibernateQuiet : Obligations.StepsKeepHibernateQuiet := by
  intro s t h
  have settled := step_settles h
  refine ⟨settled.request, fun hs _ => ?_⟩
  obtain ⟨dormant, edge⟩ := hibernateLegal_iff.1 hs
  exact hibernateLegal_iff.2 ⟨step_rel keepsDormant_commands keepsDormant_events h dormant, settled.edge edge⟩

end Sys2Proof.PortProofs
end

section
/-! O12, O13 and O14: NOP, Guard, Set Parameter, and what the parameters read. -/

namespace Sys2Proof.PortProofs
open Sys2Proof Sys2Proof.Machine Sys2Proof.Safety Sys2Proof.Claims Sys2Proof.Laws

/-! ### O12 -/

/-- Guard C3H arms the latch that every other command step leaves disarmed (R35, R36). -/
theorem execGuard_armed {s : State} (hr : s.inRun = true) :
    exec (.guard 0xC3#8) s = .next (commandEnd (.guard 0xC3#8) .ok [] s) := by
  simp only [exec, execGuard, plainCommand, commandStep, hr, if_true]
  rfl

/-- Settles O12. -/
theorem nopAndGuard : Obligations.NopAndGuard := by
  intro s key hr
  refine ⟨congrArg Host.Outcome.next (plainCommand_accept hr nofun rfl), ?_⟩
  by_cases hk : key = 0xC3#8
  · subst hk
    rw [if_pos rfl, execGuard_armed hr]
  · rw [if_neg hk]
    exact congrArg Host.Outcome.next (plainCommand_refuse hr (by simpa using hk) (if_neg hk))

/-! ### Commands that look at the Guard latch -/

section
variable {own : Bool} {c : Instr} {work : Bool → State → Verdict} {s : State} {p : List Byte}

theorem commandStep_refuse {o : OutcomeCode} (hr : s.inRun = true) (hg : c ≠ .guard 0xC3#8)
    (hw : work s.executor.guardLatch (disarmGuard s) = .refuse o p) :
    commandStep own c work s = commandEndOf own c o p s := by
  simp only [commandStep, hr, if_true, hw]
  exact finishCommand_eq_commandEndOf hg _ _ _ _

theorem commandStep_accept {u : State} (hr : s.inRun = true) (hg : c ≠ .guard 0xC3#8)
    (hw : work s.executor.guardLatch (disarmGuard s) = .accept (disarmGuard u) p) :
    commandStep own c work s = commandEndOf own c .ok p u := by
  simp only [commandStep, hr, if_true, hw]
  exact finishCommand_eq_commandEndOf hg _ _ _ _

end

/-! ### O13: Table 2-3 -/

theorem isReadOnly_iff (n : Byte) : isReadOnly n = true ↔ ReadOnly n := by
  have table : ∀ n : Byte, isReadOnly n = true ↔ ReadOnly n := by
    unfold ReadOnly; decide
  exact table n

theorem not_readOnly_of_writable {n : Byte} (h : Writable n) : ¬ ReadOnly n := by
  unfold Writable at h
  unfold ReadOnly
  omega

/-- The numbers of the RW rows, one by one. -/
theorem writable_cases {n : Byte} (h : Writable n) :
    n = 0x03#8 ∨ n = 0x04#8 ∨ n = 0x05#8 ∨ n = 0x06#8 ∨ n = 0x07#8 ∨ n = 0x08#8 ∨ n = 0x10#8 ∨ n = 0x11#8 ∨
      n = 0x12#8 ∨ n = 0x13#8 ∨ n = 0x14#8 := by
  unfold Writable at h
  simp only [← BitVec.toNat_inj, BitVec.toNat_ofNat]
  omega

/-- TEMP_OVERRIDE's bits 14:8, masked and cut out. -/
theorem overrideBits_iff (v : Word) : v &&& 0x7F00#16 = 0#16 ↔ v.extractLsb' 8 7 = 0#7 := by
  constructor
  · intro h
    refine BitVec.eq_of_getLsbD_eq fun i hi => ?_
    have bit := congrArg (fun w : Word => w.getLsbD (8 + i)) h
    have mask : ∀ j < 7, (0x7F00#16).getLsbD (8 + j) = true := by decide
    simpa [hi, mask i hi] using bit
  · intro h
    refine BitVec.eq_of_getLsbD_eq fun i hi => ?_
    by_cases hm : 8 ≤ i ∧ i < 15
    · have bit := congrArg (fun w : BitVec 7 => w.getLsbD (i - 8)) h
      have index : 8 + (i - 8) = i := by omega
      simp only [BitVec.getLsbD_extractLsb', index, show i - 8 < 7 by omega, decide_true, Bool.true_and,
        BitVec.getLsbD_zero] at bit
      simp [bit]
    · have mask : ∀ j < 16, ¬ (8 ≤ j ∧ j < 15) → (0x7F00#16).getLsbD j = false := by decide
      simp [mask i hi hm]

/-- WAKE_MODE's bits 1:0, masked and cut out, of a value 0..7. -/
theorem wakeBits_iff {v : Word} (h : v.toNat ≤ 7) : v &&& 3#16 ≠ 3#16 ↔ v.extractLsb' 0 2 ≠ 3#2 := by
  have table : ∀ k : Nat, k ≤ 7 →
      (BitVec.ofNat 16 k &&& 3#16 ≠ 3#16 ↔ (BitVec.ofNat 16 k).extractLsb' 0 2 ≠ 3#2) := by decide
  have := table v.toNat h
  rwa [BitVec.ofNat_toNat, BitVec.setWidth_eq] at this

theorem overrideValueOk_iff (v : Word) : paramValueOk 0x12#8 v = true ↔ AllowedValue 0x12#8 v := by
  change (decide (v &&& 0x7F00#16 = 0#16) && decide (TempRange (lowSigned v))) = true ↔ _
  rw [Bool.and_eq_true, decide_eq_true_eq, decide_eq_true_eq, overrideBits_iff]
  simp [AllowedValue, lowSigned, loByte]

theorem wakeModeValueOk_iff (v : Word) : paramValueOk 0x14#8 v = true ↔ AllowedValue 0x14#8 v := by
  rw [wakeMode_ok_iff]
  constructor
  · rintro ⟨h7, bits⟩
    simpa [AllowedValue, h7] using (wakeBits_iff h7).1 bits
  · intro h
    have h7 : v.toNat ≤ 7 ∧ v.extractLsb' 0 2 ≠ 3#2 := by simpa [AllowedValue] using h
    exact ⟨h7.1, (wakeBits_iff h7.1).2 h7.2⟩

/-- Check 3 of Set Parameter admits the values of Table 2-3 (R39). -/
theorem paramValueOk_iff {n : Byte} (v : Word) (h : Writable n) : paramValueOk n v = true ↔ AllowedValue n v := by
  rcases writable_cases h with rfl | rfl | rfl | rfl | rfl | rfl | rfl | rfl | rfl | rfl | rfl
  case inr.inr.inr.inr.inr.inr.inr.inr.inl => exact overrideValueOk_iff v
  case inr.inr.inr.inr.inr.inr.inr.inr.inr.inr => exact wakeModeValueOk_iff v
  all_goals simp [paramValueOk, AllowedValue]

/-- The guarded write: LINK_POLICY with bit 0 going from 1 to 0 (R36). -/
theorem clearsRequireCheck_iff (n : Byte) (v : Word) (p : Params) :
    clearsRequireCheck n v p = true ↔ n = 0x11#8 ∧ p.linkPolicy.getLsbD 0 = true ∧ v.getLsbD 0 = false := by
  simp [clearsRequireCheck, Params.requireCheck, and_assoc]

/-- The store of a writable parameter, field by field (R39, R162). -/
def storedParam (n : Byte) (v : Word) (s : State) : State :=
  { s with
    params :=
      { frameRate := if n = 0x03#8 then v else s.params.frameRate
        rampLimit := if n = 0x04#8 then v else s.params.rampLimit
        drainLimit := if n = 0x05#8 then v else s.params.drainLimit
        railHold := if n = 0x06#8 then v else s.params.railHold
        sensorSelect := if n = 0x07#8 then v else s.params.sensorSelect
        samplePeriod := if n = 0x08#8 then v else s.params.samplePeriod
        eventEnable := if n = 0x10#8 then v else s.params.eventEnable
        linkPolicy := if n = 0x11#8 then v else s.params.linkPolicy
        tempOverride := if n = 0x12#8 then v else s.params.tempOverride
        wakeInterval := if n = 0x13#8 then v else s.params.wakeInterval
        wakeMode := if n = 0x14#8 then v else s.params.wakeMode }
    time :=
      { s.time with
        wakeCount :=
          if n = 0x14#8 then (if v.extractLsb' 0 2 = 0#2 then none else some s.params.wakeInterval.toNat)
          else s.time.wakeCount } }

theorem storeParam_eq {n : Byte} (v : Word) (s : State) (h : Writable n) : storeParam n v s = storedParam n v s := by
  rcases writable_cases h with rfl | rfl | rfl | rfl | rfl | rfl | rfl | rfl | rfl | rfl | rfl <;> rfl

/-! ### O13: the four checks -/

section
variable {s : State} {n : Byte} {v : Word}

theorem execSetParameter_noParam (hr : s.inRun = true) (hn : isParam n = false) :
    exec (.setParameter n v) s = .next (commandEnd (.setParameter n v) .noParam [] s) :=
  congrArg Host.Outcome.next (commandStep_refuse hr nofun (by simp [hn]))

theorem execSetParameter_readOnly (hr : s.inRun = true) (hn : ReadOnly n) :
    exec (.setParameter n v) s = .next (commandEnd (.setParameter n v) .readOnly [] s) := by
  have param := (isParam_iff n).2 (.inr hn)
  have readOnly := (isReadOnly_iff n).2 hn
  exact congrArg Host.Outcome.next (commandStep_refuse hr nofun (by simp [param, readOnly]))

/-- What Set Parameter does with a writable number (R39 checks 3 and 4, then the store). -/
theorem execSetParameter_writable (hr : s.inRun = true) (hn : Writable n) :
    exec (.setParameter n v) s =
      .next
        (if !paramValueOk n v then commandEnd (.setParameter n v) .badValue [] s
        else if clearsRequireCheck n v s.params && !s.executor.guardLatch then commandEnd (.setParameter n v) .guard [] s
        else commandEnd (.setParameter n v) .ok [] (storedParam n v s)) := by
  have param := (isParam_iff n).2 (.inl hn)
  have readOnly : isReadOnly n = false := by
    rw [Bool.eq_false_iff, Ne, isReadOnly_iff]; exact not_readOnly_of_writable hn
  refine congrArg Host.Outcome.next ?_
  cases value : paramValueOk n v with
  | false => exact commandStep_refuse hr nofun (by simp [param, readOnly])
  | true =>
    cases guarded : clearsRequireCheck n v s.params && !s.executor.guardLatch with
    | true => exact commandStep_refuse hr nofun (by simp [param, readOnly, guarded])
    | false =>
      refine commandStep_accept hr nofun ?_
      simp only [param, readOnly, disarmGuard_params, guarded, Bool.not_true, Bool.false_eq_true, if_false,
        storeParam_eq v (disarmGuard s) hn]
      rfl

end

/-- Settles O13. -/
theorem setParameterChecksThenStores : Obligations.SetParameterChecksThenStores := by
  intro s n v hr
  have writable := fun hn : Writable n => execSetParameter_writable (v := v) hr hn
  refine ⟨fun hw ho => execSetParameter_noParam hr ?_, execSetParameter_readOnly hr, fun hw hv => ?_,
    fun hw hv hg hl => ?_, fun hw hv hg => ?_⟩
  · rw [Bool.eq_false_iff, Ne, isParam_iff]
    exact fun h => h.elim hw ho
  · have value : paramValueOk n v = false := by rwa [Bool.eq_false_iff, Ne, paramValueOk_iff v hw]
    rw [writable hw, value]; rfl
  · rw [writable hw, (paramValueOk_iff v hw).2 hv, (clearsRequireCheck_iff n v s.params).2 hg, hl]; rfl
  · have unguarded : (clearsRequireCheck n v s.params && !s.executor.guardLatch) = false := by
      rcases hg with hg | hl
      · have : clearsRequireCheck n v s.params = false := by rwa [Bool.eq_false_iff, Ne, clearsRequireCheck_iff]
        rw [this, Bool.false_and]
      · rw [hl, Bool.not_true, Bool.and_false]
    rw [writable hw, (paramValueOk_iff v hw).2 hv, unguarded]; rfl

/-! ### O14 -/

theorem countTrue_eq_count (l : List Bool) : countTrue l = l.count true := by
  induction l with
  | nil => rfl
  | cons b l ih => cases b <;> simp [countTrue, ih, Nat.add_comm]

/-- ACTIVE_LANES as a function of which lanes hold a job (R41). -/
theorem activeLanes_bits : ∀ a b c d : Bool,
    let w := wordOf ((if a then 1 else 0) + (if b then 2 else 0) + (if c then 4 else 0) + (if d then 8 else 0))
    w.getLsbD 0 = a ∧ w.getLsbD 1 = b ∧ w.getLsbD 2 = c ∧ w.getLsbD 3 = d ∧ w.extractLsb' 4 12 = 0#12 := by
  decide

theorem activeLanes_getLsbD (l : Lanes) (k : Fin 4) : (wordOf (activeLanes l)).getLsbD k.val = (l.get k).isSome := by
  obtain ⟨b0, b1, b2, b3, -⟩ := activeLanes_bits l.l0.isSome l.l1.isSome l.l2.isSome l.l3.isSome
  match k with
  | 0 => exact b0
  | 1 => exact b1
  | 2 => exact b2
  | 3 => exact b3

/-- TABLE_STATE's four fields (R41). -/
theorem tableState_sealed {w : Wave} {t : Snapshot} (h : w.table = some t) (hm : t.modes ≤ 6) (hb : t.bands ≤ 8) :
    tableState w = 0x8#4 ++ BitVec.ofNat 4 t.modes ++ 0x0#4 ++ BitVec.ofNat 4 t.bands := by
  have fields : ∀ m ≤ 6, ∀ b ≤ 8,
      wordOf (0x8000 + 256 * m + b) = 0x8#4 ++ BitVec.ofNat 4 m ++ 0x0#4 ++ BitVec.ofNat 4 b := by decide
  simp only [tableState, h]
  exact fields _ hm _ hb

/-- A temperature of R134 is the signed low byte of TEMPERATURE (R41). -/
theorem temperatureWord_valid {m : TempMonitor} {c : Int} (h : m.temperature = some c) (lo : -40 ≤ c) (hi : c ≤ 100) :
    (temperatureWord m).extractLsb' 8 8 = 0x80#8 ∧ ((temperatureWord m).extractLsb' 0 8).toInt = c := by
  have word : temperatureWord m = joinBytes 0x80#8 (signedByte c) := by simp only [temperatureWord, h, joinBytes]
  rw [word]
  refine ⟨hiByte_joinBytes _ _, ?_⟩
  rw [show (joinBytes 0x80#8 (signedByte c)).extractLsb' 0 8 = signedByte c from loByte_joinBytes _ _]
  simp only [signedByte, BitVec.toInt_ofInt, Int.bmod]
  omega

/-- Settles O14: where a parameter is a coded state, by the cases of that state. -/
theorem parametersReadTheirSources : Obligations.ParametersReadTheirSources := by
  intro s
  refine ⟨rfl, ?counts, ?sched, activeLanes_getLsbD s.sched.lanes, ?lanes, rfl, ?unsealed, fun t => tableState_sealed,
    ?invalid, fun c => temperatureWord_valid, ?noBand, ?band, ?rail, ?fault, rfl, ?cause, rfl, ?disarmed, ?armed, rfl, rfl⟩
  case counts => rw [← countTrue_eq_count]; rfl
  case sched => change wordOf s.sched.state.code = _; cases s.sched.state <;> rfl
  case lanes =>
    obtain ⟨-, -, -, -, rest⟩ := activeLanes_bits s.sched.lanes.l0.isSome s.sched.lanes.l1.isSome
      s.sched.lanes.l2.isSome s.sched.lanes.l3.isSome
    exact rest
  case unsealed => intro h; change tableState s.wave = _; rw [tableState, h]
  case invalid => intro h; change temperatureWord s.temp = _; rw [temperatureWord, h]
  case noBand => intro h; change bandWord s.temp = _; rw [bandWord, h]
  case band => intro b h; change bandWord s.temp = _; rw [bandWord, h]; rfl
  case rail => change wordOf s.supply.rail.code = _; cases s.supply.rail <;> rfl
  case fault => change wordOf s.supply.faultKind.code = _; cases s.supply.faultKind <;> rfl
  case cause => change wordOf s.resetUnit.cause.code = _; cases s.resetUnit.cause <;> rfl
  case disarmed =>
    intro h
    change watchdogWord s.time = _ ∧ (if s.time.armed then wordOf s.time.count else 0#16) = _
    rw [watchdogWord, h]; exact ⟨rfl, rfl⟩
  case armed =>
    intro h
    change watchdogWord s.time = _ ∧ (if s.time.armed then wordOf s.time.count else 0#16) = _
    rw [watchdogWord, h]
    refine ⟨?_, rfl⟩
    cases s.time.action <;> rfl

end Sys2Proof.PortProofs
end

section
/-! O2: the step that the arbiter starts on an empty queue (R27, R28, R29), and what the end of a step makes pending. -/

namespace Sys2Proof.PortProofs
open Sys2Proof Sys2Proof.Machine Sys2Proof.Safety Sys2Proof.Claims Sys2Proof.Laws

/-! ### What starts -/

section
variable {s t : State} {c : Instr}

/-- On an empty queue the step that the arbiter starts is executed. -/
theorem step_of_starts (hp : s.pending = []) (h : s.arbiterStarts = some (c, t)) : step s = exec c t := by
  simp only [step, hp, idleStep, h]

/-- With nothing to start the block idles. -/
theorem step_of_idle (hp : s.pending = []) (h : s.arbiterStarts = none) : step s = .next s := by
  simp only [step, hp, idleStep, h]

theorem arbiterStarts_of_reset (h : s.resetUnit.inProgress ≠ none) : s.arbiterStarts = none := by
  simp only [State.arbiterStarts, stepsRun_eq_false_iff.2 h, Bool.false_eq_true, if_false]

theorem arbiterStarts_of_next {a : Arbiter} (h : s.resetUnit.inProgress = none)
    (hn : s.arbiter.next (Config.freeReading s.freeTaken) = some (c, a)) :
    s.arbiterStarts = some (c, { s with arbiter := a, freeTaken := s.freeTaken + 1 }) := by
  simp only [State.arbiterStarts, stepsRun_iff.2 h, if_true, hn]

theorem next_of_nothingWaits (h : NothingWaits s) (x : SensorInput) : s.arbiter.next x = none := by
  obtain ⟨reports, ticks, boundary⟩ := h
  simp only [Arbiter.next, reports, ticks, boundary]

theorem arbiterStarts_of_nothingWaits (hr : s.resetUnit.inProgress = none) (h : NothingWaits s)
    (hi : s.time.power = .hibernate ∨ s.link.intake = []) : s.arbiterStarts = none := by
  simp only [State.arbiterStarts, stepsRun_iff.2 hr, if_true, next_of_nothingWaits h]
  rcases hi with hp | hi
  · simp only [inRun_of_hibernate hp, Bool.false_eq_true, if_false]
  · simp only [hi, ite_self]

end

/-! ### What the end of a step makes pending -/

/-- The reports of one instant stand in the order overcurrent, rail-lost, drain-done, rail-good (R27). -/
theorem reportsInOrder_eq (o l d g : Bool) : reportsInOrder o l d g = reportsOf (.reports o l d g) := by
  cases o <;> cases l <;> cases d <;> cases g <;> rfl

theorem post_eq (clock : Bool) (a : Arbiter) (c : StepCall) :
    Arbiter.post clock a c =
      { a with
        reports := a.reports ++ reportsOf c
        ticks := a.ticks + [c].count .tick
        boundary := a.boundary || (clock && decide (c = .boundary)) } := by
  cases c with
  | reports o l d g => simp [Arbiter.post, reportsInOrder_eq]
  | tick => simp [Arbiter.post, reportsOf]
  | boundary => simp [Arbiter.post, reportsOf]

/-- The calls of a list, posted one after the other (R27). -/
theorem foldl_post (clock : Bool) (calls : List StepCall) (a : Arbiter) :
    calls.foldl (Arbiter.post clock) a =
      { a with
        reports := a.reports ++ calls.flatMap reportsOf
        ticks := a.ticks + calls.count .tick
        boundary := a.boundary || (clock && decide (.boundary ∈ calls)) } := by
  induction calls generalizing a with
  | nil => simp
  | cons c calls ih =>
    rw [List.foldl_cons, ih, post_eq]
    simp only [List.flatMap_cons, List.append_assoc, Arbiter.mk.injEq, and_true, true_and]
    constructor
    · rw [List.count_cons (l := calls), List.count_singleton]; omega
    · cases clock
      · simp
      · simp [Bool.or_assoc, eq_comm]

section
variable {s : State}

theorem endStep_arbiter_of_calls {calls : List StepCall} {later : List (List StepCall)}
    (hr : s.resetUnit.inProgress = none) (coming : s.arbiter.coming = calls :: later) :
    (endStep s).arbiter =
      { reports := s.arbiter.reports ++ calls.flatMap reportsOf
        ticks := s.arbiter.ticks + calls.count .tick
        boundary := s.arbiter.boundary || (decide (s.time.power = .run) && decide (StepCall.boundary ∈ calls))
        coming := later } := by
  have clock : s.inRun = decide (s.time.power = .run) := by rw [State.inRun, stepsRun_iff.2 hr, Bool.true_and]
  rw [endStep_arbiter, stepsRun_iff.2 hr, if_pos rfl, clock]
  simp only [Arbiter.stepEnds, coming, List.headD_cons, List.tail_cons, foldl_post]

theorem endStep_arbiter_of_silence (coming : s.arbiter.coming = []) : (endStep s).arbiter = s.arbiter := by
  have silent : s.arbiter.stepEnds s.inRun = s.arbiter := by
    rw [Arbiter.stepEnds, coming]
    exact congrArg (fun l => { s.arbiter with coming := l }) coming.symm
  rw [endStep_arbiter, silent, ite_self]

end

/-- Settles O2: the arbiter's choice by what is pending, and the calls of a step posted one after the other. -/
theorem emptyQueueRunsWhatWaitsOrIdles : Obligations.EmptyQueueRunsWhatWaitsOrIdles := by
  refine ⟨fun s hp => ⟨fun hr => step_of_idle hp (arbiterStarts_of_reset hr), fun hr => ⟨?_, ?_, ?_, ?_, ?_⟩⟩,
    fun s calls later hr coming => endStep_arbiter_of_calls hr coming, fun s coming => endStep_arbiter_of_silence coming⟩
  · intro r rest h
    refine step_of_starts hp (arbiterStarts_of_next hr ?_)
    simp only [Arbiter.next, h]
    cases r <;> rfl
  · intro reports ticks
    refine step_of_starts hp (arbiterStarts_of_next hr ?_)
    obtain ⟨n, hn⟩ : ∃ n, s.arbiter.ticks = n + 1 := ⟨s.arbiter.ticks - 1, by omega⟩
    simp only [Arbiter.next, reports, hn, Nat.add_sub_cancel]
  · intro reports ticks boundary
    refine step_of_starts hp (arbiterStarts_of_next hr ?_)
    simp only [Arbiter.next, reports, ticks, boundary]
  · exact fun waits hi => step_of_idle hp (arbiterStarts_of_nothingWaits hr waits hi)
  · intro e rest c waits power intake decoded
    exact step_of_starts hp (arbiterStarts_head waits (inRun_iff.2 ⟨stepsRun_iff.2 hr, power⟩) intake decoded)

end Sys2Proof.PortProofs
end

section
/-! What a pixel reads after each of the orders in which a step writes pixels (R49, R51, R56, R60, R73). -/

namespace Sys2Proof.PortProofs
open Sys2Proof Sys2Proof.Machine Sys2Proof.Safety Sys2Proof.Claims Sys2Proof.Laws

theorem applyOp_eq_opResult (op : PixelOp) (p t k : Level) : applyOp op p t k = opResult op p t k := by
  cases op with
  | invert =>
    have inverted : ∀ q : Level, 3#2 - q = BitVec.ofNat 2 (3 - q.toNat) := by decide
    exact inverted p
  | _ => rfl

/-! ### Pixels each written once -/

/-- A pixel after distinct pixels have been stamped, in any order (R73). -/
theorem get_stampPixels (op : PixelOp) (key : Level) {x y : Nat} (hx : x < 480) (l : List ((Nat × Nat) × Level)) :
    ∀ p : Plane, Memory.wf Config.porLevel p = true → (l.map Prod.fst).Nodup → (∀ q ∈ l, q.1.1 < 480) →
      Plane.get (stampPixels op key p l) x y =
        (l.find? fun q => decide (q.1 = (x, y))).elim (Plane.get p x y)
          fun q => opResult op q.2 (Plane.get p x y) key := by
  induction l with
  | nil => intro p _ _ _; rfl
  | cons q l ih =>
    intro p hp hd hl
    obtain ⟨⟨qx, qy⟩, v⟩ := q
    rw [List.map_cons, List.nodup_cons] at hd
    have hq : qx < 480 := hl _ List.mem_cons_self
    rw [stampPixels, ih _ (wf_set _ _ _ hp) hd.2 fun r hr => hl r (List.mem_cons_of_mem _ hr), List.find?_cons]
    by_cases h : (qx, qy) = (x, y)
    · cases h
      have once : (l.find? fun r => decide (r.1 = (x, y))) = none := by
        rw [List.find?_eq_none]
        exact fun r hr he => hd.1 (List.mem_map.2 ⟨r, hr, of_decide_eq_true he⟩)
      rw [once, decide_eq_true rfl, Option.elim_none, get_set_self _ _ _ hp, applyOp_eq_opResult]
      rfl
    · rw [decide_eq_false h, get_set_other _ hq hx (Ne.symm h) hp]

/-- A fill stamps one level (R60). -/
theorem fillPixels_eq_stampPixels (w : Writer) (v : Level) (l : List (Nat × Nat)) :
    ∀ p : Plane, fillPixels w v p l = stampPixels w.op w.key p (l.map fun q => (q, v)) := by
  induction l with
  | nil => intro p; rfl
  | cons q l ih => intro p; exact ih _

theorem get_fillPixels (w : Writer) (v : Level) {l : List (Nat × Nat)} {p : Plane} {x y : Nat}
    (hp : Memory.wf Config.porLevel p = true) (hd : l.Nodup) (hl : ∀ q ∈ l, q.1 < 480) (hx : x < 480) :
    Plane.get (fillPixels w v p l) x y =
      if (x, y) ∈ l then opResult w.op v (Plane.get p x y) w.key else Plane.get p x y := by
  have pixels : (l.map fun q => (q, v)).map Prod.fst = l := by rw [List.map_map]; exact List.map_id l
  have columns : ∀ r ∈ l.map fun q => (q, v), r.1.1 < 480 := by
    intro r hr
    obtain ⟨q, hq, rfl⟩ := List.mem_map.1 hr
    exact hl q hq
  rw [fillPixels_eq_stampPixels, get_stampPixels _ _ hx _ _ hp (by rwa [pixels]) columns, List.find?_map]
  cases hf : l.find? ((fun r : (Nat × Nat) × Level => decide (r.1 = (x, y))) ∘ fun q => (q, v)) with
  | some q =>
    have found : q = (x, y) := by simpa using List.find?_some hf
    rw [if_pos (found ▸ List.mem_of_find?_eq_some hf)]; rfl
  | none =>
    rw [if_neg fun h => List.find?_eq_none.1 hf _ h (decide_eq_true rfl)]; rfl

/-! ### Orders without repetition -/

/-- Rows and columns in turn meet each pair once. -/
theorem nodup_flatMap_map {α β γ : Type} {f : α → β → γ} (hf : Function.Injective2 f) {l : List α} {m : List β}
    (hl : l.Nodup) (hm : m.Nodup) : (l.flatMap fun a => m.map (f a)).Nodup := by
  rw [List.nodup_flatMap]
  refine ⟨fun a _ => hm.map fun b c h => (hf h).2, hl.imp fun {a b} hne => ?_⟩
  rw [Function.onFun, List.disjoint_left]
  intro z hza hzb
  obtain ⟨c, -, rfl⟩ := List.mem_map.1 hza
  obtain ⟨d, -, hd⟩ := List.mem_map.1 hzb
  exact hne (hf hd).1.symm

theorem nodup_upTo (lo hi : Nat) : (upTo lo hi).Nodup := List.nodup_range'

theorem mem_upTo {lo hi k : Nat} : k ∈ upTo lo hi ↔ lo ≤ k ∧ k ≤ hi := by
  simp only [upTo, List.mem_range'_1]; omega

theorem nodup_axisOrder (down : Bool) (lo hi : Nat) : (axisOrder down lo hi).Nodup := by
  unfold axisOrder
  split
  · exact List.nodup_reverse.2 (nodup_upTo lo hi)
  · exact nodup_upTo lo hi

theorem mem_axisOrder {down : Bool} {lo hi k : Nat} : k ∈ axisOrder down lo hi ↔ lo ≤ k ∧ k ≤ hi := by
  unfold axisOrder
  split
  · rw [List.mem_reverse, mem_upTo]
  · exact mem_upTo

/-- A scan meets each pixel of the window once (R49, R60). -/
theorem nodup_scanOrder (win : Rect) (code : BitVec 3) : (scanOrder win code).Nodup := by
  unfold scanOrder
  dsimp only
  split
  · exact nodup_flatMap_map (fun _ _ _ _ h => Prod.mk.inj h) (nodup_axisOrder _ _ _) (nodup_axisOrder _ _ _)
  · exact nodup_flatMap_map (fun _ _ _ _ h => (Prod.mk.inj h).symm) (nodup_axisOrder _ _ _) (nodup_axisOrder _ _ _)

/-- A scan meets the window's pixels and no other. -/
theorem mem_scanOrder {win : Rect} {code : BitVec 3} {q : Nat × Nat} : q ∈ scanOrder win code ↔ win.Holds q.1 q.2 := by
  obtain ⟨x, y⟩ := q
  unfold scanOrder
  dsimp only
  split <;> simp [mem_axisOrder, Rect.Holds] <;> omega

theorem mem_raster {r : Rect} {q : Nat × Nat} : q ∈ r.raster ↔ r.Holds q.1 q.2 := by
  obtain ⟨x, y⟩ := q
  simp [Rect.raster, mem_upTo, Rect.Holds]
  omega

theorem nodup_tilePixels (t : Tile) : (tilePixels t).Nodup :=
  nodup_flatMap_map (fun _ _ _ _ h => (Prod.mk.inj h).symm) List.nodup_range List.nodup_range

theorem placedAt_some {start : Int} {k limit n : Nat} (h : placedAt start k limit = some n) :
    (n : Int) = start + k ∧ n < limit := by
  unfold placedAt at h
  split at h
  · simp only [Option.some.injEq] at h; omega
  · cases h

/-- A placed pixel comes from one tile pixel and lies in the active area (R72). -/
theorem mem_placedPixels {pattern : List Host.Cell} {t : Tile} {x y : Int} {w h : Nat} {p : (Nat × Nat) × Level}
    (hp : p ∈ placedPixels pattern t x y w h) : p.1.1 < w := by
  simp only [placedPixels, List.mem_filterMap] at hp
  obtain ⟨ij, -, hp⟩ := hp
  split at hp
  · next hx _ => cases hp; exact (placedAt_some hx).2
  · cases hp

/-- Place Tile writes no pixel twice (R72, R73). -/
theorem nodup_placedPixels (pattern : List Host.Cell) (t : Tile) (x y : Int) (w h : Nat) :
    ((placedPixels pattern t x y w h).map Prod.fst).Nodup := by
  rw [placedPixels, List.map_filterMap]
  refine (nodup_tilePixels t).filterMap fun ij kl q hij hkl => ?_
  simp only [Option.mem_def, Option.map_eq_some_iff] at hij hkl
  obtain ⟨a, ha, rfl⟩ := hij
  obtain ⟨b, hb, hab⟩ := hkl
  split at ha
  · next hx hy =>
    split at hb
    · next hx' hy' =>
      cases ha
      cases hb
      cases hab
      have := placedAt_some hx
      have := placedAt_some hx'
      have := placedAt_some hy
      have := placedAt_some hy'
      exact Prod.ext (by omega) (by omega)
    · cases hb
  · cases ha

/-! ### Pixels in stream order -/

theorem streamPixels_append (l m : List Level) : ∀ (w : Writer) (t : Plane) (b : Bool),
    streamPixels w t b (l ++ m) =
      streamPixels (streamPixels w t b l).1 (streamPixels w t b l).2.1 (streamPixels w t b l).2.2 m := by
  induction l with
  | nil => intro w t b; rfl
  | cons p l ih => intro w t b; exact ih _ _ _

theorem streamPixels_iterate (l : List Level) : ∀ (w : Writer) (t : Plane) (b : Bool),
    (streamPixels w t b l).1 = Writer.step^[l.length] w := by
  induction l with
  | nil => intro w t b; rfl
  | cons p l ih => intro w t b; exact ih _ _ _

/-- What the advance of the cursor leaves alone (R49). -/
theorem iterate_step_fixed (w : Writer) (k : Nat) :
    (Writer.step^[k] w).op = w.op ∧ (Writer.step^[k] w).key = w.key ∧ (Writer.step^[k] w).window = w.window := by
  induction k with
  | zero => exact ⟨rfl, rfl, rfl⟩
  | succ k ih => rw [Function.iterate_succ_apply']; exact ih

theorem cursorAt_holds {w : Writer} (h : w.window.Holds w.cx w.cy) (k : Nat) :
    w.window.Holds (cursorAt w k).1 (cursorAt w k).2 := by
  induction k with
  | zero => exact h
  | succ k ih =>
    have fixed := (iterate_step_fixed w k).2.2
    rw [cursorAt, Function.iterate_succ_apply']
    rw [← fixed] at ih ⊢
    exact advanceCursor_holds ih

theorem length_unpack (data : List Byte) : (unpack data).length = 4 * data.length := by
  induction data with
  | nil => rfl
  | cons b data ih => rw [unpack, List.length_append, ih, List.length_cons]; simp [unpackByte]; omega

/-- Pixel `k` of a payload (R56). -/
theorem unpack_getElem? (data : List Byte) : ∀ k < 4 * data.length, (unpack data)[k]? = some (pixelOf data k) := by
  induction data with
  | nil => intro k hk; simp at hk
  | cons b data ih =>
    intro k hk
    rw [unpack]
    match k with
    | 0 | 1 | 2 | 3 => rfl
    | k + 4 =>
      have rest : (unpackByte b ++ unpack data)[k + 4]? = (unpack data)[k]? := rfl
      rw [rest, ih k (by simp at hk; omega)]
      simp [pixelOf]

/-- The plane after the first `k` pixels of a stream. -/
def streamed (w : Writer) (t : Plane) (data : List Byte) (k : Nat) : Plane :=
  (streamPixels w t false ((unpack data).take k)).2.1

/-- Each pixel of the stream is the operation at the cursor (R51, R56). -/
theorem get_streamed_succ {w : Writer} {t : Plane} {data : List Byte} {k : Nat}
    (ht : Memory.wf Config.porLevel t = true) (hk : k < 4 * data.length) (hc : (cursorAt w k).1 < 480) {x y : Nat}
    (hx : x < 480) :
    Plane.get (streamed w t data (k + 1)) x y =
      if (x, y) = cursorAt w k then
        opResult w.op (pixelOf data k) (Plane.get (streamed w t data k) x y) w.key
      else Plane.get (streamed w t data k) x y := by
  have wf : Memory.wf Config.porLevel (streamed w t data k) = true := wf_streamPixels _ _ _ _ ht
  have len : ((unpack data).take k).length = k := by rw [List.length_take, length_unpack]; omega
  obtain ⟨op, key, -⟩ := iterate_step_fixed w k
  have written : streamed w t data (k + 1) =
      Plane.set (streamed w t data k) (cursorAt w k).1 (cursorAt w k).2
        (applyOp w.op (pixelOf data k) (Plane.get (streamed w t data k) (cursorAt w k).1 (cursorAt w k).2) w.key) := by
    rw [streamed, List.take_add_one, unpack_getElem? data k hk, Option.toList_some, streamPixels_append,
      streamPixels_iterate, len]
    simp only [streamPixels, Writer.writePixel, op, key, cursorAt, streamed]
  rw [written]
  split
  · next h => rw [← h, get_set_self _ _ _ wf, applyOp_eq_opResult]
  · next h => exact get_set_other _ hc hx h wf

end Sys2Proof.PortProofs
end

section
/-! O53: what a PIN reset leaves of the step that it cuts (R29, R61, R74, R84, R133, R174). -/

namespace Sys2Proof.PortProofs
open Sys2Proof Sys2Proof.Machine Sys2Proof.Safety Sys2Proof.Claims Sys2Proof.Laws

/-! ### The reset's beginning -/

/-- The reset begun by a PIN reset that cuts a step: `extra` the regions of the jobs that the step had activated. -/
def CutMarked (s : State) (extra : List Rect) (t : State) : Prop :=
  t.resetUnit.inProgress = some ⟨.pin, s.sched.jobCount⟩ ∧
    t.sched.marks =
      ((s.sched.lanes.active.map fun a => a.job.region) ++ extra).foldl
        (fun m r => markTouched (s.image.width / 16) r m) s.sched.marks

section
variable {s : State}

/-- What a PIN reset in Run retains is what the cut step has left (R29, R174, Table 11-2). -/
theorem execPinReset_cut (hr : s.inRun = true) (cut : CutStep) :
    ∃ t, exec (.pinReset cut) s = .next t ∧ CutMarked s (cutActivations cut s) t ∧ t.image = (applyCut cut s).image ∧
      t.tiles = (applyCut cut s).tiles ∧ t.wave.ram = (applyCut cut s).wave.ram := by
  obtain ⟨im, pattern, ram, e, width, -⟩ := applyCut_eq cut s
  have fresh : (applyCut cut s).resetUnit.inProgress = none := by rw [e]; exact stepsRun_iff.1 (inRun_iff.1 hr).1
  have eq := beginReset_fresh fresh .pin (cutActivations cut s) s
  refine ⟨_, rfl, ⟨by rw [eq], ?_⟩, by rw [eq]; rfl, by rw [eq]; rfl, by rw [eq]; rfl⟩
  rw [eq, e, ← width]
  rfl

/-! ### The two loads -/

/-- The first `done` data bytes of a load (R74, R84). -/
theorem byteAt_writeRun_take {m : List Host.Cell} (hm : Memory.wf Config.porByte m = true) (data : List Byte)
    (start done a : Nat) :
    byteAt (Memory.writeRun Config.porByte m start (data.take done)) a =
      if start ≤ a ∧ a < start + min done data.length then data.getD (a - start) 0#8 else byteAt m a := by
  rw [byteAt, read_writeRun _ _ _ _ hm, List.length_take]
  split
  · next h =>
    have inside : a - start < done := by omega
    rw [List.getD_eq_getElem?_getD, List.getD_eq_getElem?_getD, List.getElem?_take, if_pos inside]; rfl
  · rfl

theorem pinReset_cuts_loadWaveformData (hr : s.inRun = true) (hm : MemoriesCanonical s) {offset : Word}
    {data : List Byte} (done : Nat) (ht : s.wave.table = none) (hl : offset.toNat + data.length ≤ 8192) :
    ∃ t, exec (.pinReset (.loadWaveformData offset data done)) s = .next t ∧ CutMarked s [] t ∧ t.image = s.image ∧
      t.tiles = s.tiles ∧
      ∀ a, byteAt t.wave.ram a =
        if offset.toNat ≤ a ∧ a < offset.toNat + min done data.length then data.getD (a - offset.toNat) 0#8
        else byteAt s.wave.ram a := by
  obtain ⟨t, ht', begun, image, tiles, ram⟩ := execPinReset_cut hr (.loadWaveformData offset data done)
  have cut : applyCut (.loadWaveformData offset data done) s =
      { s with
        wave := { s.wave with ram := Memory.writeRun Config.porByte s.wave.ram offset.toNat (data.take done) } } := by
    refine (if_pos hr).trans (if_neg ?_)
    rw [ht]; simpa [Config.ramSize] using hl
  rw [cut] at image tiles ram
  exact ⟨t, ht', begun, image, tiles, fun a => by rw [ram]; exact byteAt_writeRun_take hm.ram data _ done a⟩

theorem pinReset_cuts_loadTileData (hr : s.inRun = true) (hm : MemoriesCanonical s) {slot : Byte} {offset : Word}
    {data : List Byte} (done : Nat) {tile : Tile} (hs : slot.toNat ≤ 15)
    (ht : slotAt s.tiles.slots slot.toNat = some tile) (hl : offset.toNat + data.length ≤ tile.size) :
    ∃ t, exec (.pinReset (.loadTileData slot offset data done)) s = .next t ∧ CutMarked s [] t ∧ t.image = s.image ∧
      t.wave.ram = s.wave.ram ∧
      ∀ a, byteAt t.tiles.pattern a =
        if tile.base + offset.toNat ≤ a ∧ a < tile.base + offset.toNat + min done data.length then
          data.getD (a - (tile.base + offset.toNat)) 0#8
        else byteAt s.tiles.pattern a := by
  obtain ⟨t, ht', begun, image, tiles, ram⟩ := execPinReset_cut hr (.loadTileData slot offset data done)
  have cut : applyCut (.loadTileData slot offset data done) s =
      { s with tiles := { s.tiles with pattern := loadTile tile offset.toNat (data.take done) s.tiles.pattern } } := by
    refine (if_pos hr).trans ?_
    simp only [cutLoadTileData, ht]
    exact if_neg (by omega)
  rw [cut] at image tiles ram
  exact ⟨t, ht', begun, image, ram, fun a => by rw [tiles]; exact byteAt_writeRun_take hm.pattern data _ done a⟩

/-! ### The three steps that write pixels -/

/-- A pixel of a valid rectangle lies in a column of the plane (R44). -/
theorem column_of_valid {r : Rect} {w h x y : Nat} (hr : r.Valid w h) (hw : w ≤ 480) (hxy : r.Holds x y) : x < 480 := by
  obtain ⟨-, right, -, -⟩ := hr
  obtain ⟨-, inside, -, -⟩ := hxy
  omega

theorem levelOf_eq {b : Byte} (h : b.toNat ≤ 3) : levelOf b = some (b.extractLsb' 0 2) := if_pos h

theorem pinReset_cuts_fillWindow (hr : s.inRun = true) (hm : MemoriesCanonical s) (hw : WriterLegal s) {level : Byte}
    (done : Nat) (hl : level.toNat ≤ 3) :
    ∃ t, exec (.pinReset (.fillWindow level done)) s = .next t ∧ CutMarked s [] t ∧ t.image.latch = s.image.latch ∧
      t.image.shown = s.image.shown ∧ t.wave.ram = s.wave.ram ∧ t.tiles = s.tiles ∧
      ∀ px py, px < 480 →
        Plane.get t.image.target px py =
          if (px, py) ∈ (scanOrder s.writer.window s.writer.scan).take done then
            opResult s.writer.op (level.extractLsb' 0 2) (Plane.get s.image.target px py) s.writer.key
          else Plane.get s.image.target px py := by
  obtain ⟨t, ht, begun, image, tiles, ram⟩ := execPinReset_cut hr (.fillWindow level done)
  have cut : applyCut (.fillWindow level done) s = cutFillWindow level done s := if_pos hr
  simp only [cutFillWindow, levelOf_eq hl] at cut
  rw [cut] at image tiles ram
  refine ⟨t, ht, begun, by rw [image], by rw [image], ram, tiles, fun px py hx => ?_⟩
  rw [image]
  exact get_fillPixels _ _ hm.target ((nodup_scanOrder _ _).sublist (List.take_sublist _ _))
    (fun q hq => column_of_valid hw.window hw.widthRange.2 (mem_scanOrder.1 (List.mem_of_mem_take hq))) hx

theorem pinReset_cuts_writePixels (hr : s.inRun = true) (hm : MemoriesCanonical s) (hw : WriterLegal s)
    (data : List Byte) (done : Nat) :
    ∃ (t : State) (T : Nat → Plane), exec (.pinReset (.writePixels data done)) s = .next t ∧ CutMarked s [] t ∧
      t.image.latch = s.image.latch ∧ t.image.shown = s.image.shown ∧ t.wave.ram = s.wave.ram ∧ t.tiles = s.tiles ∧
      T 0 = s.image.target ∧ t.image.target = T (min done (4 * data.length)) ∧
      ∀ k, k < min done (4 * data.length) → ∀ px py, px < 480 →
        Plane.get (T (k + 1)) px py =
          if (px, py) = cursorAt s.writer k then
            opResult s.writer.op (pixelOf data k) (Plane.get (T k) px py) s.writer.key
          else Plane.get (T k) px py := by
  obtain ⟨t, ht, begun, image, tiles, ram⟩ := execPinReset_cut hr (.writePixels data done)
  have cut : applyCut (.writePixels data done) s = cutWritePixels data done s := if_pos hr
  rw [cut] at image tiles ram
  have columns : ∀ k, (cursorAt s.writer k).1 < 480 := fun k =>
    column_of_valid hw.window hw.widthRange.2 (cursorAt_holds hw.cursor k)
  refine ⟨t, streamed s.writer s.image.target data, ht, begun, by rw [image]; rfl, by rw [image]; rfl, ram, tiles, rfl, ?_,
    fun k hk px py hx => get_streamed_succ hm.target (by omega) (columns k) hx⟩
  rw [image, streamed, ← length_unpack, ← List.take_eq_take_min]; rfl

theorem pixelOpOf_eq (b : Byte) : pixelOpOf b = [PixelOp.replace, .keySkip, .matchOnly, .invert][b.toNat]? := by
  unfold pixelOpOf
  split <;> simp_all
  omega

theorem pinReset_cuts_placeTile (hr : s.inRun = true) (hm : MemoriesCanonical s) (hw : WriterLegal s) {slot op key : Byte}
    (x y : Word) (done : Nat) {tile : Tile} {o : PixelOp} (hs : slot.toNat ≤ 15)
    (ho : [PixelOp.replace, .keySkip, .matchOnly, .invert][op.toNat]? = some o) (hk : key.toNat ≤ 3)
    (ht : slotAt s.tiles.slots slot.toNat = some tile) :
    ∃ t, exec (.pinReset (.placeTile slot x y op key done)) s = .next t ∧ CutMarked s [] t ∧
      t.image.latch = s.image.latch ∧ t.image.shown = s.image.shown ∧ t.wave.ram = s.wave.ram ∧ t.tiles = s.tiles ∧
      ∀ px py, px < 480 →
        Plane.get t.image.target px py =
          ((((placedPixels s.tiles.pattern tile x.toInt y.toInt s.image.width s.image.height).take done).find?
            fun p => decide (p.1 = (px, py))).elim (Plane.get s.image.target px py)
            fun p => opResult o p.2 (Plane.get s.image.target px py) (key.extractLsb' 0 2)) := by
  obtain ⟨t, ht', begun, image, tiles, ram⟩ := execPinReset_cut hr (.placeTile slot x y op key done)
  have cut : applyCut (.placeTile slot x y op key done) s = cutPlaceTile slot x y op key done s := if_pos hr
  simp only [cutPlaceTile, pixelOpOf_eq, ho, levelOf_eq hk, ht, Nat.not_lt.2 hs, if_false] at cut
  rw [cut] at image tiles ram
  refine ⟨t, ht', begun, by rw [image], by rw [image], ram, tiles, fun px py hx => ?_⟩
  rw [image]
  have first := List.take_sublist done (placedPixels s.tiles.pattern tile x.toInt y.toInt s.image.width s.image.height)
  refine get_stampPixels _ _ hx _ _ hm.target ((nodup_placedPixels _ _ _ _ _ _).sublist (first.map _)) fun q hq => ?_
  have := mem_placedPixels (first.subset hq)
  have := hw.widthRange.2
  omega

/-! ### The boundary step's writes -/

theorem activatedRegions_eq (ws : List BoundaryWrite) : activatedRegions ws = ws.filterMap activatedBy := by
  induction ws with
  | nil => rfl
  | cons w ws ih =>
    cases w with
    | shown x y v => exact ih
    | latch x y v => exact ih
    | activation r => exact congrArg (r :: ·) ih

/-- Before admission a boundary step changes neither Target nor geometry (R127, R128). -/
theorem advanceLane_image (t : Snapshot) (k : Fin 4) (u : State) :
    (advanceLane t k u).image.target = u.image.target ∧ (advanceLane t k u).image.width = u.image.width := by
  unfold advanceLane
  dsimp only
  (repeat' split) <;> simp [setLane, completeJob]

theorem advanceLanes_image (u : State) :
    (advanceLanes u).image.target = u.image.target ∧ (advanceLanes u).image.width = u.image.width := by
  unfold advanceLanes
  split
  · simp only [laneOrder, List.foldl_cons, List.foldl_nil, (advanceLane_image _ _ _).1, (advanceLane_image _ _ _).2,
      and_self]
  · exact ⟨rfl, rfl⟩

/-- The state in which a boundary step's admission finds the machine (Table 7-2). -/
def atAdmission (s : State) : State := settleScheduler (advanceLanes (countFrame s))

theorem latchLevel_eq_latchedFrom (t : Snapshot) (eff : Nat) (xy : Nat × Nat) :
    latchLevel (isGrey (t.attr eff)) (Plane.get s.image.target xy.1 xy.2) = latchedFrom s t eff xy := by
  have rounded : ∀ v : Level, roundLevel v = if v = 0#2 ∨ v = 1#2 then 0#2 else 3#2 := by decide
  unfold latchLevel latchedFrom
  rw [rounded]; rfl

/-- The ACTIVE jobs that a boundary completes, in lane order (R128 item 4). -/
def finishedJobs (table : Snapshot) (s : State) : List ActiveJob :=
  ([0, 1, 2, 3] : List (Fin 4)).filterMap fun k =>
    (s.sched.lanes.get k).filter fun a =>
      decide (a.remaining ≤ 1) && decide (phasesOf s.wave.ram table a.effMode a.band ≤ a.phase + 1)

theorem completing_eq (table : Snapshot) (s : State) (k : Fin 4) :
    completing table s k =
      (s.sched.lanes.get k).filter fun a =>
        decide (a.remaining ≤ 1) && decide (phasesOf s.wave.ram table a.effMode a.band ≤ a.phase + 1) := by
  unfold completing
  cases s.sched.lanes.get k with
  | none => rfl
  | some a => rw [Option.filter_some]; rfl

theorem completionWrites_eq (table : Snapshot) (s : State) :
    completionWrites table s =
      ((finishedJobs table s).flatMap fun a => a.job.region.raster).map fun xy =>
        .shown xy.1 xy.2 (Plane.get s.image.latch xy.1 xy.2) := by
  rw [completionWrites, funext (completing_eq table s), List.map_flatMap]; rfl

theorem activationWrites_eq (table : Snapshot) (s : State) :
    activationWrites table (atAdmission s) =
      (atAdmission s).sched.eligible.flatMap fun jk =>
        (jk.1.region.raster.map fun xy =>
          .latch xy.1 xy.2 (latchedFrom s table (effectiveMode table s.image (atAdmission s).sched jk.1) xy)) ++
          [.activation jk.1.region] := by
  obtain ⟨target, width⟩ := advanceLanes_image (countFrame s)
  have target : (atAdmission s).image.target = s.image.target := by rw [atAdmission, settleScheduler_image, target]; rfl
  have width : (atAdmission s).image.width = s.image.width := by rw [atAdmission, settleScheduler_image, width]; rfl
  have mode : ∀ j, effectiveMode table (atAdmission s).image (atAdmission s).sched j =
      effectiveMode table s.image (atAdmission s).sched j := by
    intro j
    rw [effectiveMode, isUpgraded, cellColumns, width]; rfl
  simp only [activationWrites, target, mode, latchLevel_eq_latchedFrom]

theorem boundaryWrites_unsealed (h : s.wave.table = none) : boundaryWrites s = [] := by
  unfold boundaryWrites; rw [h]

theorem boundaryWrites_sealed {table : Snapshot} (h : s.wave.table = some table) :
    boundaryWrites s =
      (((finishedJobs table s).flatMap fun a => a.job.region.raster).map fun xy =>
        .shown xy.1 xy.2 (Plane.get s.image.latch xy.1 xy.2)) ++
        (if (atAdmission s).mayAdmit = true ∧ (atAdmission s).supply.rail = .ready then
          (atAdmission s).sched.eligible.flatMap fun jk =>
            (jk.1.region.raster.map fun xy =>
              .latch xy.1 xy.2 (latchedFrom s table (effectiveMode table s.image (atAdmission s).sched jk.1) xy)) ++
              [.activation jk.1.region]
        else []) := by
  have opened : admissionOpen (atAdmission s) = true ↔
      (atAdmission s).mayAdmit = true ∧ (atAdmission s).supply.rail = .ready := by simp [admissionOpen]
  rw [← completionWrites_eq, ← activationWrites_eq]
  unfold boundaryWrites
  rw [h]
  simp only [← opened]
  rfl

/-- Completion copies paint S (R109). -/
theorem foldl_shown (f : Nat → Nat → Level) (l : List (Nat × Nat)) : ∀ im : Image,
    ((l.map fun xy => BoundaryWrite.shown xy.1 xy.2 (f xy.1 xy.2)).foldl applyBoundaryWrite im).shown =
      Plane.paint f im.shown l := by
  induction l with
  | nil => exact fun _ => rfl
  | cons xy l ih => exact fun im => ih _

/-- Latch copies and activations leave S alone (R108). -/
theorem foldl_shown_of_none (ws : List BoundaryWrite) (h : ∀ x y v, BoundaryWrite.shown x y v ∉ ws) : ∀ im : Image,
    (ws.foldl applyBoundaryWrite im).shown = im.shown := by
  induction ws with
  | nil => exact fun _ => rfl
  | cons w ws ih =>
    intro im
    have rest := ih (fun x y v hm => h x y v (List.mem_cons_of_mem _ hm)) (applyBoundaryWrite im w)
    cases w with
    | shown x y v => exact absurd List.mem_cons_self (h x y v)
    | latch x y v => exact rest
    | activation r => exact rest

theorem column_of_finished (hw : WriterLegal s) (hj : JobsLegal s) {table : Snapshot} {q : Nat × Nat}
    (hq : q ∈ (finishedJobs table s).flatMap fun a => a.job.region.raster) : q.1 < 480 := by
  obtain ⟨a, ha, hq⟩ := List.mem_flatMap.1 hq
  obtain ⟨k, -, hk⟩ := List.mem_filterMap.1 ha
  have valid := hj.active a (mem_active.2 ⟨k, (Option.filter_eq_some_iff.1 hk).1⟩)
  exact column_of_valid valid hw.widthRange.2 (mem_raster.1 hq)

/-- S after the first `done` writes of a boundary step (R133). -/
theorem get_shown_cut (hm : MemoriesCanonical s) (hw : WriterLegal s) (hj : JobsLegal s) {table : Snapshot}
    (ht : s.wave.table = some table) (done : Nat) {px py : Nat} (hx : px < 480) :
    Plane.get (((boundaryWrites s).take done).foldl applyBoundaryWrite s.image).shown px py =
      if (px, py) ∈ ((finishedJobs table s).flatMap fun a => a.job.region.raster).take done then
        Plane.get s.image.latch px py
      else Plane.get s.image.shown px py := by
  rw [boundaryWrites_sealed ht, List.take_append, List.foldl_append, ← List.map_take, foldl_shown_of_none,
    foldl_shown (fun x y => Plane.get s.image.latch x y)]
  · exact get_paint _ _ _ _ _ hm.shown (fun q hq => column_of_finished hw hj (List.mem_of_mem_take hq)) hx
  · intro x y v hmem
    have := List.mem_of_mem_take hmem
    split at this
    · simp at this
    · cases this

theorem pinReset_cuts_frameBoundary (hr : s.inRun = true) (hm : MemoriesCanonical s) (done : Nat) :
    ∃ t, exec (.pinReset (.frameBoundary done)) s = .next t ∧ t.wave.ram = s.wave.ram ∧ t.tiles = s.tiles ∧
      t.image = ((boundaryWrites s).take done).foldl applyBoundaryWrite s.image ∧ t.image.target = s.image.target ∧
      CutMarked s (((boundaryWrites s).take done).filterMap activatedBy) t := by
  obtain ⟨t, ht, begun, image, tiles, ram⟩ := execPinReset_cut hr (.frameBoundary done)
  have cut : applyCut (.frameBoundary done) s = cutFrameBoundary done s := if_pos hr
  have activated : cutActivations (.frameBoundary done) s = ((boundaryWrites s).take done).filterMap activatedBy := by
    rw [← activatedRegions_eq]; exact if_pos hr
  rw [cut] at image tiles ram
  rw [activated] at begun
  exact ⟨t, ht, ram, tiles, image, by rw [image]; exact (wf_boundaryWrites _ _ hm.latch hm.shown).1, begun⟩

end

/-- Settles O53, one cut step after the other. -/
theorem pinResetKeepsLeadingWrites : Obligations.PinResetKeepsLeadingWrites := by
  intro s slot level op key offset x y data done hr hm hw hj
  refine ⟨pinReset_cuts_loadWaveformData hr hm done, fun tile => pinReset_cuts_loadTileData hr hm done,
    pinReset_cuts_fillWindow hr hm hw done, pinReset_cuts_writePixels hr hm hw data done, fun tile o hs ho hk ht => ?_, ?_⟩
  · obtain ⟨t, ht', begun, latch, shown, ram, tiles, target⟩ := pinReset_cuts_placeTile hr hm hw x y done hs ho hk ht
    refine ⟨t, ht', begun, latch, shown, ram, tiles, fun px py hx => (target px py hx).trans ?_⟩
    split
    · next h => rw [h]; rfl
    · next h => rw [h]; rfl
  · obtain ⟨t, ht, ram, tiles, image, target, begun⟩ := pinReset_cuts_frameBoundary hr hm done
    refine ⟨t, ht, ram, tiles, image, target, begun, boundaryWrites_unsealed, fun table hs => ?_⟩
    refine ⟨boundaryWrites_sealed hs, fun px py hx => ?_⟩
    rw [image]
    exact get_shown_cut hm hw hj hs done hx

end Sys2Proof.PortProofs
end

section
/-! What a fault and the beginning of a reset leave of the planes, the Window Writer, the tiles and the waveform table, said
once for the proofs that follow. -/

namespace Sys2Proof.ImageProofs
open Sys2Proof Sys2Proof.Machine Sys2Proof.Safety Sys2Proof.Claims Sys2Proof.Laws Sys2Proof.PortProofs

/-- The blocks that hold the memories, the geometry, the window and the tile directory. -/
def stores (s : State) : Image × Writer × TileStore × Wave := (s.image, s.writer, s.tiles, s.wave)

@[simp] theorem enterFault_image (k : FaultKind) (u : State) : (enterFault k u).image = u.image := by
  simp only [enterFault, setSched_image]
  rw [abortAll_keeps (fun s => s.image) (by simp)]

@[simp] theorem enterFault_writer (k : FaultKind) (u : State) : (enterFault k u).writer = u.writer := by
  simp only [enterFault, setSched_writer]
  rw [abortAll_keeps (fun s => s.writer) (by simp)]

@[simp] theorem enterFault_tiles (k : FaultKind) (u : State) : (enterFault k u).tiles = u.tiles := by
  simp only [enterFault, setSched_tiles]
  rw [abortAll_keeps (fun s => s.tiles) (by simp)]

/-- A fault turns a driving frame idle and does not count it (R132, R144). -/
theorem enterFault_seq (k : FaultKind) (u : State) : (enterFault k u).seq = u.seq.stopDrive := by
  simp only [enterFault, setSched_seq]
  rw [abortAll_keeps (fun s => s.seq) (by simp)]

/-- The beginning of a reset unseals the table and takes the window back to the full area; a POR also initialises the
memories; a reset that merges into one in progress does no more than that (R42, R47, R173, R175). -/
theorem beginReset_stores (kind : ResetKind) (extra : List Rect) (judged s : State) :
    stores (beginReset kind extra judged s) =
        (s.image, resetWriter s.image, s.tiles, { s.wave with table := none }) ∨
      stores (beginReset kind extra judged s) = stores State.reset ∨
      stores (beginReset kind extra judged s) = stores s := by
  unfold beginReset initFor
  split
  · dsimp only
    split
    · exact .inr (.inl rfl)
    · exact .inl rfl
  · dsimp only
    split
    · exact .inr (.inl rfl)
    · exact .inr (.inr rfl)

end Sys2Proof.ImageProofs
end

section
/-! O56: memories canonical (R42, R63, R75), window, cursor and geometry legal (R44, R47), tile directory legal (R64), sealed
table exact (R76, R89), kept by every step. -/

namespace Sys2Proof.ImageProofs
open Sys2Proof Sys2Proof.Machine Sys2Proof.Safety Sys2Proof.Claims Sys2Proof.Laws Sys2Proof.PortProofs

/-! ### The four conditions, each on the part of the state that it speaks of -/

/-- `MemoriesCanonical` as a condition on the memories. -/
structure MemoriesOk (t l s : Plane) (p r : List Host.Cell) : Prop where
  target : Memory.wf Config.porLevel t = true
  latch : Memory.wf Config.porLevel l = true
  shown : Memory.wf Config.porLevel s = true
  pattern : Memory.wf Config.porByte p = true
  ram : Memory.wf Config.porByte r = true

theorem memoriesCanonical_iff {s : State} : MemoriesCanonical s ↔
    MemoriesOk s.image.target s.image.latch s.image.shown s.tiles.pattern s.wave.ram :=
  ⟨fun ⟨a, b, c, d, e⟩ => ⟨a, b, c, d, e⟩, fun ⟨a, b, c, d, e⟩ => ⟨a, b, c, d, e⟩⟩

/-- `WriterLegal` as a condition on the geometry, the window and the cursor. -/
structure WriterOk (w h : Nat) (win : Rect) (cx cy : Nat) : Prop where
  geometry : GeometryAllowed w h
  window : win.Valid w h
  cursor : win.Holds cx cy

theorem writerLegal_iff {s : State} : WriterLegal s ↔
    WriterOk s.image.width s.image.height s.writer.window s.writer.cx s.writer.cy :=
  ⟨fun ⟨wm, ⟨wl, wr⟩, hm, ⟨hl, hr⟩, window, cursor⟩ => ⟨⟨wm, wl, wr, hm, hl, hr⟩, window, cursor⟩,
    fun ⟨⟨wm, wl, wr, hm, hl, hr⟩, window, cursor⟩ => ⟨wm, ⟨wl, wr⟩, hm, ⟨hl, hr⟩, window, cursor⟩⟩

/-- `DirectoryLegal` as a condition on the sixteen slots. -/
structure DirectoryOk (l : List (Option Tile)) : Prop where
  slots : l.length = 16
  records : ∀ t, some t ∈ l →
    1 ≤ t.width ∧ t.width ≤ 64 ∧ 1 ≤ t.height ∧ t.height ≤ 64 ∧ t.base + t.size ≤ 4096
  disjoint : ∀ (i j : Nat) (a b : Tile), i ≠ j → l[i]? = some (some a) → l[j]? = some (some b) →
    ∀ n, ¬ (tileHolds a n ∧ tileHolds b n)

theorem directoryLegal_iff {s : State} : DirectoryLegal s ↔ DirectoryOk s.tiles.slots :=
  ⟨fun ⟨a, b, c⟩ => ⟨a, b, c⟩, fun ⟨a, b, c⟩ => ⟨a, b, c⟩⟩

/-- `TableSealedRight` as a condition on the table and the RAM. -/
structure TableOk (w : Wave) : Prop where
  snapshot : ∀ t, w.table = some t → t = snapshotOf w.ram
  valid : w.table.isSome = true → sealReason w.ram = 0

theorem tableSealedRight_iff {s : State} : TableSealedRight s ↔ TableOk s.wave :=
  ⟨fun ⟨a, b⟩ => ⟨a, b⟩, fun ⟨a, b⟩ => ⟨a, b⟩⟩

/-- Keeping all four, each without the others' help. -/
structure KeepsStores (s t : State) : Prop where
  memories : MemoriesOk s.image.target s.image.latch s.image.shown s.tiles.pattern s.wave.ram →
    MemoriesOk t.image.target t.image.latch t.image.shown t.tiles.pattern t.wave.ram
  writer : WriterOk s.image.width s.image.height s.writer.window s.writer.cx s.writer.cy →
    WriterOk t.image.width t.image.height t.writer.window t.writer.cx t.writer.cy
  directory : DirectoryOk s.tiles.slots → DirectoryOk t.tiles.slots
  table : TableOk s.wave → TableOk t.wave

theorem KeepsStores.refl (s : State) : KeepsStores s s := ⟨id, id, id, id⟩

theorem KeepsStores.trans {s t u : State} (h : KeepsStores s t) (g : KeepsStores t u) : KeepsStores s u :=
  ⟨g.memories ∘ h.memories, g.writer ∘ h.writer, g.directory ∘ h.directory, g.table ∘ h.table⟩

theorem keepsStores_of_eq {s t : State} (h : stores t = stores s) : KeepsStores s t := by
  simp only [stores, Prod.mk.injEq] at h
  obtain ⟨image, writer, tiles, wave⟩ := h
  constructor
  · rw [image, tiles, wave]; exact id
  · rw [image, writer]; exact id
  · rw [tiles]; exact id
  · rw [wave]; exact id

/-! ### The Window Writer -/

theorem geometryOk_iff {w h : Nat} : geometryOk w h = true ↔ GeometryAllowed w h := by
  simp [geometryOk, GeometryAllowed, and_assoc]

/-- The full area of an allowed geometry is a window (R44, R47). -/
theorem fullArea_valid {im : Image} (h : GeometryAllowed im.width im.height) :
    (fullArea im).Valid im.width im.height := by
  obtain ⟨-, wl, -, -, hl, -⟩ := h
  refine ⟨Nat.zero_le _, ?_, Nat.zero_le _, ?_⟩ <;> simp only [fullArea] <;> omega

theorem writerOk_toOrigin {w h : Nat} {win : Rect} (geometry : GeometryAllowed w h) (valid : win.Valid w h)
    (u : Writer) (code : BitVec 3) :
    WriterOk w h (u.toOrigin win code).window (u.toOrigin win code).cx (u.toOrigin win code).cy :=
  ⟨geometry, valid, origin_holds valid code⟩

/-- After a reset the window is the full area with the cursor in its corner (R47). -/
theorem writerOk_reset {im : Image} (h : GeometryAllowed im.width im.height) :
    WriterOk im.width im.height (resetWriter im).window (resetWriter im).cx (resetWriter im).cy :=
  ⟨h, fullArea_valid h, Nat.zero_le _, Nat.zero_le _, Nat.zero_le _, Nat.zero_le _⟩

/-! ### The tile directory -/

/-- Define Tile of slot `k` leaves no byte to two valid slots: whatever shared one with the new tile is evicted (R67). -/
theorem directoryOk_define {slots : List (Option Tile)} {k : Nat} {new : Tile} (h : DirectoryOk slots)
    (range : 1 ≤ new.width ∧ new.width ≤ 64 ∧ 1 ≤ new.height ∧ new.height ≤ 64 ∧ new.base + new.size ≤ 4096) :
    DirectoryOk (defineSlots k new slots) := by
  have slot : ∀ (i : Nat) (a : Tile), (defineSlots k new slots)[i]? = some (some a) →
      i = k ∧ a = new ∨ i ≠ k ∧ slots[i]? = some (some a) ∧ a.shares new = false := by
    intro i a hi
    rw [defineSlots_get] at hi
    simp only [Option.map_eq_some_iff] at hi
    obtain ⟨o, ho, hi⟩ := hi
    split at hi
    · next hk => exact .inl ⟨hk, (Option.some.inj hi).symm⟩
    · next hk =>
      split at hi
      · cases hi
      · next he =>
        subst hi
        exact .inr ⟨hk, ho, by simpa [evicted, hk] using he⟩
  have apart : ∀ a : Tile, a.shares new = false → ∀ n, ¬ (tileHolds a n ∧ tileHolds new n) := by
    intro a ha n
    simp only [Tile.shares, Bool.and_eq_false_iff, decide_eq_false_iff_not] at ha
    simp only [tileHolds]
    omega
  refine ⟨by rw [defineSlots, mapFrom_length]; exact h.slots, fun t ht => ?_, fun i j a b hij hi hj n => ?_⟩
  · obtain ⟨i, hi⟩ := List.mem_iff_getElem?.1 ht
    rcases slot i t hi with ⟨-, rfl⟩ | ⟨-, old, -⟩
    · exact range
    · exact h.records t (List.mem_of_getElem? old)
  · rcases slot i a hi with ⟨rfl, rfl⟩ | ⟨-, oldi, sharei⟩ <;> rcases slot j b hj with ⟨rfl, rfl⟩ | ⟨-, oldj, sharej⟩
    · exact absurd rfl hij
    · exact fun hn => apart b sharej n hn.symm
    · exact apart a sharei n
    · exact h.disjoint i j a b hij oldi oldj n

/-- Release Tile takes a record away (R70). -/
theorem directoryOk_release {slots : List (Option Tile)} (k : Nat) (h : DirectoryOk slots) :
    DirectoryOk (slots.set k none) := by
  have old : ∀ (i : Nat) (a : Tile), (slots.set k none)[i]? = some (some a) → slots[i]? = some (some a) := by
    intro i a hi
    rw [List.getElem?_set] at hi
    split at hi
    · split at hi <;> cases hi
    · exact hi
  refine ⟨by rw [List.length_set]; exact h.slots, fun t ht => ?_, fun i j a b hij hi hj =>
    h.disjoint i j a b hij (old i a hi) (old j b hj)⟩
  obtain ⟨i, hi⟩ := List.mem_iff_getElem?.1 ht
  exact h.records t (List.mem_of_getElem? (old i t hi))

/-! ### The sealed table -/

theorem tableOk_unsealed {w : Wave} (h : w.table = none) : TableOk w :=
  ⟨by rw [h]; nofun, by rw [h]; nofun⟩

/-- A seal takes the snapshot of the RAM that has just passed the tests (R89). -/
theorem tableOk_seal {ram : List Host.Cell} (h : sealReason ram = 0) : TableOk ⟨ram, some (snapshotOf ram)⟩ :=
  ⟨fun _ ht => (Option.some.inj ht).symm, fun _ => h⟩

/-! ### Resets, cut steps, boundary steps -/

theorem keepsStores_beginReset (kind : ResetKind) (extra : List Rect) (judged s : State) :
    KeepsStores s (beginReset kind extra judged s) := by
  rcases beginReset_stores kind extra judged s with e | e | e
  · simp only [stores, Prod.mk.injEq] at e
    obtain ⟨image, writer, tiles, wave⟩ := e
    constructor
    · rw [image, tiles, wave]; exact id
    · rw [image, writer]; exact fun h => writerOk_reset h.geometry
    · rw [tiles]; exact id
    · rw [wave]; exact fun _ => tableOk_unsealed rfl
  · obtain ⟨memories, writer, directory, table, -⟩ := resetStateIsLegal
    have reset := keepsStores_of_eq e
    exact ⟨fun _ => reset.memories (memoriesCanonical_iff.1 memories), fun _ => reset.writer (writerLegal_iff.1 writer),
      fun _ => reset.directory (directoryLegal_iff.1 directory), fun _ => reset.table (tableSealedRight_iff.1 table)⟩
  · exact keepsStores_of_eq e

theorem keepsStores_applyCut (cut : CutStep) (s : State) : KeepsStores s (applyCut cut s) := by
  unfold applyCut
  split
  · cases cut with
    | nothing => exact .refl s
    | writePixels data done => exact ⟨fun h => { h with target := wf_streamPixels _ _ _ _ h.target }, id, id, id⟩
    | fillWindow level done =>
      dsimp only [cutFillWindow]
      split
      · exact .refl s
      · exact ⟨fun h => { h with target := wf_fillPixels _ _ _ _ h.target }, id, id, id⟩
    | placeTile slot x y op key done =>
      dsimp only [cutPlaceTile]
      split
      · split
        · exact .refl s
        · exact ⟨fun h => { h with target := wf_stampPixels _ _ _ _ h.target }, id, id, id⟩
      · exact .refl s
    | loadTileData slot offset data done =>
      dsimp only [cutLoadTileData]
      split
      · exact .refl s
      · split
        · exact .refl s
        · exact ⟨fun h => { h with pattern := wf_writeRun _ _ _ h.pattern }, id, id, id⟩
    | loadWaveformData offset data done =>
      dsimp only [cutLoadWaveformData]
      split
      · exact .refl s
      · next hc =>
        have unsealed : s.wave.table = none := by
          rw [not_or, Bool.not_eq_true, Option.isSome_eq_false_iff, Option.isNone_iff_eq_none] at hc
          exact hc.1
        exact ⟨fun h => { h with ram := wf_writeRun _ _ _ h.ram }, id, id, fun _ => tableOk_unsealed unsealed⟩
    | frameBoundary done =>
      obtain ⟨width, height⟩ := foldl_applyBoundaryWrite_size ((boundaryWrites s).take done) s.image
      refine ⟨fun h => ?_, ?_, id, id⟩
      · obtain ⟨target, latch, shown⟩ := wf_boundaryWrites ((boundaryWrites s).take done) s.image h.latch h.shown
        exact { h with target := by simp only [cutFrameBoundary, target]; exact h.target, latch := latch, shown := shown }
      · simp only [cutFrameBoundary, width, height]; exact id
  · exact .refl s

theorem keepsStores_completeJob (t : Snapshot) (k : Fin 4) (a : ActiveJob) (s : State) :
    KeepsStores s (completeJob t k a s) :=
  ⟨fun h => { h with shown := wf_paint _ _ _ h.shown }, id, id, id⟩

theorem keepsStores_activate (j : Job) (k : Fin 4) (s : State) : KeepsStores s (activate j k s) := by
  unfold activate
  split
  · exact ⟨fun h => { h with latch := wf_paint _ _ _ h.latch }, id, id, id⟩
  · exact .refl s

theorem keepsStores_abortLane (c : AbortCause) (k : Fin 4) (s : State) : KeepsStores s (abortLane c k s) :=
  keepsStores_of_eq (by simp [stores])

theorem keepsStores_advanceLane (t : Snapshot) (k : Fin 4) (s : State) : KeepsStores s (advanceLane t k s) := by
  unfold advanceLane
  split
  · exact .refl s
  · next a _ =>
    have progress : KeepsStores s (setLane k (progressed s.wave.ram t a) s) := keepsStores_of_eq rfl
    split
    · exact keepsStores_completeJob _ _ _ _
    · dsimp only
      split
      · exact progress.trans (keepsStores_abortLane _ _ _)
      · exact progress

/-! ### Every step -/

theorem keepsStores_commands : CommandUpdates KeepsStores := by
  constructor
  case refl => exact .refl
  case trans => exact .trans
  case geometry =>
    exact fun u w h _ hg _ => ⟨id, fun _ => writerOk_toOrigin (geometryOk_iff.1 hg)
      (fullArea_valid (im := { u.image with width := w, height := h }) (geometryOk_iff.1 hg)) _ _, id, id⟩
  case window => exact fun u r _ hr => ⟨id, fun h => writerOk_toOrigin h.geometry hr _ _, id, id⟩
  case cursor => exact fun u x y _ hc => ⟨id, fun h => { h with cursor := hc }, id, id⟩
  case scan => exact fun u c _ => ⟨id, fun h => writerOk_toOrigin h.geometry h.window _ _, id, id⟩
  case writePixels =>
    refine fun u l _ => ⟨fun h => { h with target := wf_streamPixels _ _ _ _ h.target }, fun h => ?_, id, id⟩
    obtain ⟨window, cursor⟩ := streamPixels_writer l u.writer u.image.target false h.cursor
    simp only [writeStream, window]
    exact { h with cursor := cursor }
  case readPixels =>
    refine fun u p n _ => ⟨id, fun h => ?_, id, id⟩
    obtain ⟨window, cursor⟩ := readStream_writer p n u.writer false h.cursor
    simp only [window]
    exact { h with cursor := cursor }
  case fill =>
    exact fun u l _ => ⟨fun h => { h with target := wf_fillPixels _ _ _ _ h.target },
      fun h => writerOk_toOrigin h.geometry h.window _ _, id, id⟩
  case define =>
    exact fun u k t _ _ w1 w64 h1 h64 hs => ⟨id, id, fun h => directoryOk_define h ⟨w1, w64, h1, h64, hs⟩, id⟩
  case loadTile =>
    exact fun u k t o d _ _ _ _ => ⟨fun h => { h with pattern := wf_writeRun _ _ _ h.pattern }, id, id, id⟩
  case release => exact fun u k _ _ => ⟨id, id, directoryOk_release k, id⟩
  case place =>
    exact fun u k t o key x y _ _ => ⟨fun h => { h with target := wf_stampPixels _ _ _ _ h.target }, id, id, id⟩
  case loadRam =>
    exact fun u o d _ ht _ => ⟨fun h => { h with ram := wf_writeRun _ _ _ h.ram }, id, id, fun _ => tableOk_unsealed ht⟩
  case sealTable => exact fun u _ hs => ⟨id, id, id, fun _ => tableOk_seal hs⟩
  case unsealTable => exact fun u _ _ => ⟨id, id, id, fun _ => tableOk_unsealed rfl⟩
  -- every other update leaves memories, writer, directory and table alone
  all_goals intros; exact ⟨id, id, id, id⟩

theorem keepsStores_events : EventUpdates KeepsStores := by
  constructor
  case fault => exact fun u k _ _ _ => keepsStores_of_eq (by simp [stores])
  case edge => exact fun u _ _ _ => keepsStores_of_eq (by simp [stores])
  case dogExpire => exact fun u _ _ _ => keepsStores_of_eq (by simp [stores])
  case dogReset =>
    exact fun u _ _ _ => (keepsStores_of_eq (t := endStep (expireWatchdog u)) (by simp [stores])).trans
      (keepsStores_beginReset _ _ _ _)
  case advanceLane => exact fun u t k _ _ => keepsStores_advanceLane t k u
  case complete => exact fun u t k a _ _ _ _ _ => keepsStores_completeJob t k a.count u
  case abort => exact fun u c k _ => keepsStores_abortLane c k u
  case activate => exact fun u j k _ => keepsStores_activate j k u
  case beginFrame => exact fun u _ => keepsStores_of_eq (by simp [stores])
  case cut => exact fun u c => keepsStores_applyCut c u
  case begin_ => exact fun u kind extra judged => keepsStores_beginReset kind extra judged u
  -- every other update leaves memories, writer, directory and table alone
  all_goals intros; exact ⟨id, id, id, id⟩

/-- Settles O56: each of the four is kept by every elementary update of a step. -/
theorem stepsKeepTheStoresLegal : Obligations.StepsKeepTheStoresLegal := by
  intro s t h
  obtain ⟨memories, writer, directory, table⟩ := step_rel keepsStores_commands keepsStores_events h
  rw [memoriesCanonical_iff, memoriesCanonical_iff, writerLegal_iff, writerLegal_iff, directoryLegal_iff,
    directoryLegal_iff, tableSealedRight_iff, tableSealedRight_iff]
  exact ⟨memories, writer, directory, table⟩

end Sys2Proof.ImageProofs
end

section
/-! O17 and O18: the geometry (R45, R46), the window, the cursor, the scan and the pixel operation (R52 to R55) as the host
sets them. -/

namespace Sys2Proof.ImageProofs
open Sys2Proof Sys2Proof.Machine Sys2Proof.Safety Sys2Proof.Claims Sys2Proof.Laws Sys2Proof.PortProofs

section
variable {s : State}

/-! ### O17 -/

theorem jobsIdle_iff : jobsIdle s.sched = true ↔ NoJobs s := by
  simp [jobsIdle, NoJobs, and_assoc]

theorem execSetGeometry_badValue {width height : Word} (hr : s.inRun = true)
    (hg : ¬ GeometryAllowed width.toNat height.toNat) :
    exec (.setGeometry width height) s = .next (commandEnd (.setGeometry width height) .badValue [] s) := by
  have refused : geometryOk width.toNat height.toNat = false := by rwa [Bool.eq_false_iff, Ne, geometryOk_iff]
  exact congrArg Host.Outcome.next (plainCommand_refuse hr nofun (by simp [refused]))

theorem execSetGeometry_busy {width height : Word} (hr : s.inRun = true)
    (hg : GeometryAllowed width.toNat height.toNat) (hj : ¬ NoJobs s) :
    exec (.setGeometry width height) s = .next (commandEnd (.setGeometry width height) .geometryBusy [] s) := by
  have busy : jobsIdle s.sched = false := by rwa [Bool.eq_false_iff, Ne, jobsIdle_iff]
  exact congrArg Host.Outcome.next (plainCommand_refuse hr nofun (by simp [geometryOk_iff.2 hg, busy]))

/-- The accepted case, `applyGeometry` being the new area, its full window and its uncertain cells (R46). -/
theorem execSetGeometry_accepted {width height : Word} (hr : s.inRun = true)
    (hg : GeometryAllowed width.toNat height.toNat) (hj : NoJobs s) :
    exec (.setGeometry width height) s =
      .next (commandEnd (.setGeometry width height) .ok [] (applyGeometry width.toNat height.toNat s)) := by
  refine congrArg Host.Outcome.next (plainCommand_accept hr nofun ?_)
  simp only [geometryOk_iff.2 hg, disarmGuard_sched, jobsIdle_iff.2 hj, Bool.not_true, Bool.false_eq_true, if_false]
  rfl

/-- Settles O17: the two checks in order, then the new area. -/
theorem setGeometryReformsTheArea : Obligations.SetGeometryReformsTheArea :=
  fun _ _ _ hr => ⟨execSetGeometry_badValue hr, execSetGeometry_busy hr, execSetGeometry_accepted hr⟩

/-! ### O18 -/

theorem execSetWindow_eq (xs ys xe ye : Word) (hr : s.inRun = true) :
    exec (.setWindow xs ys xe ye) s =
      .next
        (if (rectOf xs ys xe ye).Valid s.image.width s.image.height then
          commandEnd (.setWindow xs ys xe ye) .ok []
            { s with writer := s.writer.toOrigin (rectOf xs ys xe ye) s.writer.scan }
        else commandEnd (.setWindow xs ys xe ye) .badRect [] s) := by
  refine congrArg Host.Outcome.next ?_
  by_cases hv : (rectOf xs ys xe ye).Valid s.image.width s.image.height
  · rw [if_pos hv]
    exact plainCommand_accept hr nofun (if_pos hv)
  · rw [if_neg hv]
    exact plainCommand_refuse hr nofun (if_neg hv)

theorem execSetCursor_eq (x y : Word) (hr : s.inRun = true) :
    exec (.setCursor x y) s =
      .next
        (if s.writer.window.Holds x.toNat y.toNat then
          commandEnd (.setCursor x y) .ok [] { s with writer := { s.writer with cx := x.toNat, cy := y.toNat } }
        else commandEnd (.setCursor x y) .badCursor [] s) := by
  refine congrArg Host.Outcome.next ?_
  by_cases hc : s.writer.window.Holds x.toNat y.toNat
  · rw [if_pos hc]
    exact plainCommand_accept hr nofun (if_pos hc)
  · rw [if_neg hc]
    exact plainCommand_refuse hr nofun (if_neg hc)

/-- The scan code is the low three bits of its byte (R48, R54). -/
theorem scanCode_bits (code : Byte) :
    scanXDown (code.extractLsb' 0 3) = code.getLsbD 1 ∧ scanYDown (code.extractLsb' 0 3) = code.getLsbD 0 := by
  simp [scanXDown, scanYDown]

theorem execSetScan_eq (code : Byte) (hr : s.inRun = true) :
    exec (.setScan code) s =
      .next
        (if code.toNat ≤ 7 then
          commandEnd (.setScan code) .ok []
            { s with writer := s.writer.toOrigin s.writer.window (code.extractLsb' 0 3) }
        else commandEnd (.setScan code) .badValue [] s) := by
  refine congrArg Host.Outcome.next ?_
  by_cases hc : code.toNat ≤ 7
  · rw [if_pos hc]
    exact plainCommand_accept hr nofun (if_neg (Nat.not_lt.2 hc))
  · rw [if_neg hc]
    exact plainCommand_refuse hr nofun (if_pos (Nat.not_le.1 hc))

/-- The operation that a byte 0..3 names (Table 3-3). -/
theorem pixelOpOf_named {b : Byte} (h : b.toNat ≤ 3) :
    pixelOpOf b = some ([PixelOp.replace, .keySkip, .matchOnly, .invert].getD b.toNat .replace) := by
  rw [pixelOpOf_eq, List.getD_eq_getElem _ _ (by simp; omega), List.getElem?_eq_getElem]

theorem pixelOpOf_none {b : Byte} (h : ¬ b.toNat ≤ 3) : pixelOpOf b = none := by
  rw [pixelOpOf_eq, List.getElem?_eq_none (by simp; omega)]

theorem levelOf_none {b : Byte} (h : ¬ b.toNat ≤ 3) : levelOf b = none := if_neg h

theorem execSetPixelOp_eq (op key : Byte) (hr : s.inRun = true) :
    exec (.setPixelOp op key) s =
      .next
        (if op.toNat ≤ 3 ∧ key.toNat ≤ 3 then
          commandEnd (.setPixelOp op key) .ok []
            { s with
              writer :=
                { s.writer with
                  op := [PixelOp.replace, .keySkip, .matchOnly, .invert].getD op.toNat .replace
                  key := key.extractLsb' 0 2 } }
        else commandEnd (.setPixelOp op key) .badValue [] s) := by
  refine congrArg Host.Outcome.next ?_
  by_cases ho : op.toNat ≤ 3
  · by_cases hk : key.toNat ≤ 3
    · rw [if_pos ⟨ho, hk⟩]
      exact plainCommand_accept hr nofun (by rw [pixelOpOf_named ho, levelOf_eq hk]; rfl)
    · rw [if_neg fun h => hk h.2]
      exact plainCommand_refuse hr nofun (by rw [levelOf_none hk, pixelOpOf_named ho])
  · rw [if_neg fun h => ho h.1]
    exact plainCommand_refuse hr nofun (by rw [pixelOpOf_none ho])

end

/-- Settles O18, command by command. -/
theorem windowCursorScanAndPixelOpAreSet : Obligations.WindowCursorScanAndPixelOpAreSet := by
  intro s xs ys xe ye x y code op key hr
  refine ⟨execSetWindow_eq xs ys xe ye hr, execSetCursor_eq x y hr, ?_, execSetPixelOp_eq op key hr⟩
  obtain ⟨right, down⟩ := scanCode_bits code
  rw [execSetScan_eq code hr, Writer.toOrigin, origin, right, down]
  rfl

end Sys2Proof.ImageProofs
end

section
/-! O19: the cursor's walk through the window in scan order (R48, R49, Table 3-2). -/

namespace Sys2Proof.ImageProofs
open Sys2Proof Sys2Proof.Machine Sys2Proof.Safety Sys2Proof.Claims Sys2Proof.Laws Sys2Proof.PortProofs

/-! ### Positions on an axis -/

/-- Position `k` of an axis from its start edge on (R48). -/
def axisAt (down : Bool) (lo hi k : Nat) : Nat := if down then hi - k else lo + k

theorem startEdge_eq (down : Bool) (lo hi : Nat) : startEdge down lo hi = axisAt down lo hi 0 := by
  cases down <;> rfl

theorem axisOrder_eq (down : Bool) {lo hi : Nat} (h : lo ≤ hi) :
    axisOrder down lo hi = (List.range (hi - lo + 1)).map (axisAt down lo hi) := by
  have length : hi + 1 - lo = hi - lo + 1 := by omega
  cases down with
  | false =>
    simp only [axisOrder, upTo, List.range'_eq_map_range, length, Bool.false_eq_true, if_false]
    rfl
  | true =>
    simp only [axisOrder, upTo, if_true, length, List.reverse_range']
    refine List.map_congr_left fun k hk => ?_
    rw [List.mem_range] at hk
    simp only [axisAt, if_true]
    omega

/-- A move along an axis goes to the next position, or beyond the far edge from the last one (R49). -/
theorem moveAlong_axisAt (down : Bool) {lo hi k : Nat} (h : lo ≤ hi) (hk : k < hi - lo + 1) :
    moveAlong down lo hi (axisAt down lo hi k) =
      if k + 1 < hi - lo + 1 then some (axisAt down lo hi (k + 1)) else none := by
  cases down with
  | false =>
    have last : hi ≤ lo + k ↔ ¬ k + 1 < hi - lo + 1 := by omega
    simp only [moveAlong, axisAt, Bool.false_eq_true, if_false, ← Nat.add_assoc, last, ite_not]
  | true =>
    have last : hi - k ≤ lo ↔ ¬ k + 1 < hi - lo + 1 := by omega
    simp only [moveAlong, axisAt, if_true, Nat.sub_sub, last, ite_not]

/-! ### The order as a function of the index -/

/-- Lines of `m` in turn, numbered through. -/
theorem flatMap_range_map {α : Type} (f : Nat → Nat → α) (n m : Nat) :
    ((List.range n).flatMap fun r => (List.range m).map (f r)) =
      (List.range (n * m)).map fun i => f (i / m) (i % m) := by
  induction n with
  | zero => simp
  | succ n ih =>
    rw [List.range_succ, List.flatMap_append, ih, Nat.succ_mul, List.range_add, List.map_append, List.map_map]
    congr 1
    simp only [List.flatMap_cons, List.flatMap_nil, List.append_nil]
    refine List.map_congr_left fun j hj => ?_
    rw [List.mem_range] at hj
    have line : (n * m + j) / m = n := by
      rw [Nat.mul_comm, Nat.mul_add_div (by omega), Nat.div_eq_of_lt hj, Nat.add_zero]
    have place : (n * m + j) % m = j := by rw [Nat.mul_comm, Nat.mul_add_mod, Nat.mod_eq_of_lt hj]
    simp only [Function.comp_apply, line, place]

section
variable {win : Rect} (code : BitVec 3)

theorem scanPixel_eq (i : Nat) :
    scanPixel win code i =
      (axisAt (scanXDown code) win.xs win.xe
          (if scanPrimaryY code then i / (win.ye - win.ys + 1) else i % (win.xe - win.xs + 1)),
        axisAt (scanYDown code) win.ys win.ye
          (if scanPrimaryY code then i % (win.ye - win.ys + 1) else i / (win.xe - win.xs + 1))) := rfl

/-- The scan order lists pixel 0, pixel 1, and so on (R48, R49). -/
theorem scanOrder_eq (hx : win.xs ≤ win.xe) (hy : win.ys ≤ win.ye) :
    scanOrder win code =
      (List.range ((win.xe - win.xs + 1) * (win.ye - win.ys + 1))).map (scanPixel win code) := by
  simp only [scanOrder, axisOrder_eq _ hx, axisOrder_eq _ hy, List.flatMap_map, List.map_map, Function.comp_def]
  split
  · next hp =>
    rw [flatMap_range_map]
    exact List.map_congr_left fun i _ => by rw [scanPixel_eq, if_pos hp, if_pos hp]
  · next hp =>
    rw [flatMap_range_map, Nat.mul_comm]
    exact List.map_congr_left fun i _ => by rw [scanPixel_eq, if_neg hp, if_neg hp]

/-! ### The advance -/

/-- Where the walk through `n` lines of `m` goes from place `i`: on in its line, to the next line, or round to the start. -/
theorem walk_cases {n m i : Nat} (hi : i < n * m) :
    (i % m + 1 < m ∧ i + 1 ≠ n * m ∧ (i + 1) % (n * m) / m = i / m ∧ (i + 1) % (n * m) % m = i % m + 1) ∨
      (¬ i % m + 1 < m ∧ i / m + 1 < n ∧ i + 1 ≠ n * m ∧ (i + 1) % (n * m) / m = i / m + 1 ∧
        (i + 1) % (n * m) % m = 0) ∨
      (¬ i % m + 1 < m ∧ ¬ i / m + 1 < n ∧ i + 1 = n * m) := by
  have hm : 0 < m := by
    rcases Nat.eq_zero_or_pos m with rfl | h
    · simp at hi
    · exact h
  have split := Nat.div_add_mod i m
  have place := Nat.mod_lt i hm
  have line : i / m < n := Nat.div_lt_of_lt_mul (by rwa [Nat.mul_comm])
  have lines : m * (i / m + 1) ≤ m * n := Nat.mul_le_mul_left m line
  rw [Nat.mul_add, Nat.mul_one] at lines
  rw [Nat.mul_comm n m] at hi ⊢
  by_cases h1 : i % m + 1 < m
  · have inside : i + 1 < m * n := by omega
    have next := (Nat.div_mod_unique hm).2 (⟨by omega, h1⟩ : i % m + 1 + m * (i / m) = i + 1 ∧ _)
    rw [Nat.mod_eq_of_lt inside]
    exact .inl ⟨h1, by omega, next⟩
  · by_cases h2 : i / m + 1 < n
    · have further : m * (i / m + 1 + 1) ≤ m * n := Nat.mul_le_mul_left m h2
      simp only [Nat.mul_add, Nat.mul_one] at further
      have inside : i + 1 < m * n := by omega
      have next := (Nat.div_mod_unique hm).2
        (⟨by rw [Nat.mul_add]; omega, hm⟩ : 0 + m * (i / m + 1) = i + 1 ∧ _)
      rw [Nat.mod_eq_of_lt inside]
      exact .inr (.inl ⟨h1, h2, by omega, next⟩)
    · have last : m * n = m * (i / m) + m := by rw [show n = i / m + 1 by omega, Nat.mul_add, Nat.mul_one]
      exact .inr (.inr ⟨h1, h2, by omega⟩)

/-- The advance from pixel `i` goes to the next pixel of the order, and wraps exactly after the last (R49). -/
theorem advanceCursor_scanPixel (hx : win.xs ≤ win.xe) (hy : win.ys ≤ win.ye) {i : Nat}
    (hi : i < (win.xe - win.xs + 1) * (win.ye - win.ys + 1)) :
    advanceCursor win code (scanPixel win code i).1 (scanPixel win code i).2 =
      (scanPixel win code ((i + 1) % ((win.xe - win.xs + 1) * (win.ye - win.ys + 1))),
        decide (i + 1 = (win.xe - win.xs + 1) * (win.ye - win.ys + 1))) := by
  cases hp : scanPrimaryY code with
  | true =>
    have col := Nat.div_lt_of_lt_mul (by rwa [Nat.mul_comm] at hi)
    have row := Nat.mod_lt i (Nat.succ_pos (win.ye - win.ys))
    simp only [scanPixel_eq, advanceCursor, startEdge_eq, hp, if_true, moveAlong_axisAt _ hx col,
      moveAlong_axisAt _ hy row]
    rcases walk_cases hi with ⟨h1, h2, line, place⟩ | ⟨h1, h2, h3, line, place⟩ | ⟨h1, h2, h3⟩
    · simp only [h1, h2, line, place, if_true, decide_false]
    · simp only [h1, h2, h3, line, place, if_true, if_false, decide_false]
    · simp only [h1, h2, h3, if_false, decide_true, Nat.mod_self, Nat.zero_div, Nat.zero_mod]
  | false =>
    have row := Nat.div_lt_of_lt_mul hi
    have col := Nat.mod_lt i (Nat.succ_pos (win.xe - win.xs))
    simp only [scanPixel_eq, advanceCursor, startEdge_eq, hp, Bool.false_eq_true, if_false, moveAlong_axisAt _ hx col,
      moveAlong_axisAt _ hy row]
    rw [Nat.mul_comm] at hi ⊢
    rcases walk_cases hi with ⟨h1, h2, line, place⟩ | ⟨h1, h2, h3, line, place⟩ | ⟨h1, h2, h3⟩
    · simp only [h1, h2, line, place, if_true, decide_false]
    · simp only [h1, h2, h3, line, place, if_true, if_false, decide_false]
    · simp only [h1, h2, h3, if_false, decide_true, Nat.mod_self, Nat.zero_div, Nat.zero_mod]

end

/-- Settles O19: the order as a function of the index, and the advance from each index. -/
theorem cursorWalksTheScanOrder : Obligations.CursorWalksTheScanOrder := by
  intro win code hx hy
  have order := scanOrder_eq code hx hy
  have length : (scanOrder win code).length = (win.xe - win.xs + 1) * (win.ye - win.ys + 1) := by
    rw [order, List.length_map, List.length_range]
  have pixel : ∀ i, i < (win.xe - win.xs + 1) * (win.ye - win.ys + 1) →
      (scanOrder win code)[i]? = some (scanPixel win code i) := by
    intro i hi
    rw [order, List.getElem?_map, List.getElem?_range hi, Option.map_some]
  have pos : 0 < (win.xe - win.xs + 1) * (win.ye - win.ys + 1) := Nat.mul_pos (Nat.succ_pos _) (Nat.succ_pos _)
  refine ⟨pixel, ?_, length, nodup_scanOrder win code, fun x y => mem_scanOrder, fun i x y h => ?_⟩
  · rw [pixel 0 pos, scanPixel_eq, origin, startEdge_eq, startEdge_eq]
    simp
  · have hi := length ▸ (List.getElem?_eq_some_iff.1 h).1
    rw [pixel i hi, Option.some.injEq] at h
    have next := advanceCursor_scanPixel code hx hy hi
    rw [h] at next
    rw [length, next, pixel _ (Nat.mod_lt _ pos)]
    exact ⟨rfl, rfl⟩

end Sys2Proof.ImageProofs
end

section
/-! O20 to O22: pixels written in stream order, read in stream order, and filled over the window (R50, R51, R56 to R60). -/

namespace Sys2Proof.ImageProofs
open Sys2Proof Sys2Proof.Machine Sys2Proof.Safety Sys2Proof.Claims Sys2Proof.Laws Sys2Proof.PortProofs

/-! ### The advances of a stream -/

/-- The first advance is the writer's own, the others are those of the writer one position on (R49). -/
theorem wrapsWithin_succ (w : Writer) (n : Nat) : wrapsWithin w (n + 1) = (w.wraps || wrapsWithin w.step n) := by
  simp only [wrapsWithin, List.range_succ_eq_map, List.any_cons, List.any_map]
  rfl

/-- A stream of pixels wraps when some advance of it does (R50). -/
theorem streamPixels_wrapped (l : List Level) : ∀ (w : Writer) (t : Plane) (b : Bool),
    (streamPixels w t b l).2.2 = (b || wrapsWithin w l.length) := by
  induction l with
  | nil => intro w t b; exact (Bool.or_false b).symm
  | cons p l ih => intro w t b; rw [streamPixels, ih, List.length_cons, wrapsWithin_succ, Bool.or_assoc]

/-- The level that the `k`-th turn of the cursor reads (R58). -/
def levelAt (p : Plane) (w : Writer) (k : Nat) : Level := Plane.get p (cursorAt w k).1 (cursorAt w k).2

/-- Reading `n` pixels takes the levels at the cursor's first `n` turns and makes `n` advances (R58). -/
theorem readStream_eq (p : Plane) (n : Nat) : ∀ (w : Writer) (b : Bool),
    readStream p w b n = (Writer.step^[n] w, (List.range n).map (levelAt p w), b || wrapsWithin w n) := by
  induction n with
  | zero => intro w b; exact congrArg (fun r => (w, [], r)) (Bool.or_false b).symm
  | succ n ih =>
    intro w b
    rw [readStream, ih, wrapsWithin_succ, List.range_succ_eq_map, List.map_cons, List.map_map, Bool.or_assoc]
    rfl

/-! ### Packing -/

/-- Four levels in each byte, in the order of the list (R59). -/
theorem pack_range (n : Nat) : ∀ f : Nat → Level,
    pack ((List.range (4 * n)).map f) =
      (List.range n).map fun i => packByte (f (4 * i)) (f (4 * i + 1)) (f (4 * i + 2)) (f (4 * i + 3)) := by
  induction n with
  | zero => intro f; rfl
  | succ n ih =>
    intro f
    have levels : (List.range (4 * (n + 1))).map f =
        f 0 :: f 1 :: f 2 :: f 3 :: (List.range (4 * n)).map fun k => f (k + 4) := by
      rw [Nat.mul_add, Nat.mul_one]
      simp only [List.range_succ_eq_map, List.map_cons, List.map_map]
      rfl
    rw [levels, pack, ih, List.range_succ_eq_map, List.map_cons, List.map_map]
    rfl

section
variable {s : State}

/-! ### O20 -/

theorem writeStream_unpack (data : List Byte) (s : State) :
    writeStream (unpack data) s =
      { s with
        writer := Writer.step^[4 * data.length] s.writer
        image := { s.image with target := streamed s.writer s.image.target data (4 * data.length) }
        events := s.events.raiseIf (wrapsWithin s.writer (4 * data.length)) .windowWrap } := by
  have whole : (unpack data).take (4 * data.length) = unpack data :=
    List.take_of_length_le (Nat.le_of_eq (length_unpack data))
  simp only [writeStream, streamed, whole, streamPixels_iterate, streamPixels_wrapped, length_unpack, Bool.false_or]

theorem execWritePixels_eq {data : List Byte} (hr : s.inRun = true) (h1 : 1 ≤ data.length) (h2 : data.length ≤ 250) :
    exec (.writePixels data) s = .next (commandEnd (.writePixels data) .ok [] (writeStream (unpack data) s)) := by
  have allowed : exec (.writePixels data) s =
      .next (plainCommand (.writePixels data) (fun t => .accept (writeStream (unpack data) t) []) s) :=
    if_pos (dataLengthOk_iff.2 ⟨h1, h2⟩)
  exact allowed.trans (congrArg Host.Outcome.next (plainCommand_accept hr nofun rfl))

/-! ### O21 -/

theorem selectedPlane_none {sel : Byte} (h : 1 < sel.toNat) (im : Image) : selectedPlane im sel = none := by
  unfold selectedPlane
  split
  · omega
  · omega
  · rfl

theorem execReadPixels_badValue {plane count : Byte} (hr : s.inRun = true)
    (h : 1 < plane.toNat ∨ count.toNat = 0 ∨ 250 < count.toNat) :
    exec (.readPixels plane count) s = .next (commandEnd (.readPixels plane count) .badValue [] s) := by
  refine congrArg Host.Outcome.next (plainCommand_refuse hr nofun ?_)
  rcases h with h | h
  · rw [selectedPlane_none h]
  · cases selectedPlane (disarmGuard s).image plane with
    | none => rfl
    | some p => exact if_pos h

theorem execReadPixels_levels {plane count : Byte} {p : Plane} (hr : s.inRun = true)
    (hp : selectedPlane s.image plane = some p) (h1 : 1 ≤ count.toNat) (h2 : count.toNat ≤ 250) :
    exec (.readPixels plane count) s =
      .next
        (commandEnd (.readPixels plane count) .ok (pack (readStream p s.writer false (4 * count.toNat)).2.1)
          { s with
            writer := (readStream p s.writer false (4 * count.toNat)).1
            events := s.events.raiseIf (readStream p s.writer false (4 * count.toNat)).2.2 .windowWrap }) := by
  refine congrArg Host.Outcome.next (plainCommand_accept hr nofun ?_)
  have selected : selectedPlane (disarmGuard s).image plane = some p := hp
  rw [selected]
  exact if_neg (by omega)

/-! ### O22 -/

theorem execFillWindow_badValue {level : Byte} (hr : s.inRun = true) (h : 3 < level.toNat) :
    exec (.fillWindow level) s = .next (commandEnd (.fillWindow level) .badValue [] s) :=
  congrArg Host.Outcome.next (plainCommand_refuse hr nofun (by rw [levelOf_none (Nat.not_le.2 h)]))

theorem execFillWindow_accepted {level : Byte} (hr : s.inRun = true) (h : level.toNat ≤ 3) :
    exec (.fillWindow level) s =
      .next
        (commandEnd (.fillWindow level) .ok []
          { s with
            image :=
              { s.image with
                target := fillPixels s.writer (level.extractLsb' 0 2) s.image.target
                  (scanOrder s.writer.window s.writer.scan) }
            writer := s.writer.toOrigin s.writer.window s.writer.scan }) :=
  congrArg Host.Outcome.next (plainCommand_accept hr nofun (by rw [levelOf_eq h]; rfl))

/-- The scan order meets every pixel of the window once (R48, R60). -/
theorem get_fillPixels_scanOrder (hm : MemoriesCanonical s) (hw : WriterLegal s) (v : Level) {x y : Nat} (hx : x < 480) :
    Plane.get (fillPixels s.writer v s.image.target (scanOrder s.writer.window s.writer.scan)) x y =
      if s.writer.window.Holds x y then opResult s.writer.op v (Plane.get s.image.target x y) s.writer.key
      else Plane.get s.image.target x y := by
  have columns : ∀ q ∈ scanOrder s.writer.window s.writer.scan, q.1 < 480 := fun q hq =>
    column_of_valid hw.window hw.widthRange.2 (mem_scanOrder.1 hq)
  simp only [get_fillPixels _ _ hm.target (nodup_scanOrder _ _) columns hx, mem_scanOrder]

end

/-- Settles O20: T's states are those of the stream's beginnings. -/
theorem writePixelsStreamsIntoTarget : Obligations.WritePixelsStreamsIntoTarget := by
  intro s data hr h1 h2 hm hw
  have columns : ∀ k, (cursorAt s.writer k).1 < 480 := fun k =>
    column_of_valid hw.window hw.widthRange.2 (cursorAt_holds hw.cursor k)
  refine ⟨streamed s.writer s.image.target data, rfl,
    fun k hk x y hx => get_streamed_succ hm.target hk (columns k) hx, ?_⟩
  rw [execWritePixels_eq hr h1 h2, writeStream_unpack]

/-- Settles O21: the levels at the cursor's turns, packed. -/
theorem readPixelsReturnsTheWalk : Obligations.ReadPixelsReturnsTheWalk := by
  intro s plane count hr
  refine ⟨execReadPixels_badValue hr, fun p hp h1 h2 => ?_⟩
  have selected : selectedPlane s.image plane = some p := by
    rcases hp with ⟨rfl, rfl⟩ | ⟨rfl, rfl⟩ <;> rfl
  rw [execReadPixels_levels hr selected h1 h2, readStream_eq, pack_range]
  rfl

/-- Settles O22: the fill in scan order. -/
theorem fillWindowFillsTheWindowOnce : Obligations.FillWindowFillsTheWindowOnce :=
  fun _ _ hr hm hw =>
    ⟨execFillWindow_badValue hr, fun h =>
      ⟨_, fun _ _ hx => get_fillPixels_scanOrder hm hw _ hx, execFillWindow_accepted hr h⟩⟩

end Sys2Proof.ImageProofs
end

section
/-! O54: the memories, the geometry and FRAME_COUNT, and which command writes each (R43, R44, R63, R75, R123). -/

namespace Sys2Proof.ImageProofs
open Sys2Proof Sys2Proof.Machine Sys2Proof.Safety Sys2Proof.Claims Sys2Proof.Laws Sys2Proof.PortProofs

/-! ### What O54 speaks of -/

/-- The planes, pattern memory, waveform RAM, geometry and FRAME_COUNT of a state. -/
structure Memories where
  target : Plane
  latch : Plane
  shown : Plane
  pattern : List Host.Cell
  ram : List Host.Cell
  width : Nat
  height : Nat
  frameCount : Word

def memories (s : State) : Memories :=
  ⟨s.image.target, s.image.latch, s.image.shown, s.tiles.pattern, s.wave.ram, s.image.width, s.image.height,
    s.seq.frameCount⟩

theorem memories_of_eq {s t : State} (image : t.image = s.image) (tiles : t.tiles = s.tiles) (wave : t.wave = s.wave)
    (frames : t.seq.frameCount = s.seq.frameCount) : memories t = memories s := by
  simp only [memories, image, tiles, wave, frames]

/-- The step changes none of them, or begins or prolongs a reset and changes FRAME_COUNT alone. -/
def SparesMemories (s t : State) : Prop :=
  memories t = memories s ∨
    { memories t with frameCount := 0#16 } = { memories s with frameCount := 0#16 } ∧ t.resetUnit.inProgress ≠ none

section
variable {s t u : State}

theorem SparesMemories.each (h : SparesMemories s t) :
    t.image.target = s.image.target ∧ t.image.latch = s.image.latch ∧ t.image.shown = s.image.shown ∧
      t.tiles.pattern = s.tiles.pattern ∧ t.wave.ram = s.wave.ram ∧
      (t.image.width = s.image.width ∧ t.image.height = s.image.height) ∧
      (t.seq.frameCount = s.seq.frameCount ∨ t.resetUnit.inProgress ≠ none) := by
  rcases h with h | ⟨h, reset⟩ <;> simp only [memories, Memories.mk.injEq] at h
  · obtain ⟨target, latch, shown, pattern, ram, width, height, frames⟩ := h
    exact ⟨target, latch, shown, pattern, ram, ⟨width, height⟩, .inl frames⟩
  · obtain ⟨target, latch, shown, pattern, ram, width, height, -⟩ := h
    exact ⟨target, latch, shown, pattern, ram, ⟨width, height⟩, .inr reset⟩

/-! ### The parts of a step -/

@[simp] theorem enterFault_frameCount (k : FaultKind) (u : State) :
    (enterFault k u).seq.frameCount = u.seq.frameCount := by
  rw [enterFault_seq]; rfl

theorem memories_supplyPart (u : State) : memories (supplyPart u) = memories u := by
  unfold supplyPart
  (repeat' split) <;> simp [memories]

theorem memories_expireWatchdog (u : State) : memories (expireWatchdog u) = memories u := by
  simp [memories]

theorem memories_wakeOpening (u : State) : memories (wakeOpening u) = memories u := by
  refine memories_of_eq (wakeOpening_image u) (wakeOpening_tiles u) (wakeOpening_wave u) ?_
  have edge : (takeEdge u).seq.frameCount = u.seq.frameCount := by rw [takeEdge_seq]
  unfold wakeOpening
  split
  · dsimp only
    split <;> exact edge
  · rfl

/-- The four parts of a tick that both power states have (Table 10-1). -/
theorem memories_tickParts (x : SensorInput) (u : State) : memories (tickParts x u) = memories u := by
  have early : memories (supplyPart (wakeOpening u)) = memories u :=
    (memories_supplyPart _).trans (memories_wakeOpening u)
  unfold tickParts
  dsimp only
  split <;> rw [← early] <;> simp [memories]

/-- An arrival at the port touches the link and the event unit only. -/
theorem memories_portUpdate (h : PortUpdate u t) : memories t = memories u := by
  cases h <;> rfl

theorem memories_receive (l : List Arrival) (u : State) : memories (u.receive l) = memories u :=
  receive_keeps memories (fun a u => memories_portUpdate (portArrival_update a u)) l u

/-- A reset other than POR touches FRAME_COUNT only (Table 11-2). -/
theorem sparesMemories_beginReset {kind : ResetKind} (hk : kind ≠ .por) (extra : List Rect) (judged : State)
    (h : memories u = memories s) : SparesMemories s (beginReset kind extra judged u) := by
  refine .inr ⟨?_, Option.isSome_iff_ne_none.1 (beginReset_inProgress kind extra judged u)⟩
  rw [← h]
  unfold beginReset initFor
  rw [if_neg hk, if_neg hk]
  split <;> rfl

/-! ### The shapes of a step -/

/-- A command's own work changes none of them. -/
def Spares (s : State) : Verdict → Prop
  | .accept u _ => memories u = memories s
  | .refuse _ _ => True

theorem commandStep_spares {own : Bool} {c : Instr} {work : Bool → State → Verdict}
    (hw : ∀ latch, Spares s (work latch (disarmGuard s))) : memories (commandStep own c work s) = memories s := by
  refine commandStep_keeps memories (fun _ _ _ => rfl) rfl fun u p e => ?_
  have := hw s.executor.guardLatch
  rwa [e] at this

theorem plainCommand_spares {c : Instr} {work : State → Verdict}
    (h : (.next (plainCommand c work s) : Host.Outcome State Fault Refusal) = .next t)
    (hw : Spares s (work (disarmGuard s))) :
    SparesMemories s t := by
  cases h
  exact .inl (commandStep_spares (work := fun _ u => work u) fun _ => hw)

theorem guardedCommand_spares {own : Bool} {c : Instr} {work : Bool → State → Verdict}
    (h : (.next (commandStep own c work s) : Host.Outcome State Fault Refusal) = .next t)
    (hw : ∀ latch, Spares s (work latch (disarmGuard s))) :
    SparesMemories s t := by
  cases h
  exact .inl (commandStep_spares hw)

theorem commandAmid_spares {arrived : List Arrival} {c : Instr} {work : State → Verdict}
    (h : (.next (commandAmid arrived c work s) : Host.Outcome State Fault Refusal) = .next t)
    (hw : ∀ r : State, Spares r (work (disarmGuard r))) : SparesMemories s t := by
  cases h
  unfold commandAmid
  split
  · exact .inl ((commandStep_spares (work := fun _ u => work u) fun _ => hw _).trans (memories_receive arrived s))
  · exact .inl rfl

theorem otherStep_spares {work : State → State}
    (h : (.next (otherStep work s) : Host.Outcome State Fault Refusal) = .next t)
    (hw : memories (work s) = memories s) : SparesMemories s t := by
  cases h
  exact .inl (otherStep_keeps memories (fun _ => rfl) hw)

theorem runStep_spares {work : State → State}
    (h : (.next (runStep work s) : Host.Outcome State Fault Refusal) = .next t)
    (hw : memories (work s) = memories s) : SparesMemories s t := by
  cases h
  exact .inl (runStep_keeps memories (fun _ => rfl) hw)

/-! ### Commands with a shape of their own -/

theorem execSoftReset_spares (h : execSoftReset s = .next t) : SparesMemories s t := by
  simp only [execSoftReset, Host.Outcome.next.injEq] at h; subst h
  have own : memories (commandStep (ownsHead .softReset s) .softReset
      (fun latch u => if latch then .accept u [] else .refuse .guard []) s) = memories s :=
    commandStep_spares fun latch => by cases latch <;> simp [Spares, memories]
  split
  · exact sparesMemories_beginReset (by decide) _ _ own
  · exact .inl own

theorem execEnterHibernate_spares {m : Meanwhile} (h : execEnterHibernate m s = .next t) : SparesMemories s t := by
  simp only [execEnterHibernate_eq, Host.Outcome.next.injEq] at h; subst h
  split
  · have own : memories (commandStep (ownsHead (.enterHibernate m) s) (.enterHibernate m)
        (hibernateWork (mayHibernate (ownsHead (.enterHibernate m) s) s)) (s.receive m.arrived)) = memories s :=
      (commandStep_spares fun latch => by
        unfold hibernateWork
        (repeat' split) <;> simp [Spares, memories]).trans (memories_receive _ _)
    split
    · exact .inl own
    · exact .inl own
  · exact .inl rfl

theorem execTransaction_spares {bytes : List Byte} {edge : CsEdge} (h : execTransaction bytes edge s = .next t) :
    SparesMemories s t := by
  simp only [execTransaction, Host.Outcome.next.injEq] at h; subst h
  split
  · exact .inl rfl
  · exact .inl (memories_portUpdate (portTransaction_update _ _ s))

theorem execTick_spares {x : SensorInput} (h : execTick x s = .next t) : SparesMemories s t := by
  simp only [execTick, Host.Outcome.next.injEq] at h; subst h
  split
  · have parts := memories_tickParts x s
    have dog : memories (endStep (watchdogPart (tickParts x s))) = memories s := by
      rw [← parts]; simp [memories]
    split
    · split
      · exact sparesMemories_beginReset (by decide) _ _ dog
      · exact .inl dog
    · exact .inl parts
  · exact .inl rfl

theorem execWatchdogExpiry_spares (h : execWatchdogExpiry s = .next t) : SparesMemories s t := by
  simp only [execWatchdogExpiry, Host.Outcome.next.injEq] at h; subst h
  have expired : memories (runStep (fun u => if watchdogDue u then expireWatchdog u else u) s) = memories s := by
    refine runStep_keeps memories (fun _ => rfl) ?_
    split
    · exact memories_expireWatchdog s
    · rfl
  split
  · exact sparesMemories_beginReset (by decide) _ _ expired
  · exact .inl expired

theorem execResetDone_spares {b : Bool} {a : BitVec 3} (h : execResetDone b a s = .next t) : SparesMemories s t := by
  simp only [execResetDone, Host.Outcome.next.injEq] at h; subst h
  (repeat' split) <;> exact .inl rfl

theorem laneEvent_keeps {α : Type} (f : State → α) (fin : ∀ u, f (endStep u) = f u) {k : Fin 4}
    {work : Snapshot → ActiveJob → State → State} (hw : ∀ tb a, f (work tb a s) = f s)
    (h : laneEvent k work s = .next t) : f t = f s := by
  unfold laneEvent at h
  split at h <;> cases h
  refine runStep_keeps f fin ?_
  split
  · exact hw _ _
  · rfl

end

/-! ### The commands that write none of them -/

/-- The commands to which O54 grants a memory, the geometry or FRAME_COUNT, and the two resets that it leaves out. -/
def writesMemory : Instr → Bool
  | .writePixels _ | .fillWindow _ | .placeTile _ _ _ _ _ | .loadTileData _ _ _ | .loadWaveformData _ _
  | .setGeometry _ _ | .frameBoundary | .activated | .completed _ | .por | .pinReset _ => true
  | _ => false

theorem exec_spares {c : Instr} {s t : State} (hc : writesMemory c = false) (h : exec c s = .next t) :
    SparesMemories s t := by
  cases c with
  | transaction bytes edge => exact execTransaction_spares h
  | fetch a l c k => cases h; exact .inl (memories_portUpdate (portFetch_update a l c k s))
  | nop => exact plainCommand_spares h rfl
  | guard key => exact plainCommand_spares h (by split <;> simp [Spares, memories])
  | softReset => exact execSoftReset_spares h
  | setParameter n v =>
    refine guardedCommand_spares h fun _ => ?_
    (repeat' split) <;> simp [Spares, memories]
  | getParameter n => exact commandAmid_spares h fun r => by split <;> simp [Spares, memories]
  | acknowledgeEvents m => exact commandAmid_spares h fun r => rfl
  | readJournal n => exact plainCommand_spares h (by split <;> simp [Spares, memories])
  | clearJournal => exact plainCommand_spares h rfl
  | setWindow xs ys xe ye => exact plainCommand_spares h (by split <;> simp [Spares, memories])
  | setCursor x y => exact plainCommand_spares h (by split <;> simp [Spares, memories])
  | setScan code => exact plainCommand_spares h (by split <;> simp [Spares, memories])
  | setPixelOp op key => exact plainCommand_spares h (by split <;> simp [Spares, memories])
  | readPixels plane count => exact plainCommand_spares h (by (repeat' split) <;> simp [Spares, memories])
  | readUncertainMap => exact plainCommand_spares h rfl
  | markUncertain xs ys xe ye => exact plainCommand_spares h (by split <;> simp [Spares, memories])
  | defineTile slot width height base =>
    exact plainCommand_spares h (by dsimp only; (repeat' split) <;> simp [Spares, memories])
  | releaseTile slot => exact plainCommand_spares h (by split <;> simp [Spares, memories])
  | sealWaveform => exact plainCommand_spares h (by split <;> simp [Spares, memories, sealTable])
  | unsealWaveform => exact plainCommand_spares h (by split <;> simp [Spares, memories])
  | submitJob xs ys xe ye mode options =>
    exact plainCommand_spares h (by dsimp only; (repeat' split) <;> simp [Spares, memories])
  | cancelJob ticket => exact plainCommand_spares h (by (repeat' split) <;> simp [Spares, memories])
  | abortJob ticket => exact plainCommand_spares h (by (repeat' split) <;> simp [Spares, memories])
  | flushQueue => exact plainCommand_spares h rfl
  | startScheduler => exact plainCommand_spares h (by split <;> simp [Spares, memories])
  | haltScheduler => exact plainCommand_spares h (by split <;> simp [Spares, memories])
  | clearHold => exact plainCommand_spares h (by split <;> simp [Spares, memories])
  | queryJob ticket => exact plainCommand_spares h (by (repeat' split) <;> simp [Spares, memories])
  | railsOn => exact plainCommand_spares h (by split <;> simp [Spares, memories])
  | railsOff => exact plainCommand_spares h (by (repeat' split) <;> simp [Spares, memories])
  | sampleTemperature x => exact plainCommand_spares h rfl
  | armWatchdog period action => exact plainCommand_spares h (by (repeat' split) <;> simp [Spares, memories])
  | feedWatchdog => exact plainCommand_spares h (by split <;> simp [Spares, memories])
  | disarmWatchdog =>
    refine guardedCommand_spares h fun _ => ?_
    (repeat' split) <;> simp [Spares, memories]
  | enterHibernate m => exact execEnterHibernate_spares h
  | railGood => exact otherStep_spares h (by split <;> rfl)
  | railLost => exact otherStep_spares h (by split <;> simp [memories])
  | overcurrent => exact otherStep_spares h (by split <;> simp [memories])
  | drainDone => exact otherStep_spares h (by split <;> rfl)
  | tick x => exact execTick_spares h
  | powerRequestRamp => exact otherStep_spares h (by split <;> rfl)
  | rampTimeout => exact otherStep_spares h (by split <;> simp [memories])
  | railHoldExpiry => exact otherStep_spares h (by split <;> rfl)
  | drainSlow => exact otherStep_spares h (by split <;> rfl)
  | periodicSample x => exact runStep_spares h (by (repeat' split) <;> rfl)
  | wakeTimerExpiry => exact otherStep_spares h (by split <;> rfl)
  | watchdogExpiry => exact execWatchdogExpiry_spares h
  | wakeEdge => cases h; split <;> exact .inl rfl
  | oscillatorStable => cases h; exact .inl rfl
  | woke => exact otherStep_spares h (by split <;> simp [memories, completeWake])
  | phaseAdvance k => exact .inl (laneEvent_keeps memories (fun _ => rfl) (fun _ _ => by split <;> rfl) h)
  | aborted k cause => exact runStep_spares h (by (repeat' split) <;> simp [memories])
  | quiesceToHalted => exact runStep_spares h (by split <;> rfl)
  | parkingToHolding => exact runStep_spares h (by split <;> rfl)
  | resetDone b a => exact execResetDone_spares h
  | _ => cases hc

/-! ### The commands that write one of them -/

section
variable {s t : State}

/-- All of it but T. -/
def offTarget (s : State) : Memories := { memories s with target := [] }

theorem offTarget_each (h : offTarget t = offTarget s) :
    True ∧ t.image.latch = s.image.latch ∧ t.image.shown = s.image.shown ∧ t.tiles.pattern = s.tiles.pattern ∧
      t.wave.ram = s.wave.ram ∧ (t.image.width = s.image.width ∧ t.image.height = s.image.height) ∧
      (t.seq.frameCount = s.seq.frameCount ∨ t.resetUnit.inProgress ≠ none) := by
  simp only [offTarget, memories, Memories.mk.injEq, true_and] at h
  simp [h]

theorem execWritePixels_offTarget {data : List Byte} (h : execWritePixels data s = .next t) :
    offTarget t = offTarget s := by
  unfold execWritePixels at h
  split at h <;> cases h
  exact plainCommand_keeps offTarget (fun _ _ _ _ => rfl) rfl fun u p e => by cases e; rfl

theorem execFillWindow_offTarget {level : Byte} (h : execFillWindow level s = .next t) : offTarget t = offTarget s := by
  cases h
  refine plainCommand_keeps offTarget (fun _ _ _ _ => rfl) rfl fun u p e => ?_
  split at e <;> cases e
  rfl

theorem execPlaceTile_offTarget {slot op key : Byte} {x y : Word} (h : execPlaceTile slot x y op key s = .next t) :
    offTarget t = offTarget s := by
  cases h
  refine plainCommand_keeps offTarget (fun _ _ _ _ => rfl) rfl fun u p e => ?_
  (repeat' split at e) <;> cases e
  rfl

/-- All of it but pattern memory. -/
def offPattern (s : State) : Memories := { memories s with pattern := [] }

theorem execLoadTileData_offPattern {slot : Byte} {offset : Word} {data : List Byte}
    (h : execLoadTileData slot offset data s = .next t) : offPattern t = offPattern s := by
  unfold execLoadTileData at h
  split at h <;> cases h
  refine plainCommand_keeps offPattern (fun _ _ _ _ => rfl) rfl fun u p e => ?_
  (repeat' split at e) <;> cases e
  rfl

/-- All of it but the waveform RAM. -/
def offRam (s : State) : Memories := { memories s with ram := [] }

theorem execLoadWaveformData_offRam {offset : Word} {data : List Byte}
    (h : execLoadWaveformData offset data s = .next t) : offRam t = offRam s := by
  unfold execLoadWaveformData at h
  split at h <;> cases h
  refine plainCommand_keeps offRam (fun _ _ _ _ => rfl) rfl fun u p e => ?_
  (repeat' split at e) <;> cases e
  rfl

/-- All of it but the geometry. -/
def offGeometry (s : State) : Memories := { memories s with width := 0, height := 0 }

theorem execSetGeometry_offGeometry {width height : Word} (h : execSetGeometry width height s = .next t) :
    offGeometry t = offGeometry s := by
  cases h
  refine plainCommand_keeps offGeometry (fun _ _ _ _ => rfl) rfl fun u p e => ?_
  (repeat' split at e) <;> cases e
  rfl

/-- All of it but S. -/
def offShown (s : State) : Memories := { memories s with shown := [] }

theorem execCompleted_offShown {k : Fin 4} (h : execCompleted k s = .next t) : offShown t = offShown s :=
  laneEvent_keeps offShown (fun _ => rfl) (fun _ _ => by split <;> rfl) h

/-- All of it but L. -/
def offLatch (s : State) : Memories := { memories s with latch := [] }

theorem offLatch_activate (j : Job) (k : Fin 4) (u : State) : offLatch (activate j k u) = offLatch u := by
  unfold activate
  split <;> rfl

theorem execActivated_offLatch (h : execActivated s = .next t) : offLatch t = offLatch s := by
  cases h
  refine runStep_keeps offLatch (fun _ => rfl) ?_
  (repeat' split)
  · exact offLatch_activate _ _ _
  · rfl
  · rfl

/-! ### The boundary step -/

/-- All of it but L and S. -/
def offDriven (s : State) : Memories := { memories s with latch := [], shown := [] }

theorem offDriven_of_memories {u v : State} (h : memories u = memories v) : offDriven u = offDriven v := by
  unfold offDriven; rw [h]

theorem offDriven_advanceLane (tb : Snapshot) (k : Fin 4) (u : State) :
    offDriven (advanceLane tb k u) = offDriven u := by
  unfold advanceLane
  dsimp only
  (repeat' split)
  · rfl
  · rfl
  · exact offDriven_of_memories (by simp [memories, setLane])
  · rfl

theorem offDriven_advanceLanes (u : State) : offDriven (advanceLanes u) = offDriven u := by
  unfold advanceLanes
  split
  · simp only [laneOrder, List.foldl_cons, List.foldl_nil, offDriven_advanceLane]
  · rfl

theorem offDriven_admitJobs (u : State) : offDriven (admitJobs u) = offDriven u := by
  have each : ∀ (l : List (Job × Fin 4)) (v : State),
      offDriven (l.foldl (fun w jk => activate jk.1 jk.2 w) v) = offDriven v := by
    intro l
    induction l with
    | nil => intro v; rfl
    | cons jk l ih => exact fun v => (ih _).trans (congrArg (fun m => { m with shown := [] }) (offLatch_activate _ _ v))
  unfold admitJobs
  split
  · exact each _ _
  · rfl

/-- The step's work writes L and S, and counts the frame (R123, Table 7-2). -/
theorem offDriven_boundaryWork (u : State) : offDriven (boundaryWork u) = offDriven (countFrame u) := by
  have settled : offDriven (settleScheduler (advanceLanes (countFrame u))) = offDriven (countFrame u) :=
    (offDriven_of_memories (by simp [memories])).trans (offDriven_advanceLanes _)
  have closed : offDriven (boundaryWork u) = offDriven (admitJobs (settleScheduler (advanceLanes (countFrame u)))) :=
    offDriven_of_memories (by simp [boundaryWork, memories])
  rw [closed, offDriven_admitJobs, settled]

theorem beginFrame_memories (u : State) : memories (beginFrame u) = memories u := by
  unfold beginFrame
  split <;> rfl

theorem execFrameBoundary_offDriven (h : execFrameBoundary s = .next t) :
    offDriven t = offDriven s ∨ offDriven t = offDriven (countFrame s) := by
  unfold execFrameBoundary at h
  split at h
  · split at h <;> cases h
    exact .inr ((offDriven_of_memories (beginFrame_memories _)).trans (offDriven_boundaryWork s))
  · cases h; exact .inl rfl

end

/-- Settles O54, command by command: a writer changes no more than what it is granted, every other command nothing. -/
theorem memoriesHaveTheirWriters : Obligations.MemoriesHaveTheirWriters := by
  intro c s t h hpor hpin
  cases c with
  | writePixels data => exact offTarget_each (execWritePixels_offTarget h)
  | fillWindow level => exact offTarget_each (execFillWindow_offTarget h)
  | placeTile slot x y op key => exact offTarget_each (execPlaceTile_offTarget h)
  | loadTileData slot offset data =>
    have kept := execLoadTileData_offPattern h
    simp only [offPattern, memories, Memories.mk.injEq, true_and] at kept
    simp [kept]
  | loadWaveformData offset data =>
    have kept := execLoadWaveformData_offRam h
    simp only [offRam, memories, Memories.mk.injEq, true_and] at kept
    simp [kept]
  | setGeometry width height =>
    have kept := execSetGeometry_offGeometry h
    simp only [offGeometry, memories, Memories.mk.injEq, true_and] at kept
    simp [kept]
  | completed k =>
    have kept := execCompleted_offShown h
    simp only [offShown, memories, Memories.mk.injEq, true_and] at kept
    simp [kept]
  | activated =>
    have kept := execActivated_offLatch h
    simp only [offLatch, memories, Memories.mk.injEq, true_and] at kept
    simp [kept]
  | frameBoundary =>
    rcases execFrameBoundary_offDriven h with kept | kept
    · simp only [offDriven, memories, Memories.mk.injEq, true_and] at kept
      simp [kept]
    · simp only [offDriven, memories, countFrame, Memories.mk.injEq, true_and] at kept
      simp [kept]
  | por => exact absurd rfl hpor
  | pinReset cut => exact absurd rfl (hpin cut)
  | _ => exact (exec_spares rfl h).each

end Sys2Proof.ImageProofs
end

section
/-! O23: a tile's record (R64), the evictions of Define Tile (R66, R67), Release Tile (R70). -/

namespace Sys2Proof.TileProofs
open Sys2Proof Sys2Proof.Machine Sys2Proof.Safety Sys2Proof.Claims Sys2Proof.Laws Sys2Proof.PortProofs

/-! ### Evictions -/

/-- A tile of at least one pixel has at least one byte (Table 4-1). -/
theorem size_pos {t : Tile} (hw : 1 ≤ t.width) (hh : 1 ≤ t.height) : 0 < t.size := by
  have pixels : 1 ≤ t.width * t.height := Nat.mul_pos hw hh
  simp only [Tile.size, tileSize]
  omega

/-- Define Tile evicts the other slots that share a byte with the new tile (R67). -/
theorem evicted_some_iff {k i : Nat} {old new : Tile} (ho : 0 < old.size) (hn : 0 < new.size) :
    evicted k new i (some old) = true ↔ i ≠ k ∧ ShareByte old new := by
  rw [evicted, Option.any_some, Bool.and_eq_true, decide_eq_true_eq, shares_iff ho hn]
  rfl

theorem evictsAny_iff {k : Nat} {new : Tile} {slots : List (Option Tile)} :
    evictsAny k new slots = true ↔
      ∃ i old, slots[i]? = some (some old) ∧ evicted k new i (some old) = true := by
  have empty : ∀ i, evicted k new i none ≠ true := fun i => by simp [evicted]
  simp only [evictsAny, List.any_eq_true, List.mem_iff_getElem?, mapFrom_getElem?, Nat.zero_add,
    Option.map_eq_some_iff, id_eq]
  constructor
  · rintro ⟨b, ⟨i, o, hi, rfl⟩, hb⟩
    cases o with
    | none => exact absurd hb (empty i)
    | some old => exact ⟨i, old, hi, hb⟩
  · rintro ⟨i, old, hi, he⟩
    exact ⟨_, ⟨i, some old, hi, rfl⟩, he⟩

theorem defineSlots_named {k : Nat} (new : Tile) {slots : List (Option Tile)} (hk : k < slots.length) :
    (defineSlots k new slots)[k]? = some (some new) := by
  rw [defineSlots_get, List.getElem?_eq_getElem hk, Option.map_some, if_pos rfl]

theorem defineSlots_other {k i : Nat} (new : Tile) {slots : List (Option Tile)} {o : Option Tile} (hi : i ≠ k)
    (ho : slots[i]? = some o) :
    (defineSlots k new slots)[i]? = some (if evicted k new i o then none else o) := by
  rw [defineSlots_get, ho, Option.map_some, if_neg hi]

/-! ### The two commands -/

section
variable {s : State} {slot width height : Byte} {base : Word}

theorem execDefineTile_badValue (hr : s.inRun = true)
    (h : 15 < slot.toNat ∨ width.toNat = 0 ∨ 64 < width.toNat ∨ height.toNat = 0 ∨ 64 < height.toNat) :
    exec (.defineTile slot width height base) s =
      .next (commandEnd (.defineTile slot width height base) .badValue [] s) := by
  refine congrArg Host.Outcome.next (plainCommand_refuse hr nofun ?_)
  by_cases hs : 15 < slot.toNat
  · exact if_pos hs
  · exact (if_neg hs).trans (if_pos (h.resolve_left hs))

theorem execDefineTile_tileRange (hr : s.inRun = true) (hs : ¬ 15 < slot.toNat)
    (hv : ¬ (width.toNat = 0 ∨ 64 < width.toNat ∨ height.toNat = 0 ∨ 64 < height.toNat))
    (hb : 4096 < base.toNat + (width.toNat * height.toNat + 3) / 4) :
    exec (.defineTile slot width height base) s =
      .next (commandEnd (.defineTile slot width height base) .tileRange [] s) :=
  congrArg Host.Outcome.next
    (plainCommand_refuse hr nofun ((if_neg hs).trans ((if_neg hv).trans (if_pos hb))))

theorem execDefineTile_accepted (hr : s.inRun = true) (hs : ¬ 15 < slot.toNat)
    (hv : ¬ (width.toNat = 0 ∨ 64 < width.toNat ∨ height.toNat = 0 ∨ 64 < height.toNat))
    (hb : ¬ 4096 < base.toNat + (width.toNat * height.toNat + 3) / 4) :
    exec (.defineTile slot width height base) s =
      .next
        (commandEnd (.defineTile slot width height base) .ok []
          { s with
            tiles := { s.tiles with
              slots := defineSlots slot.toNat ⟨width.toNat, height.toNat, base.toNat⟩ s.tiles.slots }
            events := s.events.raiseIf
              (evictsAny slot.toNat ⟨width.toNat, height.toNat, base.toNat⟩ s.tiles.slots) .tileEvict }) :=
  congrArg Host.Outcome.next
    (plainCommand_accept hr nofun ((if_neg hs).trans ((if_neg hv).trans (if_neg hb))))

theorem execReleaseTile_eq (slot : Byte) (hr : s.inRun = true) :
    exec (.releaseTile slot) s =
      .next
        (if slot.toNat ≤ 15 then
          commandEnd (.releaseTile slot) .ok []
            { s with tiles := { s.tiles with slots := s.tiles.slots.set slot.toNat none } }
        else commandEnd (.releaseTile slot) .badValue [] s) := by
  refine congrArg Host.Outcome.next ?_
  by_cases hs : slot.toNat ≤ 15
  · rw [if_pos hs]
    exact plainCommand_accept hr nofun (if_neg (Nat.not_lt.2 hs))
  · rw [if_neg hs]
    exact plainCommand_refuse hr nofun (if_pos (Nat.not_le.1 hs))

end

/-- Settles O23: Define Tile check by check, its evictions slot by slot, and Release Tile. -/
theorem defineAndReleaseTile : Obligations.DefineAndReleaseTile := by
  intro s slot width height base hr hd
  refine ⟨execDefineTile_badValue hr,
    fun hs w1 w64 h1 h64 hb => execDefineTile_tileRange hr (by omega) (by omega) hb,
    fun hs w1 w64 h1 h64 hb => ?_, execReleaseTile_eq slot hr⟩
  have evicts : ∀ {i old}, s.tiles.slots[i]? = some (some old) →
      (evicted slot.toNat ⟨width.toNat, height.toNat, base.toNat⟩ i (some old) = true ↔
        i ≠ slot.toNat ∧ ShareByte old ⟨width.toNat, height.toNat, base.toNat⟩) := fun ho => by
    obtain ⟨ow, -, oh, -, -⟩ := hd.records _ (List.mem_of_getElem? ho)
    exact evicted_some_iff (size_pos ow oh) (size_pos w1 h1)
  refine ⟨_, _, ?_, defineSlots_named _ (by rw [hd.slots]; omega), fun i hi ho => ?_, fun i old hi ho => ⟨?_, ?_⟩, ?_,
    execDefineTile_accepted hr (by omega) (by omega) (by omega)⟩
  · rw [defineSlots, mapFrom_length, hd.slots]
  · rw [defineSlots_other _ hi ho, ite_self]
  · intro share
    rw [defineSlots_other _ hi ho, if_pos ((evicts ho).2 ⟨hi, share⟩)]
  · intro apart
    rw [defineSlots_other _ hi ho, if_neg fun he => apart ((evicts ho).1 he).2]
  · rw [evictsAny_iff]
    refine exists₂_congr fun i old => ?_
    rw [and_left_comm]
    exact and_congr_right evicts

end Sys2Proof.TileProofs
end

section
/-! The pixels that Place Tile stamps (R72), and what the stamping leaves at a pixel of T (R73). -/

namespace Sys2Proof.TileProofs
open Sys2Proof Sys2Proof.Machine Sys2Proof.Safety Sys2Proof.Claims Sys2Proof.Laws Sys2Proof.PortProofs

/-! ### Which pixels are stamped -/

section
variable {pattern : List Host.Cell} {t : Tile} {x y : Int} {w h px py : Nat} {v : Level}

theorem placedAt_eq_some {start : Int} {k limit n : Nat} :
    placedAt start k limit = some n ↔ (n : Int) = start + k ∧ n < limit := by
  refine ⟨placedAt_some, fun ⟨place, inside⟩ => ?_⟩
  rw [placedAt, if_pos (by omega), Option.some.injEq]
  omega

theorem mem_tilePixels {ij : Nat × Nat} : ij ∈ tilePixels t ↔ ij.1 < t.width ∧ ij.2 < t.height := by
  obtain ⟨i, j⟩ := ij
  simp [tilePixels, and_comm]

/-- The placed pixels are the tile pixels whose exact position lies in the active area (R72). -/
theorem mem_placedPixels_iff :
    ((px, py), v) ∈ placedPixels pattern t x y w h ↔
      ∃ i j, (i < t.width ∧ j < t.height) ∧ ((px : Int) = x + i ∧ px < w) ∧ ((py : Int) = y + j ∧ py < h) ∧
        tilePixel pattern t i j = v := by
  simp only [placedPixels, List.mem_filterMap, Prod.exists, mem_tilePixels, ← placedAt_eq_some]
  refine exists₂_congr fun i j => and_congr_right fun _ => ?_
  split
  · next hx hy => simp [hx, hy, and_assoc]
  · next outside =>
    exact ⟨nofun, fun ⟨hx, hy, _⟩ => absurd hy (outside px py hx)⟩

/-- Pixel (px, py) of the active area lies under the tile placed at (x, y), all positions exact (R72). -/
def Covers (t : Tile) (x y : Int) (w h px py : Nat) : Prop :=
  px < w ∧ py < h ∧ x ≤ px ∧ (px : Int) < x + t.width ∧ y ≤ py ∧ (py : Int) < y + t.height

theorem mem_placedPixels_of_covers (pattern : List Host.Cell) (hc : Covers t x y w h px py) :
    ((px, py), tilePixel pattern t (px - x).toNat (py - y).toNat) ∈ placedPixels pattern t x y w h := by
  obtain ⟨inW, inH, left, right, top, bottom⟩ := hc
  exact mem_placedPixels_iff.2 ⟨_, _, ⟨by omega, by omega⟩, ⟨by omega, inW⟩, ⟨by omega, inH⟩, rfl⟩

theorem covers_of_mem_placedPixels (hm : ((px, py), v) ∈ placedPixels pattern t x y w h) :
    Covers t x y w h px py := by
  obtain ⟨i, j, ⟨hi, hj⟩, ⟨hx, inW⟩, ⟨hy, inH⟩, -⟩ := mem_placedPixels_iff.1 hm
  exact ⟨inW, inH, by omega, by omega, by omega, by omega⟩

end

/-! ### What the stamping leaves -/

section
variable (op : PixelOp) (key : Level) {l : List ((Nat × Nat) × Level)} {p : Plane} {x y : Nat} {v : Level}

/-- What Place Tile leaves at a pixel that it stamps (R73). -/
theorem get_stampPixels_of_mem (hp : Memory.wf Config.porLevel p = true) (hd : (l.map Prod.fst).Nodup)
    (hl : ∀ q ∈ l, q.1.1 < 480) (hm : ((x, y), v) ∈ l) :
    Plane.get (stampPixels op key p l) x y = opResult op v (Plane.get p x y) key := by
  have found : (l.find? fun q => decide (q.1 = (x, y))) = some ((x, y), v) := by
    cases hf : l.find? fun q => decide (q.1 = (x, y)) with
    | none => exact absurd (decide_eq_true rfl) (List.find?_eq_none.1 hf _ hm)
    | some q =>
      have pixel : q.1 = (x, y) := by simpa using List.find?_some hf
      exact congrArg some (List.inj_on_of_nodup_map hd (List.mem_of_find?_eq_some hf) hm pixel)
  rw [get_stampPixels _ _ (hl _ hm) _ _ hp hd hl, found, Option.elim_some]

/-- What Place Tile leaves at any other pixel (R73). -/
theorem get_stampPixels_of_not_mem (hp : Memory.wf Config.porLevel p = true) (hd : (l.map Prod.fst).Nodup)
    (hl : ∀ q ∈ l, q.1.1 < 480) (hx : x < 480) (hm : ∀ v, ((x, y), v) ∉ l) :
    Plane.get (stampPixels op key p l) x y = Plane.get p x y := by
  have absent : (l.find? fun q => decide (q.1 = (x, y))) = none :=
    List.find?_eq_none.2 fun q hq he => hm q.2 (of_decide_eq_true he ▸ hq)
  rw [get_stampPixels _ _ hx _ _ hp hd hl, absent, Option.elim_none]

end

end Sys2Proof.TileProofs
end

section
/-! O24 and O25: the data of a tile (R68, R69) and its placement (R65, R71 to R73). -/

namespace Sys2Proof.TileProofs
open Sys2Proof Sys2Proof.Machine Sys2Proof.Safety Sys2Proof.Claims Sys2Proof.Laws Sys2Proof.PortProofs
open Sys2Proof.ImageProofs (pixelOpOf_named pixelOpOf_none levelOf_none)

/-! ### O24 -/

section
variable {s : State} {slot : Byte} {offset : Word} {data : List Byte} {tile : Tile}

theorem execLoadTileData_badValue (offset : Word) (hr : s.inRun = true)
    (h1 : 1 ≤ data.length) (h2 : data.length ≤ 247) (hs : 15 < slot.toNat) :
    exec (.loadTileData slot offset data) s =
      .next (commandEnd (.loadTileData slot offset data) .badValue [] s) :=
  (if_pos (dataLengthOk_iff.2 ⟨h1, h2⟩)).trans
    (congrArg Host.Outcome.next (plainCommand_refuse hr nofun (if_pos hs)))

theorem execLoadTileData_tileInvalid (offset : Word) (hr : s.inRun = true)
    (h1 : 1 ≤ data.length) (h2 : data.length ≤ 247) (hs : slot.toNat ≤ 15)
    (ht : slotAt s.tiles.slots slot.toNat = none) :
    exec (.loadTileData slot offset data) s =
      .next (commandEnd (.loadTileData slot offset data) .tileInvalid [] s) := by
  refine (if_pos (dataLengthOk_iff.2 ⟨h1, h2⟩)).trans
    (congrArg Host.Outcome.next (plainCommand_refuse hr nofun ((if_neg (Nat.not_lt.2 hs)).trans ?_)))
  rw [disarmGuard_tiles, ht]

theorem execLoadTileData_tileRange (hr : s.inRun = true) (h1 : 1 ≤ data.length) (h2 : data.length ≤ 247)
    (hs : slot.toNat ≤ 15) (ht : slotAt s.tiles.slots slot.toNat = some tile)
    (hl : tile.size < offset.toNat + data.length) :
    exec (.loadTileData slot offset data) s =
      .next (commandEnd (.loadTileData slot offset data) .tileRange [] s) := by
  refine (if_pos (dataLengthOk_iff.2 ⟨h1, h2⟩)).trans
    (congrArg Host.Outcome.next (plainCommand_refuse hr nofun ((if_neg (Nat.not_lt.2 hs)).trans ?_)))
  rw [disarmGuard_tiles, ht]
  exact if_pos hl

theorem execLoadTileData_accepted (hr : s.inRun = true) (h1 : 1 ≤ data.length) (h2 : data.length ≤ 247)
    (hs : slot.toNat ≤ 15) (ht : slotAt s.tiles.slots slot.toNat = some tile)
    (hl : offset.toNat + data.length ≤ tile.size) :
    exec (.loadTileData slot offset data) s =
      .next
        (commandEnd (.loadTileData slot offset data) .ok []
          { s with tiles := { s.tiles with pattern := loadTile tile offset.toNat data s.tiles.pattern } }) := by
  refine (if_pos (dataLengthOk_iff.2 ⟨h1, h2⟩)).trans
    (congrArg Host.Outcome.next (plainCommand_accept hr nofun ((if_neg (Nat.not_lt.2 hs)).trans ?_)))
  rw [disarmGuard_tiles, ht]
  exact if_neg (Nat.not_lt.2 hl)

end

/-- Settles O24: the refusals in order, then the run of writes. -/
theorem loadTileDataWritesTheSlotsBytes : Obligations.LoadTileDataWritesTheSlotsBytes :=
  fun _ _ offset data hr hm h1 h2 =>
    ⟨execLoadTileData_badValue offset hr h1 h2, execLoadTileData_tileInvalid offset hr h1 h2,
      fun _ hs ht =>
        ⟨execLoadTileData_tileRange hr h1 h2 hs ht, fun hl =>
          ⟨_, fun _ => read_writeRun data _ _ _ hm.pattern, execLoadTileData_accepted hr h1 h2 hs ht hl⟩⟩⟩

/-! ### O25 -/

section
variable {s : State} {slot op key : Byte} {x y : Word} {tile : Tile} {o : PixelOp}

theorem execPlaceTile_badValue (hr : s.inRun = true) (h : 15 < slot.toNat ∨ 3 < op.toNat ∨ 3 < key.toNat) :
    exec (.placeTile slot x y op key) s = .next (commandEnd (.placeTile slot x y op key) .badValue [] s) := by
  refine congrArg Host.Outcome.next (plainCommand_refuse hr nofun ?_)
  by_cases hs : 15 < slot.toNat
  · exact if_pos hs
  · refine (if_neg hs).trans ?_
    rcases h.resolve_left hs with ho | hk
    · rw [pixelOpOf_none (Nat.not_le.2 ho)]
    · rw [levelOf_none (Nat.not_le.2 hk)]
      cases pixelOpOf op <;> rfl

theorem execPlaceTile_tileInvalid (hr : s.inRun = true)
    (hs : slot.toNat ≤ 15) (ho : op.toNat ≤ 3) (hk : key.toNat ≤ 3) (ht : slotAt s.tiles.slots slot.toNat = none) :
    exec (.placeTile slot x y op key) s = .next (commandEnd (.placeTile slot x y op key) .tileInvalid [] s) := by
  refine congrArg Host.Outcome.next (plainCommand_refuse hr nofun ((if_neg (Nat.not_lt.2 hs)).trans ?_))
  rw [pixelOpOf_named ho, levelOf_eq hk, disarmGuard_tiles, ht]

theorem execPlaceTile_accepted (hr : s.inRun = true)
    (hs : slot.toNat ≤ 15) (ho : [PixelOp.replace, .keySkip, .matchOnly, .invert][op.toNat]? = some o)
    (hk : key.toNat ≤ 3) (ht : slotAt s.tiles.slots slot.toNat = some tile) :
    exec (.placeTile slot x y op key) s =
      .next
        (commandEnd (.placeTile slot x y op key) .ok []
          { s with
            image :=
              { s.image with
                target :=
                  stampPixels o (key.extractLsb' 0 2) s.image.target
                    (placedPixels s.tiles.pattern tile x.toInt y.toInt s.image.width s.image.height) } }) := by
  refine congrArg Host.Outcome.next (plainCommand_accept hr nofun ((if_neg (Nat.not_lt.2 hs)).trans ?_))
  rw [pixelOpOf_eq, ho, levelOf_eq hk, disarmGuard_tiles, ht]
  rfl

end

/-- Settles O25: the refusals in order, then T pixel by pixel, under the tile and beside it. -/
theorem placeTileStampsTheClippedTile : Obligations.PlaceTileStampsTheClippedTile := by
  intro s slot op key x y hr hm hw
  refine ⟨execPlaceTile_badValue hr, execPlaceTile_tileInvalid hr, fun tile o hs ho hk ht =>
    ⟨_, fun px py hx => ?_, execPlaceTile_accepted hr hs ho hk ht⟩⟩
  have columns : ∀ q ∈ placedPixels s.tiles.pattern tile x.toInt y.toInt s.image.width s.image.height,
      q.1.1 < 480 := fun _ hq => (mem_placedPixels hq).trans_le hw.widthRange.2
  have once := nodup_placedPixels s.tiles.pattern tile x.toInt y.toInt s.image.width s.image.height
  split
  · next covered =>
    exact get_stampPixels_of_mem o _ hm.target once columns (mem_placedPixels_of_covers _ covered)
  · next beside =>
    exact get_stampPixels_of_not_mem o _ hm.target once columns hx fun _ hq =>
      beside (covers_of_mem_placedPixels hq)

end Sys2Proof.TileProofs
end

section
/-! O27: the seven tests of Seal Waveform (R77, R79, R80, R82, R85 to R87, Table 5-5), each the condition the spec states, and
the order in which they are made. -/

namespace Sys2Proof.WaveProofs
open Sys2Proof Sys2Proof.Machine Sys2Proof.Safety Sys2Proof.Claims Sys2Proof.Laws Sys2Proof.PortProofs

/-! ### The fields of the image (R77, R80) -/

section
variable (ram : List Host.Cell)

theorem ramWord_eq (a : Nat) : ramWord ram a = 256 * (byteAt ram a).toNat + (byteAt ram (a + 1)).toNat := by
  have small := (byteAt ram (a + 1)).isLt
  rw [ramWord, joinBytes, BitVec.toNat_append, Nat.shiftLeft_eq, ← Nat.mul_comm, Nat.two_pow_add_eq_or_of_lt small]

theorem imageLength_eq : imageLength ram = lengthOf ram := ramWord_eq ram 4

theorem indexEntry_eq (m b e : Nat) : indexEntry ram m b e = (entryOffset ram m b e, entryCount ram m b e) := by
  rw [indexEntry, ramWord_eq]
  rfl

theorem computedCrc_eq : computedCrc ram = imageCrc ram := by
  rw [computedCrc, imageLength_eq]
  rfl

/-- Every element greater than the one before it is a chain of `<`. -/
theorem strictlyAscending_iff : ∀ l : List Int, strictlyAscending l = true ↔ l.IsChain (· < ·)
  | [] => by simp [strictlyAscending]
  | [a] => by simp [strictlyAscending]
  | a :: b :: l => by
    rw [strictlyAscending, Bool.and_eq_true, decide_eq_true_eq, List.isChain_cons_cons, strictlyAscending_iff (b :: l)]

/-! ### The tests, each failing exactly when the spec's condition does not hold -/

theorem lengthInRange_iff : lengthInRange ram = true ↔ 19 ≤ lengthOf ram ∧ lengthOf ram ≤ 8192 := by
  simp [lengthInRange, imageLength_eq, Config.ramSize]

theorem formatFails_eq_false : formatFails ram = false ↔ FormatPasses ram := by
  simp only [formatFails, Bool.or_eq_false_iff, decide_eq_false_iff_not, Bool.not_eq_false', lengthInRange_iff,
    List.any_eq_false, List.mem_range, Nat.lt_min, decide_eq_true_eq, not_not, and_imp, and_assoc]
  rfl

theorem countsFails_eq_false : countsFails ram = false ↔ CountsPasses ram := by
  simp only [countsFails, Bool.or_eq_false_iff, decide_eq_false_iff_not, Nat.not_lt, and_assoc]
  rfl

theorem bandsFails_eq_false : bandsFails ram = false ↔ BandsPasses ram := by
  simp only [bandsFails, imageBounds, Bool.or_eq_false_iff, List.any_eq_false, List.mem_map, List.mem_range,
    forall_exists_index, and_imp, forall_apply_eq_imp_iff₂, Bool.not_eq_true', decide_eq_false_iff_not, not_not,
    Bool.not_eq_false', strictlyAscending_iff, List.isChain_map, List.isChain_range_succ, Nat.lt_succ_iff]
  rfl

theorem indexFails_eq_false (h : FormatPasses ram) : indexFails ram = false ↔ IndexPasses ram := by
  obtain ⟨-, long, -, -⟩ := h
  simp only [indexFails, indexEntries, indexEntry_eq, imageLength_eq, Bool.or_eq_false_iff, List.any_eq_false,
    List.mem_map, List.mem_range, forall_exists_index, and_imp, forall_apply_eq_imp_iff₂, Bool.or_eq_true,
    decide_eq_true_eq, decide_eq_false_iff_not, not_or, and_assoc]
  refine and_congr (by unfold indexEnd imageModes imageBands; omega) (forall₂_congr fun e _ => ?_)
  unfold indexEnd imageModes imageBands
  omega

theorem framesFails_eq_false : framesFails ram = false ↔ FramesPasses ram := by
  simp only [framesFails, indexEntries, indexEntry_eq, List.any_eq_false, List.any_eq_true, List.mem_map, List.mem_range,
    forall_exists_index, and_imp, forall_apply_eq_imp_iff₂, decide_eq_true_eq, not_exists, not_and]
  exact ⟨fun h e p he hp => h e he p hp, fun h e he p hp => h e p he hp⟩

theorem recoveryFails_eq_false : recoveryFails ram = false ↔ RecoveryPasses ram := by
  simp only [recoveryFails, Bool.or_eq_false_iff, decide_eq_false_iff_not, Nat.not_le, Bool.not_eq_false',
    List.any_eq_false, List.mem_range, Bool.and_eq_true, Bool.not_eq_true', not_and, Bool.not_eq_false, and_assoc]
  rfl

theorem checksum_iff : computedCrc ram = storedCrc ram ↔ ChecksumPasses ram := by
  rw [computedCrc_eq, storedCrc, imageLength_eq]
  rfl

/-! ### The order of the tests (Table 5-5) -/

open scoped Classical in
/-- The tests of Table 5-5 in their order, each with its number, by what the spec asks. -/
theorem sealReason_eq :
    sealReason ram =
      if ¬ FormatPasses ram then 1
      else if ¬ CountsPasses ram then 2
      else if ¬ BandsPasses ram then 3
      else if ¬ IndexPasses ram then 4
      else if ¬ FramesPasses ram then 5
      else if ¬ RecoveryPasses ram then 6
      else if ¬ ChecksumPasses ram then 7
      else 0 := by
  by_cases hf : FormatPasses ram
  · simp only [sealReason, ← Bool.not_eq_false, formatFails_eq_false, countsFails_eq_false, bandsFails_eq_false,
      indexFails_eq_false ram hf, framesFails_eq_false, recoveryFails_eq_false, decide_eq_false_iff_not, not_not, ne_eq,
      checksum_iff]
  · simp only [sealReason, ← Bool.not_eq_false, formatFails_eq_false, hf, not_false_eq_true, if_true]

/-- What a sealed image guarantees to the rest of the machine (R76, R86, R87). -/
theorem passes_of_sealReason_eq_zero (h : sealReason ram = 0) :
    CountsPasses ram ∧ BandsPasses ram ∧ IndexPasses ram ∧ FramesPasses ram ∧ RecoveryPasses ram := by
  rw [sealReason_eq] at h
  split_ifs at h with _ counts bands index frames recovery _
  exact ⟨counts, bands, index, frames, recovery⟩

end

/-- Settles O27: the reason is the number of the first test of Table 5-5 that does not pass. -/
theorem sealReasonNamesTheFirstFailingTest : Obligations.SealReasonNamesTheFirstFailingTest := by
  intro ram
  rw [sealReason_eq]
  refine ⟨?_, ?_, ?_, ?_, ?_, ?_, ?_, ?_⟩ <;> intros <;> simp only [*, not_true, not_false_eq_true, if_true, if_false]

end Sys2Proof.WaveProofs
end

section
/-! O29: BAND is the band whose interval holds the temperature (R79, R137). -/

namespace Sys2Proof.WaveProofs
open Sys2Proof Sys2Proof.Machine Sys2Proof.Safety Sys2Proof.Claims Sys2Proof.Laws

/-- Interval `i` of the bounds holds the temperature (R79). -/
def BandHolds (bounds : List Int) (c : Int) (i : Nat) : Prop :=
  ∃ lo hi, bounds[i]? = some lo ∧ bounds[i + 1]? = some hi ∧ lo ≤ c ∧ c < hi

theorem bandHolds_cons {lo : Int} {bounds : List Int} {c : Int} {i : Nat} :
    BandHolds (lo :: bounds) c (i + 1) ↔ BandHolds bounds c i := Iff.rfl

/-- A band that the search finds holds the temperature, whatever the bounds. -/
theorem bandHolds_of_bandFrom {c : Int} {b : Nat} : ∀ {bounds : List Int} {k : Nat}, bandFrom c k bounds = some b →
    ∃ i, b = k + i ∧ BandHolds bounds c i
  | [], _, h | [_], _, h => by simp [bandFrom] at h
  | lo :: hi :: rest, k, h => by
    rw [bandFrom] at h
    split at h
    · next inside =>
      cases h
      exact ⟨0, rfl, lo, hi, rfl, rfl, inside.1, inside.2⟩
    · obtain ⟨i, rfl, holds⟩ := bandHolds_of_bandFrom h
      exact ⟨i + 1, by omega, bandHolds_cons.2 holds⟩

/-- With ascending bounds no earlier interval holds the temperature, so the search finds this one. -/
theorem bandFrom_of_bandHolds {c : Int} {i : Nat} : ∀ {bounds : List Int} (k : Nat), bounds.Pairwise (· < ·) →
    BandHolds bounds c i → bandFrom c k bounds = some (k + i)
  | [], _, _, ⟨_, _, first, _⟩ => by simp at first
  | [_], _, _, ⟨_, _, _, second, _⟩ => by simp at second
  | lo :: hi :: rest, k, ascending, holds => by
    rw [List.pairwise_cons] at ascending
    rw [bandFrom]
    cases i with
    | zero =>
      obtain ⟨lo', hi', hlo, hhi, below, above⟩ := holds
      cases hlo
      cases hhi
      rw [if_pos ⟨below, above⟩, Nat.add_zero]
    | succ i =>
      have beyond : hi ≤ c := by
        obtain ⟨lo', hi', hlo, -, below, -⟩ := bandHolds_cons.1 holds
        rcases List.mem_cons.1 (List.mem_of_getElem? hlo) with rfl | later
        · exact below
        · exact (((List.pairwise_cons.1 ascending.2).1 _ later).trans_le below).le
      rw [if_neg fun inside => absurd inside.2 (not_lt.2 beyond), bandFrom_of_bandHolds (k + 1) ascending.2 holds,
        Nat.add_right_comm, Nat.add_assoc]

theorem bandOf_unsealed (temperature : Option Int) : bandOf none temperature = none := rfl

theorem bandOf_invalid (table : Option Snapshot) : bandOf table none = none := by cases table <;> rfl

/-- Settles O29: the search finds an interval that holds the temperature, and with ascending bounds the only one. -/
theorem bandIsTheIntervalOfTheTemperature : Obligations.BandIsTheIntervalOfTheTemperature := by
  refine ⟨bandOf_unsealed, bandOf_invalid, fun t c b ascending => ⟨fun h => ?_, fun h => ?_⟩⟩
  · obtain ⟨i, rfl, holds⟩ := bandHolds_of_bandFrom (k := 0) h
    rwa [Nat.zero_add]
  · have found := bandFrom_of_bandHolds 0 (List.isChain_iff_pairwise.1 ((strictlyAscending_iff _).1 ascending)) h
    rwa [Nat.zero_add] at found

end Sys2Proof.WaveProofs
end

section
/-! O59, the sequences of a sealed table (R77, R80, R86, R87): what a job that drives one relies on, and how it stays on its
course through it (R107, R108, R128, R129). -/

namespace Sys2Proof.WaveProofs
open Sys2Proof Sys2Proof.Machine Sys2Proof.Safety Sys2Proof.Claims Sys2Proof.Laws
open Sys2Proof.ImageProofs (TableOk)

/-! ### The sealed table -/

section
variable {w : Wave} {t : Snapshot} {mode band : Nat}

theorem phaseCount_eq (ram : List Host.Cell) (t : Snapshot) (mode band : Nat) :
    phaseCount ram t mode band = phasesOf ram t mode band := by
  rw [phaseCount, sequenceOf, indexEntry_eq]
  rfl

theorem frameCountOf_eq (ram : List Host.Cell) (t : Snapshot) (mode band p : Nat) :
    frameCountOf ram t mode band p = framesOf ram t mode band p := by
  rw [frameCountOf, sequenceOf, indexEntry_eq]
  rfl

/-- Place `j` of line `i`, numbered through: an index entry of mode `i` in band `j` (R77), a pixel of row `i` (R125). -/
theorem numbered_lt {m n i j : Nat} (hi : i < m) (hj : j < n) : i * n + j < m * n := by
  rw [Nat.mul_comm i n]
  exact Nat.mul_add_lt_mul_of_lt_of_lt hi hj

/-- Every sequence of a sealed table has 1 to 24 phases (R80, R86). -/
theorem tableOk_phases (h : TableOk w) (ht : w.table = some t) (hm : mode < t.modes) (hb : band < t.bands) :
    1 ≤ phaseCount w.ram t mode band ∧ phaseCount w.ram t mode band ≤ 24 := by
  obtain ⟨-, -, ⟨-, index⟩, -, -⟩ := passes_of_sealReason_eq_zero w.ram (h.valid (by rw [ht]; rfl))
  obtain rfl := h.snapshot t ht
  obtain ⟨least, most, -, -⟩ := index _ (numbered_lt hm hb)
  rw [phaseCount_eq]
  exact ⟨least, most⟩

/-- Every phase of a sealed table has 1 to 255 frames (R80, R86). -/
theorem tableOk_frames (h : TableOk w) (ht : w.table = some t) (hm : mode < t.modes) (hb : band < t.bands) {p : Nat}
    (hp : p < phaseCount w.ram t mode band) :
    1 ≤ frameCountOf w.ram t mode band p ∧ frameCountOf w.ram t mode band p ≤ 255 := by
  obtain ⟨-, -, -, frames, -⟩ := passes_of_sealReason_eq_zero w.ram (h.valid (by rw [ht]; rfl))
  obtain rfl := h.snapshot t ht
  rw [phaseCount_eq] at hp
  rw [frameCountOf_eq]
  have nonzero := frames _ p (numbered_lt hm hb) hp
  exact ⟨Nat.pos_of_ne_zero fun zero => nonzero (BitVec.eq_of_toNat_eq zero), Nat.le_of_lt_succ (BitVec.isLt _)⟩

theorem tableOk_recovery_lt (h : TableOk w) (ht : w.table = some t) : t.recovery < t.modes := by
  obtain ⟨-, -, -, -, inside, -⟩ := passes_of_sealReason_eq_zero w.ram (h.valid (by rw [ht]; rfl))
  obtain rfl := h.snapshot t ht
  exact inside

/-- BAND is one of the table's bands (R79, R137). -/
theorem tableOk_band_lt (h : TableOk w) (ht : w.table = some t) {temperature : Option Int}
    (hb : bandOf w.table temperature = some band) : band < t.bands := by
  rw [ht] at hb
  obtain rfl := h.snapshot t ht
  cases temperature with
  | none => rw [bandOf_invalid] at hb; cases hb
  | some c =>
    obtain ⟨i, rfl, _, _, -, upper, -⟩ := bandHolds_of_bandFrom (k := 0) hb
    have bound := (List.getElem?_eq_some_iff.1 upper).1
    simp only [snapshotOf, imageBounds, List.length_map, List.length_range] at bound
    simp only [snapshotOf]
    omega

end

/-! ### The course of one job -/

section
variable {w : Wave} {t : Snapshot} {a : ActiveJob}

theorem framesUpTo_zero (ram : List Host.Cell) (t : Snapshot) (mode band : Nat) :
    framesUpTo ram t mode band 0 = frameCountOf ram t mode band 0 := by simp [framesUpTo]

theorem framesUpTo_succ (ram : List Host.Cell) (t : Snapshot) (mode band p : Nat) :
    framesUpTo ram t mode band (p + 1) = framesUpTo ram t mode band p + frameCountOf ram t mode band (p + 1) := by
  simp [framesUpTo, List.range_succ, Nat.add_assoc]

theorem effectiveMode_lt (h : TableOk w) (ht : w.table = some t) {j : Job} (hj : j.mode < t.modes) (im : Image) (c : Sched) :
    effectiveMode t im c j < t.modes := by
  unfold effectiveMode
  split
  · exact tableOk_recovery_lt h ht
  · exact hj

/-- A job enters its lane at the beginning of its course (R107, R108). -/
theorem jobOnCourse_activeJob (h : TableOk w) (ht : w.table = some t) {j : Job} (hj : j.mode < t.modes) {band : Nat}
    (hb : band < t.bands) (im : Image) (c : Sched) : JobOnCourse w.ram t (activeJob w.ram t im c band j) := by
  have mode := effectiveMode_lt h ht hj im c
  have phases := (tableOk_phases h ht mode hb).1
  exact
    { mode := mode
      band := hb
      phase := phases
      phaseLimit := Nat.zero_le _
      remaining := tableOk_frames h ht mode hb phases
      total := by rw [activeJob, framesUpTo_zero, Nat.zero_add] }

theorem endsPhase_iff : a.endsPhase = true ↔ a.remaining ≤ 1 := decide_eq_true_iff

/-- A boundary takes a job one frame further on its course, into the next phase when its phase has ended (R128, R129). -/
theorem jobOnCourse_progressed (h : TableOk w) (ht : w.table = some t) (course : JobOnCourse w.ram t a)
    (more : (a.endsPhase && lastPhase w.ram t a) = false) : JobOnCourse w.ram t (progressed w.ram t a) := by
  obtain ⟨mode, band, phase, phaseLimit, ⟨_, few⟩, total⟩ := course
  unfold progressed
  by_cases ends : a.endsPhase = true
  · have next : a.phase + 1 < phaseCount w.ram t a.effMode a.band := by simpa [ends, lastPhase] using more
    have limit := (tableOk_phases h ht mode band).2
    have last := endsPhase_iff.1 ends
    rw [if_pos ends]
    refine ⟨mode, band, next, ?_, tableOk_frames h ht mode band next, ?_⟩
    · simp only [ActiveJob.nextPhase, ActiveJob.count]; omega
    · simp only [ActiveJob.nextPhase, ActiveJob.count, framesUpTo_succ]; omega
  · have left : ¬ a.remaining ≤ 1 := fun last => ends (endsPhase_iff.2 last)
    rw [if_neg ends]
    refine ⟨mode, band, phase, phaseLimit, ?_, ?_⟩ <;> simp only [ActiveJob.count] <;> omega

/-- Being abort-pending is no part of the course. -/
theorem jobOnCourse_pend {ram : List Host.Cell} : JobOnCourse ram t a.pend ↔ JobOnCourse ram t a :=
  ⟨fun ⟨m, b, p, l, r, f⟩ => ⟨m, b, p, l, r, f⟩, fun ⟨m, b, p, l, r, f⟩ => ⟨m, b, p, l, r, f⟩⟩

end

end Sys2Proof.WaveProofs
end

section
/-! O59: jobs legal (R90, R97) and every ACTIVE job on its course (R128, R129), kept by every step. -/

namespace Sys2Proof.WaveProofs
open Sys2Proof Sys2Proof.Machine Sys2Proof.Safety Sys2Proof.Claims Sys2Proof.Laws Sys2Proof.PortProofs
open Sys2Proof.ImageProofs (TableOk tableSealedRight_iff)

/-! ### The two conditions, each on the part of the state that it speaks of -/

/-- `JobsLegal` as a condition on the table, the geometry, the queue, the lanes and the map. -/
structure JobsOk (table : Option Snapshot) (w h : Nat) (queue : List Job) (lanes : Lanes) (marks : List Bool) :
    Prop where
  queued : ∀ j ∈ queue, j.region.Valid w h
  active : ∀ k a, lanes.get k = some a → a.job.region.Valid w h
  modes : ∀ t, table = some t → ∀ j ∈ queue, j.mode < t.modes
  marks : marks.length = (w / 16) * (h / 16)

/-- The jobs, and what keeps the ACTIVE ones on their courses: the table exact and valid (R76), BAND derived from it (R137),
queued modes below M (R90), no ACTIVE job without a table (R96). -/
structure CoursesOk (w : Wave) (temperature : Option Int) (band : Option Nat) (queue : List Job) (lanes : Lanes) :
    Prop where
  table : TableOk w
  band : band = bandOf w.table temperature
  modes : ∀ t, w.table = some t → ∀ j ∈ queue, j.mode < t.modes
  driven : ∀ k a, lanes.get k = some a → w.table.isSome = true
  course : ∀ t k a, w.table = some t → lanes.get k = some a → JobOnCourse w.ram t a

/-- `JobsOk` of a state. -/
def JobsOf (s : State) : Prop :=
  JobsOk s.wave.table s.image.width s.image.height s.sched.queue s.sched.lanes s.sched.marks

/-- `CoursesOk` of a state. -/
def CoursesOf (s : State) : Prop := CoursesOk s.wave s.temp.temperature s.temp.band s.sched.queue s.sched.lanes

theorem jobsLegal_iff {s : State} : JobsLegal s ↔ JobsOf s :=
  ⟨fun ⟨queued, active, modes, marks⟩ => ⟨queued, fun k a hk => active a (mem_active.2 ⟨k, hk⟩), modes, marks⟩,
    fun ⟨queued, active, modes, marks⟩ =>
      ⟨queued, fun a ha => by obtain ⟨k, hk⟩ := mem_active.1 ha; exact active k a hk, modes, marks⟩⟩

theorem coursesOf_of_legal {s : State} (table : TableSealedRight s) (monitor : MonitorLegal s) (jobs : JobsLegal s)
    (lanes : LanesLegal s) (course : JobsOnCourse s) : CoursesOf s :=
  ⟨tableSealedRight_iff.1 table, monitor.band, jobs.modes, fun k a hk => (lanes.driven (anyActive_iff.2 ⟨k, a, hk⟩)).1,
    course⟩

/-- Keeping both, each without the other's help. -/
structure KeepsJobs (s t : State) : Prop where
  jobs : JobsOf s → JobsOf t
  courses : CoursesOf s → CoursesOf t

theorem KeepsJobs.refl (s : State) : KeepsJobs s s := ⟨id, id⟩

theorem KeepsJobs.trans {s t u : State} (h : KeepsJobs s t) (g : KeepsJobs t u) : KeepsJobs s u :=
  ⟨g.jobs ∘ h.jobs, g.courses ∘ h.courses⟩

/-! ### Updates that at most take jobs away or make them abort-pending -/

/-- From `s` to `t` no job is new, an ACTIVE one at most abort-pending, and nothing else that the jobs rest on changes. -/
structure NoNewJobs (s t : State) : Prop where
  wave : t.wave = s.wave
  temperature : t.temp.temperature = s.temp.temperature
  band : t.temp.band = s.temp.band
  width : t.image.width = s.image.width
  height : t.image.height = s.image.height
  marks : t.sched.marks.length = s.sched.marks.length
  queue : ∀ j ∈ t.sched.queue, j ∈ s.sched.queue
  lanes : ∀ k a, t.sched.lanes.get k = some a → ∃ b, s.sched.lanes.get k = some b ∧ b.pend = a.pend

theorem job_of_pend_eq {a b : ActiveJob} (h : b.pend = a.pend) : b.job = a.job :=
  (congrArg ActiveJob.job h : b.pend.job = a.pend.job)

theorem NoNewJobs.keeps {s t : State} (h : NoNewJobs s t) : KeepsJobs s t := by
  obtain ⟨wave, temperature, band, width, height, marks, queue, lanes⟩ := h
  constructor
  · intro jobs
    unfold JobsOf
    rw [wave, width, height]
    refine ⟨fun j hj => jobs.queued j (queue j hj), fun k a hk => ?_, fun t ht j hj => jobs.modes t ht j (queue j hj),
      marks.trans jobs.marks⟩
    obtain ⟨b, hb, same⟩ := lanes k a hk
    rw [← job_of_pend_eq same]
    exact jobs.active k b hb
  · intro courses
    unfold CoursesOf
    rw [wave, temperature, band]
    refine ⟨courses.table, courses.band, fun t ht j hj => courses.modes t ht j (queue j hj), fun k a hk => ?_,
      fun t k a ht hk => ?_⟩
    · obtain ⟨b, hb, -⟩ := lanes k a hk
      exact courses.driven k b hb
    · obtain ⟨b, hb, same⟩ := lanes k a hk
      rw [← jobOnCourse_pend, ← same, jobOnCourse_pend]
      exact courses.course t k b ht hb

theorem lanes_get_of_cleared {l : Lanes} {k j : Fin 4} {a : ActiveJob} (h : (l.set k none).get j = some a) :
    l.get j = some a := by
  rw [lanes_get_set] at h
  split at h
  · cases h
  · exact h

theorem keepsJobs_abortLane (c : AbortCause) (k : Fin 4) (s : State) : KeepsJobs s (abortLane c k s) := by
  unfold abortLane
  split
  · exact .refl s
  · exact NoNewJobs.keeps ⟨rfl, rfl, rfl, rfl, rfl, markTouched_length _ _ _, fun _ => id,
      fun _ a ha => ⟨a, lanes_get_of_cleared ha, rfl⟩⟩

theorem keepsJobs_abortAll (c : AbortCause) (s : State) : KeepsJobs s (abortAll c s) := by
  simp only [abortAll, laneOrder, List.foldl_cons, List.foldl_nil]
  exact (((keepsJobs_abortLane c 0 s).trans (keepsJobs_abortLane c 1 _)).trans (keepsJobs_abortLane c 2 _)).trans
    (keepsJobs_abortLane c 3 _)

theorem keepsJobs_enterFault (k : FaultKind) (s : State) : KeepsJobs s (enterFault k s) := by
  have counted : KeepsJobs s
      { s with
        supply := s.supply.fail k
        seq := s.seq.stopDrive
        events := (s.events.record .railFault 0#8 (wordOf k.code)).raise .railFault } := ⟨id, id⟩
  exact counted.trans ((keepsJobs_abortAll .fault _).trans ⟨id, id⟩)

theorem keepsJobs_completeJob (t : Snapshot) (k : Fin 4) (a : ActiveJob) (s : State) :
    KeepsJobs s (completeJob t k a s) := by
  refine NoNewJobs.keeps ⟨rfl, rfl, rfl, rfl, rfl, ?_, fun _ => id, fun _ b hb => ⟨b, lanes_get_of_cleared hb, rfl⟩⟩
  unfold completeJob
  dsimp only
  split
  · exact clearCovered_length _ _ _
  · rfl

theorem keepsJobs_cancelAll (r : Word) (s : State) : KeepsJobs s (cancelAll r s) :=
  NoNewJobs.keeps ⟨rfl, rfl, rfl, rfl, rfl, rfl, nofun, fun _ a ha => ⟨a, ha, rfl⟩⟩

theorem keepsJobs_cancelOne (j : Job) (s : State) : KeepsJobs s (cancelOne j s) :=
  NoNewJobs.keeps ⟨rfl, rfl, rfl, rfl, rfl, rfl, fun _ => List.mem_of_mem_erase, fun _ a ha => ⟨a, ha, rfl⟩⟩

theorem pend_pend (a : ActiveJob) : a.pend.pend = a.pend := rfl

theorem keepsJobs_pendLane (k : Fin 4) (s : State) : KeepsJobs s (pendLane k s) := by
  refine NoNewJobs.keeps ⟨rfl, rfl, rfl, rfl, rfl, rfl, fun _ => id, fun j a ha => ?_⟩
  change (s.sched.lanes.set k _).get j = some a at ha
  rw [lanes_get_set] at ha
  split at ha
  · next same =>
    obtain ⟨b, hb, rfl⟩ := Option.map_eq_some_iff.1 ha
    exact ⟨b, same ▸ hb, (pend_pend b).symm⟩
  · exact ⟨a, ha, rfl⟩

theorem pendAll_lane (s : State) (k : Fin 4) :
    (pendAll s).sched.lanes.get k = (s.sched.lanes.get k).map ActiveJob.pend := by
  match k with
  | 0 | 1 | 2 | 3 => rfl

theorem keepsJobs_pendAll (s : State) : KeepsJobs s (pendAll s) := by
  refine NoNewJobs.keeps ⟨rfl, rfl, rfl, rfl, rfl, rfl, fun _ => id, fun k a ha => ?_⟩
  rw [pendAll_lane] at ha
  obtain ⟨b, hb, rfl⟩ := Option.map_eq_some_iff.1 ha
  exact ⟨b, hb, (pend_pend b).symm⟩

theorem keepsJobs_expireWatchdog (s : State) : KeepsJobs s (expireWatchdog s) := by
  unfold expireWatchdog
  split
  · exact ⟨id, id⟩
  · exact NoNewJobs.keeps ⟨rfl, rfl, rfl, rfl, rfl, rfl, nofun, fun _ a ha => ⟨a, ha, rfl⟩⟩
  · exact ⟨id, id⟩

/-! ### The boundary's work on the lanes -/

/-- A lane's job is replaced by the same job elsewhere on its course. -/
theorem keepsJobs_setLane {s : State} {t : Snapshot} {k : Fin 4} {a b : ActiveJob} (ht : s.wave.table = some t)
    (ha : s.sched.lanes.get k = some a) (job : b.job = a.job)
    (course : TableOk s.wave → JobOnCourse s.wave.ram t a → JobOnCourse s.wave.ram t b) :
    KeepsJobs s (setLane k b s) := by
  have lane : ∀ {j c}, (setLane k b s).sched.lanes.get j = some c → c = b ∧ j = k ∨ s.sched.lanes.get j = some c := by
    intro j c hc
    change (s.sched.lanes.set k (some b)).get j = some c at hc
    rw [lanes_get_set] at hc
    split at hc
    · next same => exact .inl ⟨(Option.some.inj hc).symm, same⟩
    · exact .inr hc
  constructor
  · refine fun jobs => { jobs with active := fun j c hc => ?_ }
    rcases lane hc with ⟨rfl, -⟩ | old
    · rw [job]
      exact jobs.active k a ha
    · exact jobs.active j c old
  · refine fun courses => { courses with driven := fun _ _ _ => ?_, course := fun t' j c ht' hc => ?_ }
    · exact courses.driven k a ha
    · rcases lane hc with ⟨rfl, -⟩ | old
      · obtain rfl := Option.some.inj (ht.symm.trans ht')
        exact course courses.table (courses.course _ k a ht ha)
      · exact courses.course t' j c ht' old

theorem progressed_job (ram : List Host.Cell) (t : Snapshot) (a : ActiveJob) : (progressed ram t a).job = a.job := by
  unfold progressed
  split <;> rfl

theorem keepsJobs_progressed {s : State} {t : Snapshot} {k : Fin 4} {a : ActiveJob} (ht : s.wave.table = some t)
    (ha : s.sched.lanes.get k = some a) (more : (a.endsPhase && lastPhase s.wave.ram t a) = false) :
    KeepsJobs s (setLane k (progressed s.wave.ram t a) s) :=
  keepsJobs_setLane ht ha (progressed_job _ _ _) fun table course => jobOnCourse_progressed table ht course more

theorem keepsJobs_advanceLane {s : State} {t : Snapshot} (k : Fin 4) (ht : s.wave.table = some t) :
    KeepsJobs s (advanceLane t k s) := by
  unfold advanceLane
  split
  · exact .refl s
  · next a ha =>
    split
    · exact keepsJobs_completeJob t k a.count s
    · next more =>
      have progress := keepsJobs_progressed ht ha (Bool.eq_false_iff.2 more)
      dsimp only
      split
      · exact progress.trans (keepsJobs_abortLane _ _ _)
      · exact progress

/-- Activation takes the job at the beginning of its course from the queue into a free lane (R107, R108). -/
theorem keepsJobs_activate {s : State} {j : Job} {k : Fin 4} (h : Admissible s j k) : KeepsJobs s (activate j k s) := by
  obtain ⟨-, ⟨t, ht⟩, -, ⟨b, hb⟩⟩ := mayAdmit_parts h.opened.1
  rw [activate_of_open ht hb]
  have lane : ∀ {i c}, (activateWith t b j k s).sched.lanes.get i = some c →
      c = activeJob s.wave.ram t s.image s.sched b j ∨ s.sched.lanes.get i = some c := by
    intro i c hc
    change (s.sched.lanes.set k (some _)).get i = some c at hc
    rw [lanes_get_set] at hc
    split at hc
    · exact .inl (Option.some.inj hc).symm
    · exact .inr hc
  constructor
  · intro jobs
    refine ⟨fun i hi => jobs.queued i (List.mem_of_mem_erase hi), fun i c hc => ?_,
      fun t' ht' i hi => jobs.modes t' ht' i (List.mem_of_mem_erase hi), jobs.marks⟩
    rcases lane hc with rfl | old
    · exact jobs.queued j h.queued
    · exact jobs.active i c old
  · intro courses
    refine ⟨courses.table, courses.band, fun t' ht' i hi => courses.modes t' ht' i (List.mem_of_mem_erase hi),
      fun _ _ _ => Option.isSome_iff_exists.2 ⟨t, ht⟩, fun t' i c ht' hc => ?_⟩
    rcases lane hc with rfl | old
    · obtain rfl := Option.some.inj (ht.symm.trans ht')
      exact jobOnCourse_activeJob courses.table ht (courses.modes _ ht j h.queued)
        (tableOk_band_lt courses.table ht (courses.band.symm.trans hb)) _ _
    · exact courses.course t' i c ht' old

end Sys2Proof.WaveProofs
end

section
/-! O59: jobs and courses over the table's commands, Set Geometry, Submit Job, resets and cut steps, and over every step. -/

namespace Sys2Proof.WaveProofs
open Sys2Proof Sys2Proof.Machine Sys2Proof.Safety Sys2Proof.Claims Sys2Proof.Laws Sys2Proof.PortProofs
open Sys2Proof.ImageProofs (TableOk tableOk_unsealed tableOk_seal jobsIdle_iff)

/-! ### Host commands -/

theorem keepsJobs_applyGeometry {s : State} (w h : Nat) (idle : NoJobs s) : KeepsJobs s (applyGeometry w h s) := by
  obtain ⟨-, queue, lanes⟩ := idle
  rw [anyActive_false] at lanes
  refine ⟨fun jobs => ?_, id⟩
  refine { jobs with queued := fun j hj => ?_, active := fun k a ha => ?_, marks := List.length_replicate }
  · change j ∈ s.sched.queue at hj
    rw [queue] at hj
    cases hj
  · change s.sched.lanes.get k = some a at ha
    rw [lanes] at ha
    cases ha

theorem mem_of_mem_keptJobs {new j : Job} {q : List Job} (h : j ∈ keptJobs new q) : j ∈ q := by
  unfold keptJobs at h
  split at h
  · exact List.mem_of_mem_filter h
  · exact h

theorem keepsJobs_submit {s : State} {t : Snapshot} {new : Job} (ht : s.wave.table = some t)
    (region : new.region.Valid s.image.width s.image.height) (mode : new.mode < t.modes) :
    KeepsJobs s (submit new s) := by
  have queued : ∀ {j}, j ∈ (submit new s).sched.queue → j = new ∨ j ∈ s.sched.queue := by
    intro j hj
    rcases List.mem_append.1 hj with old | hnew
    · exact .inr (mem_of_mem_keptJobs old)
    · exact .inl (List.mem_singleton.1 hnew)
  have modes : (∀ t, s.wave.table = some t → ∀ j ∈ s.sched.queue, j.mode < t.modes) →
      ∀ t, s.wave.table = some t → ∀ j ∈ (submit new s).sched.queue, j.mode < t.modes := by
    intro old t' ht' j hj
    rcases queued hj with rfl | hj
    · obtain rfl := Option.some.inj (ht.symm.trans ht')
      exact mode
    · exact old t' ht' j hj
  refine ⟨fun jobs => { jobs with queued := fun j hj => ?_, modes := modes jobs.modes },
    fun courses => { courses with modes := modes courses.modes }⟩
  rcases queued hj with rfl | hj
  · exact region
  · exact jobs.queued j hj

/-- Sealing a table while one is SEALED takes the same snapshot again, since the RAM has not changed (R76, R83, R89). -/
theorem keepsJobs_sealTable {s : State} (passed : sealReason s.wave.ram = 0) : KeepsJobs s (sealTable s) := by
  have modes : ∀ t, some (snapshotOf s.wave.ram) = some t → ∀ j ∈ (sealTable s).sched.queue, j.mode < t.modes := by
    intro t ht j hj
    cases ht
    exact of_decide_eq_true (List.mem_filter.1 hj).2
  refine ⟨fun jobs => ?_, fun courses => ?_⟩
  · exact { jobs with queued := fun j hj => jobs.queued j (List.mem_of_mem_filter hj), modes := modes }
  · refine ⟨tableOk_seal passed, rfl, modes, fun _ _ _ => rfl, fun t k a ht ha => ?_⟩
    cases ht
    obtain ⟨old, hold⟩ := Option.isSome_iff_exists.1 (courses.driven k a ha)
    obtain rfl := courses.table.snapshot old hold
    exact courses.course _ k a hold ha

theorem keepsJobs_unsealTable {s : State} (idle : s.sched.lanes.anyActive = false) :
    KeepsJobs s (reviseBand s.temp { s with wave := { s.wave with table := none } }) := by
  rw [anyActive_false] at idle
  refine ⟨fun jobs => { jobs with modes := nofun }, fun courses => ?_⟩
  refine ⟨tableOk_unsealed rfl, rfl, nofun, fun k a ha => ?_, nofun⟩
  change s.sched.lanes.get k = some a at ha
  rw [idle k] at ha
  cases ha

/-- Writing the RAM of an UNSEALED table concerns no job (R83, R84). -/
theorem keepsJobs_ram {s : State} (unsealed : s.wave.table = none) (ram : List Host.Cell) :
    KeepsJobs s { s with wave := { s.wave with ram := ram } } :=
  ⟨id, fun courses => { courses with
    table := tableOk_unsealed unsealed
    course := fun t _ _ ht => by rw [unsealed] at ht; cases ht }⟩

theorem keepsJobs_takeSample (x : SensorInput) (s : State) : KeepsJobs s (takeSample x s) :=
  ⟨id, fun courses => { courses with band := rfl }⟩

/-! ### Resets and cut steps -/

/-- What the beginning of a reset leaves of the jobs: none, no table, and a map of the geometry's size (R120, R175). -/
structure Jobless (s t : State) : Prop where
  table : t.wave.table = none
  band : t.temp.band = none
  queue : t.sched.queue = []
  lanes : t.sched.lanes = ⟨none, none, none, none⟩
  marks : s.sched.marks.length = (s.image.width / 16) * (s.image.height / 16) →
    t.sched.marks.length = (t.image.width / 16) * (t.image.height / 16)

theorem Jobless.keeps {s t : State} (h : Jobless s t) : KeepsJobs s t := by
  obtain ⟨table, band, queue, lanes, marks⟩ := h
  have free : ∀ k a, t.sched.lanes.get k ≠ some a := by
    rw [lanes]
    exact fun k a => by match k with | 0 | 1 | 2 | 3 => nofun
  have empty : ∀ j, j ∉ t.sched.queue := by
    rw [queue]
    exact fun _ => List.not_mem_nil
  have unsealed : ∀ tb, t.wave.table ≠ some tb := by
    rw [table]
    nofun
  exact
    ⟨fun jobs =>
      ⟨fun j hj => absurd hj (empty j), fun k a ha => absurd ha (free k a), fun tb ht => absurd ht (unsealed tb),
        marks jobs.marks⟩,
      fun _ =>
      ⟨tableOk_unsealed table, by rw [band, table, bandOf_unsealed], fun tb ht => absurd ht (unsealed tb),
        fun k a ha => absurd ha (free k a), fun _ k a _ ha => absurd ha (free k a)⟩⟩

theorem foldl_markTouched_length (cols : Nat) (regions : List Rect) (marks : List Bool) :
    (regions.foldl (fun m r => markTouched cols r m) marks).length = marks.length := by
  induction regions generalizing marks with
  | nil => rfl
  | cons r rest ih => exact (ih _).trans (markTouched_length _ _ _)

theorem keepsJobs_beginReset (kind : ResetKind) (extra : List Rect) (judged s : State) :
    KeepsJobs s (beginReset kind extra judged s) := by
  obtain ⟨-, -, -, -, -, -, reset, -⟩ := resetStateIsLegal
  have full : ∀ q u, Jobless s { initFull s with seq := q, resetUnit := u } := fun _ _ =>
    ⟨rfl, rfl, rfl, rfl, fun _ => reset.marks⟩
  have retaining : ∀ regions q u, Jobless s { initRetaining regions s with seq := q, resetUnit := u } :=
    fun regions _ _ => ⟨rfl, rfl, rfl, rfl, (foldl_markTouched_length _ regions _).trans⟩
  unfold beginReset initFor
  dsimp only
  split
  · split
    · exact (full _ _).keeps
    · exact (retaining _ _ _).keeps
  · split
    · exact (full _ _).keeps
    · exact ⟨id, id⟩

/-- A cut step writes the RAM only of an UNSEALED table (R83, R84). -/
theorem applyCut_wave {s : State} (sealed : s.wave.table.isSome = true) (cut : CutStep) :
    (applyCut cut s).wave = s.wave := by
  unfold applyCut
  split
  · cases cut with
    | nothing | writePixels _ _ | frameBoundary _ => rfl
    | fillWindow level done =>
      dsimp only [cutFillWindow]
      split <;> rfl
    | placeTile slot x y op key done =>
      dsimp only [cutPlaceTile]
      split
      · split <;> rfl
      · rfl
    | loadTileData slot offset data done =>
      dsimp only [cutLoadTileData]
      split
      · rfl
      · split <;> rfl
    | loadWaveformData offset data done => exact congrArg State.wave (if_pos (.inl sealed))
  · rfl

theorem keepsJobs_applyCut (cut : CutStep) (s : State) : KeepsJobs s (applyCut cut s) := by
  obtain ⟨im, pattern, ram, e, width, height⟩ := applyCut_eq cut s
  have planes : KeepsJobs s { s with image := im, tiles := { s.tiles with pattern := pattern } } :=
    NoNewJobs.keeps ⟨rfl, rfl, rfl, width, height, rfl, fun _ => id, fun _ a ha => ⟨a, ha, rfl⟩⟩
  cases ht : s.wave.table with
  | none =>
    rw [e]
    exact planes.trans
      (keepsJobs_ram (s := { s with image := im, tiles := { s.tiles with pattern := pattern } }) ht ram)
  | some t =>
    have wave := applyCut_wave (by rw [ht]; rfl) cut
    rw [e] at wave ⊢
    dsimp only at wave
    rw [wave]
    exact planes

/-! ### Every step -/

theorem keepsJobs_commands : CommandUpdates KeepsJobs := by
  constructor
  case refl => exact .refl
  case trans => exact .trans
  case geometry => exact fun u w h _ _ idle => keepsJobs_applyGeometry w h (jobsIdle_iff.1 idle)
  case mark =>
    exact fun u r _ _ => NoNewJobs.keeps ⟨rfl, rfl, rfl, rfl, rfl, markTouched_length _ _ _, fun _ => id,
      fun _ a ha => ⟨a, ha, rfl⟩⟩
  case loadRam => exact fun u offset data _ unsealed _ => keepsJobs_ram unsealed _
  case sealTable => exact fun u _ passed => keepsJobs_sealTable passed
  case unsealTable => exact fun u _ idle => keepsJobs_unsealTable idle
  case submit => exact fun u t j _ ht region mode _ _ => keepsJobs_submit ht region mode
  case cancelOne => exact fun u j _ _ => keepsJobs_cancelOne j u
  case cancelAll => exact fun u r _ => keepsJobs_cancelAll r u
  case pendLane => exact fun u k _ => keepsJobs_pendLane k u
  case pendAll => exact fun u _ => keepsJobs_pendAll u
  case sample => exact fun u x _ => keepsJobs_takeSample x u
  -- every other update leaves geometry, table, BAND, queue, lanes and map alone
  all_goals intros; exact ⟨id, id⟩

theorem keepsJobs_events : EventUpdates KeepsJobs := by
  constructor
  case fault => exact fun u k _ _ _ => keepsJobs_enterFault k u
  case edge =>
    intro u _ _ _
    unfold takeEdge
    split <;> exact ⟨id, id⟩
  case dogExpire => exact fun u _ _ _ => keepsJobs_expireWatchdog u
  case dogReset =>
    intro u _ _ _
    have ended : KeepsJobs (expireWatchdog u) (endStep (expireWatchdog u)) := ⟨id, id⟩
    exact ((keepsJobs_expireWatchdog u).trans ended).trans (keepsJobs_beginReset _ _ _ _)
  case advanceLane => exact fun u t k _ ht => keepsJobs_advanceLane k ht
  case nextPhase =>
    intro u t k a _ ht ha ends more
    have progress := keepsJobs_progressed ht ha (by rw [more, Bool.and_false])
    rwa [progressed, if_pos ends] at progress
  case complete => exact fun u t k a _ _ _ _ _ => keepsJobs_completeJob t k a.count u
  case abort => exact fun u c k _ => keepsJobs_abortLane c k u
  case activate => exact fun u j k admissible => keepsJobs_activate admissible
  case beginFrame =>
    intro u _
    unfold beginFrame
    split <;> exact ⟨id, id⟩
  case cut => exact fun u c => keepsJobs_applyCut c u
  case begin_ => exact fun u kind extra judged => keepsJobs_beginReset kind extra judged u
  -- every other update leaves geometry, table, BAND, queue, lanes and map alone
  all_goals intros; exact ⟨id, id⟩

/-- Settles O59: both conditions are kept by every elementary update of a step. -/
theorem stepsKeepTheJobsOnCourse : Obligations.StepsKeepTheJobsOnCourse := by
  intro s t h
  obtain ⟨jobs, courses⟩ := step_rel keepsJobs_commands keepsJobs_events h
  exact ⟨fun legal => jobsLegal_iff.2 (jobs (jobsLegal_iff.1 legal)), fun table monitor legal lanes onCourse =>
    (courses (coursesOf_of_legal table monitor legal lanes onCourse)).course⟩

end Sys2Proof.WaveProofs
end

section
/-! O26 and O28: the waveform RAM loaded (R83, R84), the table sealed (R88 to R90) and unsealed (R91). -/

namespace Sys2Proof.WaveProofs
open Sys2Proof Sys2Proof.Machine Sys2Proof.Safety Sys2Proof.Claims Sys2Proof.Laws Sys2Proof.PortProofs

/-! ### O26 -/

section
variable {s : State} {offset : Word} {data : List Byte}

theorem execLoadWaveformData_sealed (hr : s.inRun = true) (h1 : 1 ≤ data.length) (h2 : data.length ≤ 247)
    (ht : s.wave.table ≠ none) :
    exec (.loadWaveformData offset data) s =
      .next (commandEnd (.loadWaveformData offset data) .tableSealed [] s) :=
  (if_pos (dataLengthOk_iff.2 ⟨h1, h2⟩)).trans
    (congrArg Host.Outcome.next (plainCommand_refuse hr nofun (if_pos (Option.isSome_iff_ne_none.2 ht))))

theorem execLoadWaveformData_badValue (hr : s.inRun = true) (h1 : 1 ≤ data.length) (h2 : data.length ≤ 247)
    (ht : s.wave.table = none) (hl : 8192 < offset.toNat + data.length) :
    exec (.loadWaveformData offset data) s = .next (commandEnd (.loadWaveformData offset data) .badValue [] s) :=
  (if_pos (dataLengthOk_iff.2 ⟨h1, h2⟩)).trans
    (congrArg Host.Outcome.next
      (plainCommand_refuse hr nofun ((if_neg (by rw [disarmGuard_wave, ht]; nofun)).trans (if_pos hl))))

theorem execLoadWaveformData_accepted (hr : s.inRun = true) (h1 : 1 ≤ data.length) (h2 : data.length ≤ 247)
    (ht : s.wave.table = none) (hl : offset.toNat + data.length ≤ 8192) :
    exec (.loadWaveformData offset data) s =
      .next
        (commandEnd (.loadWaveformData offset data) .ok []
          { s with
            wave := { s.wave with ram := Memory.writeRun Config.porByte s.wave.ram offset.toNat data } }) :=
  (if_pos (dataLengthOk_iff.2 ⟨h1, h2⟩)).trans
    (congrArg Host.Outcome.next
      (plainCommand_accept hr nofun
        ((if_neg (by rw [disarmGuard_wave, ht]; nofun)).trans (if_neg (Nat.not_lt.2 hl)))))

end

/-- Settles O26: the refusals in order, then the run of writes. -/
theorem loadWaveformDataWritesTheRam : Obligations.LoadWaveformDataWritesTheRam :=
  fun _ _ data hr hm h1 h2 =>
    ⟨execLoadWaveformData_sealed hr h1 h2, execLoadWaveformData_badValue hr h1 h2, fun ht hl =>
      ⟨_, fun _ => read_writeRun data _ _ _ hm.ram, execLoadWaveformData_accepted hr h1 h2 ht hl⟩⟩

/-! ### O28 -/

/-- The five bytes of every Seal Waveform (R88). -/
theorem sealPayload_eq (ram : List Host.Cell) :
    sealPayload ram =
      [BitVec.ofNat 8 (sealReason ram)]
        ++ (if 19 ≤ lengthOf ram ∧ lengthOf ram ≤ 8192 then
            [(imageCrc ram).extractLsb' 8 8, (imageCrc ram).extractLsb' 0 8]
          else [0x00#8, 0x00#8])
        ++ [byteAt ram 1, byteAt ram 2] := by
  simp only [sealPayload, computedCrc_eq, lengthInRange_iff]
  split <;> rfl

theorem reviseBand_eq_rebanded (before : TempMonitor) (s : State) : reviseBand before s = rebanded before s := rfl

theorem sealTable_eq_sealedState (s : State) : sealTable s = sealedState s := rfl

section
variable {s : State}

theorem execSealWaveform_accepted (hr : s.inRun = true) (passed : sealReason s.wave.ram = 0) :
    exec .sealWaveform s = .next (commandEnd .sealWaveform .ok (sealPayload s.wave.ram) (sealedState s)) := by
  rw [← sealTable_eq_sealedState]
  exact congrArg Host.Outcome.next (plainCommand_accept hr nofun (if_pos passed))

theorem execSealWaveform_refused (hr : s.inRun = true) (failed : sealReason s.wave.ram ≠ 0) :
    exec .sealWaveform s = .next (commandEnd .sealWaveform .tableInvalid (sealPayload s.wave.ram) s) :=
  congrArg Host.Outcome.next (plainCommand_refuse hr nofun (if_neg failed))

theorem execUnsealWaveform_busy (hr : s.inRun = true) (busy : s.sched.lanes.anyActive = true) :
    exec .unsealWaveform s = .next (commandEnd .unsealWaveform .tableBusy [] s) :=
  congrArg Host.Outcome.next (plainCommand_refuse hr nofun (if_pos busy))

theorem execUnsealWaveform_accepted (hr : s.inRun = true) (idle : ¬ s.sched.lanes.anyActive = true) :
    exec .unsealWaveform s =
      .next
        (commandEnd .unsealWaveform .ok [] (rebanded s.temp { s with wave := { s.wave with table := none } })) := by
  rw [← reviseBand_eq_rebanded]
  exact congrArg Host.Outcome.next (plainCommand_accept hr nofun (if_neg idle))

end

/-- Settles O28, each command by its one test. -/
theorem sealAndUnsealWaveform : Obligations.SealAndUnsealWaveform := by
  intro s hr
  refine ⟨?_, ?_⟩
  · dsimp only
    rw [← sealPayload_eq]
    split
    · next passed => exact execSealWaveform_accepted hr passed
    · next failed => exact execSealWaveform_refused hr failed
  · split
    · next busy => exact execUnsealWaveform_busy hr busy
    · next idle => exact execUnsealWaveform_accepted hr idle

end Sys2Proof.WaveProofs
end

section
/-! O40: the frame that begins at a boundary, its kind, its rate and its drive codes (R92, R122 to R126). -/

namespace Sys2Proof.WaveProofs
open Sys2Proof Sys2Proof.Machine Sys2Proof.Safety Sys2Proof.Claims Sys2Proof.Laws
open Sys2Proof.ImageProofs (flatMap_range_map)

/-! ### The boundary's work leaves the sequencer but for FRAME_COUNT -/

theorem advanceLane_seq (t : Snapshot) (k : Fin 4) (s : State) : (advanceLane t k s).seq = s.seq := by
  unfold advanceLane
  dsimp only
  (repeat' split) <;> simp

theorem advanceLanes_seq (s : State) : (advanceLanes s).seq = s.seq := by
  unfold advanceLanes
  split
  · simp only [laneOrder, List.foldl_cons, List.foldl_nil, advanceLane_seq]
  · rfl

theorem foldl_activate_seq (l : List (Job × Fin 4)) (s : State) :
    (l.foldl (fun u jk => activate jk.1 jk.2 u) s).seq = s.seq := by
  induction l generalizing s with
  | nil => rfl
  | cons jk l ih => exact (ih _).trans (activate_seq _ _ _)

theorem admitJobs_seq (s : State) : (admitJobs s).seq = s.seq := by
  unfold admitJobs
  split
  · exact foldl_activate_seq _ _
  · rfl

theorem boundaryWork_seq (s : State) :
    (boundaryWork s).seq = { s.seq with frameCount := s.seq.frameCount + 1#16 } := by
  simp only [boundaryWork, markWork_seq, raisePowerRequest_seq, admitJobs_seq, settleScheduler_seq, advanceLanes_seq]
  rfl

/-! ### The frame that begins -/

section
variable {s : State}

theorem drivesNow_iff : drivesNow s = true ↔ s.supply.rail = .ready ∧ s.sched.lanes.anyActive = true := by
  rw [drivesNow, Bool.and_eq_true, decide_eq_true_eq]

theorem frameCodes_beginFrame (s : State) : frameCodes (beginFrame s) = frameCodes s := by
  simp [frameCodes, panelCode]

theorem beginFrame_seq_driving (h : drivesNow s = true) :
    (beginFrame s).seq =
      { s.seq with frame := .driving, rateInForce := s.params.frameRate, driveCodes := frameCodes (beginFrame s) } := by
  rw [frameCodes_beginFrame, beginFrame, if_pos h]

theorem beginFrame_seq_idle (h : ¬ drivesNow s = true) :
    (beginFrame s).seq = { s.seq.stopDrive with rateInForce := s.params.frameRate } := by
  rw [beginFrame, if_neg h]

theorem execFrameBoundary_eq {t : State} (hr : s.inRun = true) (h : exec .frameBoundary s = .next t) :
    t = beginFrame (endStep (boundaryWork s)) := by
  change execFrameBoundary s = .next t at h
  rw [execFrameBoundary, if_pos hr] at h
  split at h
  · cases h
  · cases h
    rfl

end

/-! ### The codes of a driving frame -/

section
variable {s : State} {t : Snapshot} {x y : Nat}

/-- The active area in raster order, numbered through (R125). -/
theorem fullArea_raster {im : Image} (hw : 1 ≤ im.width) (hh : 1 ≤ im.height) :
    (fullArea im).raster = (List.range (im.height * im.width)).map fun i => (i % im.width, i / im.width) := by
  have axis : ∀ {n}, 1 ≤ n → upTo 0 (n - 1) = List.range n := fun hn => by
    rw [upTo, List.range_eq_range', Nat.sub_add_cancel hn, Nat.sub_zero]
  simp only [Rect.raster, fullArea, axis hw, axis hh]
  exact flatMap_range_map (fun y x => (x, y)) _ _

theorem frameCodes_eq (ht : s.wave.table = some t) (hw : 1 ≤ s.image.width) (hh : 1 ≤ s.image.height) :
    frameCodes s =
      (List.range (s.image.height * s.image.width)).map fun i =>
        panelCode s t (i % s.image.width) (i / s.image.width) := by
  simp only [frameCodes, ht, fullArea_raster hw hh, List.map_map]
  rfl

theorem frameCodes_length (ht : s.wave.table = some t) (hw : 1 ≤ s.image.width) (hh : 1 ≤ s.image.height) :
    (frameCodes s).length = s.image.width * s.image.height := by
  rw [frameCodes_eq ht hw hh, List.length_map, List.length_range, Nat.mul_comm]

theorem frameCodes_pixel (ht : s.wave.table = some t) (hx : x < s.image.width) (hy : y < s.image.height) :
    (frameCodes s)[y * s.image.width + x]? = some (panelCode s t x y) := by
  have column : (y * s.image.width + x) % s.image.width = x := Nat.mul_add_mod_of_lt hx
  have row : (y * s.image.width + x) / s.image.width = y := by
    rw [Nat.mul_comm, Nat.mul_add_div (Nat.zero_lt_of_lt hx), Nat.div_eq_of_lt hx, Nat.add_zero]
  rw [frameCodes_eq ht (Nat.zero_lt_of_lt hx) (Nat.zero_lt_of_lt hy), List.getElem?_map,
    List.getElem?_range (numbered_lt hy hx), Option.map_some, column, row]

theorem jobAt_eq_none {l : Lanes} (h : ∀ k a, l.get k = some a → ¬ a.job.region.Holds x y) : jobAt l x y = none := by
  refine List.find?_eq_none.2 fun a ha inside => ?_
  obtain ⟨k, hk⟩ := mem_active.1 ha
  exact h k a hk (of_decide_eq_true inside)

theorem laneOrder_getElem : ∀ k : Fin 4, laneOrder[k.val]? = some k := by decide

theorem jobAt_eq_some {l : Lanes} {k : Fin 4} {a : ActiveJob} (hk : l.get k = some a) (inside : a.job.region.Holds x y)
    (first : ∀ j b, j < k → l.get j = some b → ¬ b.job.region.Holds x y) : jobAt l x y = some a := by
  have lane : laneOrder.find? (fun j => (l.get j).any fun a => decide (a.job.region.Holds x y)) = some k := by
    obtain ⟨inOrder, place⟩ := List.getElem?_eq_some_iff.1 (laneOrder_getElem k)
    refine List.find?_eq_some_iff_getElem.2
      ⟨by rw [hk]; exact decide_eq_true inside, k, inOrder, place, fun j hj => ?_⟩
    have place_j := (List.getElem?_eq_some_iff.1 (laneOrder_getElem ⟨j, hj.trans k.isLt⟩)).2
    rw [place_j, Bool.not_eq_true', Option.any_eq_false]
    exact fun b hb => decide_eq_false (first _ b hj hb)
  rw [jobAt, Lanes.active, List.find?_filterMap, lane]
  exact hk

theorem panelCode_neutral (outside : ∀ k a, s.sched.lanes.get k = some a → ¬ a.job.region.Holds x y) :
    panelCode s t x y = 0#2 := by
  rw [panelCode, jobAt_eq_none outside]

theorem panelCode_driven {k : Fin 4} {a : ActiveJob} (hk : s.sched.lanes.get k = some a)
    (inside : a.job.region.Holds x y)
    (first : ∀ j b, j < k → s.sched.lanes.get j = some b → ¬ b.job.region.Holds x y) :
    panelCode s t x y =
      driveCode s.wave.ram t a.effMode a.band a.phase (Plane.get s.image.latch x y) (Plane.get s.image.shown x y) := by
  rw [panelCode, jobAt_eq_some hk inside first]

/-- The drive lookup in the terms of the sealed table (R92). -/
theorem driveCode_eq (ram : List Host.Cell) (t : Snapshot) (mode band p : Nat) (latch shown : Level) :
    driveCode ram t mode band p latch shown =
      (byteAt ram (recordStart ram t mode band p + 1
        + if (t.attrs.getD mode 0#8).getLsbD 1 then 0 else shown.toNat)).extractLsb' (6 - 2 * latch.toNat) 2 := by
  rw [driveCode, sequenceOf, indexEntry_eq]
  rfl

end

/-- Settles O40: the sequencer as the boundary's work leaves it, then what the beginning of a frame makes of it. -/
theorem frameKindAndDriveCodes : Obligations.FrameKindAndDriveCodes := by
  intro s t hr h
  obtain rfl := execFrameBoundary_eq hr h
  have worked : (endStep (boundaryWork s)).seq = { s.seq with frameCount := s.seq.frameCount + 1#16 } :=
    boundaryWork_seq s
  generalize endStep (boundaryWork s) = u at worked ⊢
  have kind : (beginFrame u).supply.rail = .ready ∧ (beginFrame u).sched.lanes.anyActive = true ↔
      drivesNow u = true := by
    rw [beginFrame_supply, beginFrame_sched, drivesNow_iff]
  by_cases drives : drivesNow u = true
  · have seq := beginFrame_seq_driving drives
    rw [worked] at seq
    simp only [seq, beginFrame_params, beginFrame_arbiter, kind, drives]
    refine ⟨trivial, trivial, rfl, trivial, nofun, fun tb _ ht hw hh =>
      ⟨trivial, frameCodes_length ht hw hh, fun x y hx hy outside => ?_, fun x y k a hx hy hk inside first => ?_⟩⟩
    · rw [frameCodes_pixel ht hx hy, panelCode_neutral outside]
    · rw [frameCodes_pixel ht hx hy, panelCode_driven hk inside first, driveCode_eq]
  · have seq := beginFrame_seq_idle drives
    rw [worked] at seq
    simp only [seq, beginFrame_params, beginFrame_arbiter, kind, drives]
    exact ⟨rfl, trivial, rfl, by simp [Sequencer.stopDrive], fun _ => ⟨rfl, rfl⟩, nofun⟩

end Sys2Proof.WaveProofs
end

section
/-! The tickets of all jobs (R95, R112): the lanes' share of them, the ticket of a new job (O32), and which job holds one. -/

namespace Sys2Proof.SchedProofs
open Sys2Proof Sys2Proof.Machine Sys2Proof.Safety Sys2Proof.Claims Sys2Proof.Laws

/-! ### The ACTIVE jobs, one lane apart -/

/-- Around each lane the ACTIVE jobs of the other lanes stay as they are, whatever the lane holds. -/
theorem active_around (l : Lanes) (k : Fin 4) :
    ∃ before after : List ActiveJob, ∀ v, (l.set k v).active = before ++ (v.toList ++ after) := by
  have lanes : ∀ m : Lanes, m.active = m.l0.toList ++ (m.l1.toList ++ (m.l2.toList ++ m.l3.toList)) := by
    rintro ⟨_ | a, _ | b, _ | c, _ | d⟩ <;> rfl
  match k with
  | 0 => exact ⟨[], l.l1.toList ++ (l.l2.toList ++ l.l3.toList), fun v => lanes _⟩
  | 1 => exact ⟨l.l0.toList, l.l2.toList ++ l.l3.toList, fun v => lanes _⟩
  | 2 =>
    refine ⟨l.l0.toList ++ l.l1.toList, l.l3.toList, fun v => ?_⟩
    rw [lanes, List.append_assoc]
    rfl
  | 3 =>
    refine ⟨l.l0.toList ++ (l.l1.toList ++ l.l2.toList), [], fun v => ?_⟩
    rw [lanes, List.append_nil, List.append_assoc, List.append_assoc]
    rfl

@[simp] theorem lanes_set_get (l : Lanes) (k : Fin 4) : l.set k (l.get k) = l := by
  match k with
  | 0 | 1 | 2 | 3 => rfl

/-- The tickets of the ACTIVE jobs, in lane order. -/
def activeTickets (l : Lanes) : List Byte := l.active.map fun a => a.job.ticket

theorem allTickets_eq (c : Sched) : allTickets c = c.queue.map (fun j => j.ticket) ++ activeTickets c.lanes := rfl

theorem activeTickets_around (l : Lanes) (k : Fin 4) :
    ∃ before after : List Byte, ∀ v : Option ActiveJob,
      activeTickets (l.set k v) = before ++ (v.toList.map (fun a => a.job.ticket) ++ after) := by
  obtain ⟨before, after, around⟩ := active_around l k
  exact ⟨before.map fun a => a.job.ticket, after.map fun a => a.job.ticket, fun v => by
    simp only [activeTickets, around, List.map_append]⟩

/-- A lane set free takes its ticket away and no other. -/
theorem activeTickets_clear (l : Lanes) (k : Fin 4) : (activeTickets (l.set k none)).Sublist (activeTickets l) := by
  obtain ⟨before, after, around⟩ := activeTickets_around l k
  have whole := around (l.get k)
  rw [lanes_set_get] at whole
  rw [whole, around]
  exact List.Sublist.append_left (List.sublist_append_right _ _) _

/-- A free lane filled adds its ticket. -/
theorem activeTickets_fill {l : Lanes} {k : Fin 4} (free : l.get k = none) (a : ActiveJob) :
    (activeTickets (l.set k (some a))).Perm (a.job.ticket :: activeTickets l) := by
  obtain ⟨before, after, around⟩ := activeTickets_around l k
  have whole := around (l.get k)
  rw [lanes_set_get, free] at whole
  rw [whole, around]
  exact List.perm_middle

/-- A lane keeps its ticket with its job. -/
theorem activeTickets_replace {l : Lanes} {k : Fin 4} {a b : ActiveJob} (held : l.get k = some a) (job : b.job = a.job) :
    activeTickets (l.set k (some b)) = activeTickets l := by
  obtain ⟨before, after, around⟩ := activeTickets_around l k
  have whole := around (l.get k)
  rw [lanes_set_get, held] at whole
  rw [whole, around]
  simp [job]

theorem activeTickets_length_le (l : Lanes) : (activeTickets l).length ≤ 4 := by
  rw [activeTickets, List.length_map, Lanes.active]
  exact List.length_filterMap_le _ _

/-! ### Held tickets -/

theorem held_iff {c : Sched} {t : Byte} : c.held t = true ↔ t ∈ allTickets c := by
  simp [Sched.held, allTickets]

theorem not_held_iff {c : Sched} {t : Byte} : c.held t = false ↔ t ∉ allTickets c := by
  rw [← held_iff, Bool.not_eq_true]

theorem allTickets_length_le {c : Sched} (depth : c.queue.length ≤ 8) : (allTickets c).length ≤ 12 := by
  have lanes := activeTickets_length_le c.lanes
  rw [allTickets_eq, List.length_append, List.length_map]
  omega

/-! ### O32: the candidates -/

theorem ticketAfter_ne_zero (t : Byte) : ticketAfter t ≠ 0#8 := by
  revert t
  decide

theorem ticketAfter_toNat {t : Byte} (h : t ≠ 0#8) : (ticketAfter t).toNat = t.toNat % 255 + 1 := by
  revert t
  decide

/-- The candidates run through 1..255 in a circle (R95). -/
theorem candidate_toNat {t : Byte} (h : t ≠ 0#8) (m : Nat) : (ticketAfter^[m] t).toNat = (t.toNat - 1 + m) % 255 + 1 := by
  have pos : 0 < t.toNat := Nat.pos_of_ne_zero fun zero => h (BitVec.eq_of_toNat_eq zero)
  have bound := t.isLt
  induction m with
  | zero => rw [Function.iterate_zero_apply]; omega
  | succ m ih =>
    have nonzero : ticketAfter^[m] t ≠ 0#8 := fun zero => by simp [zero] at ih
    rw [Function.iterate_succ_apply', ticketAfter_toNat nonzero, ih]
    omega

theorem candidate_ne_zero {t : Byte} (h : t ≠ 0#8) (m : Nat) : ticketAfter^[m] t ≠ 0#8 := fun zero => by
  have := candidate_toNat h m
  simp [zero] at this

/-- Thirteen candidates are thirteen tickets, more than the jobs there can be (R95, R96). -/
theorem candidate_free {c : Sched} (next : c.nextTicket ≠ 0#8) (depth : c.queue.length ≤ 8) :
    ∃ m, m < 13 ∧ c.held (ticketAfter^[m] c.nextTicket) = false := by
  by_contra all
  have held : ∀ m, m < 13 → ticketAfter^[m] c.nextTicket ∈ allTickets c := fun m hm =>
    held_iff.1 (by simpa using fun free => all ⟨m, hm, free⟩)
  have distinct : ((List.range 13).map fun m => ticketAfter^[m] c.nextTicket).Nodup := by
    refine List.Nodup.map_on (fun i hi j hj same => ?_) List.nodup_range
    have same := congrArg BitVec.toNat same
    rw [candidate_toNat next, candidate_toNat next] at same
    rw [List.mem_range] at hi hj
    omega
  have inside : ((List.range 13).map fun m => ticketAfter^[m] c.nextTicket) ⊆ allTickets c := by
    intro t ht
    obtain ⟨m, hm, rfl⟩ := List.mem_map.1 ht
    exact held m (List.mem_range.1 hm)
  have few := (distinct.subperm inside).length_le
  have most := allTickets_length_le depth
  rw [List.length_map, List.length_range] at few
  omega

/-- The search stops at the first free candidate, where there is one within its reach. -/
theorem freeTicket_first (c : Sched) : ∀ (n : Nat) (t : Byte), (∃ m, m < n ∧ c.held (ticketAfter^[m] t) = false) →
    ∃ m, m < n ∧ freeTicket c n t = ticketAfter^[m] t ∧ c.held (ticketAfter^[m] t) = false ∧
      ∀ i, i < m → c.held (ticketAfter^[i] t) = true := by
  intro n
  induction n with
  | zero => rintro t ⟨m, hm, -⟩; cases hm
  | succ n ih =>
    rintro t ⟨m, hm, free⟩
    rw [freeTicket]
    split
    · next taken =>
      have later : m ≠ 0 := by
        rintro rfl
        rw [Function.iterate_zero_apply, taken] at free
        cases free
      obtain ⟨i, rfl⟩ := Nat.exists_eq_succ_of_ne_zero later
      obtain ⟨first, hf, eq, free, earlier⟩ := ih (ticketAfter t) ⟨i, by omega, free⟩
      refine ⟨first + 1, by omega, eq, free, fun l hl => ?_⟩
      cases l with
      | zero => exact taken
      | succ l => exact earlier l (by omega)
    · next spare => exact ⟨0, by omega, rfl, by simpa using spare, nofun⟩

/-- Settles O32. -/
theorem newTicketIsTheFirstFreeCandidate : Obligations.NewTicketIsTheFirstFreeCandidate := by
  intro c next depth
  obtain ⟨n, hn, eq, free, earlier⟩ := freeTicket_first c 13 c.nextTicket (candidate_free next depth)
  have eq : nextFreeTicket c = ticketAfter^[n] c.nextTicket := eq
  exact ⟨n, hn, eq, by rw [eq]; exact free, earlier, by rw [eq]; exact candidate_ne_zero next n⟩

end Sys2Proof.SchedProofs
end

section
/-! O58: the four conditions of R96, and at most eight queued jobs with every ticket held once, never 0 (R95), kept by every
step. -/

namespace Sys2Proof.SchedProofs
open Sys2Proof Sys2Proof.Machine Sys2Proof.Safety Sys2Proof.Claims Sys2Proof.Laws Sys2Proof.PortProofs
open Sys2Proof.WaveProofs (progressed_job lanes_get_of_cleared)

/-! ### The two conditions, each on the part of the state that it speaks of -/

/-- `LanesLegal` as a condition on the lanes, the scheduler state, the presence of a table and the rail state. -/
structure LanesOk (lanes : Lanes) (state : SchedState) (sealed : Bool) (rail : RailState) : Prop where
  disjoint : ∀ j k a b, j ≠ k → lanes.get j = some a → lanes.get k = some b →
    ∀ x y, ¬ (a.job.region.Holds x y ∧ b.job.region.Holds x y)
  states : ∀ k a, lanes.get k = some a → state = .running ∨ state = .quiescing ∨ state = .parking
  driven : ∀ k a, lanes.get k = some a → sealed = true ∧ rail = .ready
  fault : rail = .fault → state = .holding

/-- `TicketsLegal` as a condition on the queue, the lanes and NEXT_TICKET. -/
structure TicketsOk (queue : List Job) (lanes : Lanes) (next : Byte) : Prop where
  depth : queue.length ≤ 8
  next : next ≠ 0#8
  distinct : (queue.map (fun j => j.ticket) ++ activeTickets lanes).Nodup
  nonzero : 0#8 ∉ queue.map (fun j => j.ticket) ++ activeTickets lanes

/-- `LanesOk` of a state. -/
def LanesOf (s : State) : Prop := LanesOk s.sched.lanes s.sched.state s.wave.table.isSome s.supply.rail

/-- `TicketsOk` of a state. -/
def TicketsOf (s : State) : Prop := TicketsOk s.sched.queue s.sched.lanes s.sched.nextTicket

theorem lanesLegal_iff {s : State} : LanesLegal s ↔ LanesOf s := by
  constructor
  · rintro ⟨disjoint, states, driven, fault⟩
    exact ⟨disjoint, fun k a hk => states (anyActive_iff.2 ⟨k, a, hk⟩), fun k a hk => driven (anyActive_iff.2 ⟨k, a, hk⟩),
      fault⟩
  · rintro ⟨disjoint, states, driven, fault⟩
    refine ⟨disjoint, fun some => ?_, fun some => ?_, fault⟩ <;> obtain ⟨k, a, hk⟩ := anyActive_iff.1 some
    · exact states k a hk
    · exact driven k a hk

theorem ticketsLegal_iff {s : State} : TicketsLegal s ↔ TicketsOf s :=
  ⟨fun ⟨depth, next, distinct, nonzero⟩ => ⟨depth, next, distinct, nonzero⟩,
    fun ⟨depth, next, distinct, nonzero⟩ => ⟨depth, next, distinct, nonzero⟩⟩

/-- Keeping both, each without the other's help. -/
structure KeepsSched (s t : State) : Prop where
  lanes : LanesOf s → LanesOf t
  tickets : TicketsOf s → TicketsOf t

theorem KeepsSched.refl (s : State) : KeepsSched s s := ⟨id, id⟩

theorem KeepsSched.trans {s t u : State} (h : KeepsSched s t) (g : KeepsSched t u) : KeepsSched s u :=
  ⟨g.lanes ∘ h.lanes, g.tickets ∘ h.tickets⟩

/-! ### The lanes -/

section
variable {lanes : Lanes} {state : SchedState} {sealed : Bool} {rail : RailState}

/-- No lane holds a job unless the rails are READY (R96). -/
theorem LanesOk.idle_of_rail (h : LanesOk lanes state sealed rail) (down : rail ≠ .ready) (k : Fin 4) :
    lanes.get k = none :=
  Option.eq_none_iff_forall_ne_some.2 fun a hk => down (h.driven k a hk).2

/-- With no lane in use nothing is asked but HOLDING while the rails are in FAULT. -/
theorem lanesOk_idle (idle : ∀ k, lanes.get k = none) (fault : rail = .fault → state = .holding) :
    LanesOk lanes state sealed rail where
  disjoint j k a b _ hj := by rw [idle j] at hj; cases hj
  states k a hk := by rw [idle k] at hk; cases hk
  driven k a hk := by rw [idle k] at hk; cases hk
  fault := fault

/-- A new scheduler state that allows what the lanes hold, while the rails are not in FAULT. -/
theorem LanesOk.move (h : LanesOk lanes state sealed rail) {new : SchedState}
    (states : ∀ k a, lanes.get k = some a → new = .running ∨ new = .quiescing ∨ new = .parking)
    (sound : state ≠ .holding) : LanesOk lanes new sealed rail :=
  { h with states := states, fault := fun down => absurd (h.fault down) sound }

/-- Every job of the new lanes has the region of the job that the same lane held before. -/
theorem LanesOk.of_regions (h : LanesOk lanes state sealed rail) {new : Lanes}
    (regions : ∀ k a, new.get k = some a → ∃ b, lanes.get k = some b ∧ b.job.region = a.job.region) :
    LanesOk new state sealed rail where
  disjoint j k a b hne hj hk := by
    obtain ⟨a', ha, ea⟩ := regions j a hj
    obtain ⟨b', hb, eb⟩ := regions k b hk
    rw [← ea, ← eb]
    exact h.disjoint j k a' b' hne ha hb
  states k a hk := by
    obtain ⟨b, hb, -⟩ := regions k a hk
    exact h.states k b hb
  driven k a hk := by
    obtain ⟨b, hb, -⟩ := regions k a hk
    exact h.driven k b hb
  fault := h.fault

theorem LanesOk.clear (h : LanesOk lanes state sealed rail) (k : Fin 4) : LanesOk (lanes.set k none) state sealed rail :=
  h.of_regions fun _ a hj => ⟨a, lanes_get_of_cleared hj, rfl⟩

/-- A lane filled with a job apart from those of the other lanes (R105, R107). -/
theorem LanesOk.fill (h : LanesOk lanes .running true .ready) {k : Fin 4} {a : ActiveJob}
    (apart : ∀ j b, lanes.get j = some b → ∀ x y, ¬ (b.job.region.Holds x y ∧ a.job.region.Holds x y)) :
    LanesOk (lanes.set k (some a)) .running true .ready where
  disjoint i j b c hne hi hj := by
    rw [lanes_get_set] at hi hj
    split at hi <;> split at hj
    · next ei ej => exact absurd (ei.trans ej.symm) hne
    · cases hi
      exact fun x y both => apart j c hj x y both.symm
    · cases hj
      exact apart i b hi
    · exact h.disjoint i j b c hne hi hj
  states _ _ _ := .inl rfl
  driven _ _ _ := ⟨rfl, rfl⟩
  fault := nofun

end

/-! ### The tickets -/

/-- From `s` to `t` no ticket is new, no ticket is doubled, and the queue does not grow. -/
structure NoNewTickets (s t : State) : Prop where
  depth : t.sched.queue.length ≤ s.sched.queue.length
  next : t.sched.nextTicket = s.sched.nextTicket
  tickets : (t.sched.queue.map (fun j => j.ticket) ++ activeTickets t.sched.lanes).Subperm
    (s.sched.queue.map (fun j => j.ticket) ++ activeTickets s.sched.lanes)

theorem NoNewTickets.keeps {s t : State} (h : NoNewTickets s t) (legal : TicketsOf s) : TicketsOf t := by
  obtain ⟨fewer, same, tickets⟩ := h
  obtain ⟨depth, next, distinct, nonzero⟩ := legal
  refine ⟨fewer.trans depth, by rw [same]; exact next, ?_, fun zero => nonzero (tickets.subset zero)⟩
  obtain ⟨_, perm, sub⟩ := tickets
  exact perm.nodup_iff.1 (distinct.sublist sub)

/-- Jobs that leave the queue take their tickets with them. -/
theorem noNewTickets_of_queue {s t : State} (queue : t.sched.queue.Sublist s.sched.queue)
    (next : t.sched.nextTicket = s.sched.nextTicket) (lanes : t.sched.lanes = s.sched.lanes) : NoNewTickets s t :=
  ⟨queue.length_le, next, by rw [lanes]; exact ((queue.map _).append_right _).subperm⟩

/-- Jobs that leave the lanes take their tickets with them. -/
theorem noNewTickets_of_lanes {s t : State} (queue : t.sched.queue = s.sched.queue)
    (next : t.sched.nextTicket = s.sched.nextTicket)
    (lanes : (activeTickets t.sched.lanes).Sublist (activeTickets s.sched.lanes)) : NoNewTickets s t :=
  ⟨by rw [queue], next, by rw [queue]; exact (lanes.append_left _).subperm⟩

/-! ### The queue's updates -/

theorem keepsSched_submit {s : State} {new : Job} (ticket : new.ticket = nextFreeTicket s.sched)
    (room : (keptJobs new s.sched.queue).length < Config.queueSize) : KeepsSched s (submit new s) := by
  refine ⟨id, fun h => ?_⟩
  obtain ⟨depth, next, distinct, nonzero⟩ := h
  obtain ⟨-, -, -, free, -, positive⟩ := newTicketIsTheFirstFreeCandidate s.sched next depth
  rw [← ticket] at free positive
  have kept : (keptJobs new s.sched.queue).Sublist s.sched.queue := by
    unfold keptJobs
    split
    · exact List.filter_sublist
    · exact List.Sublist.refl _
  have tickets : ((submit new s).sched.queue.map (fun j => j.ticket) ++ activeTickets s.sched.lanes).Subperm
      (new.ticket :: allTickets s.sched) := by
    have perm : ((submit new s).sched.queue.map (fun j => j.ticket) ++ activeTickets s.sched.lanes).Perm
        (new.ticket :: ((keptJobs new s.sched.queue).map (fun j => j.ticket) ++ activeTickets s.sched.lanes)) := by
      simp only [submit, List.map_append, List.map_singleton, List.append_assoc]
      exact List.perm_middle
    exact perm.subperm.trans (((kept.map _).append_right _).cons_cons _).subperm
  have apart : (new.ticket :: allTickets s.sched).Nodup := List.nodup_cons.2 ⟨not_held_iff.1 free, distinct⟩
  obtain ⟨_, perm, sub⟩ := tickets
  refine ⟨?_, ticketAfter_ne_zero _, perm.nodup_iff.1 (apart.sublist sub), fun zero => ?_⟩
  · simp only [submit, List.length_append, List.length_singleton]
    exact room
  · rcases List.mem_cons.1 (sub.subset (perm.mem_iff.2 zero)) with h | h
    · exact positive h.symm
    · exact nonzero h

/-- The lanes stay as they are while the queue loses jobs. -/
theorem keepsSched_of_queue {s t : State} (queue : t.sched.queue.Sublist s.sched.queue)
    (next : t.sched.nextTicket = s.sched.nextTicket) (lanes : t.sched.lanes = s.sched.lanes)
    (legal : LanesOf s → LanesOf t) : KeepsSched s t :=
  ⟨legal, (noNewTickets_of_queue queue next lanes).keeps⟩

theorem keepsSched_sealTable (s : State) : KeepsSched s (sealTable s) := by
  refine keepsSched_of_queue List.filter_sublist rfl rfl fun h => ?_
  exact { h with driven := fun k a hk => ⟨rfl, (h.driven k a hk).2⟩ }

theorem keepsSched_cancelAll (r : Word) (s : State) : KeepsSched s (cancelAll r s) :=
  keepsSched_of_queue (List.nil_sublist _) rfl rfl id

theorem keepsSched_cancelOne (j : Job) (s : State) : KeepsSched s (cancelOne j s) :=
  keepsSched_of_queue List.erase_sublist rfl rfl id

/-! ### The lanes' updates -/

theorem setLane_lanes (k : Fin 4) (b : ActiveJob) (s : State) :
    (setLane k b s).sched.lanes = s.sched.lanes.set k (some b) := rfl

theorem keepsSched_setLane {s : State} {k : Fin 4} {a b : ActiveJob} (ha : s.sched.lanes.get k = some a)
    (job : b.job = a.job) : KeepsSched s (setLane k b s) := by
  refine ⟨fun h => h.of_regions fun j c hc => ?_, NoNewTickets.keeps ⟨Nat.le_refl _, rfl, ?_⟩⟩
  · rw [setLane_lanes, lanes_get_set] at hc
    split at hc
    · next same =>
      cases hc
      exact ⟨a, by rw [same]; exact ha, by rw [job]⟩
    · exact ⟨c, hc, rfl⟩
  · rw [setLane_lanes, activeTickets_replace ha job]
    exact List.Subperm.refl _

theorem keepsSched_pendLane (k : Fin 4) (s : State) : KeepsSched s (pendLane k s) := by
  cases ha : s.sched.lanes.get k with
  | none =>
    have same : s.sched.lanes.set k none = s.sched.lanes := by rw [← ha, lanes_set_get]
    unfold pendLane
    rw [ha, Option.map_none, same]
    exact .refl s
  | some a =>
    have eq : pendLane k s = setLane k a.pend s := by unfold pendLane; rw [ha]; rfl
    rw [eq]
    exact keepsSched_setLane ha rfl

theorem pendAll_eq (s : State) : pendAll s = pendLane 3 (pendLane 2 (pendLane 1 (pendLane 0 s))) := rfl

theorem keepsSched_pendAll (s : State) : KeepsSched s (pendAll s) := by
  rw [pendAll_eq]
  exact (((keepsSched_pendLane 0 s).trans (keepsSched_pendLane 1 _)).trans (keepsSched_pendLane 2 _)).trans
    (keepsSched_pendLane 3 _)

/-- A lane set free, nothing else of the scheduler but the map changed. -/
theorem keepsSched_clear {s t : State} (k : Fin 4) (lanes : t.sched.lanes = s.sched.lanes.set k none)
    (queue : t.sched.queue = s.sched.queue) (next : t.sched.nextTicket = s.sched.nextTicket)
    (state : t.sched.state = s.sched.state) (wave : t.wave = s.wave) (supply : t.supply = s.supply) : KeepsSched s t := by
  refine ⟨fun h => ?_, (noNewTickets_of_lanes queue next (by rw [lanes]; exact activeTickets_clear _ k)).keeps⟩
  unfold LanesOf
  rw [lanes, state, wave, supply]
  exact h.clear k

/-- What the abort procedure does to the scheduler, whatever the lane holds (R110). -/
theorem abortLane_sched (c : AbortCause) (k : Fin 4) (s : State) : ∃ marks,
    (abortLane c k s).sched = { s.sched with lanes := s.sched.lanes.set k none, marks := marks } := by
  unfold abortLane
  split
  · next free =>
    refine ⟨s.sched.marks, ?_⟩
    rw [← free, lanes_set_get]
  · exact ⟨_, rfl⟩

theorem keepsSched_abortLane (c : AbortCause) (k : Fin 4) (s : State) : KeepsSched s (abortLane c k s) := by
  obtain ⟨marks, eq⟩ := abortLane_sched c k s
  exact keepsSched_clear k (by rw [eq]) (by rw [eq]) (by rw [eq]) (by rw [eq]) (abortLane_wave c k s)
    (abortLane_supply c k s)

theorem abortAll_lanes (c : AbortCause) (s : State) (k : Fin 4) : (abortAll c s).sched.lanes.get k = none := by
  simp only [abortAll, laneOrder, List.foldl_cons, List.foldl_nil]
  obtain ⟨_, e0⟩ := abortLane_sched c 0 s
  obtain ⟨_, e1⟩ := abortLane_sched c 1 (abortLane c 0 s)
  obtain ⟨_, e2⟩ := abortLane_sched c 2 (abortLane c 1 (abortLane c 0 s))
  obtain ⟨_, e3⟩ := abortLane_sched c 3 (abortLane c 2 (abortLane c 1 (abortLane c 0 s)))
  rw [e3, e2, e1, e0]
  match k with
  | 0 | 1 | 2 | 3 => rfl

theorem keepsSched_abortAll (c : AbortCause) (s : State) : KeepsSched s (abortAll c s) := by
  simp only [abortAll, laneOrder, List.foldl_cons, List.foldl_nil]
  exact (((keepsSched_abortLane c 0 s).trans (keepsSched_abortLane c 1 _)).trans (keepsSched_abortLane c 2 _)).trans
    (keepsSched_abortLane c 3 _)

theorem keepsSched_completeJob (t : Snapshot) (k : Fin 4) (a : ActiveJob) (s : State) :
    KeepsSched s (completeJob t k a s) := keepsSched_clear k rfl rfl rfl rfl rfl rfl

theorem keepsSched_advanceLane (t : Snapshot) (k : Fin 4) (s : State) : KeepsSched s (advanceLane t k s) := by
  unfold advanceLane
  split
  · exact .refl s
  · next a ha =>
    split
    · exact keepsSched_completeJob t k a.count s
    · have progress := keepsSched_setLane ha (progressed_job s.wave.ram t a)
      dsimp only
      split
      · exact progress.trans (keepsSched_abortLane _ _ _)
      · exact progress

/-- Activation takes a job, with its ticket, from the queue into a free lane, its region apart from every other (R105). -/
theorem keepsSched_activate {s : State} {j : Job} {k : Fin 4} (h : Admissible s j k) : KeepsSched s (activate j k s) := by
  obtain ⟨running, ⟨t, ht⟩, -, ⟨b, hb⟩⟩ := mayAdmit_parts h.opened.1
  rw [activate_of_open ht hb]
  constructor
  · unfold LanesOf
    rw [activateWith_wave, activateWith_supply, ht, h.opened.2]
    change LanesOk _ s.sched.state _ _ → LanesOk (s.sched.lanes.set k (some _)) s.sched.state _ _
    rw [running]
    refine fun legal => legal.fill fun i c hc x y both => ?_
    exact absurd (overlaps_iff.2 ⟨x, y, both⟩) (Bool.eq_false_iff.1 (h.apart c (mem_active.2 ⟨i, hc⟩)))
  · refine NoNewTickets.keeps ⟨List.length_erase_le, rfl, List.Perm.subperm ?_⟩
    have queue : (j.ticket :: (s.sched.queue.erase j).map fun i => i.ticket).Perm (s.sched.queue.map fun i => i.ticket) :=
      (List.perm_cons_erase h.queued).symm.map _
    have lanes := activeTickets_fill h.lane (activeJob s.wave.ram t s.image s.sched b j)
    exact ((lanes.append_left _).trans List.perm_middle).trans (queue.append_right _)

/-! ### Scheduler states, rails, the watchdog and resets -/

/-- The scheduler's state or the rails change, its jobs do not. -/
theorem keepsSched_of_jobs {s t : State} (queue : t.sched.queue = s.sched.queue)
    (next : t.sched.nextTicket = s.sched.nextTicket) (lanes : t.sched.lanes = s.sched.lanes)
    (legal : LanesOf s → LanesOf t) : KeepsSched s t :=
  keepsSched_of_queue (queue ▸ List.Sublist.refl _) next lanes legal

/-- The rails move from a state other than READY to one other than FAULT: no lane is in use (R96). -/
theorem keepsSched_rail {s t : State} (sched : t.sched = s.sched) (down : s.supply.rail ≠ .ready)
    (sound : t.supply.rail ≠ .fault) : KeepsSched s t := by
  refine keepsSched_of_jobs (by rw [sched]) (by rw [sched]) (by rw [sched]) fun h => ?_
  exact lanesOk_idle (by rw [sched]; exact h.idle_of_rail down) fun fault => absurd fault sound

/-- The rails leave READY with no lane in use. -/
theorem keepsSched_idle_rail {s t : State} (sched : t.sched = s.sched) (idle : s.sched.lanes.anyActive = false)
    (sound : t.supply.rail ≠ .fault) : KeepsSched s t := by
  refine keepsSched_of_jobs (by rw [sched]) (by rw [sched]) (by rw [sched]) fun _ => ?_
  exact lanesOk_idle (by rw [sched]; exact anyActive_false.1 idle) fun fault => absurd fault sound

/-- The scheduler takes a state that lanes in use allow. -/
theorem keepsSched_setSched {s : State} {x : SchedState}
    (states : s.sched.lanes.anyActive = true → x = .running ∨ x = .quiescing ∨ x = .parking)
    (sound : s.sched.state ≠ .holding) : KeepsSched s (setSched x s) :=
  keepsSched_of_jobs rfl rfl rfl fun h => h.move (fun k a hk => states (anyActive_iff.2 ⟨k, a, hk⟩)) sound

/-- With no lane in use the scheduler holds (R103). -/
theorem keepsSched_hold {s : State} (idle : s.sched.lanes.anyActive = false) : KeepsSched s (setSched .holding s) :=
  keepsSched_of_jobs rfl rfl rfl fun _ => lanesOk_idle (anyActive_false.1 idle) fun _ => rfl

theorem keepsSched_clearHold {s : State} (holding : s.sched.state = .holding) : KeepsSched s (clearHold s) := by
  refine keepsSched_of_jobs rfl rfl rfl fun h => lanesOk_idle (fun k => ?_) fun fault => ?_
  · refine Option.eq_none_iff_forall_ne_some.2 fun a hk => ?_
    have states := h.states k a hk
    rw [holding] at states
    simp at states
  · simp only [clearHold] at fault
    split at fault
    · cases fault
    · next sound => exact absurd fault sound

theorem keepsSched_enterFault (kind : FaultKind) (s : State) : KeepsSched s (enterFault kind s) := by
  refine ⟨fun _ => lanesOk_idle (abortAll_lanes _ _) fun _ => rfl, fun h => ?_⟩
  exact (keepsSched_abortAll .fault _).tickets h

/-- The PARK action leaves the scheduler PARKING while a lane is in use, else HOLDING (R103, R165). -/
theorem keepsSched_parkAction (s : State) : KeepsSched s (parkAction s) := by
  refine keepsSched_of_queue (List.nil_sublist _) rfl rfl fun h => ?_
  change LanesOk s.sched.lanes (parkedState s.sched) s.wave.table.isSome s.supply.rail
  have held : s.sched.state = .holding → parkedState s.sched = .holding := fun e => by unfold parkedState; rw [e]
  refine { h with states := fun k a hk => ?_, fault := fun down => held (h.fault down) }
  have busy := anyActive_iff.2 ⟨k, a, hk⟩
  rcases h.states k a hk with e | e | e <;> simp [parkedState, e, busy]

theorem keepsSched_expireWatchdog (s : State) : KeepsSched s (expireWatchdog s) := by
  unfold expireWatchdog
  split
  · exact ⟨id, id⟩
  · exact .trans (t := { s with events := (s.events.record .watchdog 0#8 (wordOf s.time.action.code)).raise .watchdog })
      ⟨id, id⟩ (keepsSched_parkAction _)
  · exact ⟨id, id⟩

/-- The scheduler as every reset leaves it (R120), with the supply's initial state (R139). -/
theorem keepsSched_of_reset {s t : State} {marks : List Bool}
    (sched : t.sched = { State.reset.sched with marks := marks }) (supply : t.supply = State.reset.supply) :
    KeepsSched s t := by
  obtain ⟨-, -, -, -, -, tickets, -⟩ := resetStateIsLegal
  refine ⟨fun _ => ?_, fun _ => ?_⟩
  · unfold LanesOf
    rw [sched, supply]
    exact lanesOk_idle (fun k => by match k with | 0 | 1 | 2 | 3 => rfl) nofun
  · unfold TicketsOf
    rw [sched]
    exact ticketsLegal_iff.1 tickets

theorem keepsSched_beginReset (kind : ResetKind) (extra : List Rect) (judged s : State) :
    KeepsSched s (beginReset kind extra judged s) := by
  have full : ∀ q u, KeepsSched s { initFull s with seq := q, resetUnit := u } := fun _ _ => keepsSched_of_reset rfl rfl
  have retaining : ∀ regions q u, KeepsSched s { initRetaining regions s with seq := q, resetUnit := u } :=
    fun _ _ _ => keepsSched_of_reset rfl rfl
  unfold beginReset initFor
  dsimp only
  split
  · split
    · exact full _ _
    · exact retaining _ _ _
  · split
    · exact full _ _
    · exact ⟨id, id⟩

theorem keepsSched_applyCut (cut : CutStep) (s : State) : KeepsSched s (applyCut cut s) := by
  obtain ⟨im, pattern, ram, e, -⟩ := applyCut_eq cut s
  rw [e]
  exact ⟨id, id⟩

/-! ### Every step -/

theorem keepsSched_commands : CommandUpdates KeepsSched := by
  constructor
  case refl => exact .refl
  case trans => exact .trans
  case sealTable => exact fun u _ _ => keepsSched_sealTable u
  case unsealTable =>
    exact fun u _ idle => keepsSched_of_jobs rfl rfl rfl fun h => lanesOk_idle (anyActive_false.1 idle) h.fault
  case submit => exact fun u t j _ _ _ _ ticket room => keepsSched_submit ticket room
  case cancelOne => exact fun u j _ _ => keepsSched_cancelOne j u
  case cancelAll => exact fun u r _ => keepsSched_cancelAll r u
  case pendLane => exact fun u k _ => keepsSched_pendLane k u
  case pendAll => exact fun u _ => keepsSched_pendAll u
  case start =>
    exact fun u _ state => keepsSched_setSched (fun _ => .inl rfl) (by rcases state with e | e <;> rw [e] <;> nofun)
  case quiesce => exact fun u _ state _ => keepsSched_setSched (fun _ => .inr (.inl rfl)) (by rw [state]; nofun)
  case halt =>
    exact fun u _ state idle => keepsSched_setSched (fun busy => by rw [idle] at busy; cases busy) (by rw [state]; nofun)
  case clearHold => exact fun u _ holding => keepsSched_clearHold holding
  case railsOn => exact fun u _ off => keepsSched_rail rfl (by rw [off]; nofun) nofun
  case railsOff =>
    intro u _ on
    rcases on with ramping | ⟨-, idle⟩
    · exact keepsSched_rail rfl (by rw [ramping]; nofun) nofun
    · exact keepsSched_idle_rail rfl idle nofun
  -- every other update leaves jobs, tickets, scheduler state, table and rails alone
  all_goals intros; exact ⟨id, id⟩

theorem keepsSched_events : EventUpdates KeepsSched := by
  constructor
  case railGood => exact fun u _ ramping => keepsSched_rail rfl (by rw [ramping]; nofun) nofun
  case fault => exact fun u k _ _ _ => keepsSched_enterFault k u
  case endDrain => exact fun u _ draining => keepsSched_rail rfl (by rw [draining]; nofun) nofun
  case slowDrain =>
    intro u _ expires
    simp only [drainExpires, Bool.and_eq_true, decide_eq_true_eq] at expires
    exact keepsSched_rail rfl (by rw [expires.1]; nofun) nofun
  case ramp =>
    intro u _ due
    simp only [rampDue, Bool.and_eq_true, decide_eq_true_eq] at due
    exact keepsSched_rail rfl (by rw [due.1]; nofun) nofun
  case drain =>
    intro u _ expires
    simp only [holdExpires, holdIdle, Bool.and_eq_true, Bool.not_eq_true'] at expires
    exact keepsSched_idle_rail rfl expires.1.1.2 nofun
  case edge =>
    intro u _ _ _
    unfold takeEdge
    split <;> exact ⟨id, id⟩
  case dogExpire => exact fun u _ _ _ => keepsSched_expireWatchdog u
  case dogReset =>
    intro u _ _ _
    have ended : KeepsSched (expireWatchdog u) (endStep (expireWatchdog u)) := ⟨id, id⟩
    exact ((keepsSched_expireWatchdog u).trans ended).trans (keepsSched_beginReset _ _ _ _)
  case advanceLane => exact fun u t k _ _ => keepsSched_advanceLane t k u
  case nextPhase => exact fun u t k a _ _ ha _ _ => keepsSched_setLane ha rfl
  case complete => exact fun u t k a _ _ _ _ _ => keepsSched_completeJob t k a.count u
  case abort => exact fun u c k _ => keepsSched_abortLane c k u
  case halted =>
    intro u _ quiesced
    simp only [State.quiesced, Bool.and_eq_true, decide_eq_true_eq, Bool.not_eq_true'] at quiesced
    exact keepsSched_setSched (fun busy => by rw [quiesced.2] at busy; cases busy) (by rw [quiesced.1]; nofun)
  case holding =>
    intro u _ parked
    simp only [State.parked, Bool.and_eq_true, Bool.not_eq_true'] at parked
    exact keepsSched_hold parked.2
  case activate => exact fun u j k admissible => keepsSched_activate admissible
  case beginFrame =>
    intro u _
    unfold beginFrame
    split <;> exact ⟨id, id⟩
  case cut => exact fun u c => keepsSched_applyCut c u
  case begin_ => exact fun u kind extra judged => keepsSched_beginReset kind extra judged u
  -- every other update leaves jobs, tickets, scheduler state, table and rails alone
  all_goals intros; exact ⟨id, id⟩

/-- Settles O58: both conditions are kept by every elementary update of a step. -/
theorem stepsKeepTheLanesAndTicketsLegal : Obligations.StepsKeepTheLanesAndTicketsLegal := by
  intro s t h
  obtain ⟨lanes, tickets⟩ := step_rel keepsSched_commands keepsSched_events h
  exact ⟨fun legal => lanesLegal_iff.2 (lanes (lanesLegal_iff.1 legal)),
    fun legal => ticketsLegal_iff.2 (tickets (ticketsLegal_iff.1 legal))⟩

end Sys2Proof.SchedProofs
end

section
/-! O30: the cells of the uncertain map that a rectangle touches or covers (R1, R118), the map as it is read, and Mark
Uncertain (R117). -/

namespace Sys2Proof.SchedProofs
open Sys2Proof Sys2Proof.Machine Sys2Proof.Safety Sys2Proof.Claims Sys2Proof.Laws Sys2Proof.PortProofs

/-! ### Rectangles and cells -/

theorem cellRect_holds_iff {cx cy x y : Nat} : (cellRect cx cy).Holds x y ↔ x / 16 = cx ∧ y / 16 = cy := by
  simp only [cellRect, Rect.Holds]
  omega

theorem touches_iff {r : Rect} {cols k : Nat} : r.touches (k % cols) (k / cols) = true ↔ TouchesCell r cols k := by
  unfold Rect.touches TouchesCell
  simp only [overlaps_iff, cellRect_holds_iff]

/-- A rectangle that holds two opposite corners of a cell holds all of it, and conversely (R1). -/
theorem covers_iff {r : Rect} {cols k : Nat} : r.covers (k % cols) (k / cols) = true ↔ CoversCell r cols k := by
  simp only [Rect.covers, CoversCell, Rect.Holds, Bool.and_eq_true, decide_eq_true_eq]
  constructor
  · intro corners x y hx hy
    omega
  · intro all
    have low := all (16 * (k % cols)) (16 * (k / cols)) (by omega) (by omega)
    have high := all (16 * (k % cols) + 15) (16 * (k / cols) + 15) (by omega) (by omega)
    omega

theorem markedBy_markTouched (cols : Nat) (r : Rect) (marks : List Bool) :
    MarkedBy r cols marks (markTouched cols r marks) := by
  refine ⟨markTouched_length _ _ _, fun k hk => ?_⟩
  rw [markTouched_get, List.getElem?_eq_getElem hk, ← touches_iff]
  simp

/-! ### Read Uncertain Map -/

/-- The first mark of a byte is in its most significant bit (R118). -/
theorem markByte_bit (bs : List Bool) {i : Nat} (hi : i < 8) : (markByte bs).getLsbD (7 - i) = bs.getD i false := by
  have bits : ∀ b0 b1 b2 b3 b4 b5 b6 b7 : Bool, ∀ i : Fin 8,
      (byteOf ((if b0 then 128 else 0) + (if b1 then 64 else 0) + (if b2 then 32 else 0) + (if b3 then 16 else 0)
        + (if b4 then 8 else 0) + (if b5 then 4 else 0) + (if b6 then 2 else 0) + (if b7 then 1 else 0))).getLsbD
          (7 - i.val) = [b0, b1, b2, b3, b4, b5, b6, b7].getD i.val false := by
    decide
  have listed : ∀ i : Fin 8,
      [bs.getD 0 false, bs.getD 1 false, bs.getD 2 false, bs.getD 3 false, bs.getD 4 false, bs.getD 5 false,
        bs.getD 6 false, bs.getD 7 false].getD i.val false = bs.getD i.val false := fun i => by
    match i with
    | 0 | 1 | 2 | 3 | 4 | 5 | 6 | 7 => rfl
  exact (bits _ _ _ _ _ _ _ _ ⟨i, hi⟩).trans (listed ⟨i, hi⟩)

theorem markBytes_length (n : Nat) (bs : List Bool) : (markBytes n bs).length = n := by
  induction n generalizing bs with
  | zero => rfl
  | succ n ih => rw [markBytes, List.length_cons, ih]

/-- Mark `k` is in byte k / 8 of the map, at bit 7 − k mod 8 (R118). -/
theorem markBytes_bit {n k : Nat} (bs : List Bool) (hk : k < 8 * n) :
    ((markBytes n bs).getD (k / 8) 0#8).getLsbD (7 - k % 8) = bs.getD k false := by
  induction n generalizing bs k with
  | zero => omega
  | succ n ih =>
    rw [markBytes]
    by_cases first : k < 8
    · rw [Nat.div_eq_of_lt first, Nat.mod_eq_of_lt first, List.getD_cons_zero, markByte_bit _ first]
      simp [List.getD_eq_getElem?_getD, first]
    · obtain ⟨i, rfl⟩ := Nat.exists_eq_add_of_le (Nat.not_lt.1 first)
      rw [Nat.add_div_left i (by decide), Nat.add_mod_left, List.getD_cons_succ, ih (bs.drop 8) (by omega)]
      simp [List.getD_eq_getElem?_getD]

/-- Read Uncertain Map's payload: the count in two bytes, then the marks (R118). -/
def mapPayload (marks : List Bool) : List Byte :=
  wordBytes (wordOf (marks.count true)) ++ markBytes ((marks.length + 7) / 8) marks

theorem mapPayload_length (marks : List Bool) : (mapPayload marks).length = 2 + (marks.length + 7) / 8 := by
  rw [mapPayload, List.length_append, markBytes_length]
  rfl

theorem mapPayload_count {marks : List Bool} (few : marks.length < 65536) :
    ((mapPayload marks).getD 0 0#8 ++ (mapPayload marks).getD 1 0#8).toNat = marks.count true := by
  change (joinBytes (hiByte _) (loByte _)).toNat = _
  rw [joinBytes_hi_lo, wordOf, BitVec.toNat_ofNat]
  exact Nat.mod_eq_of_lt (Nat.lt_of_le_of_lt List.count_le_length few)

theorem mapPayload_bit {marks : List Bool} {k : Nat} (hk : k < 8 * ((marks.length + 7) / 8)) :
    ((mapPayload marks).getD (2 + k / 8) 0#8).getLsbD (7 - k % 8) = marks.getD k false := by
  rw [Nat.add_comm 2]
  exact markBytes_bit marks hk

section
variable {s : State}

/-- The map of a legal geometry has at most 600 cells (R44, R116). -/
theorem marks_length_lt (jobs : JobsLegal s) (writer : WriterLegal s) : s.sched.marks.length < 65536 := by
  have columns : s.image.width / 16 ≤ 30 := Nat.div_le_of_le_mul writer.widthRange.2
  have rows : s.image.height / 16 ≤ 20 := Nat.div_le_of_le_mul writer.heightRange.2
  rw [jobs.marks]
  exact Nat.lt_of_le_of_lt (Nat.mul_le_mul columns rows) (by decide)

theorem execReadUncertainMap_eq (hr : s.inRun = true) (jobs : JobsLegal s) :
    exec .readUncertainMap s = .next (commandEnd .readUncertainMap .ok (mapPayload s.sched.marks) s) := by
  have cells : cellCount s.image = s.sched.marks.length := jobs.marks.symm
  refine congrArg Host.Outcome.next (plainCommand_accept hr nofun ?_)
  simp only [disarmGuard_sched, disarmGuard_image, cells, List.take_length, countTrue_eq_count]
  rfl

variable {xs ys xe ye : Word}

theorem execMarkUncertain_badRect (hr : s.inRun = true)
    (invalid : ¬ (rectOf xs ys xe ye).Valid s.image.width s.image.height) :
    exec (.markUncertain xs ys xe ye) s = .next (commandEnd (.markUncertain xs ys xe ye) .badRect [] s) :=
  congrArg Host.Outcome.next (plainCommand_refuse hr nofun (if_neg invalid))

theorem execMarkUncertain_accepted (hr : s.inRun = true)
    (valid : (rectOf xs ys xe ye).Valid s.image.width s.image.height) :
    exec (.markUncertain xs ys xe ye) s =
      .next
        (commandEnd (.markUncertain xs ys xe ye) .ok []
          { s with
            sched := { s.sched with marks := markTouched (s.image.width / 16) (rectOf xs ys xe ye) s.sched.marks } }) :=
  congrArg Host.Outcome.next (plainCommand_accept hr nofun (if_pos valid))

end

/-- Settles O30. -/
theorem uncertainMapIsReadAndMarked : Obligations.UncertainMapIsReadAndMarked :=
  fun _ _ _ _ _ hr jobs writer =>
    ⟨⟨_, mapPayload_length _, mapPayload_count (marks_length_lt jobs writer), fun _ => mapPayload_bit,
      execReadUncertainMap_eq hr jobs⟩, execMarkUncertain_badRect hr, fun valid =>
      ⟨_, markedBy_markTouched _ _ _, execMarkUncertain_accepted hr valid⟩⟩

end Sys2Proof.SchedProofs
end

section
/-! O31: Submit Job (R97 to R99). -/

namespace Sys2Proof.SchedProofs
open Sys2Proof Sys2Proof.Machine Sys2Proof.Safety Sys2Proof.Claims Sys2Proof.Laws Sys2Proof.PortProofs

/-- The new job supersedes this one: COALESCE, the same region, the same requested mode (R98). -/
def supersedes (new j : Job) : Bool := new.coalesce && decide (j.region = new.region) && decide (j.mode = new.mode)

theorem supersededJobs_eq (new : Job) (q : List Job) : supersededJobs new q = q.filter (supersedes new) := by
  unfold supersededJobs supersedes
  cases new.coalesce
  · simp
  · simp [Bool.decide_and]

theorem keptJobs_eq (new : Job) (q : List Job) : keptJobs new q = q.filter fun j => !supersedes new j := by
  unfold keptJobs supersedes
  cases new.coalesce
  · simp
  · simp [Bool.decide_and]

section
variable {s : State} {xs ys xe ye : Word} {mode options : Byte}

/-- The payload of a refused Submit Job: ticket 0, the depth, none superseded (R99). -/
def submitRefusal (s : State) : List Byte := [0x00#8, BitVec.ofNat 8 s.sched.queue.length, 0x00#8]

/-- The job that Submit Job makes (R97). -/
def submitted (s : State) (xs ys xe ye : Word) (mode options : Byte) : Job :=
  { ticket := nextFreeTicket s.sched
    region := rectOf xs ys xe ye
    mode := mode.toNat
    notify := options.getLsbD 0
    coalesce := options.getLsbD 1 }

/-- The four checks of Submit Job in order, then its work (R97 to R99). -/
theorem execSubmitJob_eq (xs ys xe ye : Word) (mode options : Byte) (hr : s.inRun = true) :
    exec (.submitJob xs ys xe ye mode options) s =
      .next
        (match s.wave.table with
        | none => commandEnd (.submitJob xs ys xe ye mode options) .noTable (submitRefusal s) s
        | some t =>
          if ¬ (rectOf xs ys xe ye).Valid s.image.width s.image.height then
            commandEnd (.submitJob xs ys xe ye mode options) .badRect (submitRefusal s) s
          else if t.modes ≤ mode.toNat then
            commandEnd (.submitJob xs ys xe ye mode options) .badMode (submitRefusal s) s
          else
            let new := submitted s xs ys xe ye mode options
            if 8 ≤ (keptJobs new s.sched.queue).length then
              commandEnd (.submitJob xs ys xe ye mode options) .queueFull (submitRefusal s) s
            else
              commandEnd (.submitJob xs ys xe ye mode options) .ok
                [new.ticket, BitVec.ofNat 8 ((keptJobs new s.sched.queue).length + 1),
                  BitVec.ofNat 8 (supersededJobs new s.sched.queue).length]
                (submit new s)) := by
  refine congrArg Host.Outcome.next ?_
  cases ht : s.wave.table with
  | none => exact plainCommand_refuse hr nofun (by simp only [disarmGuard_wave, ht]; rfl)
  | some t =>
    dsimp only
    split
    · next h => exact plainCommand_refuse hr nofun (by simp only [disarmGuard_wave, ht]; exact if_pos h)
    · next valid =>
      split
      · next h =>
        exact plainCommand_refuse hr nofun (by simp only [disarmGuard_wave, ht]; exact (if_neg valid).trans (if_pos h))
      · next low =>
        split
        · next h =>
          refine plainCommand_refuse hr nofun ?_
          simp only [disarmGuard_wave, ht]
          exact (if_neg valid).trans ((if_neg low).trans (if_pos h))
        · next room =>
          refine plainCommand_accept hr nofun ?_
          simp only [disarmGuard_wave, ht]
          refine (if_neg valid).trans ((if_neg low).trans ((if_neg room).trans ?_))
          simp only [submit, List.length_append, List.length_singleton]
          rfl

end

/-- Settles O31. -/
theorem submitJobQueuesTheJob : Obligations.SubmitJobQueuesTheJob := by
  intro s xs ys xe ye mode options hr
  have eq := execSubmitJob_eq xs ys xe ye mode options hr
  simp only [keptJobs_eq, supersededJobs_eq] at eq
  refine ⟨fun ht => ?_, fun t ht => ⟨fun invalid => ?_, fun valid high => ?_, fun valid low full => ?_,
    fun valid low room => ?_⟩⟩ <;> rw [ht] at eq
  · exact eq
  · exact eq.trans (congrArg Host.Outcome.next (if_pos invalid))
  · exact eq.trans (congrArg Host.Outcome.next ((if_neg (not_not_intro valid)).trans (if_pos high)))
  · exact eq.trans (congrArg Host.Outcome.next
      ((if_neg (not_not_intro valid)).trans ((if_neg (Nat.not_le.2 low)).trans (if_pos full))))
  · refine eq.trans (congrArg Host.Outcome.next
      ((if_neg (not_not_intro valid)).trans ((if_neg (Nat.not_le.2 low)).trans ((if_neg (Nat.not_le.2 room)).trans ?_))))
    simp only [submit, keptJobs_eq, supersededJobs_eq]
    rfl

end Sys2Proof.SchedProofs
end

section
/-! O33 and O35: which job a ticket names (R95, R112, R115), and Cancel Job, Abort Job, Flush Queue and Query Job. -/

namespace Sys2Proof.SchedProofs
open Sys2Proof Sys2Proof.Machine Sys2Proof.Safety Sys2Proof.Claims Sys2Proof.Laws Sys2Proof.PortProofs
open Sys2Proof.WaveProofs (pendAll_lane)

/-! ### Which job a ticket names -/

theorem findQueued_eq_none {q : List Job} {t : Byte} (h : ∀ j ∈ q, j.ticket ≠ t) : findQueued q t = none :=
  List.find?_eq_none.2 fun j hj => by simpa using h j hj

/-- The first job of the queue with the ticket, and its position. -/
theorem findQueued_append {older newer : List Job} {j : Job} (h : ∀ i ∈ older, i.ticket ≠ j.ticket) :
    findQueued (older ++ j :: newer) j.ticket = some j ∧
      (older ++ j :: newer).findIdx (fun i => i.ticket == j.ticket) = older.length := by
  constructor
  · have none := findQueued_eq_none h
    unfold findQueued at none ⊢
    rw [List.find?_append, none, Option.none_or, List.find?_cons_of_pos (by simp)]
  · have before := List.findIdx_eq_length_of_false (p := fun i : Job => i.ticket == j.ticket) (xs := older)
      fun i hi => by simpa using h i hi
    rw [List.findIdx_append, before, if_neg (Nat.lt_irrefl _)]
    simp [List.findIdx_cons]

theorem find_eq_none {l : Lanes} {t : Byte} (h : ∀ k a, l.get k = some a → a.job.ticket ≠ t) : l.find t = none := by
  refine List.find?_eq_none.2 fun k _ => ?_
  cases hk : l.get k with
  | none => simp
  | some a => simpa using h k a hk

/-- The one lane whose job has the ticket. -/
theorem find_eq_some {l : Lanes} {k : Fin 4} {a : ActiveJob} (hk : l.get k = some a)
    (alone : ∀ j b, l.get j = some b → b.job.ticket = a.job.ticket → j = k) : l.find a.job.ticket = some k := by
  cases found : l.find a.job.ticket with
  | none =>
    have := List.find?_eq_none.1 found k (mem_laneOrder k)
    simp [hk] at this
  | some j =>
    have holds := List.find?_some found
    cases hj : l.get j with
    | none => simp [hj] at holds
    | some b => rw [alone j b hj (by simpa [hj] using holds)]

theorem mem_activeTickets {l : Lanes} {t : Byte} : t ∈ activeTickets l ↔ ∃ k a, l.get k = some a ∧ a.job.ticket = t := by
  simp only [activeTickets, List.mem_map, mem_active]
  exact ⟨fun ⟨a, ⟨k, hk⟩, ht⟩ => ⟨k, a, hk, ht⟩, fun ⟨k, a, hk, ht⟩ => ⟨a, ⟨k, hk⟩, ht⟩⟩

/-- With distinct tickets no two lanes hold the same one (R95). -/
theorem lane_unique {l : Lanes} (distinct : (activeTickets l).Nodup) {j k : Fin 4} {a b : ActiveJob}
    (hj : l.get j = some b) (hk : l.get k = some a) (same : b.job.ticket = a.job.ticket) : j = k := by
  by_contra other
  obtain ⟨before, after, around⟩ := activeTickets_around l k
  have whole := around (l.get k)
  rw [lanes_set_get, hk] at whole
  have rest := around none
  rw [whole] at distinct
  have elsewhere : a.job.ticket ∈ activeTickets (l.set k none) :=
    mem_activeTickets.2 ⟨j, b, by rw [lanes_get_set_other _ _ other]; exact hj, same⟩
  rw [rest] at elsewhere
  exact (List.nodup_cons.1 (List.nodup_middle.1 distinct)).1 elsewhere

section
variable {s : State}

theorem queued_ne_active (legal : TicketsLegal s) {i : Job} (hi : i ∈ s.sched.queue) {k : Fin 4} {a : ActiveJob}
    (hk : s.sched.lanes.get k = some a) : i.ticket ≠ a.job.ticket :=
  (List.nodup_append.1 legal.distinct).2.2 _ (List.mem_map_of_mem hi) _ (mem_activeTickets.2 ⟨k, a, hk, rfl⟩)

theorem queued_ne_queued (legal : TicketsLegal s) {older newer : List Job} {j : Job}
    (hq : s.sched.queue = older ++ j :: newer) {i : Job} (hi : i ∈ older) : i.ticket ≠ j.ticket := by
  have distinct := (List.nodup_append.1 legal.distinct).1
  rw [hq, List.map_append] at distinct
  exact (List.nodup_append.1 distinct).2.2 _ (List.mem_map_of_mem hi) _ (by simp)

/-- A QUEUED job is found by its ticket, at its position. -/
theorem find_queued (legal : TicketsLegal s) {older newer : List Job} {j : Job}
    (hq : s.sched.queue = older ++ j :: newer) :
    findQueued s.sched.queue j.ticket = some j ∧
      s.sched.queue.findIdx (fun i => i.ticket == j.ticket) = older.length := by
  rw [hq]
  exact findQueued_append fun i hi => queued_ne_queued legal hq hi

/-- An ACTIVE job is found by its ticket, in its lane and not in the queue. -/
theorem find_active (legal : TicketsLegal s) {k : Fin 4} {a : ActiveJob} (hk : s.sched.lanes.get k = some a) :
    findQueued s.sched.queue a.job.ticket = none ∧ s.sched.lanes.find a.job.ticket = some k :=
  ⟨findQueued_eq_none fun _ hi => queued_ne_active legal hi hk,
    find_eq_some hk fun _ _ hj same => lane_unique (List.nodup_append.1 legal.distinct).2.1 hj hk same⟩

theorem find_unheld {t : Byte} (h : Unheld s t) : findQueued s.sched.queue t = none ∧ s.sched.lanes.find t = none :=
  ⟨findQueued_eq_none h.1, find_eq_none h.2⟩

end

/-! ### O33 -/

section
variable {s : State} {t : Byte}

/-- The queue closes up behind a cancelled job (R112). -/
theorem cancelOne_eq (legal : TicketsLegal s) {older newer : List Job} {j : Job}
    (hq : s.sched.queue = older ++ j :: newer) :
    cancelOne j s =
      { s with
        sched := { s.sched with queue := older ++ newer }
        events := s.events.record .cancelled j.ticket 0x0001#16 } := by
  have apart : j ∉ older := fun hj => queued_ne_queued legal hq hj rfl
  unfold cancelOne
  rw [hq, List.erase_append_right _ apart, List.erase_cons_head]
  rfl

theorem pendLane_eq {k : Fin 4} {a : ActiveJob} (hk : s.sched.lanes.get k = some a) :
    pendLane k s =
      { s with
        sched := { s.sched with lanes := s.sched.lanes.set k (some { a with abortPending := true }) } } := by
  unfold pendLane
  rw [hk]
  rfl

theorem execCancelJob_unheld (hr : s.inRun = true) (h : Unheld s t) :
    exec (.cancelJob t) s = .next (commandEnd (.cancelJob t) .noSuchJob [] s) := by
  obtain ⟨noQueued, noLane⟩ := find_unheld h
  exact congrArg Host.Outcome.next
    (plainCommand_refuse hr nofun (by simp only [disarmGuard_sched, noQueued, noLane]))

theorem execAbortJob_unheld (hr : s.inRun = true) (h : Unheld s t) (named : t ≠ 0#8) :
    exec (.abortJob t) s = .next (commandEnd (.abortJob t) .noSuchJob [] s) := by
  obtain ⟨noQueued, noLane⟩ := find_unheld h
  exact congrArg Host.Outcome.next
    (plainCommand_refuse hr nofun (by simp only [if_neg named, disarmGuard_sched, noQueued, noLane]))

theorem execCancelJob_queued (hr : s.inRun = true) (legal : TicketsLegal s) {older newer : List Job} {j : Job}
    (hq : s.sched.queue = older ++ j :: newer) :
    exec (.cancelJob j.ticket) s = .next (commandEnd (.cancelJob j.ticket) .ok [] (cancelOne j s)) := by
  have found := (find_queued legal hq).1
  exact congrArg Host.Outcome.next (plainCommand_accept hr nofun (by simp only [disarmGuard_sched, found]; rfl))

theorem execAbortJob_queued (hr : s.inRun = true) (legal : TicketsLegal s) {older newer : List Job} {j : Job}
    (hq : s.sched.queue = older ++ j :: newer) :
    exec (.abortJob j.ticket) s = .next (commandEnd (.abortJob j.ticket) .ok [] (cancelOne j s)) := by
  have found := (find_queued legal hq).1
  have named : j.ticket ≠ 0#8 := fun zero => legal.nonzero <| by
    rw [← zero, allTickets_eq, hq]
    simp
  exact congrArg Host.Outcome.next
    (plainCommand_accept hr nofun (by simp only [if_neg named, disarmGuard_sched, found]; rfl))

theorem execCancelJob_active (hr : s.inRun = true) (legal : TicketsLegal s) {k : Fin 4} {a : ActiveJob}
    (hk : s.sched.lanes.get k = some a) :
    exec (.cancelJob a.job.ticket) s = .next (commandEnd (.cancelJob a.job.ticket) .jobActive [] s) := by
  obtain ⟨noQueued, found⟩ := find_active legal hk
  exact congrArg Host.Outcome.next
    (plainCommand_refuse hr nofun (by simp only [disarmGuard_sched, noQueued, found]))

theorem execAbortJob_active (hr : s.inRun = true) (legal : TicketsLegal s) {k : Fin 4} {a : ActiveJob}
    (hk : s.sched.lanes.get k = some a) :
    exec (.abortJob a.job.ticket) s = .next (commandEnd (.abortJob a.job.ticket) .ok [] (pendLane k s)) := by
  obtain ⟨noQueued, found⟩ := find_active legal hk
  have named : a.job.ticket ≠ 0#8 := fun zero => legal.nonzero <| by
    rw [← zero, allTickets_eq]
    exact List.mem_append_right _ (mem_activeTickets.2 ⟨k, a, hk, rfl⟩)
  exact congrArg Host.Outcome.next
    (plainCommand_accept hr nofun (by simp only [if_neg named, disarmGuard_sched, noQueued, found]; rfl))

theorem execAbortJob_all (hr : s.inRun = true) :
    exec (.abortJob 0x00#8) s = .next (commandEnd (.abortJob 0x00#8) .ok [] (pendAll (cancelAll cancelHost s))) :=
  congrArg Host.Outcome.next (plainCommand_accept hr nofun (if_pos rfl))

theorem execFlushQueue_eq (hr : s.inRun = true) :
    exec .flushQueue s = .next (commandEnd .flushQueue .ok [] (cancelAll cancelFlush s)) :=
  congrArg Host.Outcome.next (plainCommand_accept hr nofun rfl)

end

/-- Settles O33: by what the ticket names. -/
theorem cancelAbortAndFlush : Obligations.CancelAbortAndFlush := by
  intro s t hr legal
  refine ⟨fun unheld => ⟨execCancelJob_unheld hr unheld, execAbortJob_unheld hr unheld⟩, ?_, ?_,
    ⟨_, pendAll_lane (cancelAll cancelHost s), execAbortJob_all hr⟩, execFlushQueue_eq hr⟩
  · rintro older newer j hq rfl
    have eq := cancelOne_eq legal hq
    exact ⟨eq ▸ execCancelJob_queued hr legal hq, eq ▸ execAbortJob_queued hr legal hq⟩
  · rintro k a hk rfl
    exact ⟨execCancelJob_active hr legal hk, pendLane_eq hk ▸ execAbortJob_active hr legal hk⟩

/-! ### O35 -/

section
variable {s : State} {t : Byte}

theorem execQueryJob_unheld (hr : s.inRun = true) (h : Unheld s t) :
    exec (.queryJob t) s = .next (commandEnd (.queryJob t) .noSuchJob [] s) := by
  obtain ⟨noQueued, noLane⟩ := find_unheld h
  exact congrArg Host.Outcome.next
    (plainCommand_refuse hr nofun (by simp only [disarmGuard_sched, noQueued, noLane]))

theorem execQueryJob_queued (hr : s.inRun = true) (legal : TicketsLegal s) {older newer : List Job} {j : Job}
    (hq : s.sched.queue = older ++ j :: newer) :
    exec (.queryJob j.ticket) s = .next (commandEnd (.queryJob j.ticket) .ok (queuedPayload older.length j) s) := by
  obtain ⟨found, place⟩ := find_queued legal hq
  exact congrArg Host.Outcome.next
    (plainCommand_accept hr nofun (by simp only [disarmGuard_sched, found, place]))

theorem execQueryJob_active (hr : s.inRun = true) (legal : TicketsLegal s) {k : Fin 4} {a : ActiveJob}
    (hk : s.sched.lanes.get k = some a) :
    exec (.queryJob a.job.ticket) s = .next (commandEnd (.queryJob a.job.ticket) .ok (activePayload k a) s) := by
  obtain ⟨noQueued, found⟩ := find_active legal hk
  exact congrArg Host.Outcome.next
    (plainCommand_accept hr nofun (by simp only [disarmGuard_sched, noQueued, found, hk]))

end

/-- Settles O35: by what the ticket names. -/
theorem queryJobDescribesTheJob : Obligations.QueryJobDescribesTheJob := by
  intro s t hr legal
  refine ⟨execQueryJob_unheld hr, ?_, ?_⟩
  · rintro i j hj rfl
    obtain ⟨inside, rfl⟩ := List.getElem?_eq_some_iff.1 hj
    have hq : s.sched.queue = s.sched.queue.take i ++ s.sched.queue[i] :: s.sched.queue.drop (i + 1) := by
      rw [← List.drop_eq_getElem_cons inside, List.take_append_drop]
    have answer := execQueryJob_queued hr legal hq
    rwa [List.length_take_of_le (Nat.le_of_lt inside)] at answer
  · rintro k a hk rfl
    exact execQueryJob_active hr legal hk

end Sys2Proof.SchedProofs
end

section
/-! O34 and O36: the scheduler's states (R100 to R103, R119), admission's examination of the queue (R105), and the condition
of the power request (R106). -/

namespace Sys2Proof.SchedProofs
open Sys2Proof Sys2Proof.Machine Sys2Proof.Safety Sys2Proof.Claims Sys2Proof.Laws Sys2Proof.PortProofs

/-! ### O34 -/

section
variable {s : State}

theorem setSched_self {x : SchedState} (h : s.sched.state = x) : setSched x s = s := by
  rw [← h]
  rfl

theorem execStartScheduler_refused (hr : s.inRun = true) (h : s.sched.state = .parking ∨ s.sched.state = .holding) :
    exec .startScheduler s = .next (commandEnd .startScheduler .badState [] s) :=
  congrArg Host.Outcome.next
    (plainCommand_refuse hr nofun (by rcases h with e | e <;> simp only [disarmGuard_sched, e]))

theorem execStartScheduler_accepted (hr : s.inRun = true) (h : ¬ (s.sched.state = .parking ∨ s.sched.state = .holding)) :
    exec .startScheduler s = .next (commandEnd .startScheduler .ok [] (setSched .running s)) := by
  refine congrArg Host.Outcome.next (plainCommand_accept (u := setSched .running s) hr nofun ?_)
  cases e : s.sched.state with
  | halted | quiescing => simp only [disarmGuard_sched, e]; rfl
  | running => rw [setSched_self e]; simp only [disarmGuard_sched, e]
  | parking => exact absurd (.inl e) h
  | holding => exact absurd (.inr e) h

theorem execHaltScheduler_refused (hr : s.inRun = true) (h : s.sched.state = .parking ∨ s.sched.state = .holding) :
    exec .haltScheduler s = .next (commandEnd .haltScheduler .badState [] s) :=
  congrArg Host.Outcome.next
    (plainCommand_refuse hr nofun (by rcases h with e | e <;> simp only [disarmGuard_sched, e]))

theorem execHaltScheduler_running (hr : s.inRun = true) (h : s.sched.state = .running) :
    exec .haltScheduler s =
      .next
        (commandEnd .haltScheduler .ok []
          (setSched (if s.sched.lanes.anyActive then .quiescing else .halted) s)) :=
  congrArg Host.Outcome.next (plainCommand_accept hr nofun (by simp only [disarmGuard_sched, h]; rfl))

theorem execHaltScheduler_stopped (hr : s.inRun = true) (h : s.sched.state = .halted ∨ s.sched.state = .quiescing) :
    exec .haltScheduler s = .next (commandEnd .haltScheduler .ok [] s) :=
  congrArg Host.Outcome.next
    (plainCommand_accept hr nofun (by rcases h with e | e <;> simp only [disarmGuard_sched, e]))

theorem runStep_inRun (hr : s.inRun = true) (work : State → State) : runStep work s = endStep (work s) := if_pos hr

theorem quiesced_iff : s.quiesced = true ↔ s.sched.state = .quiescing ∧ s.sched.lanes.anyActive = false := by
  simp [State.quiesced]

theorem parked_iff : s.parked = true ↔ s.sched.state = .parking ∧ s.sched.lanes.anyActive = false := by
  simp [State.parked]

theorem execQuiesceToHalted_eq (hr : s.inRun = true) :
    exec .quiesceToHalted s =
      .next (endStep (if s.quiesced then raiseFlag .schedIdle (setSched .halted s) else s)) :=
  congrArg Host.Outcome.next (runStep_inRun hr _)

theorem execParkingToHolding_eq (hr : s.inRun = true) :
    exec .parkingToHolding s = .next (endStep (if s.parked then setSched .holding s else s)) :=
  congrArg Host.Outcome.next (runStep_inRun hr _)

end

/-- Settles O34, state by state. -/
theorem schedulerStateChanges : Obligations.SchedulerStateChanges := by
  intro s hr
  refine ⟨?_, ?_, ?_, ?_, ?_⟩
  · split
    · next h => exact execStartScheduler_refused hr h
    · next h => exact execStartScheduler_accepted hr h
  · split
    · next h => exact execHaltScheduler_refused hr h
    · next h =>
      split
      · next running => exact execHaltScheduler_running hr running
      · next stopped =>
        refine execHaltScheduler_stopped hr ?_
        cases e : s.sched.state with
        | halted => exact .inl rfl
        | quiescing => exact .inr rfl
        | running => exact absurd e stopped
        | parking => exact absurd (.inl e) h
        | holding => exact absurd (.inr e) h
  · split
    · next holding => exact congrArg Host.Outcome.next (plainCommand_accept hr nofun (if_pos holding))
    · next other => exact congrArg Host.Outcome.next (plainCommand_refuse hr nofun (if_neg other))
  · rw [execQuiesceToHalted_eq hr]
    simp only [quiesced_iff]
    split <;> rfl
  · rw [execParkingToHolding_eq hr]
    simp only [parked_iff]
    split <;> rfl

/-! ### O36: the examination -/

/-- The jobs of a queue that overlap neither a region of `taken` nor that of a job ahead in the queue (R105). -/
def clearOf (taken : List Rect) : List Job → List Job
  | [] => []
  | j :: rest =>
    if taken.any fun r => r.overlaps j.region then clearOf (j.region :: taken) rest
    else j :: clearOf (j.region :: taken) rest

/-- Only which regions are taken matters. -/
theorem clearOf_congr {taken taken' : List Rect} (same : ∀ r, r ∈ taken ↔ r ∈ taken') (q : List Job) :
    clearOf taken q = clearOf taken' q := by
  induction q generalizing taken taken' with
  | nil => rfl
  | cons j rest ih =>
    have any : (taken.any fun r => r.overlaps j.region) = taken'.any fun r => r.overlaps j.region := by
      rw [Bool.eq_iff_iff]
      simp only [List.any_eq_true, same]
    rw [clearOf, clearOf, any, ih (taken := j.region :: taken) (taken' := j.region :: taken') (by simp [same])]

/-- The examination gives the clear jobs the free lanes: a job it activates takes a region that stands ahead anyway. -/
theorem examine_eq_zip (q : List Job) (busy ahead : List Rect) (free : List (Fin 4)) :
    examine busy free ahead q = (clearOf (busy ++ ahead) q).zip free := by
  induction q generalizing busy ahead free with
  | nil => rfl
  | cons j rest ih =>
    cases free with
    | nil => rw [List.zip_nil_right]; rfl
    | cons k lanes =>
      rw [examine, clearOf, List.any_append]
      split
      · rw [ih, clearOf_congr fun _ => List.perm_middle.mem_iff]
      · rw [List.zip_cons_cons, ih, clearOf_congr (taken' := j.region :: (busy ++ ahead))]
        intro r
        simp only [List.cons_append, List.mem_cons, List.mem_append]
        tauto

/-- A job of the queue is clear exactly when no taken region and no region of a job ahead overlaps its own: `passed` are the
jobs ahead of this part of the queue. -/
theorem clearOf_eq_filterMap (active : List Rect) (passed q : List Job) :
    clearOf (active ++ passed.map fun j => j.region) q =
      (List.range q.length).filterMap fun i =>
        (q[i]?).bind fun j =>
          if active.any (fun r => r.overlaps j.region)
              || (passed ++ q.take i).any (fun ahead => ahead.region.overlaps j.region) then none
          else some j := by
  induction q generalizing passed with
  | nil => rfl
  | cons j rest ih =>
    have later : clearOf (j.region :: (active ++ passed.map fun j => j.region)) rest =
        clearOf (active ++ (passed ++ [j]).map fun j => j.region) rest := by
      refine clearOf_congr (fun r => ?_) _
      simp only [List.map_append, List.map_singleton, List.mem_cons, List.mem_append, List.not_mem_nil, or_false]
      tauto
    rw [clearOf, later, ih, List.length_cons, List.range_succ_eq_map, List.filterMap_cons, List.filterMap_map,
      List.any_append]
    simp only [List.getElem?_cons_zero, Option.bind_some, List.take_zero, List.append_nil, List.any_map,
      Function.comp_def, List.getElem?_cons_succ, List.take_succ_cons, List.append_assoc, List.singleton_append]
    split <;> rfl

theorem unblocked_eq (c : Sched) : unblocked c = clearOf (c.lanes.active.map fun a => a.job.region) c.queue := by
  have whole := clearOf_eq_filterMap (c.lanes.active.map fun a => a.job.region) [] c.queue
  rw [List.map_nil, List.append_nil] at whole
  rw [whole]
  simp only [unblocked, List.any_map, Function.comp_def, List.nil_append]

theorem eligible_eq_zip (c : Sched) : c.eligible = (unblocked c).zip c.lanes.free := by
  rw [unblocked_eq, Sched.eligible, examine_eq_zip, List.append_nil]

/-! ### O36: the power request's condition -/

section
variable {s : State}

theorem mayAdmit_iff : s.mayAdmit = true ↔
    s.sched.state = .running ∧ s.wave.table ≠ none ∧ s.temp.temperature ≠ none ∧ s.temp.band ≠ none := by
  simp [State.mayAdmit, TempMonitor.inBand, Option.isSome_iff_ne_none, and_assoc]

/-- With no job ACTIVE the oldest job of the queue is eligible (R105). -/
theorem eligible_eq_nil_iff {c : Sched} (idle : c.lanes.anyActive = false) : c.eligible = [] ↔ c.queue = [] := by
  rw [anyActive_false] at idle
  have free : c.lanes.free = laneOrder := List.filter_eq_self.2 fun k _ => by rw [idle k]; rfl
  have none : c.lanes.active = [] := List.filterMap_eq_nil_iff.2 fun k _ => idle k
  rw [Sched.eligible, free, none, laneOrder]
  cases c.queue with
  | nil => simp [examine]
  | cons j rest => simp [examine]

theorem powerCondition_ready (ready : s.supply.rail = .ready) : s.powerCondition = false := by
  simp [State.powerCondition, ready]

theorem powerCondition_iff (legal : LanesLegal s) (down : s.supply.rail ≠ .ready) : s.powerCondition = true ↔
    s.sched.state = .running ∧ s.wave.table ≠ none ∧ s.temp.temperature ≠ none ∧ s.temp.band ≠ none ∧
      s.sched.queue ≠ [] := by
  have idle : s.sched.lanes.anyActive = false := by
    rw [Bool.eq_false_iff]
    exact fun busy => down (legal.driven busy).2
  have waiting : (!s.sched.eligible.isEmpty) = true ↔ s.sched.queue ≠ [] := by
    rw [Ne, ← eligible_eq_nil_iff idle, Bool.not_eq_true', Bool.eq_false_iff, Ne, List.isEmpty_iff]
  simp only [State.powerCondition, Bool.and_eq_true, mayAdmit_iff, decide_eq_true_iff, waiting, and_assoc]
  simp [down]

end

/-- Settles O36. -/
theorem examinationAndPowerRequest : Obligations.ExaminationAndPowerRequest :=
  ⟨eligible_eq_zip, fun _ legal => ⟨powerCondition_ready, powerCondition_iff legal⟩⟩

end Sys2Proof.SchedProofs
end

section
/-! O37 and O38: activation (R107, R108), and one lane's phase advance, completion and abort (R109 to R111, R128, R129), each
event alone (log entry 1). -/

namespace Sys2Proof.SchedProofs
open Sys2Proof Sys2Proof.Machine Sys2Proof.Safety Sys2Proof.Claims Sys2Proof.Laws Sys2Proof.PortProofs
open Sys2Proof.WaveProofs (phaseCount_eq frameCountOf_eq endsPhase_iff)

/-! ### O37 -/

theorem touchesMarked_iff {cols : Nat} {r : Rect} {marks : List Bool} :
    touchesMarked cols r marks = true ↔ ∃ n, marks[n]? = some true ∧ TouchesCell r cols n := by
  rw [touchesMarked, List.any_eq_true]
  simp only [List.mem_iff_getElem?, mapFrom_getElem?, Option.map_eq_some_iff, Nat.zero_add, id_eq, ← touches_iff]
  constructor
  · rintro ⟨_, ⟨n, m, hm, rfl⟩, both⟩
    rw [Bool.and_eq_true] at both
    exact ⟨n, by rw [hm, both.1], both.2⟩
  · rintro ⟨n, hm, touched⟩
    exact ⟨_, ⟨n, true, hm, rfl⟩, by simpa using touched⟩

/-- UPGRADED: an uncertain cell is touched and the requested mode lacks RECOVERY_OK (R107). -/
theorem isUpgraded_iff {t : Snapshot} {im : Image} {c : Sched} {j : Job} : isUpgraded t im c j = true ↔
    (∃ n, c.marks[n]? = some true ∧ TouchesCell j.region (im.width / 16) n) ∧
      (t.attrs.getD j.mode 0#8).getLsbD 2 = false := by
  rw [isUpgraded, Bool.and_eq_true, touchesMarked_iff, Bool.not_eq_true']
  rfl

/-- A pixel of a plane painted over a rectangle of the active area. -/
theorem get_paint_raster {p : Plane} (hp : Memory.wf Config.porLevel p = true) {r : Rect} {w h : Nat} (valid : r.Valid w h)
    (hw : w ≤ 480) (f : Nat → Nat → Level) {x y : Nat} (hx : x < 480) :
    Plane.get (Plane.paint f p r.raster) x y = if r.Holds x y then f x y else Plane.get p x y := by
  rw [get_paint f r.raster p x y hp (fun q hq => column_of_valid valid hw (mem_raster.1 hq)) hx]
  simp only [mem_raster]

section
variable {s : State}

theorem execActivated_closed (hr : s.inRun = true)
    (closed : s.sched.state ≠ .running ∨ s.wave.table = none ∨ s.supply.rail ≠ .ready ∨ s.temp.temperature = none ∨
      s.temp.band = none ∨ s.sched.eligible = []) : exec .activated s = .next (endStep s) := by
  refine congrArg Host.Outcome.next ((runStep_inRun hr _).trans (congrArg endStep ?_))
  split
  · next opened =>
    rw [Bool.and_eq_true, mayAdmit_iff, decide_eq_true_iff] at opened
    obtain ⟨⟨running, sealed, valid, inBand⟩, ready⟩ := opened
    split
    · next j k rest first => exact absurd closed (by simp [running, sealed, ready, valid, inBand, first])
    · rfl
  · rfl

theorem execActivated_open (hr : s.inRun = true) {t : Snapshot} {b : Nat} {j : Job} {k : Fin 4}
    {rest : List (Job × Fin 4)} (opened : s.mayAdmit = true) (ready : s.supply.rail = .ready) (ht : s.wave.table = some t)
    (hb : s.temp.band = some b) (he : s.sched.eligible = (j, k) :: rest) :
    exec .activated s = .next (endStep (activateWith t b j k s)) := by
  refine congrArg Host.Outcome.next ((runStep_inRun hr _).trans (congrArg endStep ?_))
  rw [if_pos (by simp [opened, ready]), he]
  exact activate_of_open ht hb j k

end

/-- Settles O37. -/
theorem activatedLatchesAndFillsTheLane : Obligations.ActivatedLatchesAndFillsTheLane := by
  intro s hr memories jobs writer
  refine ⟨execActivated_closed hr, fun t b c j k rest running ht ready hc hb he => ?_⟩
  have opened : s.mayAdmit = true := mayAdmit_iff.2 ⟨running, by simp [ht], by simp [hc], by simp [hb]⟩
  have queued := (eligible_head hr opened ready he).queued
  refine ⟨isUpgraded t s.image s.sched j, (activateWith t b j k s).image.latch, isUpgraded_iff, fun x y hx => ?_, ?_⟩
  · rw [activateWith, get_paint_raster memories.latch (jobs.queued j queued) writer.widthRange.2 _ hx,
      latchLevel_eq_latchedFrom t _ (x, y)]
    rfl
  · rw [execActivated_open hr opened ready ht hb he, activateWith, activeJob, frameCountOf_eq]
    rfl

/-! ### O38 -/

/-- The cells completion leaves marked: in a RECOVERY_OK mode the covered ones are cleared (R109). -/
theorem completed_marks_iff {t : Snapshot} {im : Image} {r : Rect} {mode n : Nat} {marks : List Bool}
    (hn : n < marks.length) :
    (if isRecoveryOk (t.attr mode) then clearCovered (cellColumns im) r marks else marks)[n]? = some true ↔
      marks[n]? = some true ∧ ¬ ((t.attrs.getD mode 0#8).getLsbD 2 = true ∧ CoversCell r (im.width / 16) n) := by
  rw [show isRecoveryOk (t.attr mode) = (t.attrs.getD mode 0#8).getLsbD 2 from rfl, ← covers_iff]
  cases (t.attrs.getD mode 0#8).getLsbD 2 with
  | false => simp
  | true =>
    simp only [if_true, clearCovered_get, List.getElem?_eq_getElem hn, Option.map_some, Option.some.injEq, Bool.and_eq_true,
      Bool.not_eq_true', true_and, Bool.not_eq_true]
    rfl

section
variable {s : State} {k : Fin 4} {t : Snapshot} {a : ActiveJob}

theorem finishes_iff : (a.endsPhase && lastPhase s.wave.ram t a) = true ↔ finishes s t a := by
  rw [Bool.and_eq_true, endsPhase_iff, lastPhase, decide_eq_true_iff, phaseCount_eq]
  rfl

/-- PHASE_ADVANCE is due: the phase ends and is not the last of the sequence (R128). -/
theorem advances_iff :
    (a.endsPhase && !lastPhase s.wave.ram t a) = true ↔ a.remaining ≤ 1 ∧ ¬ finishes s t a := by
  rw [← finishes_iff, Bool.and_eq_true, Bool.and_eq_true, endsPhase_iff, Bool.not_eq_true']
  cases lastPhase s.wave.ram t a <;> simp

section
variable (hr : s.inRun = true) (ht : s.wave.table = some t)
include hr ht

theorem laneEvent_free (free : s.sched.lanes.get k = none) (work : Snapshot → ActiveJob → State → State) :
    laneEvent k work s = .next (endStep s) := by
  rw [laneEvent, State.tableMissing, ht, runStep_inRun hr, ht, free]
  simp

theorem laneEvent_taken (taken : s.sched.lanes.get k = some a) (work : Snapshot → ActiveJob → State → State) :
    laneEvent k work s = .next (endStep (work t a s)) := by
  rw [laneEvent, State.tableMissing, ht, runStep_inRun hr, ht, taken]
  simp

theorem execAborted_host_free (free : s.sched.lanes.get k = none) : exec (.aborted k .host) s = .next (endStep s) := by
  refine congrArg Host.Outcome.next ((runStep_inRun hr _).trans (congrArg endStep ?_))
  simp only [ht, free]

theorem execAborted_host_taken (taken : s.sched.lanes.get k = some a) :
    exec (.aborted k .host) s =
      .next
        (endStep
          (if a.abortPending && !(a.endsPhase && lastPhase s.wave.ram t a) then abortLane .host k s else s)) := by
  refine congrArg Host.Outcome.next ((runStep_inRun hr _).trans (congrArg endStep ?_))
  simp only [ht, taken]

end

theorem abortLane_free (free : s.sched.lanes.get k = none) (cause : AbortCause) : abortLane cause k s = s := by
  rw [abortLane, free]

theorem abortLane_taken (taken : s.sched.lanes.get k = some a) (cause : AbortCause) :
    abortLane cause k s =
      { s with
        sched :=
          { s.sched with
            lanes := s.sched.lanes.set k none
            marks := markTouched (cellColumns s.image) a.job.region s.sched.marks }
        events := abortEvents cause a.job.ticket s.events } := by
  rw [abortLane, taken]

/-- ABORTED with cause FAULT or RESET is the abort procedure, whatever the lane holds (R110). -/
theorem execAborted_forced (hr : s.inRun = true) {cause : AbortCause} (forced : cause ≠ .host) :
    exec (.aborted k cause) s = .next (endStep (abortLane cause k s)) := by
  refine congrArg Host.Outcome.next ((runStep_inRun hr _).trans (congrArg endStep ?_))
  cases cause with
  | host => exact absurd rfl forced
  | fault | reset => rfl

theorem execAborted_free (hr : s.inRun = true) (ht : s.wave.table = some t) (free : s.sched.lanes.get k = none)
    (cause : AbortCause) : exec (.aborted k cause) s = .next (endStep s) := by
  cases cause with
  | host => exact execAborted_host_free hr ht free
  | fault | reset => rw [execAborted_forced hr (by decide), abortLane_free free]

end

/-- Settles O38. -/
theorem laneEventsAdvanceCompleteAndAbort : Obligations.LaneEventsAdvanceCompleteAndAbort := by
  intro s k t hr ht memories jobs writer
  refine ⟨fun free cause => ⟨laneEvent_free hr ht free _, laneEvent_free hr ht free _, execAborted_free hr ht free cause⟩,
    fun a taken => ?_⟩
  have region := jobs.active a (mem_active.2 ⟨k, taken⟩)
  refine ⟨fun idle => ?_, fun last more => ?_, fun unfinished => ?_, fun finished => ?_, fun spared => ?_, ?_⟩
  · exact (laneEvent_taken hr ht taken _).trans (by rw [if_neg (mt advances_iff.1 idle)])
  · refine (laneEvent_taken hr ht taken _).trans ?_
    rw [if_pos (advances_iff.2 ⟨last, more⟩), ActiveJob.nextPhase, frameCountOf_eq]
    rfl
  · exact (laneEvent_taken hr ht taken _).trans (by rw [if_neg (mt finishes_iff.1 unfinished)])
  · refine ⟨(completeJob t k a.count s).image.shown, (completeJob t k a.count s).sched.marks, fun x y hx => ?_, ?_,
      fun n hn => completed_marks_iff hn, ?_⟩
    · exact get_paint_raster memories.shown region writer.widthRange.2 _ hx
    · rw [completeJob]
      split
      · exact clearCovered_length _ _ _
      · rfl
    · refine (laneEvent_taken hr ht taken _).trans ?_
      rw [if_pos (finishes_iff.2 finished)]
      rfl
  · rw [execAborted_host_taken hr ht taken, if_neg]
    rw [Bool.and_eq_true, Bool.not_eq_true', ← Bool.not_eq_true, finishes_iff]
    rintro ⟨pending, unfinished⟩
    rcases spared with quiet | finished
    · exact Bool.false_ne_true (quiet.symm.trans pending)
    · exact unfinished finished
  · refine ⟨_, markedBy_markTouched _ _ _, fun pending unfinished => ?_, ?_, ?_⟩
    · rw [execAborted_host_taken hr ht taken, if_pos, abortLane_taken taken]
      · rfl
      · rw [Bool.and_eq_true, Bool.not_eq_true', ← Bool.not_eq_true, finishes_iff]
        exact ⟨pending, unfinished⟩
    · rw [execAborted_forced hr (by decide), abortLane_taken taken]
      rfl
    · rw [execAborted_forced hr (by decide), abortLane_taken taken]
      rfl

end Sys2Proof.SchedProofs
end

section
/-! O47: the watchdog's commands (R163, R164) and its expiry (R165). -/

namespace Sys2Proof.SchedProofs
open Sys2Proof Sys2Proof.Machine Sys2Proof.Safety Sys2Proof.Claims Sys2Proof.Laws Sys2Proof.PortProofs

/-- The action codes are the places 0 to 2 of the list of actions (R163). -/
theorem watchdogActionOf_eq (b : Byte) :
    watchdogActionOf b = [WatchdogAction.notify, .park, .reset][b.toNat]? := by
  rw [watchdogActionOf]
  rcases b.toNat with _ | _ | _ | n <;> rfl

theorem watchdogDue_iff {s : State} : watchdogDue s = true ↔ s.time.armed = true ∧ s.time.count ≤ 1 := by
  rw [watchdogDue, Bool.and_eq_true, decide_eq_true_iff]

/-- The state the PARK action gives the scheduler (R103, R165). -/
theorem parkedState_eq (c : Sched) :
    parkedState c =
      if c.state = .parking ∨ c.state = .holding then c.state
      else if c.lanes.anyActive then .parking
      else .holding := by
  rw [parkedState]
  cases c.state <;> rfl

/-- What an expiry does before the reset the RESET action begins (R165). -/
theorem expireWatchdog_eq (s : State) : expireWatchdog s = dogExpired s := by
  rw [expireWatchdog, dogExpired]
  cases s.time.action with
  | notify | reset => rfl
  | park =>
    rw [← parkedState_eq]
    rfl

/-- The RESET action itself leaves but the record, the flag and the stopped count; the reset is begun after it (R165). -/
theorem dogExpired_reset {s : State} (h : s.time.action = .reset) :
    dogExpired s =
      { s with
        events := (s.events.record .watchdog 0#8 (BitVec.ofNat 16 s.time.action.code)).raise .watchdog
        time := { s.time with count := 0 } } := by
  rw [dogExpired]
  split
  · next notify => exact nomatch h.symm.trans notify
  · rfl
  · next park => exact nomatch h.symm.trans park

section
variable {s : State}

theorem execArmWatchdog_badValue (hr : s.inRun = true) {period : Word} {action : Byte}
    (bad : period.toNat < 8 ∨ 2 < action.toNat) :
    exec (.armWatchdog period action) s = .next (commandEnd (.armWatchdog period action) .badValue [] s) := by
  refine congrArg Host.Outcome.next (plainCommand_refuse hr nofun ?_)
  split
  · rfl
  · next long =>
    have none : watchdogActionOf action = none := by
      rw [watchdogActionOf_eq, List.getElem?_eq_none_iff]
      exact bad.resolve_left long
    rw [none]

theorem execArmWatchdog_armed (hr : s.inRun = true) {period : Word} {action : Byte} {a : WatchdogAction}
    (long : 8 ≤ period.toNat) (known : watchdogActionOf action = some a) :
    exec (.armWatchdog period action) s =
      .next
        (commandEnd (.armWatchdog period action) .ok []
          { s with
            time := { s.time with armed := true, period := period.toNat, action := a, count := period.toNat } }) := by
  refine congrArg Host.Outcome.next (plainCommand_accept hr nofun ?_)
  rw [if_neg (Nat.not_lt.2 long), known]
  rfl

theorem execFeedWatchdog_eq (hr : s.inRun = true) :
    exec .feedWatchdog s =
      .next
        (if s.time.armed then
          commandEnd .feedWatchdog .ok [] { s with time := { s.time with count := s.time.period } }
        else commandEnd .feedWatchdog .badState [] s) := by
  refine congrArg Host.Outcome.next ?_
  split
  · next armed => exact plainCommand_accept hr nofun (if_pos armed)
  · next idle => exact plainCommand_refuse hr nofun (if_neg idle)

theorem execDisarmWatchdog_eq (hr : s.inRun = true) :
    exec .disarmWatchdog s =
      .next
        (if s.executor.guardLatch = false then commandEnd .disarmWatchdog .guard [] s
        else if s.time.armed = false then commandEnd .disarmWatchdog .badState [] s
        else commandEnd .disarmWatchdog .ok [] { s with time := { s.time with armed := false, count := 0 } }) := by
  refine congrArg Host.Outcome.next ?_
  split
  · next unlatched => exact commandStep_refuse hr nofun (by rw [unlatched]; rfl)
  · next latched =>
    rw [Bool.not_eq_false] at latched
    split
    · next idle => exact commandStep_refuse hr nofun (by rw [latched, disarmGuard_time, idle]; rfl)
    · next armed =>
      rw [Bool.not_eq_false] at armed
      exact commandStep_accept hr nofun (by rw [latched, disarmGuard_time, armed]; rfl)

theorem execWatchdogExpiry_notDue (hr : s.inRun = true) (h : watchdogDue s = false) :
    exec .watchdogExpiry s = .next (endStep s) := by
  refine congrArg Host.Outcome.next ?_
  rw [runStep_inRun hr, h, watchdogResets, h, Bool.false_and, Bool.and_false]
  rfl

theorem execWatchdogExpiry_due (hr : s.inRun = true) (h : watchdogDue s = true) :
    exec .watchdogExpiry s =
      .next
        (if s.time.action = .reset then
          beginReset .watchdog [] (endStep (dogExpired s)) (endStep (dogExpired s))
        else endStep (dogExpired s)) := by
  refine congrArg Host.Outcome.next ?_
  rw [runStep_inRun hr, if_pos h, expireWatchdog_eq, watchdogResets, h, hr, Bool.true_and, Bool.true_and]
  simp only [decide_eq_true_iff]

/-- A WATCHDOG reset begun where none is in progress: its count of jobs, and what it keeps (R171, R172). -/
theorem beginReset_watchdog (idle : s.resetUnit.inProgress = none) :
    (beginReset .watchdog [] s s).resetUnit.inProgress = some ⟨.watchdog, s.sched.jobCount⟩ ∧
      (beginReset .watchdog [] s s).sched.queue = [] ∧
      (beginReset .watchdog [] s s).sched.lanes.anyActive = false ∧
      (beginReset .watchdog [] s s).image = s.image ∧ (beginReset .watchdog [] s s).tiles = s.tiles ∧
      (beginReset .watchdog [] s s).wave.ram = s.wave.ram := by
  rw [beginReset_fresh idle]
  exact ⟨rfl, rfl, rfl, rfl, rfl, rfl⟩

end

/-- Settles O47. -/
theorem watchdogCommandsAndExpiry : Obligations.WatchdogCommandsAndExpiry := by
  intro s period action hr
  refine ⟨execArmWatchdog_badValue hr,
    fun a long known => execArmWatchdog_armed hr long ((watchdogActionOf_eq action).trans known),
    execFeedWatchdog_eq hr, execDisarmWatchdog_eq hr, fun early => ?_, fun armed last other => ?_,
    fun armed last reset => ⟨_, execWatchdogExpiry_due hr (watchdogDue_iff.2 ⟨armed, last⟩), ?_⟩⟩
  · refine execWatchdogExpiry_notDue hr ?_
    rw [Bool.eq_false_iff, Ne, watchdogDue_iff]
    rintro ⟨armed, last⟩
    rcases early with off | later
    · exact Bool.false_ne_true (off.symm.trans armed)
    · exact Nat.not_lt.2 last later
  · rw [execWatchdogExpiry_due hr (watchdogDue_iff.2 ⟨armed, last⟩), if_neg other]
  · rw [if_pos reset, dogExpired_reset reset]
    exact beginReset_watchdog (stepsRun_iff.1 (inRun_iff.1 hr).1)

end Sys2Proof.SchedProofs
end

section
/-! O39: the frame boundary step (R127, R128, R130, R131), each part of Table 7-2 as the spec states it, and what its first
step does with one lane. -/

namespace Sys2Proof.SchedProofs
open Sys2Proof Sys2Proof.Machine Sys2Proof.Safety Sys2Proof.Claims Sys2Proof.Laws Sys2Proof.PortProofs
open Sys2Proof.WaveProofs (frameCountOf_eq endsPhase_iff)

section
variable {s : State}

/-! ### The parts of the step (Table 7-2) -/

theorem advanceLanes_unsealed (ht : s.wave.table = none) : advanceLanes s = s := by rw [advanceLanes, ht]

theorem advanceLanes_sealed {t : Snapshot} (ht : s.wave.table = some t) :
    advanceLanes s = advanceLane t 3 (advanceLane t 2 (advanceLane t 1 (advanceLane t 0 s))) := by
  rw [advanceLanes, ht]
  rfl

/-- Step 2: only with no job ACTIVE does the scheduler settle (R103). -/
theorem settleScheduler_eq (s : State) :
    settleScheduler s =
      setSched
        (if s.sched.lanes.anyActive then s.sched.state
        else if s.sched.state = .quiescing then .halted
        else if s.sched.state = .parking then .holding
        else s.sched.state) s := by
  rw [settleScheduler, State.quiesced, State.parked]
  cases s.sched.lanes.anyActive with
  | true => simp only [Bool.not_true, Bool.and_false, Bool.false_eq_true, if_false, if_true, setSched_self rfl]
  | false =>
    simp only [Bool.not_false, Bool.and_true, decide_eq_true_iff, Bool.false_eq_true, if_false]
    split
    · rfl
    · split
      · rfl
      · exact (setSched_self rfl).symm

/-- Step 3: admission's four conditions (R104). -/
theorem admitJobs_eq (s : State) :
    admitJobs s =
      if s.mayAdmit = true ∧ s.supply.rail = .ready then s.sched.eligible.foldl (fun u jk => activate jk.1 jk.2 u) s
      else s := by
  simp only [admitJobs, admissionOpen, Bool.and_eq_true, decide_eq_true_iff]

theorem anyJob_eq (c : Sched) : anyJob c = (decide (c.queue ≠ []) || c.lanes.anyActive) := by
  rw [anyJob]
  cases c.queue <;> rfl

theorem execFrameBoundary_next (hr : s.inRun = true) (legal : LanesLegal s) :
    exec .frameBoundary s = .next (beginFrame (endStep (boundaryWork s))) := by
  have sealedWhenActive : s.tableMissing = false := tableMissing_eq_false fun active => (legal.driven active).1
  refine (if_pos hr).trans (if_neg ?_)
  rw [sealedWhenActive]
  exact Bool.false_ne_true

/-! ### Step 1 for one lane (R128) -/

variable {t : Snapshot} {k : Fin 4} {a : ActiveJob}

theorem advanceLane_free (free : s.sched.lanes.get k = none) : advanceLane t k s = s := by rw [advanceLane, free]

theorem advanceLane_finished (taken : s.sched.lanes.get k = some a) (finished : finishes s t a) :
    advanceLane t k s = completeJob t k a.count s := by
  rw [advanceLane, taken]
  exact if_pos (finishes_iff.2 finished)

theorem advanceLane_unfinished (taken : s.sched.lanes.get k = some a) (unfinished : ¬ finishes s t a) :
    advanceLane t k s =
      if a.abortPending then abortLane .host k (setLane k (progressed s.wave.ram t a) s)
      else setLane k (progressed s.wave.ram t a) s := by
  rw [advanceLane, taken]
  exact if_neg (mt finishes_iff.1 unfinished)

/-- Items 1 to 3 of R128 on the job's record (R129). -/
theorem progressed_eq (ram : List Host.Cell) (t : Snapshot) (a : ActiveJob) :
    progressed ram t a =
      if a.remaining ≤ 1 then
        { a with
          phase := a.phase + 1
          remaining := framesOf ram t a.effMode a.band (a.phase + 1)
          total := a.total + 1 }
      else { a with remaining := a.remaining - 1, total := a.total + 1 } := by
  simp only [progressed, endsPhase_iff, ActiveJob.nextPhase, frameCountOf_eq]
  rfl

end

/-- Settles O39: the boundary's work part by part, then its first step on one lane. -/
theorem frameBoundaryWorksInOrder : Obligations.FrameBoundaryWorksInOrder := by
  refine ⟨fun s hr legal => ?_,
    fun u t k => ⟨advanceLane_free, fun a taken => ⟨advanceLane_finished taken, fun unfinished => ?_⟩⟩⟩
  · refine ⟨advanceLanes (countFrame s), _, _, _, _, advanceLanes_unsealed (s := countFrame s),
      fun t => advanceLanes_sealed (s := countFrame s), rfl, rfl, rfl, rfl, ?_⟩
    rw [execFrameBoundary_next hr legal, boundaryWork, settleScheduler_eq, admitJobs_eq]
    simp only [markWork, anyJob_eq]
    rfl
  · rw [advanceLane_unfinished taken unfinished, progressed_eq]
    rfl

end Sys2Proof.SchedProofs
end

section
/-! O41: a sample (R135 to R138). -/

namespace Sys2Proof.SchedProofs
open Sys2Proof Sys2Proof.Machine Sys2Proof.Safety Sys2Proof.Claims Sys2Proof.Laws Sys2Proof.PortProofs
open Sys2Proof.WaveProofs (reviseBand_eq_rebanded)

/-- What a sample obtains, by the source it reads: the override, the internal or the external sensor (R136). -/
theorem sampled_eq_obtained (s : State) (x : SensorInput) : sampled s.params x = obtained s x := by
  rw [sampled, obtained]
  split
  · rfl
  · split
    · rfl
    · cases x.external <;> rfl

theorem takeSample_eq_afterSample (x : SensorInput) (s : State) : takeSample x s = afterSample x s := by
  rw [takeSample, afterSample, sampled_eq_obtained, reviseBand_eq_rebanded]

section
variable {s : State} (hr : s.inRun = true) (x : SensorInput)
include hr

theorem execSampleTemperature_eq : exec (.sampleTemperature x) s =
    .next (commandEnd (.sampleTemperature x) .ok [] (afterSample x s)) := by
  rw [← takeSample_eq_afterSample]
  exact congrArg Host.Outcome.next (plainCommand_accept hr nofun rfl)

theorem execPeriodicSample_eq : exec (.periodicSample x) s =
    .next (endStep (if s.temp.sampleCount = 0 then afterSample x s else s)) := by
  rw [← takeSample_eq_afterSample]
  exact congrArg Host.Outcome.next (runStep_inRun hr _)

end

/-- Settles O41. -/
theorem samplesRenewTemperatureAndBand : Obligations.SamplesRenewTemperatureAndBand := fun _ x hr =>
  ⟨execSampleTemperature_eq hr x, execPeriodicSample_eq hr x⟩

end Sys2Proof.SchedProofs
end

section
/-! Entry to FAULT (R144): the abort procedure for every ACTIVE job at once (R110), and with it the whole state that a fault
leaves. -/

namespace Sys2Proof.SchedProofs
open Sys2Proof Sys2Proof.Machine Sys2Proof.Safety Sys2Proof.Claims Sys2Proof.Laws Sys2Proof.PortProofs

/-- Aborting the jobs of some lanes, each lane named once: the lanes are free, and the marks and the journal are those of
the jobs the lanes held before, in the order of the lanes. -/
theorem foldl_abortLane_eq (cause : AbortCause) {ks : List (Fin 4)} (once : ks.Nodup) (s : State) :
    ks.foldl (fun u k => abortLane cause k u) s =
      { s with
        sched :=
          { s.sched with
            lanes := ks.foldl (fun l k => l.set k none) s.sched.lanes
            marks :=
              (ks.filterMap s.sched.lanes.get).foldl
                (fun m a => markTouched (cellColumns s.image) a.job.region m) s.sched.marks }
        events :=
          (ks.filterMap s.sched.lanes.get).foldl (fun e a => abortEvents cause a.job.ticket e) s.events } := by
  induction ks generalizing s with
  | nil => rfl
  | cons k rest ih =>
    obtain ⟨fresh, restOnce⟩ := List.nodup_cons.1 once
    have others : rest.filterMap (s.sched.lanes.set k none).get = rest.filterMap s.sched.lanes.get :=
      List.filterMap_congr fun j hj => lanes_get_set_other _ _ (ne_of_mem_of_not_mem hj fresh)
    rw [List.foldl_cons, List.foldl_cons, ih restOnce]
    cases held : s.sched.lanes.get k with
    | none =>
      have unchanged : s.sched.lanes.set k none = s.sched.lanes := by rw [← held, lanes_set_get]
      rw [abortLane_free held, List.filterMap_cons_none held, unchanged]
    | some a =>
      rw [abortLane_taken held, List.filterMap_cons_some held, List.foldl_cons, List.foldl_cons, ← others]

theorem abortAll_fault_eq (s : State) :
    abortAll .fault s =
      { s with
        sched :=
          { s.sched with
            lanes := ⟨none, none, none, none⟩
            marks :=
              s.sched.lanes.active.foldl (fun m a => markTouched (s.image.width / 16) a.job.region m) s.sched.marks }
        events :=
          s.sched.lanes.active.foldl (fun e a => (e.record .aborted a.job.ticket 0x0002#16).raise .jobFail) s.events } :=
  foldl_abortLane_eq .fault (by decide : laneOrder.Nodup) s

theorem enterFault_eq_faulted (kind : FaultKind) (s : State) :
    enterFault kind s = faulted kind (wordOf kind.code) s := by
  rw [enterFault, abortAll_fault_eq]
  rfl

end Sys2Proof.SchedProofs
end

section
/-! O42: Rails On (R146), Rails Off (R147) and the four supply reports (R140, R143, R144, R145), rail state by rail state. -/

namespace Sys2Proof.SchedProofs
open Sys2Proof Sys2Proof.Machine Sys2Proof.Safety Sys2Proof.Claims Sys2Proof.Laws Sys2Proof.PortProofs

theorem otherStep_outsideReset {s : State} (idle : s.resetUnit.inProgress = none) (work : State → State) :
    otherStep work s = endStep (work s) := if_pos (stepsRun_iff.2 idle)

section
variable {s : State} (hr : s.inRun = true)
include hr

theorem execRailsOn_off (rail : s.supply.rail = .off) :
    exec .railsOn s = .next (commandEnd .railsOn .ok [] (ramping s)) :=
  congrArg Host.Outcome.next
    (plainCommand_accept (u := ramping s) hr nofun (by simp only [disarmGuard_supply, rail]; rfl))

theorem execRailsOn_enabled (rail : s.supply.rail = .ramping ∨ s.supply.rail = .ready) :
    exec .railsOn s = .next (commandEnd .railsOn .ok [] s) :=
  congrArg Host.Outcome.next
    (plainCommand_accept hr nofun (by rcases rail with e | e <;> simp only [disarmGuard_supply, e]))

theorem execRailsOn_refused (rail : s.supply.rail = .draining ∨ s.supply.rail = .fault) :
    exec .railsOn s = .next (commandEnd .railsOn .badState [] s) :=
  congrArg Host.Outcome.next
    (plainCommand_refuse hr nofun (by rcases rail with e | e <;> simp only [disarmGuard_supply, e]))

theorem execRailsOff_busy (rail : s.supply.rail = .ready) (busy : s.sched.lanes.anyActive = true) :
    exec .railsOff s = .next (commandEnd .railsOff .railsBusy [] s) :=
  congrArg Host.Outcome.next
    (plainCommand_refuse hr nofun (by simp only [disarmGuard_supply, disarmGuard_sched, rail, busy, if_true]))

theorem execRailsOff_drains
    (rail : s.supply.rail = .ramping ∨ s.supply.rail = .ready ∧ s.sched.lanes.anyActive = false) :
    exec .railsOff s = .next (commandEnd .railsOff .ok [] (draining s)) := by
  refine congrArg Host.Outcome.next (plainCommand_accept (u := draining s) hr nofun ?_)
  rcases rail with ramping | ⟨ready, idle⟩
  · simp only [disarmGuard_supply, ramping]
    rfl
  · simp only [disarmGuard_supply, disarmGuard_sched, ready, idle]
    rfl

theorem execRailsOff_down (rail : s.supply.rail = .off ∨ s.supply.rail = .draining ∨ s.supply.rail = .fault) :
    exec .railsOff s = .next (commandEnd .railsOff .ok [] s) :=
  congrArg Host.Outcome.next
    (plainCommand_accept hr nofun (by rcases rail with e | e | e <;> simp only [disarmGuard_supply, e]))

end

section
variable {s : State} (idle : s.resetUnit.inProgress = none)
include idle

/-- Only RAMPING rails become READY (R140). -/
theorem execRailGood_eq :
    exec .railGood s =
      .next
        (endStep
          (if s.supply.rail = .ramping then
            { s with supply := s.supply.makeReady s.params, events := s.events.raise .railsReady }
          else s)) := by
  refine congrArg Host.Outcome.next ((otherStep_outsideReset idle _).trans (congrArg endStep ?_))
  cases s.supply.rail with
  | ramping | off | ready | draining | fault => rfl

/-- The loss of READY rails is a fault, in FAULT a second one (R144, R145). -/
theorem execRailLost_eq :
    exec .railLost s =
      .next
        (endStep
          (if s.supply.rail = .ready then faulted .undervolt 0x0002#16 s
          else if s.supply.rail = .fault then countFault s
          else s)) := by
  refine congrArg Host.Outcome.next ((otherStep_outsideReset idle _).trans (congrArg endStep ?_))
  cases s.supply.rail with
  | ready => exact enterFault_eq_faulted .undervolt s
  | fault | off | ramping | draining => rfl

/-- An overcurrent is a fault unless the rails are OFF, in FAULT a second one (R144, R145). -/
theorem execOvercurrent_eq :
    exec .overcurrent s =
      .next
        (endStep
          (if s.supply.rail = .off then s
          else if s.supply.rail = .fault then countFault s
          else faulted .overcurrent 0x0003#16 s)) := by
  refine congrArg Host.Outcome.next ((otherStep_outsideReset idle _).trans (congrArg endStep ?_))
  cases s.supply.rail with
  | ramping | ready | draining => exact enterFault_eq_faulted .overcurrent s
  | off | fault => rfl

/-- Only a drain ends (R143). -/
theorem execDrainDone_eq :
    exec .drainDone s =
      .next (endStep (if s.supply.rail = .draining then drained s.events s else s)) := by
  refine congrArg Host.Outcome.next ((otherStep_outsideReset idle _).trans (congrArg endStep ?_))
  cases s.supply.rail with
  | draining | off | ramping | ready | fault => rfl

end

/-- Settles O42. -/
theorem railCommandsAndReports : Obligations.RailCommandsAndReports := by
  refine ⟨fun s hr => ⟨?_, ?_⟩, fun s idle =>
    ⟨execRailGood_eq idle, execRailLost_eq idle, execOvercurrent_eq idle, execDrainDone_eq idle⟩⟩
  · cases rail : s.supply.rail with
    | off => exact execRailsOn_off hr rail
    | ramping => exact execRailsOn_enabled hr (.inl rail)
    | ready => exact execRailsOn_enabled hr (.inr rail)
    | draining => exact execRailsOn_refused hr (.inl rail)
    | fault => exact execRailsOn_refused hr (.inr rail)
  · cases rail : s.supply.rail with
    | off => exact execRailsOff_down hr (.inl rail)
    | ramping => exact execRailsOff_drains hr (.inl rail)
    | ready =>
      dsimp only
      split
      · next busy => exact execRailsOff_busy hr rail busy
      · next free => exact execRailsOff_drains hr (.inr ⟨rail, eq_false_of_ne_true free⟩)
    | draining => exact execRailsOff_down hr (.inr (.inl rail))
    | fault => exact execRailsOff_down hr (.inr (.inr rail))

end Sys2Proof.SchedProofs
end

section
/-! O43: the supply events of a tick step (R141, R142, R143, R144). -/

namespace Sys2Proof.SchedProofs
open Sys2Proof Sys2Proof.Machine Sys2Proof.Safety Sys2Proof.Claims Sys2Proof.Laws Sys2Proof.PortProofs

section
variable {s : State}

/-! ### The conditions under which a tick makes them -/

theorem rampDue_iff : rampDue s = true ↔ s.supply.rail = .off ∧ s.sched.powerRequest = true := by
  rw [rampDue, Bool.and_eq_true, decide_eq_true_iff]

theorem rampExpires_iff : rampExpires s = true ↔ s.supply.rail = .ramping ∧ s.supply.rampCount ≤ 1 := by
  rw [rampExpires, Bool.and_eq_true, decide_eq_true_iff, decide_eq_true_iff]

theorem holdExpires_iff :
    holdExpires s = true ↔
      s.supply.rail = .ready ∧ s.sched.lanes.anyActive = false ∧ s.sched.powerRequest = false ∧
        s.supply.holdCount ≤ 1 := by
  simp only [holdExpires, holdIdle, Bool.and_eq_true, decide_eq_true_iff, Bool.not_eq_true', and_assoc]

theorem drainExpires_iff : drainExpires s = true ↔ s.supply.rail = .draining ∧ s.supply.drainCount ≤ 1 := by
  rw [drainExpires, Bool.and_eq_true, decide_eq_true_iff, decide_eq_true_iff]

/-! ### The events -/

variable (idle : s.resetUnit.inProgress = none)
include idle

theorem execPowerRequestRamp_eq :
    exec .powerRequestRamp s = .next (endStep (if rampDue s then ramping s else s)) :=
  congrArg Host.Outcome.next (otherStep_outsideReset idle _)

theorem execRampTimeout_eq :
    exec .rampTimeout s = .next (endStep (if rampExpires s then faulted .rampTimeout 0x0001#16 s else s)) := by
  refine congrArg Host.Outcome.next ((otherStep_outsideReset idle _).trans ?_)
  rw [enterFault_eq_faulted]
  rfl

theorem execRailHoldExpiry_eq :
    exec .railHoldExpiry s = .next (endStep (if holdExpires s then draining s else s)) :=
  congrArg Host.Outcome.next (otherStep_outsideReset idle _)

theorem execDrainSlow_eq :
    exec .drainSlow s =
      .next (endStep (if drainExpires s then drained (s.events.record .drainSlow 0#8 0x0000#16) s else s)) :=
  congrArg Host.Outcome.next (otherStep_outsideReset idle _)

end

/-- Settles O43: each event under its tick's condition. -/
theorem supplyTickEvents : Obligations.SupplyTickEvents := by
  intro s idle
  simp only [← rampDue_iff, ← rampExpires_iff, ← holdExpires_iff, ← drainExpires_iff]
  exact ⟨execPowerRequestRamp_eq idle, execRampTimeout_eq idle, execRailHoldExpiry_eq idle, execDrainSlow_eq idle⟩

end Sys2Proof.SchedProofs
end

section
/-! The event unit over one command: whatever the command, unless it reads or clears the journal or acknowledges flags,
the event unit afterwards is reached from the one before by records and raised flags alone (R148, R153, R155). -/

namespace Sys2Proof.EventProofs
open Sys2Proof Sys2Proof.Machine Sys2Proof.Safety Sys2Proof.Claims Sys2Proof.Laws Sys2Proof.PortProofs

/-- A command's own work leaves an event unit that `Q` relates to the one it finds. -/
def Adds (Q : Events → Events → Prop) (e : Events) : Verdict → Prop
  | .accept u _ => Q e u.events
  | .refuse _ _ => True

section
variable {Q : Events → Events → Prop} {s t u : State}

/-! ### The shapes of a step -/

theorem commandStep_adds (H : EventsRel Q) {own : Bool} {c : Instr} {work : Bool → State → Verdict}
    (hw : ∀ latch, Adds Q s.events (work latch (disarmGuard s))) :
    Q s.events (commandStep own c work s).events := by
  refine commandStep_elim (fun v => Q s.events v.events) (fun _ => H.refl _) (fun _ v p e => ?_)
    (fun _ _ _ _ => H.refl _)
  have := hw s.executor.guardLatch
  rwa [e] at this

theorem plainCommand_adds (H : EventsRel Q) {c : Instr} {work : State → Verdict}
    (h : (.next (plainCommand c work s) : Host.Outcome State Fault Refusal) = .next t)
    (hw : Adds Q s.events (work (disarmGuard s))) : Q s.events t.events := by
  cases h
  exact commandStep_adds (work := fun _ v => work v) H fun _ => hw

theorem guardedCommand_adds (H : EventsRel Q) {own : Bool} {c : Instr} {work : Bool → State → Verdict}
    (h : (.next (commandStep own c work s) : Host.Outcome State Fault Refusal) = .next t)
    (hw : ∀ latch, Adds Q s.events (work latch (disarmGuard s))) : Q s.events t.events := by
  cases h
  exact commandStep_adds H hw

theorem otherStep_adds (H : EventsRel Q) {work : State → State}
    (h : (.next (otherStep work s) : Host.Outcome State Fault Refusal) = .next t)
    (hw : Q s.events (work s).events) : Q s.events t.events := by
  cases h
  exact otherStep_elim (fun v => Q s.events v.events) (fun _ => H.refl _) (fun _ => hw)

theorem runStep_adds (H : EventsRel Q) {work : State → State} (hw : Q s.events (work s).events) :
    Q s.events (runStep work s).events :=
  runStep_elim (fun v => Q s.events v.events) (fun _ => H.refl _) (fun _ => hw)

theorem execRunStep_adds (H : EventsRel Q) {work : State → State}
    (h : (.next (runStep work s) : Host.Outcome State Fault Refusal) = .next t)
    (hw : Q s.events (work s).events) : Q s.events t.events := by
  cases h
  exact runStep_adds H hw

theorem laneEvent_adds (H : EventsRel Q) {k : Fin 4} {work : Snapshot → ActiveJob → State → State}
    (hw : ∀ tb a, Q s.events (work tb a s).events) (h : laneEvent k work s = .next t) : Q s.events t.events := by
  unfold laneEvent at h
  split at h <;> cases h
  refine runStep_adds H ?_
  split
  · exact hw _ _
  · exact H.refl _

theorem foldl_adds {α : Type} (H : EventsRel Q) {f : State → α → State} (hf : ∀ v a, Q v.events (f v a).events)
    (l : List α) : ∀ v : State, Q v.events (l.foldl f v).events := by
  induction l with
  | nil => exact fun v => H.refl _
  | cons a l ih => exact fun v => H.trans (hf v a) (ih _)

/-! ### What lands at the port -/

/-- A port update raises LINK_ERR or leaves the event unit alone (R11, R15). -/
theorem portUpdate_adds (H : EventsRel Q) (h : PortUpdate u t) : Q u.events t.events := by
  cases h with
  | failed r => exact H.raise _ _
  | _ => exact H.refl _

theorem receive_adds (H : EventsRel Q) (l : List Arrival) (s : State) : Q s.events (s.receive l).events :=
  receive_rel_of_port (R := fun u v => Q u.events v.events) (fun _ => H.refl _) H.trans
    (fun a v => portUpdate_adds H (portArrival_update a v)) l s

theorem commandAmid_adds (H : EventsRel Q) {arrived : List Arrival} {c : Instr} {work : State → Verdict}
    (h : (.next (commandAmid arrived c work s) : Host.Outcome State Fault Refusal) = .next t)
    (hw : ∀ v : State, Adds Q v.events (work (disarmGuard v))) : Q s.events t.events := by
  cases h
  unfold commandAmid
  split
  · exact H.trans (receive_adds H arrived s) (commandStep_adds (work := fun _ v => work v) H fun _ => hw _)
  · exact H.refl _

theorem execTransaction_adds (H : EventsRel Q) {bytes : List Byte} {edge : CsEdge}
    (h : execTransaction bytes edge s = .next t) : Q s.events t.events := by
  simp only [execTransaction, Host.Outcome.next.injEq] at h; subst h
  split
  · exact H.refl _
  · exact portUpdate_adds H (portTransaction_update _ _ s)

/-! ### The tick step and the boundary step -/

theorem completeWake_adds (H : EventsRel Q) (u : State) : Q u.events (completeWake u).events :=
  H.trans (H.record u.events _ _ _) (H.raise _ _)

theorem wakeOpening_adds (H : EventsRel Q) (u : State) : Q u.events (wakeOpening u).events := by
  unfold wakeOpening
  split
  · dsimp only
    split
    · simpa only [takeEdge_events] using completeWake_adds H (takeEdge u)
    · simpa only [takeEdge_events] using H.refl u.events
  · exact H.refl _

theorem slowDrain_adds (H : EventsRel Q) (u : State) : Q u.events (slowDrain u).events :=
  H.trans (H.record u.events _ _ _) (H.raise _ _)

theorem supplyPart_adds (H : EventsRel Q) (u : State) : Q u.events (supplyPart u).events := by
  unfold supplyPart
  split
  · split <;> exact H.refl _
  · split
    · exact H.enterFault _ u
    · exact H.refl _
  · (repeat' split) <;> exact H.refl _
  · split
    · exact slowDrain_adds H u
    · exact H.refl _
  · exact H.refl _

theorem takeSample_adds (H : EventsRel Q) (x : SensorInput) (u : State) : Q u.events (takeSample x u).events :=
  H.transitions _ _ _

theorem temperaturePart_adds (H : EventsRel Q) (x : SensorInput) (u : State) :
    Q u.events (temperaturePart x u).events := by
  unfold temperaturePart
  split
  · exact takeSample_adds H x u
  · exact H.refl _

theorem wakeTimerPart_adds (H : EventsRel Q) (u : State) : Q u.events (wakeTimerPart u).events := by
  unfold wakeTimerPart
  split
  · exact H.raise _ _
  · exact H.refl _

theorem watchdogPart_adds (H : EventsRel Q) (u : State) : Q u.events (watchdogPart u).events := by
  unfold watchdogPart
  split
  · exact H.watchdog u
  · split <;> exact H.refl _

theorem tickParts_adds (H : EventsRel Q) (x : SensorInput) (u : State) : Q u.events (tickParts x u).events := by
  have early := H.trans (wakeOpening_adds H u) (supplyPart_adds H _)
  unfold tickParts
  refine H.trans ?_ (wakeTimerPart_adds H _)
  split
  · exact H.trans early (temperaturePart_adds H x _)
  · exact early

theorem advanceLanes_adds (H : EventsRel Q) (u : State) : Q u.events (advanceLanes u).events := by
  unfold advanceLanes
  split
  · exact foldl_adds H (fun v k => H.advanceLane _ k v) _ u
  · exact H.refl _

theorem admitJobs_adds (H : EventsRel Q) (u : State) : Q u.events (admitJobs u).events := by
  have each : ∀ (v : State) (jk : Job × Fin 4), Q v.events (activate jk.1 jk.2 v).events :=
    fun v jk => H.activate jk.1 jk.2 v
  unfold admitJobs
  split
  · exact foldl_adds H each _ u
  · exact H.refl _

/-- The boundary's records and flags, in the order of Table 7-2. -/
theorem boundaryWork_adds (H : EventsRel Q) (u : State) : Q u.events (boundaryWork u).events := by
  have progress := advanceLanes_adds H (countFrame u)
  have admission := admitJobs_adds H (settleScheduler (advanceLanes (countFrame u)))
  rw [settleScheduler_events] at admission
  exact H.trans (H.trans progress admission) (H.raiseIf _ _ _)

/-! ### Steps that can begin a reset or complete one -/

/-- A state in which a reset has just begun or merged is none outside a reset. -/
theorem beginReset_underway {P : Prop} {kind : ResetKind} {extra : List Rect} {judged : State}
    (hn : (beginReset kind extra judged u).resetUnit.inProgress = none) : P :=
  absurd hn (Option.isSome_iff_ne_none.1 (beginReset_inProgress kind extra judged u))

theorem execTick_adds (H : EventsRel Q) {x : SensorInput} (h : execTick x s = .next t)
    (hn : t.resetUnit.inProgress = none) : Q s.events t.events := by
  simp only [execTick, Host.Outcome.next.injEq] at h; subst h
  have parts := tickParts_adds H x s
  split at hn
  · next steps =>
    rw [if_pos steps]
    split at hn
    · next run =>
      rw [if_pos run]
      split at hn
      · exact beginReset_underway hn
      · next noReset =>
        rw [if_neg noReset]
        exact H.trans parts (watchdogPart_adds H _)
    · next asleep => rw [if_neg asleep]; exact parts
  · next stopped => rw [if_neg stopped]; exact H.refl _

theorem execWatchdogExpiry_adds (H : EventsRel Q) (h : execWatchdogExpiry s = .next t)
    (hn : t.resetUnit.inProgress = none) : Q s.events t.events := by
  simp only [execWatchdogExpiry, Host.Outcome.next.injEq] at h; subst h
  split at hn
  · exact beginReset_underway hn
  · next noReset =>
    rw [if_neg noReset]
    refine runStep_adds H ?_
    split
    · exact H.watchdog s
    · exact H.refl _

theorem execSoftReset_adds (H : EventsRel Q) (h : execSoftReset s = .next t)
    (hn : t.resetUnit.inProgress = none) : Q s.events t.events := by
  simp only [execSoftReset, Host.Outcome.next.injEq] at h; subst h
  split at hn
  · exact beginReset_underway hn
  · next noReset =>
    rw [if_neg noReset]
    refine commandStep_adds H fun latch => ?_
    cases latch
    · trivial
    · exact H.refl _

/-- A completed reset writes its RESET record and sets RESET_DONE (R173). -/
theorem execResetDone_adds (H : EventsRel Q) {b : Bool} {a : BitVec 3} (h : execResetDone b a s = .next t) :
    Q s.events t.events := by
  simp only [execResetDone, Host.Outcome.next.injEq] at h; subst h
  split
  · split
    · exact H.trans (H.record s.events _ _ _) (H.raise _ _)
    · exact H.refl _
  · exact H.refl _

theorem execFrameBoundary_adds (H : EventsRel Q) (h : execFrameBoundary s = .next t) : Q s.events t.events := by
  unfold execFrameBoundary at h
  split at h
  · split at h <;> cases h
    simpa only [beginFrame_events, endStep_events] using boundaryWork_adds H s
  · cases h; exact H.refl _

theorem execEnterHibernate_adds (H : EventsRel Q) {m : Meanwhile} (h : execEnterHibernate m s = .next t) :
    Q s.events t.events := by
  simp only [execEnterHibernate_eq, Host.Outcome.next.injEq] at h; subst h
  split
  · have own := H.trans (receive_adds H m.arrived s)
      (commandStep_adds H (own := ownsHead (.enterHibernate m) s) (c := .enterHibernate m)
        (work := hibernateWork (mayHibernate (ownsHead (.enterHibernate m) s) s)) fun latch => by
          unfold hibernateWork
          (repeat' split) <;> simp [Adds, H.refl])
    split <;> exact own
  · exact H.refl _

end

/-! ### Every command -/

/-- The three commands that take something away from the event unit (R152, R156, R157). -/
def takesAway : Instr → Bool
  | .acknowledgeEvents _ | .readJournal _ | .clearJournal => true
  | _ => false

/-- Every other command that ends outside a reset only writes records and raises flags. -/
theorem exec_adds {Q : Events → Events → Prop} (H : EventsRel Q) {c : Instr} {s t : State} (hc : takesAway c = false)
    (h : exec c s = .next t) (hn : t.resetUnit.inProgress = none) : Q s.events t.events := by
  have same := H.refl
  cases c with
  | transaction bytes edge => exact execTransaction_adds H h
  | fetch a l c k => cases h; exact portUpdate_adds H (portFetch_update a l c k s)
  | nop => exact plainCommand_adds H h (same _)
  | guard key => exact plainCommand_adds H h (by split <;> simp [Adds, same])
  | softReset => exact execSoftReset_adds H h hn
  | setParameter n v =>
    refine guardedCommand_adds H h fun _ => ?_
    (repeat' split) <;> simp [Adds, same]
  | getParameter n => exact commandAmid_adds H h fun v => by split <;> simp [Adds, same]
  | setGeometry w l => exact plainCommand_adds H h (by (repeat' split) <;> simp [Adds, same])
  | setWindow xs ys xe ye => exact plainCommand_adds H h (by split <;> simp [Adds, same])
  | setCursor x y => exact plainCommand_adds H h (by split <;> simp [Adds, same])
  | setScan code => exact plainCommand_adds H h (by split <;> simp [Adds, same])
  | setPixelOp op key => exact plainCommand_adds H h (by split <;> simp [Adds, same])
  | writePixels data =>
    simp only [exec, execWritePixels] at h
    split at h
    · exact plainCommand_adds H h (H.raiseIf _ _ _)
    · cases h
  | readPixels plane count =>
    refine plainCommand_adds H h ?_
    (repeat' split)
    · trivial
    · trivial
    · exact H.raiseIf _ _ _
  | fillWindow level => exact plainCommand_adds H h (by split <;> simp [Adds, same])
  | readUncertainMap => exact plainCommand_adds H h (same _)
  | markUncertain xs ys xe ye => exact plainCommand_adds H h (by split <;> simp [Adds, same])
  | defineTile slot width height base =>
    refine plainCommand_adds H h ?_
    dsimp only
    (repeat' split)
    · trivial
    · trivial
    · trivial
    · exact H.raiseIf _ _ _
  | loadTileData slot offset data =>
    simp only [exec, execLoadTileData] at h
    split at h
    · exact plainCommand_adds H h (by (repeat' split) <;> simp [Adds, same])
    · cases h
  | placeTile slot x y op key => exact plainCommand_adds H h (by (repeat' split) <;> simp [Adds, same])
  | releaseTile slot => exact plainCommand_adds H h (by split <;> simp [Adds, same])
  | loadWaveformData offset data =>
    simp only [exec, execLoadWaveformData] at h
    split at h
    · exact plainCommand_adds H h (by (repeat' split) <;> simp [Adds, same])
    · cases h
  | sealWaveform =>
    refine plainCommand_adds H h ?_
    split
    · exact H.trans (H.rejected _ _) (H.transitions _ _ _)
    · trivial
  | unsealWaveform =>
    refine plainCommand_adds H h ?_
    split
    · trivial
    · exact H.transitions _ _ _
  | submitJob xs ys xe ye mode options =>
    refine plainCommand_adds H h ?_
    dsimp only
    (repeat' split)
    · trivial
    · trivial
    · trivial
    · trivial
    · exact H.superseded _ _ _
  | cancelJob ticket =>
    refine plainCommand_adds H h ?_
    (repeat' split)
    · exact H.cancelled _ _ _
    · trivial
    · trivial
  | abortJob ticket =>
    refine plainCommand_adds H h ?_
    (repeat' split)
    · exact H.cancelled _ _ _
    · exact H.cancelled _ _ _
    · exact same _
    · trivial
  | flushQueue => exact plainCommand_adds H h (H.cancelled _ _ _)
  | startScheduler => exact plainCommand_adds H h (by split <;> simp [Adds, same])
  | haltScheduler => exact plainCommand_adds H h (by split <;> simp [Adds, same])
  | clearHold => exact plainCommand_adds H h (by split <;> simp [Adds, same])
  | queryJob ticket => exact plainCommand_adds H h (by (repeat' split) <;> simp [Adds, same])
  | railsOn => exact plainCommand_adds H h (by split <;> simp [Adds, same])
  | railsOff => exact plainCommand_adds H h (by (repeat' split) <;> simp [Adds, same])
  | sampleTemperature x => exact plainCommand_adds H h (takeSample_adds H x _)
  | armWatchdog period action => exact plainCommand_adds H h (by (repeat' split) <;> simp [Adds, same])
  | feedWatchdog => exact plainCommand_adds H h (by split <;> simp [Adds, same])
  | disarmWatchdog =>
    refine guardedCommand_adds H h fun _ => ?_
    (repeat' split) <;> simp [Adds, same]
  | enterHibernate m => exact execEnterHibernate_adds H h
  | railGood =>
    refine otherStep_adds H h ?_
    split
    · exact H.raise _ _
    all_goals exact same _
  | railLost =>
    refine otherStep_adds H h ?_
    split
    · exact H.enterFault _ s
    all_goals exact same _
  | overcurrent =>
    refine otherStep_adds H h ?_
    split
    · exact H.enterFault _ s
    · exact H.enterFault _ s
    · exact H.enterFault _ s
    · exact same _
    · exact same _
  | drainDone =>
    refine otherStep_adds H h ?_
    split
    · exact H.raise _ _
    all_goals exact same _
  | tick x => exact execTick_adds H h hn
  | powerRequestRamp => exact otherStep_adds H h (by split <;> exact same _)
  | rampTimeout =>
    refine otherStep_adds H h ?_
    split
    · exact H.enterFault _ s
    · exact same _
  | railHoldExpiry => exact otherStep_adds H h (by split <;> exact same _)
  | drainSlow =>
    refine otherStep_adds H h ?_
    split
    · exact slowDrain_adds H s
    · exact same _
  | periodicSample x =>
    refine execRunStep_adds H h ?_
    split
    · exact takeSample_adds H x s
    · exact same _
  | wakeTimerExpiry =>
    refine otherStep_adds H h ?_
    split
    · exact H.raise _ _
    · exact same _
  | watchdogExpiry => exact execWatchdogExpiry_adds H h hn
  | wakeEdge => cases h; split <;> exact same _
  | oscillatorStable => cases h; exact same _
  | woke =>
    refine otherStep_adds H h ?_
    split
    · simpa only [takeEdge_events] using completeWake_adds H (takeEdge s)
    · exact same _
  | frameBoundary => exact execFrameBoundary_adds H h
  | phaseAdvance k => exact laneEvent_adds H (fun _ _ => by split <;> exact same _) h
  | completed k =>
    refine laneEvent_adds H (fun tb a => ?_) h
    split
    · exact H.complete tb k a.count s
    · exact same _
  | aborted k cause =>
    refine execRunStep_adds H h ?_
    (repeat' split)
    · exact H.abortLane _ k s
    · exact same _
    · exact same _
    · exact H.abortLane _ k s
    · exact H.abortLane _ k s
  | quiesceToHalted =>
    refine execRunStep_adds H h ?_
    split
    · exact H.raise _ _
    · exact same _
  | parkingToHolding => exact execRunStep_adds H h (by split <;> exact same _)
  | activated =>
    refine execRunStep_adds H h ?_
    (repeat' split)
    · exact H.activate _ _ s
    · exact same _
    · exact same _
  | por => cases h; exact beginReset_underway hn
  | pinReset cut => cases h; exact beginReset_underway hn
  | resetDone b a => exact execResetDone_adds H h
  | _ => cases hc

end Sys2Proof.EventProofs
end

section
/-! O45: set flags stay set (R148, R152). -/

namespace Sys2Proof.EventProofs
open Sys2Proof Sys2Proof.Machine Sys2Proof.Safety Sys2Proof.Claims Sys2Proof.Laws Sys2Proof.PortProofs

/-- Every flag set in `a` is set in `b`. -/
def KeepsFlags (a b : Events) : Prop := ∀ f, a.has f = true → b.has f = true

theorem keepsFlags_or {a b : Events} {m : Word} (h : b.flags = a.flags ||| m) : KeepsFlags a b := by
  intro f hf
  rw [Events.has] at hf
  rw [Events.has, h, BitVec.getLsbD_or, hf, Bool.true_or]

theorem keepsFlags_of_eq {a b : Events} (h : b.flags = a.flags) : KeepsFlags a b := by
  intro f hf
  rwa [Events.has, h]

theorem keepsFlags_eventsRel : EventsRel KeepsFlags where
  refl _ := keepsFlags_of_eq rfl
  trans h g f := g f ∘ h f
  raise _ _ := keepsFlags_or rfl
  record e c k d := by
    rcases record_cases e c k d with ⟨-, joined⟩ | ⟨-, lost⟩
    · rw [joined]; exact keepsFlags_of_eq rfl
    · rw [lost]; exact keepsFlags_or rfl

/-- Acknowledge Events leaves a set flag outside its mask set, whatever the port does meanwhile (R15, R152). -/
theorem acknowledgeEvents_keeps_unmasked {s t : State} {f : EventFlag} {mask : Word} {l : List Arrival}
    (h : exec (.acknowledgeEvents ⟨mask, l⟩) s = .next t) (hf : s.events.has f = true)
    (unmasked : mask.getLsbD f.bit = false) : t.events.has f = true := by
  cases hr : s.inRun with
  | false =>
    have idle : s = t := by simpa [exec, execAcknowledgeEvents, commandAmid, hr] using h
    exact idle ▸ hf
  | true =>
    rw [execAcknowledgeEvents_eq mask l hr] at h
    cases h
    have bit : f.bit < 16 := by cases f <;> decide
    have kept : (s.events.flags &&& ~~~mask).getLsbD f.bit = true := by
      rw [BitVec.getLsbD_and, BitVec.getLsbD_not, unmasked, decide_eq_true bit, Bool.not_false, Bool.and_true,
        Bool.and_true]
      exact hf
    change (((s.events.flags &&& ~~~mask) ||| s.portSets l).getLsbD f.bit) = true
    rw [BitVec.getLsbD_or, kept, Bool.true_or]

/-- Settles O45: Acknowledge Events by its mask; the two journal commands leave the flags alone; every other command only
records and raises. -/
theorem flagsStaySetUntilAcknowledged : Obligations.FlagsStaySetUntilAcknowledged := by
  intro c s t f h hn hf unmasked
  cases c with
  | acknowledgeEvents m => exact acknowledgeEvents_keeps_unmasked h hf (unmasked _ _ rfl)
  | readJournal n =>
    refine plainCommand_adds keepsFlags_eventsRel h ?_ f hf
    split
    · trivial
    · exact keepsFlags_of_eq rfl
  | clearJournal => exact plainCommand_adds keepsFlags_eventsRel h (keepsFlags_of_eq rfl) f hf
  | _ => exact exec_adds keepsFlags_eventsRel rfl h hn f hf

end Sys2Proof.EventProofs
end

section
/-! O46: the journal grows at its tail only (R153, R155). -/

namespace Sys2Proof.EventProofs
open Sys2Proof Sys2Proof.Machine Sys2Proof.Safety Sys2Proof.Claims Sys2Proof.Laws Sys2Proof.PortProofs

/-- From `a` to `b` the journal has gained numbered records at its tail, and no loss has been forgotten. -/
def JournalGrows (a b : Events) : Prop :=
  ∃ new : List JournalRecord,
    b.journal = a.journal ++ new ∧ seqsFrom a.nextSeq new ∧
      b.nextSeq = a.nextSeq + BitVec.ofNat 8 new.length ∧ a.lost ≤ b.lost

theorem seqsFrom_append_list {n : Byte} {l m : List JournalRecord} (hl : seqsFrom n l)
    (hm : seqsFrom (n + BitVec.ofNat 8 l.length) m) : seqsFrom n (l ++ m) := by
  induction l generalizing n with
  | nil => simpa using hm
  | cons r l ih =>
    refine ⟨hl.1, ih hl.2 ?_⟩
    rwa [List.length_cons, Nat.add_comm, BitVec.ofNat_add, ← BitVec.add_assoc] at hm

theorem journalGrows_of_same {a b : Events} (journal : b.journal = a.journal) (nextSeq : b.nextSeq = a.nextSeq)
    (lost : a.lost ≤ b.lost) : JournalGrows a b :=
  ⟨[], by rw [journal, List.append_nil], trivial, by simp [nextSeq], lost⟩

theorem JournalGrows.trans {a b c : Events} (h : JournalGrows a b) (g : JournalGrows b c) : JournalGrows a c := by
  obtain ⟨l, journal, seqs, counter, lost⟩ := h
  obtain ⟨m, journal', seqs', counter', lost'⟩ := g
  refine ⟨l ++ m, ?_, ?_, ?_, lost.trans lost'⟩
  · rw [journal', journal, List.append_assoc]
  · exact seqsFrom_append_list seqs (counter ▸ seqs')
  · rw [counter', counter, List.length_append, BitVec.ofNat_add, BitVec.add_assoc]

/-- A saturating count never falls. -/
theorem le_satInc (n : Nat) : n ≤ satInc n := by
  unfold satInc; split <;> omega

theorem journalGrows_record (e : Events) (c : RecordCode) (k : Byte) (d : Word) : JournalGrows e (e.record c k d) := by
  rcases record_cases e c k d with ⟨-, joined⟩ | ⟨-, discarded⟩
  · rw [joined]
    exact ⟨[⟨e.nextSeq, c, k, d⟩], rfl, ⟨rfl, trivial⟩, rfl, Nat.le_refl _⟩
  · rw [discarded]
    exact journalGrows_of_same rfl rfl (le_satInc e.lost)

theorem journalGrows_eventsRel : EventsRel JournalGrows where
  refl _ := journalGrows_of_same rfl rfl (Nat.le_refl _)
  trans := .trans
  raise _ _ := journalGrows_of_same rfl rfl (Nat.le_refl _)
  record := journalGrows_record

/-- Settles O46: Acknowledge Events touches the flags alone; every other command left only records and raises. -/
theorem journalKeepsItsRecords : Obligations.JournalKeepsItsRecords := by
  intro c s t h hn noRead noClear
  cases c with
  | acknowledgeEvents m =>
    exact commandAmid_adds journalGrows_eventsRel h fun v => journalGrows_of_same rfl rfl (Nat.le_refl _)
  | readJournal n => exact absurd rfl (noRead n)
  | clearJournal => exact absurd rfl noClear
  | _ => exact exec_adds journalGrows_eventsRel rfl h hn

end Sys2Proof.EventProofs
end

section
/-! O48: the wake timer's expiry (R161), the WAKE edge (R169), the stable oscillator (R159) and the completion of a wake
(R170). -/

namespace Sys2Proof.TimeProofs
open Sys2Proof Sys2Proof.Machine Sys2Proof.Claims Sys2Proof.Laws Sys2Proof.PortProofs
open Sys2Proof.SchedProofs (otherStep_outsideReset)

/-! ### The model's updates are the statements' -/

/-- Another cause leaves a stable oscillator stable only when a wake was in progress already (R169). -/
theorem addCause_eq (t : Timebase) (k : WakeCause) :
    t.addCause k =
      { t with causes := t.causes.add k, oscRunning := true, oscStable := t.causes.any && t.oscStable } := by
  rw [Timebase.addCause]
  cases t.causes.any <;> rfl

theorem takeEdge_eq_edgeTaken (s : State) : takeEdge s = edgeTaken s := by
  rw [takeEdge, edgeTaken, addCause_eq]
  rfl

/-- The code in the WOKE record, by the first cause present (R170). -/
theorem wordOf_first_code (c : WakeCauses) :
    wordOf c.first.code = if c.pin then 0x0001#16 else if c.timer then 0x0002#16 else 0x0003#16 := by
  rw [WakeCauses.first]
  cases c.pin with
  | true => rfl
  | false => cases c.timer <;> rfl

theorem completeWake_eq_woken (s : State) : completeWake s = woken s := by
  rw [completeWake, wordOf_first_code]
  rfl

/-- A cause added only when `b` holds. -/
theorem addCause_if_eq (t : Timebase) (k : WakeCause) (b : Bool) :
    (if b then t.addCause k else t) =
      { t with
        causes := if b then t.causes.add k else t.causes
        oscRunning := t.oscRunning || b
        oscStable := if b then t.causes.any && t.oscStable else t.oscStable } := by
  cases b with
  | true => rw [Bool.or_true]; exact addCause_eq t k
  | false => rw [Bool.or_false]; rfl

/-- An expiry is a cause of a wake in Hibernate with bit 2 of WAKE_MODE set (R161). -/
theorem expireWakeTimer_eq_timerExpired (s : State) : expireWakeTimer s = timerExpired s := by
  have wakes : (s.time.power = .hibernate ∧ s.params.wakeFromHibernate = true) ↔
      (decide (s.time.power = .hibernate) && s.params.wakeMode.getLsbD 2) = true := by
    rw [Bool.and_eq_true, decide_eq_true_iff]
    rfl
  simp only [expireWakeTimer, timerExpired, wakes, addCause_if_eq, decide_eq_true_iff]
  rfl

/-! ### The conditions -/

theorem wakeTimerDue_iff {s : State} {n : Nat} (h : s.time.wakeCount = some n) :
    wakeTimerDue s = true ↔ n ≤ 1 := by
  rw [wakeTimerDue, h, decide_eq_true_iff]

theorem wakeTimerDue_stopped {s : State} (h : s.time.wakeCount = none) : wakeTimerDue s = false := by
  rw [wakeTimerDue, h]

theorem wakeDue_eq_true {s : State} (caused : s.time.causes.any = true) (stable : s.time.oscStable = true) :
    wakeDue s = true := by
  rw [wakeDue, caused, stable]
  rfl

theorem wakeDue_eq_false {s : State} (h : s.time.causes.any = false ∨ s.time.oscStable = false) :
    wakeDue s = false :=
  Bool.and_eq_false_iff.2 h

/-! ### The events -/

section
variable {s : State} (idle : s.resetUnit.inProgress = none)
include idle

theorem execWakeTimerExpiry_eq :
    exec .wakeTimerExpiry s = .next (endStep (if wakeTimerDue s then timerExpired s else s)) := by
  rw [← expireWakeTimer_eq_timerExpired]
  exact congrArg Host.Outcome.next (otherStep_outsideReset idle _)

theorem execWakeEdge_eq :
    exec .wakeEdge s =
      .next (if s.time.power = .hibernate then { s with time := { s.time with wakeEdge := true } } else s) := by
  refine congrArg Host.Outcome.next ?_
  simp only [stepsRun_iff.2 idle, Bool.true_and, decide_eq_true_iff]

theorem execWoke_eq :
    exec .woke s =
      .next
        (endStep
          (if s.time.power = .hibernate ∧ wakeDue (edgeTaken s) = true then woken (edgeTaken s) else s)) := by
  rw [← takeEdge_eq_edgeTaken, ← completeWake_eq_woken]
  exact congrArg Host.Outcome.next (otherStep_outsideReset idle _)

end

/-- Settles O48: each event under its condition. -/
theorem wakeEvents : Obligations.WakeEvents := by
  intro s idle
  rw [execWakeTimerExpiry_eq idle, execWakeEdge_eq idle, execWoke_eq idle]
  refine ⟨fun n count last => ?_, fun n count later => ?_, fun stopped => ?_, fun run => ?_, fun asleep => ?_, rfl,
    fun asleep caused stable => ?_, fun _ waits => ?_⟩
  · rw [if_pos ((wakeTimerDue_iff count).2 last)]
  · rw [if_neg (mt (wakeTimerDue_iff count).1 (Nat.not_le.2 later))]
  · rw [wakeTimerDue_stopped stopped]
    rfl
  · have awake : s.time.power ≠ .hibernate := by rw [run]; nofun
    rw [if_neg awake, if_neg fun h => awake h.1]
    exact ⟨rfl, rfl⟩
  · rw [if_pos asleep]
  · rw [if_pos ⟨asleep, wakeDue_eq_true caused stable⟩]
  · rw [wakeDue_eq_false waits, if_neg fun h => Bool.false_ne_true h.2]

end Sys2Proof.TimeProofs
end

section
/-! O49: the tick step (R160, Table 10-1) and each of its parts (R135, R141, R142, R143, R161, R165). -/

namespace Sys2Proof.TimeProofs
open Sys2Proof Sys2Proof.Machine Sys2Proof.Claims Sys2Proof.Laws Sys2Proof.PortProofs
open Sys2Proof.SchedProofs (takeSample_eq_afterSample enterFault_eq_faulted expireWatchdog_eq watchdogDue_iff
  rampExpires_iff drainExpires_iff)

/-! ### The wake opening -/

section
variable {s : State}

/-- In Run the opening does nothing. -/
theorem wakeOpening_of_run (run : s.time.power = .run) : wakeOpening s = s := by
  rw [wakeOpening, if_neg (by rw [run]; nofun)]

/-- In Hibernate the opening takes the latched edge and completes the wake that is then due. -/
theorem wakeOpening_of_hibernate (asleep : s.time.power = .hibernate) :
    wakeOpening s = if wakeDue (edgeTaken s) then woken (edgeTaken s) else edgeTaken s := by
  simp only [wakeOpening, if_pos asleep, takeEdge_eq_edgeTaken, completeWake_eq_woken]

theorem edgeTaken_power (s : State) : (edgeTaken s).time.power = s.time.power := by
  rw [← takeEdge_eq_edgeTaken, takeEdge_power]

/-! ### The parts, one after the other -/

/-- The parts of the Run column after the wake opening, the step's end, and the watchdog's RESET action (Table 10-1). -/
def runColumn (x : SensorInput) (u : State) : State :=
  let v := wakeTimerPart (temperaturePart x (supplyPart u))
  let w := endStep (watchdogPart v)
  if v.time.armed = true ∧ v.time.count ≤ 1 ∧ v.time.action = .reset then beginReset .watchdog [] w w else w

theorem watchdogResets_iff :
    watchdogResets s = true ↔ s.time.armed = true ∧ s.time.count ≤ 1 ∧ s.time.action = .reset := by
  rw [watchdogResets, Bool.and_eq_true, watchdogDue_iff, decide_eq_true_iff, and_assoc]

theorem execTick_resetting (resetting : s.resetUnit.inProgress ≠ none) (x : SensorInput) :
    exec (.tick x) s = .next s := by
  refine congrArg Host.Outcome.next ?_
  rw [stepsRun_eq_false_iff.2 resetting]
  rfl

/-- The opening leaves the part in Run: the Run column follows. -/
theorem execTick_awake (idle : s.resetUnit.inProgress = none) (x : SensorInput)
    (awake : (wakeOpening s).time.power = .run) : exec (.tick x) s = .next (runColumn x (wakeOpening s)) := by
  have supplied : (supplyPart (wakeOpening s)).time.power = .run := by rw [supplyPart_time, awake]
  have parts : tickParts x s = wakeTimerPart (temperaturePart x (supplyPart (wakeOpening s))) := by
    rw [tickParts, if_pos supplied]
  have run : (tickParts x s).time.power = .run := by
    rw [parts, wakeTimerPart_power, temperaturePart_time, supplied]
  refine congrArg Host.Outcome.next ?_
  rw [if_pos (stepsRun_iff.2 idle), if_pos run]
  simp only [watchdogResets_iff, parts, runColumn]

/-- The opening leaves the part in Hibernate: the supply part and the wake timer part follow. -/
theorem execTick_dormant (idle : s.resetUnit.inProgress = none) (x : SensorInput)
    (asleep : (wakeOpening s).time.power = .hibernate) :
    exec (.tick x) s = .next (endStep (wakeTimerPart (supplyPart (wakeOpening s)))) := by
  have supplied : ¬ (supplyPart (wakeOpening s)).time.power = .run := by rw [supplyPart_time, asleep]; nofun
  have parts : tickParts x s = wakeTimerPart (supplyPart (wakeOpening s)) := by rw [tickParts, if_neg supplied]
  have dormant : ¬ (tickParts x s).time.power = .run := by rw [parts, wakeTimerPart_power]; exact supplied
  refine congrArg Host.Outcome.next ?_
  rw [if_pos (stepsRun_iff.2 idle), if_neg dormant, parts]

theorem execTick_waits (idle : s.resetUnit.inProgress = none) (x : SensorInput) (asleep : s.time.power = .hibernate)
    (waits : wakeDue (edgeTaken s) = false) :
    exec (.tick x) s = .next (endStep (wakeTimerPart (supplyPart (edgeTaken s)))) := by
  have opened : wakeOpening s = edgeTaken s := by rw [wakeOpening_of_hibernate asleep, waits]; rfl
  rw [execTick_dormant idle x (by rw [opened, edgeTaken_power, asleep]), opened]

theorem execTick_wakes (idle : s.resetUnit.inProgress = none) (x : SensorInput) (asleep : s.time.power = .hibernate)
    (due : wakeDue (edgeTaken s) = true) : exec (.tick x) s = .next (runColumn x (woken (edgeTaken s))) := by
  have opened : wakeOpening s = woken (edgeTaken s) := by rw [wakeOpening_of_hibernate asleep, if_pos due]
  rw [execTick_awake idle x (by rw [opened]; rfl), opened]

/-! ### What each part does -/

theorem temperaturePart_due (x : SensorInput) (due : s.temp.sampleCount = 0) :
    temperaturePart x s = afterSample x s := by
  rw [temperaturePart, if_pos due, takeSample_eq_afterSample]

theorem temperaturePart_counts (x : SensorInput) (running : s.temp.sampleCount ≠ 0) :
    temperaturePart x s = { s with temp := { s.temp with sampleCount := s.temp.sampleCount - 1 } } := by
  rw [temperaturePart, if_neg running]

theorem supplyPart_off (rail : s.supply.rail = .off) :
    supplyPart s = if s.sched.powerRequest then ramping s else s := by
  rw [supplyPart, rail]
  rfl

theorem supplyPart_ramping (rail : s.supply.rail = .ramping) :
    supplyPart s =
      if s.supply.rampCount ≤ 1 then faulted .rampTimeout 0x0001#16 s
      else { s with supply := { s.supply with rampCount := s.supply.rampCount - 1 } } := by
  simp only [supplyPart, rail, rampExpires_iff, true_and, enterFault_eq_faulted]
  rfl

theorem holdIdle_iff (rail : s.supply.rail = .ready) :
    holdIdle s = true ↔ ¬ (s.sched.lanes.anyActive = true ∨ s.sched.powerRequest = true) := by
  simp [holdIdle, rail]

/-- READY rails count down only on a tick that finds no lane in use and no power request (R142). -/
theorem supplyPart_ready (rail : s.supply.rail = .ready) :
    supplyPart s =
      if s.sched.lanes.anyActive = true ∨ s.sched.powerRequest = true then s
      else if s.supply.holdCount ≤ 1 then draining s
      else { s with supply := { s.supply with holdCount := s.supply.holdCount - 1 } } := by
  by_cases used : s.sched.lanes.anyActive = true ∨ s.sched.powerRequest = true
  · have busy : holdIdle s = false := eq_false_of_ne_true (mt (holdIdle_iff rail).1 (not_not_intro used))
    rw [if_pos used, supplyPart, rail, holdExpires, busy]
    rfl
  · rw [if_neg used]
    simp only [supplyPart, rail, holdExpires, (holdIdle_iff rail).2 used, Bool.true_and, decide_eq_true_iff, if_true]
    rfl

theorem supplyPart_draining (rail : s.supply.rail = .draining) :
    supplyPart s =
      if s.supply.drainCount ≤ 1 then drained (s.events.record .drainSlow 0#8 0x0000#16) s
      else { s with supply := { s.supply with drainCount := s.supply.drainCount - 1 } } := by
  simp only [supplyPart, rail, drainExpires_iff, true_and]
  rfl

theorem supplyPart_fault (rail : s.supply.rail = .fault) : supplyPart s = s := by
  rw [supplyPart, rail]

theorem wakeTimerPart_stopped (stopped : s.time.wakeCount = none) : wakeTimerPart s = s := by
  rw [wakeTimerPart, wakeTimerDue_stopped stopped, stopped, Option.map_none, ← stopped]
  rfl

theorem wakeTimerPart_running {n : Nat} (count : s.time.wakeCount = some n) :
    wakeTimerPart s =
      if n ≤ 1 then timerExpired s else { s with time := { s.time with wakeCount := some (n - 1) } } := by
  simp only [wakeTimerPart, wakeTimerDue_iff count, expireWakeTimer_eq_timerExpired, count, Option.map_some]

theorem watchdogPart_disarmed (disarmed : s.time.armed = false) : watchdogPart s = s := by
  rw [watchdogPart, watchdogDue, disarmed]
  rfl

theorem watchdogPart_armed (armed : s.time.armed = true) :
    watchdogPart s =
      if s.time.count ≤ 1 then dogExpired s else { s with time := { s.time with count := s.time.count - 1 } } := by
  simp only [watchdogPart, watchdogDue_iff, armed, true_and, if_true, expireWatchdog_eq]

end

/-- Settles O49: the step by the power state after its wake opening, and each part by what it finds. -/
theorem tickStepWorksInOrder : Obligations.TickStepWorksInOrder := by
  refine ⟨fun s x => ⟨fun resetting => execTick_resetting resetting x, fun idle run => ?_, fun idle asleep =>
      ⟨fun waits => execTick_waits idle x asleep (wakeDue_eq_false waits),
        fun caused stable => execTick_wakes idle x asleep (wakeDue_eq_true caused stable)⟩⟩,
    fun s x => ⟨temperaturePart_due x, temperaturePart_counts x, supplyPart_off, supplyPart_ramping, supplyPart_ready,
      supplyPart_draining, supplyPart_fault, wakeTimerPart_stopped, fun _ => wakeTimerPart_running,
      watchdogPart_disarmed, watchdogPart_armed⟩⟩
  have opened := wakeOpening_of_run run
  exact (execTick_awake idle x (by rw [opened, run])).trans (by rw [opened]; rfl)

end Sys2Proof.TimeProofs
end

section
/-! O52: a reset from its beginning to RESET_DONE (R173), and the whole state that it leaves (R174, R175, Table 11-2). -/

namespace Sys2Proof.ResetProofs
open Sys2Proof Sys2Proof.Machine Sys2Proof.Claims Sys2Proof.Laws Sys2Proof.PortProofs
open Sys2Proof.SchedProofs (watchdogDue_iff execWatchdogExpiry_due dogExpired_reset)

/-! ### How a reset goes on and completes (R159, R173) -/

/-- Reset `r` is in progress with its initialisation made: no record and no flag stands, and the main oscillator is not
noted stable anew. -/
structure Awaits (r : Resetting) (t : State) : Prop where
  underway : t.resetUnit.inProgress = some r
  events : t.events = { flags := 0#16, journal := [], nextSeq := 0#8, lost := 0 }
  time : t.time = { State.reset.time with oscStable := false }

/-- The reset once the main oscillator is noted stable: all its time values are those after a reset. -/
def noted (t : State) : State := { t with time := State.reset.time }

/-- Reset `r` completed: the straps sampled, the RESET record alone in the journal, RESET_DONE the one flag set, the idle
frame begun at the rate in force. -/
def completed (straps : BitVec 3) (r : Resetting) (t : State) : State :=
  { t with
    link := { t.link with unitAddr := straps }
    events := { flags := 0x0001#16, journal := [⟨0#8, .reset, 0#8, resetDetail r⟩], nextSeq := 1#8, lost := 0 }
    time := State.reset.time
    seq := { t.seq with frame := .idle, rateInForce := t.params.frameRate }
    resetUnit := { cause := r.kind, inProgress := none, resetPin := true } }

/-- The RESET record and RESET_DONE in an empty journal (R153, R173). -/
theorem resetRecorded (detail : Word) :
    (Events.record ⟨0#16, [], 0#8, 0⟩ .reset 0#8 detail).raise .resetDone =
      ⟨0x0001#16, [⟨0#8, .reset, 0#8, detail⟩], 1#8, 0⟩ := by
  have flag : 0#16 ||| EventFlag.resetDone.mask = 0x0001#16 := by decide
  rw [Events.record, if_pos (by decide), Events.raise, flag]
  rfl

/-- Command `c` begins a reset of `s` that, once the oscillator is stable and RESET# high, completes in `v`. -/
def ResetRuns (c : Instr) (straps : BitVec 3) (s v : State) : Prop :=
  ∃ t u, exec c s = .next t ∧ exec .oscillatorStable t = .next u ∧ exec (.resetDone true straps) u = .next v

/-- The same of a POR, whose reset with RESET# high from the first still waits for the oscillator. -/
def PorRuns (straps : BitVec 3) (s v : State) : Prop :=
  ∃ t u, exec .por s = .next t ∧
    exec (.resetDone true straps) t = .next { t with resetUnit := { t.resetUnit with resetPin := true } } ∧
    exec .oscillatorStable t = .next u ∧ exec (.resetDone true straps) u = .next v

section
variable {s t : State} {r : Resetting} (straps : BitVec 3)

theorem execOscillatorStable_awaits (h : Awaits r t) : exec .oscillatorStable t = .next (noted t) := by
  simp only [exec, execOscillatorStable, h.time, noted]
  rfl

/-- With RESET# high the reset still goes on while the oscillator is not stable (R173). -/
theorem execResetDone_unstable (h : Awaits r t) :
    exec (.resetDone true straps) t = .next { t with resetUnit := { t.resetUnit with resetPin := true } } := by
  simp only [exec, execResetDone, h.underway, h.time, Bool.and_false, Bool.false_eq_true, if_false]

/-- With the oscillator stable the reset still goes on while RESET# is low (R173). -/
theorem execResetDone_low (h : Awaits r t) (low : t.resetUnit.resetPin = false) :
    exec (.resetDone false straps) (noted t) = .next (noted t) := by
  have underway : (noted t).resetUnit.inProgress = some r := h.underway
  simp only [exec, execResetDone, underway, Bool.false_and, Bool.false_eq_true, if_false]
  rw [← underway, ← low]
  rfl

theorem execResetDone_completes (h : Awaits r t) :
    exec (.resetDone true straps) (noted t) = .next (completed straps r t) := by
  have underway : (noted t).resetUnit.inProgress = some r := h.underway
  have recorded := resetRecorded (resetDetail r)
  rw [← h.events] at recorded
  rw [completed, ← recorded]
  simp only [exec, execResetDone, underway]
  rfl

/-! ### What each beginning leaves to be completed -/

/-- The initialisation of either kind, with its reset noted, is a reset that awaits the oscillator. -/
theorem initFor_awaits (kind : ResetKind) (regions : List Rect) (q : Sequencer) {u : ResetUnit}
    (hu : u.inProgress = some r) : Awaits r { initFor kind regions s with seq := q, resetUnit := u } := by
  unfold initFor
  split
  · exact ⟨hu, rfl, rfl⟩
  · exact ⟨hu, rfl, rfl⟩

theorem beginReset_awaits (idle : s.resetUnit.inProgress = none) (kind : ResetKind) (extra : List Rect)
    (judged : State) : Awaits ⟨kind, judged.sched.jobCount⟩ (beginReset kind extra judged s) := by
  rw [beginReset_fresh idle]
  exact initFor_awaits kind _ _ rfl

/-- A POR completes with every block at its reset value, the planes, tiles and RAM among them (R175, Table 11-2). -/
theorem completed_initFull (jobs drives : Nat) (u : ResetUnit) :
    completed straps ⟨.por, jobs⟩
        { initFull s with seq := { s.seq.reset with endOfDrives := drives }, resetUnit := u } =
      afterFullReset straps jobs drives s := rfl

theorem endStep_coming (steps : s.resetUnit.inProgress = none) :
    (endStep s).arbiter.coming = s.arbiter.coming.tail := by
  rw [endStep_arbiter, if_pos (stepsRun_iff.2 steps)]
  rfl

/-- The reset that a step of state `s` begins as its last act retains what it finds at the step's end, where one list of
the calls to come is taken (R27, R171, R174). -/
theorem completed_beginReset_endStep (idle : s.resetUnit.inProgress = none) {kind : ResetKind}
    (own : kind = .soft ∨ kind = .watchdog) :
    completed straps ⟨kind, s.sched.jobCount⟩ (beginReset kind [] (endStep s) (endStep s)) =
      afterRetainingReset kind straps s := by
  have fresh : (endStep s).resetUnit.inProgress = none := idle
  have retains : kind ≠ .por := by rcases own with rfl | rfl <;> nofun
  rw [beginReset_fresh fresh, initFor, if_neg retains, List.append_nil, afterRetainingReset, if_pos own,
    ← endStep_coming idle]
  rfl

/-- The reset that PIN_RESET begins: RESET# is low (R171). -/
def pinBegun (cut : CutStep) (s : State) : State :=
  let t := beginReset .pin (cutActivations cut s) s (applyCut cut s)
  { t with resetUnit := { t.resetUnit with resetPin := false } }

theorem pinBegun_awaits (idle : s.resetUnit.inProgress = none) (cut : CutStep) :
    Awaits ⟨.pin, s.sched.jobCount⟩ (pinBegun cut s) := by
  obtain ⟨im, pattern, ram, e, -, -⟩ := applyCut_eq cut s
  have fresh : (applyCut cut s).resetUnit.inProgress = none := by rw [e]; exact idle
  obtain ⟨underway, events, time⟩ := beginReset_awaits fresh .pin (cutActivations cut s) s
  exact ⟨underway, events, time⟩

/-- Planes, tiles, RAM and marks stay through the completion as the cut has left them; all else is as without a cut
(R174). -/
theorem completed_pinBegun (idle : s.resetUnit.inProgress = none) (cut : CutStep) :
    completed straps ⟨.pin, s.sched.jobCount⟩ (pinBegun cut s) =
      { afterRetainingReset .pin straps s with
        image := (pinBegun cut s).image
        tiles := (pinBegun cut s).tiles
        wave := { ram := (pinBegun cut s).wave.ram, table := none }
        sched := { State.reset.sched with marks := (pinBegun cut s).sched.marks } } := by
  obtain ⟨im, pattern, ram, e, width, height⟩ := applyCut_eq cut s
  have fresh : (applyCut cut s).resetUnit.inProgress = none := by rw [e]; exact idle
  rw [pinBegun, beginReset_fresh fresh, e, afterRetainingReset, ← width, ← height]
  rfl

/-- A PIN reset that cuts no step retains the planes, the tiles and the RAM too (R174, Table 11-2). -/
theorem completed_pinBegun_nothing (idle : s.resetUnit.inProgress = none) :
    completed straps ⟨.pin, s.sched.jobCount⟩ (pinBegun .nothing s) = afterRetainingReset .pin straps s := by
  have uncut : pinBegun .nothing s =
      { initRetaining (activeRegions s) s with
        seq := (initRetaining (activeRegions s) s).seq.endDrive
        resetUnit := { cause := s.resetUnit.cause, inProgress := some ⟨.pin, s.sched.jobCount⟩, resetPin := false } } := by
    rw [pinBegun, applyCut_of_nothing (.inl rfl), beginReset_fresh idle, cutActivations, List.append_nil]
    rfl
  rw [completed_pinBegun straps idle, uncut]
  rfl

/-! ### Each beginning, run to its RESET_DONE -/

/-- Once noted stable, the oscillator lets a reset complete. -/
theorem awaits_runs {v : State} (h : Awaits r t) (result : completed straps r t = v) :
    exec .oscillatorStable t = .next (noted t) ∧ exec (.resetDone true straps) (noted t) = .next v :=
  ⟨execOscillatorStable_awaits h, result ▸ execResetDone_completes straps h⟩

/-- A POR goes on without the oscillator, and completes with it. -/
theorem fullReset_runs {jobs : Nat} (drives : Nat) {u : ResetUnit} (hu : u.inProgress = some ⟨.por, jobs⟩)
    (begins : exec .por s =
      .next { initFull s with seq := { s.seq.reset with endOfDrives := drives }, resetUnit := u }) :
    PorRuns straps s (afterFullReset straps jobs drives s) := by
  have awaits : Awaits ⟨.por, jobs⟩
      { initFull s with seq := { s.seq.reset with endOfDrives := drives }, resetUnit := u } := ⟨hu, rfl, rfl⟩
  exact ⟨_, _, begins, execResetDone_unstable straps awaits,
    awaits_runs straps awaits (completed_initFull straps jobs drives u)⟩

/-- A reset begun by a command step or an expiry in state `s`, whose own work is `v`, completes as if begun in `s` when
that work touches nothing that the reset retains. -/
theorem stepReset_runs {c : Instr} {v : State} {kind : ResetKind} (own : kind = .soft ∨ kind = .watchdog)
    (begins : exec c s = .next (beginReset kind [] (endStep v) (endStep v)))
    (idle : v.resetUnit.inProgress = none)
    (same : afterRetainingReset kind straps v = afterRetainingReset kind straps s) :
    ResetRuns c straps s (afterRetainingReset kind straps s) :=
  ⟨_, _, begins, awaits_runs straps (beginReset_awaits (s := endStep v) idle kind [] (endStep v))
    ((completed_beginReset_endStep straps idle own).trans same)⟩

theorem execPor_runs (idle : s.resetUnit.inProgress = none) :
    PorRuns straps s (afterFullReset straps s.sched.jobCount (s.seq.endOfDrives + 1) s) :=
  fullReset_runs straps (s.seq.endOfDrives + 1)
    (u := { s.resetUnit with inProgress := some ⟨.por, s.sched.jobCount⟩ }) rfl
    (congrArg Host.Outcome.next (beginReset_fresh idle .por [] s))

theorem execPor_merged_runs (merges : s.resetUnit.inProgress = some r) :
    PorRuns straps s (afterFullReset straps r.discarded s.seq.endOfDrives s) :=
  fullReset_runs straps s.seq.endOfDrives (u := { s.resetUnit with inProgress := some ⟨.por, r.discarded⟩ }) rfl
    (execPor_merges merges)

theorem execPinReset_uncut_runs (idle : s.resetUnit.inProgress = none) :
    ∃ t u, exec (.pinReset .nothing) s = .next t ∧ exec .oscillatorStable t = .next u ∧
      exec (.resetDone false straps) u = .next u ∧
      exec (.resetDone true straps) u = .next (afterRetainingReset .pin straps s) := by
  have awaits := pinBegun_awaits idle .nothing
  obtain ⟨stable, done⟩ := awaits_runs straps awaits (completed_pinBegun_nothing straps idle)
  exact ⟨_, _, rfl, stable, execResetDone_low straps awaits rfl, done⟩

theorem execSoftReset_runs (idle : s.resetUnit.inProgress = none) (run : s.time.power = .run)
    (latched : s.executor.guardLatch = true) :
    ResetRuns .softReset straps s (afterRetainingReset .soft straps s) :=
  have accepted := execSoftReset_accepted (inRun_iff.2 ⟨stepsRun_iff.2 idle, run⟩) latched
  stepReset_runs straps (.inl rfl) accepted idle rfl

/-- The expiry's own record, flag and stopped count go with the journal, the flags and the time values that the reset
clears (R165, R174). -/
theorem execWatchdogExpiry_runs (idle : s.resetUnit.inProgress = none) (run : s.time.power = .run)
    (due : watchdogDue s = true) (resets : s.time.action = .reset) :
    ResetRuns .watchdogExpiry straps s (afterRetainingReset .watchdog straps s) := by
  have expires := execWatchdogExpiry_due (inRun_iff.2 ⟨stepsRun_iff.2 idle, run⟩) due
  rw [if_pos resets, dogExpired_reset resets] at expires
  exact stepReset_runs straps (.inr rfl) expires idle rfl

end

/-- Settles O52: a POR, fresh or merged, and each retaining reset, run from its beginning to RESET_DONE. -/
theorem completedResetLeavesTable112 : Obligations.CompletedResetLeavesTable112 := by
  refine ⟨fun s straps idle => ⟨execPor_runs straps idle, execPinReset_uncut_runs straps idle, fun cut => ?_,
      execSoftReset_runs straps idle, fun run armed last resets =>
        execWatchdogExpiry_runs straps idle run (watchdogDue_iff.2 ⟨armed, last⟩) resets⟩,
    fun s r straps merges => execPor_merged_runs straps merges⟩
  exact ⟨pinBegun cut s, _, rfl, awaits_runs straps (pinBegun_awaits idle cut) (completed_pinBegun straps idle cut)⟩

end Sys2Proof.ResetProofs
end

section
/-! The queue of the block: with a command waiting, the arbiter is not asked. -/

namespace Sys2Proof.PortProofs
open Sys2Proof Sys2Proof.Machine

/-- The other half of what `step` does: `step_of_starts` and `step_of_idle` are about an empty queue. -/
theorem step_of_pending {s : State} {c : Instr} {rest : List Instr} (waits : s.pending = c :: rest) :
    step s = exec c { s with pending := rest } := by
  rw [step, waits]

/-- Settles O1. -/
theorem stepExecutesTheFrontCommand : Obligations.StepExecutesTheFrontCommand :=
  fun c rest s => step_of_pending (s := { s with pending := c :: rest }) rfl

end Sys2Proof.PortProofs
end
